-- ==== Sys2Proof/Word.lean ====
section
/-! DEFINITION. The word types of SFENC-CORE: the unit of IN, OUT and POS, the command word and the CSR
word (20_memory.md R50, 30_encoding.md R100, 10_state.md R34). No value is signed (00_scope.md R7). -/

namespace Sys2Proof

/-- A byte of IN or OUT, or a word of POS (20_memory.md R50). -/
abbrev Byte := BitVec 8

/-- A command word: OPC in bits 7:0, IMM in bits 15:8 (30_encoding.md R100). -/
abbrev CmdWord := BitVec 16

/-- A word of the CSR space (10_state.md R34). -/
abbrev CsrWord := BitVec 32

end Sys2Proof
end

