-- ==== Sys2Proof/Syntax.lean ====
section
/-! DEFINITION. The instructions of SFENC-CORE: one constructor per row of spec/opcode_table.json, which
are the 24 command words (30_encoding.md R101), the 7 piece-type codes (R80) and the 7 record forms of
the packed stream (R83 to R86). -/

namespace Sys2Proof

/-- The coded piece kinds in the order of their numbers 0 to 6 (00_scope.md R11). KING has none. -/
inductive Kind where
  | pawn | lance | knight | silver | gold | bishop | rook
  deriving DecidableEq, Repr

/-- The kinds whose records carry a promotion bit: all but GOLD (30_encoding.md R80). -/
inductive PromKind where
  | pawn | lance | knight | silver | bishop | rook
  deriving DecidableEq, Repr

/-- A promotable kind as a kind. -/
def PromKind.kind : PromKind → Kind
  | .pawn => .pawn
  | .lance => .lance
  | .knight => .knight
  | .silver => .silver
  | .bishop => .bishop
  | .rook => .rook

/-- Colours (00_scope.md R11). -/
inductive Colour where
  | black | white
  deriving DecidableEq, Repr

/-- One constructor per row of spec/opcode_table.json. The commands (`reset` to `unpack`) are what the
host writes to CMD; the stream items (`codePawn` to `recHandGold`) are what the reader meets at RPOS. -/
inductive Instr where
  /-- RESET, 44_control.md R230. -/
  | reset
  /-- CLRERR, 44_control.md R231. -/
  | clrerr
  /-- W_INIT, 40_bitstream.md R130. -/
  | wInit
  /-- W_BIT b, 40_bitstream.md R131. -/
  | wBit (b : Bool)
  /-- W_LE7 v, 40_bitstream.md R132. -/
  | wLe7 (v : BitVec 7)
  /-- W_CODE k, 41_piece_code.md R153. -/
  | wCode (k : Kind)
  /-- W_FLUSH, 40_bitstream.md R133. -/
  | wFlush
  /-- R_LOAD, 40_bitstream.md R134. -/
  | rLoad
  /-- R_EXH, 40_bitstream.md R135. -/
  | rExh
  /-- R_BIT, 40_bitstream.md R136. -/
  | rBit
  /-- R_LE7, 40_bitstream.md R137. -/
  | rLe7
  /-- R_CODE, 41_piece_code.md R154. -/
  | rCode
  /-- TURN_ENC, 42_records.md R190. -/
  | turnEnc
  /-- TURN_DEC, 42_records.md R191. -/
  | turnDec
  /-- SQ_ENC w, 42_records.md R192; w is a square word (10_state.md R31). -/
  | sqEnc (w : Byte)
  /-- SQ_DEC, 42_records.md R193. -/
  | sqDec
  /-- HREC_ENC h, 42_records.md R194; h is a hand-record word (10_state.md R32). -/
  | hrecEnc (h : Byte)
  /-- HREC_DEC, 42_records.md R195. -/
  | hrecDec
  /-- BOARD_ENC, 42_records.md R196. -/
  | boardEnc
  /-- BOARD_DEC, 42_records.md R197. -/
  | boardDec
  /-- HAND_ENC, 42_records.md R198. -/
  | handEnc
  /-- HAND_DEC, 42_records.md R199. -/
  | handDec
  /-- PACK, 43_pack_unpack.md R210. -/
  | pack
  /-- UNPACK, 43_pack_unpack.md R211. -/
  | unpack
  /-- CODE.PAWN, `0`, 30_encoding.md R80. -/
  | codePawn
  /-- CODE.LANCE, `100`, 30_encoding.md R80. -/
  | codeLance
  /-- CODE.KNIGHT, `101`, 30_encoding.md R80. -/
  | codeKnight
  /-- CODE.SILVER, `110`, 30_encoding.md R80. -/
  | codeSilver
  /-- CODE.GOLD, `1110`, 30_encoding.md R80. -/
  | codeGold
  /-- CODE.BISHOP, `11110`, 30_encoding.md R80. -/
  | codeBishop
  /-- CODE.ROOK, `11111`, 30_encoding.md R80. -/
  | codeRook
  /-- REC.TURN, the turn field, 30_encoding.md R86. -/
  | recTurn (t : Colour)
  /-- REC.KING, a king field, 30_encoding.md R85. -/
  | recKing (i : BitVec 7)
  /-- REC.SQ_EMPTY, the square record `0`, 30_encoding.md R83. -/
  | recSqEmpty
  /-- REC.SQ_PIECE, the square record of a non-GOLD piece, 30_encoding.md R83. -/
  | recSqPiece (k : PromKind) (p : Bool) (c : Colour)
  /-- REC.SQ_GOLD, the square record of a GOLD, 30_encoding.md R83. -/
  | recSqGold (c : Colour)
  /-- REC.HAND, the hand record of a non-GOLD piece, 30_encoding.md R84. The promotion bit is written 0;
  a 1 read back is kept (42_records.md R175), so it is an operand. -/
  | recHand (k : PromKind) (p : Bool) (c : Colour)
  /-- REC.HAND_GOLD, the hand record of a GOLD, 30_encoding.md R84. -/
  | recHandGold (c : Colour)
  deriving DecidableEq, Repr

end Sys2Proof
end

