-- ==== Sys2Proof/Machine/Operands.lean ====
section
/-! DEFINITION. Operand forms: kind numbers and colour bits (00_scope.md R11), the code ROM LUT
(10_state.md R29, 30_encoding.md R80), the layouts of the square, turn and hand-record words of POS
(10_state.md R31 to R33) and which of them are legal (42_records.md R176, R177). -/

namespace Sys2Proof

/-- Kind numbers, 00_scope.md R11. -/
def Kind.num : Kind → BitVec 3
  | .pawn => 0
  | .lance => 1
  | .knight => 2
  | .silver => 3
  | .gold => 4
  | .bishop => 5
  | .rook => 6

/-- The kinds in the order of their numbers, `for k in 0 .. 6`. -/
def Kind.all : List Kind := [.pawn, .lance, .knight, .silver, .gold, .bishop, .rook]

/-- The kind of a kind number; 7 is reserved (00_scope.md R11). -/
def Kind.ofNum (n : BitVec 3) : Option Kind := Kind.all.find? (fun k => k.num = n)

/-- The promotable kinds (30_encoding.md R80): none for GOLD. -/
def Kind.prom : Kind → Option PromKind
  | .pawn => some .pawn
  | .lance => some .lance
  | .knight => some .knight
  | .silver => some .silver
  | .gold => none
  | .bishop => some .bishop
  | .rook => some .rook

/-- The colour and turn bit: 0 BLACK, 1 WHITE (00_scope.md R11). -/
def Colour.bit : Colour → Bool
  | .black => false
  | .white => true

/-- The colour of a colour bit (00_scope.md R11). -/
def Colour.ofBit (b : Bool) : Colour := if b then .white else .black

namespace Machine

/-- LUT, the read-only table of pairs (LEN, CODE) indexed by kind number (10_state.md R29), with the
contents of 30_encoding.md R80. -/
def lut : List (Nat × Nat) := [(1, 0), (3, 4), (3, 5), (3, 6), (4, 14), (5, 30), (5, 31)]

/-- EncodeKind(k), 41_piece_code.md R150; LUT has no entry 7. -/
def lutEntry (k : BitVec 3) : Option (Nat × Nat) := lut[k.toNat]?

/-- The kind k with LEN[k] = n and CODE[k] = v, if there is one (41_piece_code.md R152). -/
def lutFind (n v : Nat) : Option Kind := Kind.all.find? (fun k => lutEntry k.num = some (n, v))

/-- The bits of a code in the order PutCode writes them, most significant first (41_piece_code.md R151). -/
def codeString (len code : Nat) : List Bool :=
  (List.range len).reverse.map (fun i => code.testBit i)

/-- The code string of kind k (30_encoding.md R80). -/
def codeBits (k : Kind) : List Bool :=
  match lutEntry k.num with
  | some (len, code) => codeString len code
  | none => []

/-- The bits of a 7-bit field, least significant first (40_bitstream.md R124). -/
def le7Bits (v : BitVec 7) : List Bool := (List.range 7).map (fun j => v.getLsbD j)

/-- `zext_8` of one bit. -/
def bitByte (b : Bool) : Byte := (BitVec.ofBool b).setWidth 8

/-- `0x01 | c << 2 | p << 3 | k << 4`, 42_records.md R173, with the layout of 10_state.md R31. -/
def squareWord (k : Kind) (p c : Bool) : Byte :=
  0x01#8 ||| (bitByte c <<< 2) ||| (bitByte p <<< 3) ||| (k.num.setWidth 8 <<< 4)

/-- `k | c << 3 | p << 4`, 42_records.md R175, with the layout of 10_state.md R32. -/
def handWord (k : Kind) (p c : Bool) : Byte :=
  k.num.setWidth 8 ||| (bitByte c <<< 3) ||| (bitByte p <<< 4)

/-- The BLACK king word (10_state.md R31). -/
def blackKing : Byte := 0x03#8

/-- The WHITE king word (10_state.md R31). -/
def whiteKing : Byte := 0x07#8

/-- Field KIND of a square word, bits 6:4 (10_state.md R31). -/
def squareKind (w : Byte) : BitVec 3 := w.extractLsb' 4 3

/-- Field PROM of a square word, bit 3 (10_state.md R31). -/
def squareProm (w : Byte) : Bool := w.getLsbD 3

/-- Field COLOR of a square word, bit 2 (10_state.md R31). -/
def squareColor (w : Byte) : Bool := w.getLsbD 2

/-- LegalNonKing(w), 42_records.md R176: the empty square, or OCC = 1, KING = 0, bit 7 = 0, KIND 0 to 6
and PROM = 0 for GOLD (10_state.md R31). -/
def legalNonKing (w : Byte) : Bool :=
  w = 0x00#8 ||
    (w.getLsbD 0 && !w.getLsbD 1 && !w.getLsbD 7 && squareKind w != 7#3
      && !(squareKind w == 4#3 && squareProm w))

/-- LegalSquare(w), 42_records.md R176: the 29 legal square words of 10_state.md R31. -/
def legalSquare (w : Byte) : Bool := w = blackKing || w = whiteKing || legalNonKing w

/-- Field KIND of a hand-record word, bits 2:0 (10_state.md R32). -/
def handKind (h : Byte) : BitVec 3 := h.extractLsb' 0 3

/-- Field COLOR of a hand-record word, bit 3 (10_state.md R32). -/
def handColor (h : Byte) : Bool := h.getLsbD 3

/-- LegalHand(h), 42_records.md R177: KIND 0 to 6, bits 7:5 zero, bit 4 either. -/
def legalHand (h : Byte) : Bool := handKind h != 7#3 && h.extractLsb' 5 3 == 0#3

/-- The turn words TURN_ENC and PACK accept (10_state.md R33). -/
def legalTurn (w : Byte) : Bool := w = 0x00#8 || w = 0x01#8

/-- The address of the turn word in POS (20_memory.md R53). -/
def turnAddr : Nat := 81

/-- The address of hand-record word i in POS (20_memory.md R53). -/
def handAddr (i : Nat) : Nat := 128 + i

end Machine
end Sys2Proof
end

