-- ==== Sys2Proof/WellFormed.lean ====
section
/-! DEFINITION. Which instructions exist: the operand checks of the IMM forms (30_encoding.md R102) and of
the king field (R85). Every other operand is legal by its type. -/

namespace Sys2Proof

/-- SQ_ENC takes a legal non-king square word, HREC_ENC a legal hand-record word (30_encoding.md R102),
a king field names one of the 81 squares (R85). -/
def Instr.wellFormed : Instr → Bool
  | .sqEnc w => Machine.legalNonKing w
  | .hrecEnc h => Machine.legalHand h
  | .recKing i => i.toNat ≤ 80
  | .reset | .clrerr | .wInit | .wBit _ | .wLe7 _ | .wCode _ | .wFlush | .rLoad | .rExh | .rBit
  | .rLe7 | .rCode | .turnEnc | .turnDec | .sqDec | .hrecDec | .boardEnc | .boardDec | .handEnc
  | .handDec | .pack | .unpack | .codePawn | .codeLance | .codeKnight | .codeSilver | .codeGold
  | .codeBishop | .codeRook | .recTurn _ | .recSqEmpty | .recSqPiece _ _ _ | .recSqGold _
  | .recHand _ _ _ | .recHandGold _ => true

end Sys2Proof
end

