-- ==== Sys2Proof/Decode.lean ====
section
/-! DEFINITION. The two decoders and the encoder. The command decoder reads the word written to CMD
(30_encoding.md R100 to R103, 44_control.md R232); the stream decoder reads one item of the packed stream
(R80 to R87, R90). Both are total and reject by name. -/

namespace Sys2Proof

/-- Why an encoding names no instruction. -/
inductive Reject where
  /-- Reserved OPC, or CMD bits 31:16 not all 0 (30_encoding.md R100, R103). -/
  | illegalCommand
  /-- An IMM that is not legal for the form of its OPC (30_encoding.md R102). -/
  | invalidOperand
  /-- The bits end inside the item (30_encoding.md R91). -/
  | endOfStream
  /-- A king field of 81 to 127 (30_encoding.md R85, R91). -/
  | kingField
  /-- Bits are left after the one item that was asked for. -/
  | trailingBits
  deriving DecidableEq, Repr

/-! ## Command words -/

/-- Form NONE: IMM must be 0x00 (30_encoding.md R102). -/
def formNone (imm : Byte) (i : Instr) : Except Reject Instr :=
  if imm = 0x00#8 then .ok i else .error .invalidOperand

/-- Form BIT: IMM must be 0x00 or 0x01 (30_encoding.md R102). -/
def formBit (imm : Byte) : Except Reject Instr :=
  if imm = 0x00#8 ∨ imm = 0x01#8 then .ok (.wBit (imm.getLsbD 0)) else .error .invalidOperand

/-- Form U7: IMM must be 0x00 to 0x7F (30_encoding.md R102). -/
def formU7 (imm : Byte) : Except Reject Instr :=
  if imm.getLsbD 7 = false then .ok (.wLe7 (imm.setWidth 7)) else .error .invalidOperand

/-- Form KIND: IMM must be 0x00 to 0x06 (30_encoding.md R102). -/
def formKind (imm : Byte) : Except Reject Instr :=
  match (if imm.toNat ≤ 6 then Kind.ofNum (imm.setWidth 3) else none) with
  | some k => .ok (.wCode k)
  | none => .error .invalidOperand

/-- Form SQW: IMM must be a legal non-king square word (30_encoding.md R102). -/
def formSqw (imm : Byte) : Except Reject Instr :=
  if Machine.legalNonKing imm then .ok (.sqEnc imm) else .error .invalidOperand

/-- Form HRW: IMM must be a legal hand-record word (30_encoding.md R102). -/
def formHrw (imm : Byte) : Except Reject Instr :=
  if Machine.legalHand imm then .ok (.hrecEnc imm) else .error .invalidOperand

/-- The opcode map of 30_encoding.md R101 on OPC and IMM: every OPC not listed is reserved. -/
def decodeFields (opc imm : Byte) : Except Reject Instr :=
  match opc.toNat with
  | 0x01 => formNone imm .reset
  | 0x02 => formNone imm .clrerr
  | 0x10 => formNone imm .wInit
  | 0x11 => formBit imm
  | 0x12 => formU7 imm
  | 0x13 => formKind imm
  | 0x14 => formNone imm .wFlush
  | 0x20 => formNone imm .rLoad
  | 0x21 => formNone imm .rExh
  | 0x22 => formNone imm .rBit
  | 0x23 => formNone imm .rLe7
  | 0x24 => formNone imm .rCode
  | 0x30 => formNone imm .turnEnc
  | 0x31 => formNone imm .turnDec
  | 0x32 => formSqw imm
  | 0x33 => formNone imm .sqDec
  | 0x34 => formHrw imm
  | 0x35 => formNone imm .hrecDec
  | 0x36 => formNone imm .boardEnc
  | 0x37 => formNone imm .boardDec
  | 0x38 => formNone imm .handEnc
  | 0x39 => formNone imm .handDec
  | 0x40 => formNone imm .pack
  | 0x41 => formNone imm .unpack
  | _ => .error .illegalCommand

/-- A command word: OPC = bits 7:0, IMM = bits 15:8 (30_encoding.md R100). -/
def decodeCommand (w : CmdWord) : Except Reject Instr :=
  decodeFields (w.extractLsb' 0 8) (w.extractLsb' 8 8)

/-- The 32-bit word written to CMD: bits 31:16 must be 0, then OPC, then IMM (44_control.md R232). -/
def decodeCmd (v : CsrWord) : Except Reject Instr :=
  if v.extractLsb' 16 16 ≠ 0#16 then .error .illegalCommand else decodeCommand (v.setWidth 16)

/-! ## Items of the packed stream -/

/-- What the reader expects at the cursor: the item forms of 30_encoding.md part A. Which form comes next
is fixed by the command, never by the bits (R87, R90). -/
inductive Form where
  /-- A bare piece-type code (R80). -/
  | code
  /-- The turn field (R86). -/
  | turn
  /-- A king field (R85). -/
  | king
  /-- A square record (R83). -/
  | square
  /-- A hand record (R84). -/
  | hand
  deriving DecidableEq, Repr

/-- Read bits until the pair (bits read, value) is an entry of LUT, at most 5 (30_encoding.md R82). -/
def takeCodeFrom (n v : Nat) : List Bool → Option (Kind × List Bool)
  | [] => none
  | b :: rest =>
    match Machine.lutFind (n + 1) (2 * v + b.toNat) with
    | some k => some (k, rest)
    | none => if n + 1 = 5 then none else takeCodeFrom (n + 1) (2 * v + b.toNat) rest

/-- One piece-type code off the front of a bit list (30_encoding.md R82). -/
def takeCode (bits : List Bool) : Option (Kind × List Bool) := takeCodeFrom 0 0 bits

/-- The stream item that is the bare code of a kind (30_encoding.md R80). -/
def codeItem : Kind → Instr
  | .pawn => .codePawn
  | .lance => .codeLance
  | .knight => .codeKnight
  | .silver => .codeSilver
  | .gold => .codeGold
  | .bishop => .codeBishop
  | .rook => .codeRook

/-- The number whose bit j is the j-th bit of the list: least significant first (40_bitstream.md R125). -/
def leNat : List Bool → Nat
  | [] => 0
  | b :: rest => b.toNat + 2 * leNat rest

/-- The rest of a square record after its leading 1: code, promotion bit unless GOLD, colour bit
(30_encoding.md R83). -/
def decodePiece (bits : List Bool) : Option (Instr × List Bool) :=
  match takeCode bits with
  | none => none
  | some (k, rest) =>
    match k.prom, rest with
    | none, c :: rest => some (.recSqGold (.ofBit c), rest)
    | some pk, p :: c :: rest => some (.recSqPiece pk p (.ofBit c), rest)
    | _, _ => none

/-- A hand record: code, promotion bit unless GOLD, colour bit (30_encoding.md R84). -/
def decodeHandRec (bits : List Bool) : Option (Instr × List Bool) :=
  match takeCode bits with
  | none => none
  | some (k, rest) =>
    match k.prom, rest with
    | none, c :: rest => some (.recHandGold (.ofBit c), rest)
    | some pk, p :: c :: rest => some (.recHand pk p (.ofBit c), rest)
    | _, _ => none

/-- One item of a form off the front of a bit list, with the bits after it (30_encoding.md R90). A list
too short for the item is the only failure beside a king field above 80 (R91). -/
def decodeItem (f : Form) (bits : List Bool) : Except Reject (Instr × List Bool) :=
  match f with
  | .code =>
    match takeCode bits with
    | some (k, rest) => .ok (codeItem k, rest)
    | none => .error .endOfStream
  | .turn =>
    match bits with
    | t :: rest => .ok (.recTurn (.ofBit t), rest)
    | [] => .error .endOfStream
  | .king =>
    if bits.length < 7 then .error .endOfStream
    else if leNat (bits.take 7) ≤ 80 then
      .ok (.recKing (BitVec.ofNat 7 (leNat (bits.take 7))), bits.drop 7)
    else .error .kingField
  | .square =>
    match bits with
    | [] => .error .endOfStream
    | false :: rest => .ok (.recSqEmpty, rest)
    | true :: rest =>
      match decodePiece rest with
      | some r => .ok r
      | none => .error .endOfStream
  | .hand =>
    match decodeHandRec bits with
    | some r => .ok r
    | none => .error .endOfStream

/-! ## The encoder, and decoding what it gives -/

/-- An encoded instruction: a command word, or the bits of a stream item in production order (R8). -/
inductive Encoded where
  | command (w : CmdWord)
  | stream (f : Form) (bits : List Bool)
  deriving DecidableEq, Repr

/-- `IMM << 8 | OPC` (30_encoding.md R101). -/
def commandWord (opc imm : Byte) : Encoded := .command (imm ++ opc)

/-- The bits of a record: code, then the promotion bit where the kind has one, then the colour bit. -/
def pieceBits (k : Kind) (p : Option Bool) (c : Colour) : List Bool :=
  Machine.codeBits k ++ p.toList ++ [c.bit]

/-- The encoding of every instruction: the opcode map (30_encoding.md R101) and the record forms (R80, R83
to R86). -/
def encode : Instr → Encoded
  | .reset => commandWord 0x01 0
  | .clrerr => commandWord 0x02 0
  | .wInit => commandWord 0x10 0
  | .wBit b => commandWord 0x11 (Machine.bitByte b)
  | .wLe7 v => commandWord 0x12 (v.setWidth 8)
  | .wCode k => commandWord 0x13 (k.num.setWidth 8)
  | .wFlush => commandWord 0x14 0
  | .rLoad => commandWord 0x20 0
  | .rExh => commandWord 0x21 0
  | .rBit => commandWord 0x22 0
  | .rLe7 => commandWord 0x23 0
  | .rCode => commandWord 0x24 0
  | .turnEnc => commandWord 0x30 0
  | .turnDec => commandWord 0x31 0
  | .sqEnc w => commandWord 0x32 w
  | .sqDec => commandWord 0x33 0
  | .hrecEnc h => commandWord 0x34 h
  | .hrecDec => commandWord 0x35 0
  | .boardEnc => commandWord 0x36 0
  | .boardDec => commandWord 0x37 0
  | .handEnc => commandWord 0x38 0
  | .handDec => commandWord 0x39 0
  | .pack => commandWord 0x40 0
  | .unpack => commandWord 0x41 0
  | .codePawn => .stream .code (Machine.codeBits .pawn)
  | .codeLance => .stream .code (Machine.codeBits .lance)
  | .codeKnight => .stream .code (Machine.codeBits .knight)
  | .codeSilver => .stream .code (Machine.codeBits .silver)
  | .codeGold => .stream .code (Machine.codeBits .gold)
  | .codeBishop => .stream .code (Machine.codeBits .bishop)
  | .codeRook => .stream .code (Machine.codeBits .rook)
  | .recTurn t => .stream .turn [t.bit]
  | .recKing i => .stream .king (Machine.le7Bits i)
  | .recSqEmpty => .stream .square [false]
  | .recSqPiece k p c => .stream .square (true :: pieceBits k.kind (some p) c)
  | .recSqGold c => .stream .square (true :: pieceBits .gold none c)
  | .recHand k p c => .stream .hand (pieceBits k.kind (some p) c)
  | .recHandGold c => .stream .hand (pieceBits .gold none c)

/-- Decode an encoding: a command word by the opcode map, or exactly one stream item. -/
def decode : Encoded → Except Reject Instr
  | .command w => decodeCommand w
  | .stream f bits =>
    match decodeItem f bits with
    | .ok (i, []) => .ok i
    | .ok (_, _ :: _) => .error .trailingBits
    | .error r => .error r

/-! ## The opcode table's words -/

/-- The bits of a byte with the most significant first, as spec/opcode_table.json prints a record. -/
def msbBits (w : Nat) : List Bool := (List.range 8).reverse.map (fun i => w.testBit i)

/-- A row of the stream, from its number in the opcode table. A REC.SQ_PIECE row is 8 bits with its first
stream bit most significant and 1, so a word of 128 to 255 is read as a square record; a CODE row gives
its code's value, and the value alone names the code (30_encoding.md R82). -/
def decodeTableItem (w : Nat) : Option Instr :=
  if 128 ≤ w ∧ w < 256 then
    match decodeItem .square (msbBits w) with
    | .ok (i, _) => some i
    | .error _ => none
  else (Kind.all.find? (fun k => (Machine.lutEntry k.num).map Prod.snd = some w)).map codeItem

/-- The instruction of a row of spec/opcode_table.json whose bits are w. A 16-bit row is a command word.
A word that is no command is read as a row of the stream: the codes' numbers, read as command words, all
have a reserved OPC, so no word has two readings (log entry 8). -/
def decodeTableWord (nbits w : Nat) : Option Instr :=
  match (if nbits = 16 ∧ w < 65536 then decodeCommand (BitVec.ofNat 16 w) else .error .illegalCommand) with
  | .ok i => some i
  | .error _ => decodeTableItem w

end Sys2Proof
end

