-- ==== Sys2Proof/Config.lean ====
section
/-! DEFINITION. The implementation parameters (00_scope.md R5). The spec leaves no value free beside
them (93_implementation_defined.md, U1 to U17), so there is no opaque constant here. -/

namespace Sys2Proof

/-- The three named parameters of 00_scope.md R5. A machine carries them in its state and no step
changes them, so a claim about every state is a claim for every choice of them (log entry 2). -/
structure Params where
  /-- IN_CAP: number of bytes of IN. -/
  inCap : Nat
  /-- OUT_CAP: number of bytes of OUT. -/
  outCap : Nat
  /-- HAND_CAP: number of hand-record entries of POS. -/
  handCap : Nat
  deriving DecidableEq, Repr

/-- The legal ranges of 00_scope.md R5. -/
abbrev Params.legal (p : Params) : Prop :=
  (1 ≤ p.inCap ∧ p.inCap ≤ 8191) ∧ (1 ≤ p.outCap ∧ p.outCap ≤ 8191) ∧ p.handCap ≤ 896

/-- DESIGN CHOICE (log entry 2), unsafe for a claim about `State.reset` alone: the parameters that
95_test_vectors.md assumes 'unless a vector says otherwise'. -/
def Params.vectors : Params := ⟨64, 64, 64⟩

end Sys2Proof
end

