-- ==== Sys2Proof/Machine/State.lean ====
section
/-! DEFINITION. The state of SFENC-CORE as plain data: every register of 10_state.md R20 to R28, the
memories IN, OUT and POS (20_memory.md R50 to R53), the parameters (00_scope.md R5), and the model's own
two fields for the host (log entries 1 and 3). LUT is a constant (Machine/Operands.lean). -/

namespace Sys2Proof.Machine

/-- The addressed spaces of 20_memory.md R50 (CSR accesses have their own operations). -/
inductive Space where
  /-- IN, the input bytes. -/
  | inp
  /-- OUT, the output bytes. -/
  | out
  /-- POS, the position words. -/
  | pos
  /-- LUT, the code ROM. -/
  | lut
  deriving DecidableEq, Repr

/-- The error kinds of 60_exceptions.md R240. -/
inductive ErrKind where
  /-- Code 1, reserved for a text layer: no command raises it. -/
  | malformedText
  /-- Code 2: no command raises it, the code is complete (30_encoding.md R81). -/
  | unrecognizedPieceCode
  /-- Code 3. -/
  | unexpectedEndOfStream
  /-- Code 4. -/
  | invalidKingConfiguration
  /-- Code 5. -/
  | illegalCommand
  /-- Code 6. -/
  | invalidOperand
  /-- Code 7. -/
  | capacityExceeded
  deriving DecidableEq, Repr

/-- The section codes of 00_scope.md R10. -/
inductive Sec where
  /-- 0, NONE: a primitive or control command. -/
  | prim
  /-- 1, TURN. -/
  | turn
  /-- 2, BOARD. -/
  | board
  /-- 3, HAND. -/
  | hand
  deriving DecidableEq, Repr

/-- What `raise E(sec, off)` carries (60_exceptions.md R242). -/
structure Err where
  kind : ErrKind
  sec : Sec
  off : BitVec 16
  deriving DecidableEq, Repr

/-- One access of the host, or the hardware reset: everything the outside world can do (20_memory.md R59,
R60, 70_reset_and_hazards.md R270). A write to CSR 0x0 starts a command. OUT has no host write
(20_memory.md R50). -/
inductive HostEvent where
  | csrWrite (a : BitVec 4) (v : CsrWord)
  | csrRead (a : BitVec 4)
  | inWrite (a : Nat) (v : Byte)
  | inRead (a : Nat)
  | outRead (a : Nat)
  | posWrite (a : Nat) (v : Byte)
  | posRead (a : Nat)
  | hardReset
  deriving DecidableEq, Repr

/-- The writer registers (10_state.md R21 to R23). They become unspecified together (60_exceptions.md
R244), so they stand together. -/
structure Writer where
  /-- WACC: the bits of the partial output byte. -/
  wacc : BitVec 8
  /-- WCNT: how many bits WACC holds. -/
  wcnt : BitVec 3
  /-- OUTLEN: complete bytes emitted. -/
  outlen : BitVec 13
  deriving DecidableEq, Repr

/-- The state of the machine. -/
structure State where
  /-- IN_CAP, OUT_CAP, HAND_CAP (00_scope.md R5); no step changes them. -/
  params : Params
  /-- WACC, WCNT, OUTLEN; none = unspecified after a writer CapacityExceeded (60_exceptions.md R244). -/
  writer : Option Writer
  /-- INLEN (10_state.md R24). -/
  inlen : BitVec 13
  /-- RLEN (10_state.md R25). -/
  rlen : BitVec 13
  /-- RPOS (10_state.md R25). -/
  rpos : BitVec 16
  /-- RESULT (10_state.md R26). -/
  result : CsrWord
  /-- STATUS (10_state.md R27). -/
  status : CsrWord
  /-- HANDLEN (10_state.md R28); none = unspecified after a failed decode (60_exceptions.md R244). -/
  handlen : Option (BitVec 10)
  /-- IN: the bytes that have been written, by rising address. -/
  inMem : List Host.Cell
  /-- OUT: the bytes that have been written, by rising address. -/
  outMem : List Host.Cell
  /-- POS: the words that have been written, by rising address. -/
  posMem : List Host.Cell
  /-- The model's own: the host's accesses still to come, next first (log entry 1). -/
  script : List HostEvent
  /-- The model's own: what the last host read returned (log entry 3). -/
  hostData : CsrWord
  deriving DecidableEq, Repr

/-- Why a step stops with a fault. Each is SAFE: the machine goes on where the model stops. -/
inductive Fault where
  /-- Raised by every read of a cell of IN, OUT or POS that was never written or that a failed command
  left unspecified, by a command or by the host (10_state.md R38, 60_exceptions.md R244; U1, U2). Safe. -/
  | unwritten (sp : Space) (a : Nat)
  /-- Raised by a read of WACC, WCNT or OUTLEN after a writer CapacityExceeded (60_exceptions.md R244;
  U2). Safe. -/
  | unspecifiedWriter
  /-- Raised by a read of HANDLEN after a failed decode (60_exceptions.md R244; U2). Safe. -/
  | unspecifiedHandlen
  /-- Raised by an access of the block to an address its space does not have; the block never makes one
  (20_memory.md R56) from a state that meets the invariant. Safe. -/
  | noSuchAddress (sp : Space) (a : Nat)
  /-- Raised by the arm of DecodeKind that finds no code after 5 bits, which no run reaches
  (41_piece_code.md R152; U12). Safe. -/
  | unmatchedCode
  deriving DecidableEq, Repr

/-- Why a step is refused. Each is SAFE: the model says nothing where the spec says nothing. -/
inductive Refusal where
  /-- Raised by exec's arm of an instruction without a meaning; there is none left. Safe. -/
  | notModelled (mnemonic : String)
  /-- Raised by a host access to a reserved CSR address, 0x9 to 0xF (20_memory.md R56; U9). Safe. -/
  | reservedCsr (a : BitVec 4)
  /-- Raised by a host access to a reserved POS address, or to an IN or OUT address at or past the space's
  capacity (20_memory.md R56; U9). Safe. -/
  | reservedAddress (sp : Space) (a : Nat)
  deriving DecidableEq, Repr

/-- The empty writer (10_state.md R38). -/
def Writer.reset : Writer := ⟨0#8, 0#3, 0#13⟩

/-- The machine right after a hardware reset, for any parameters: every register at its 10_state.md R38
value, every memory cell unwritten; and the model's own fields at the values of log entries 1 and 3. -/
def State.resetWith (p : Params) : State where
  params := p
  writer := some Writer.reset
  inlen := 0#13
  rlen := 0#13
  rpos := 0#16
  result := 0#32
  status := 0#32
  handlen := some 0#10
  inMem := []
  outMem := []
  posMem := []
  script := []
  hostData := 0#32

/-- The machine right after a hardware reset, with the parameters of the spec's test vectors (DESIGN
CHOICE, log entry 2). -/
def State.reset : State := State.resetWith Params.vectors

end Sys2Proof.Machine
end

