-- ==== Sys2Proof/Machine/Flags.lean ====
section
/-! DEFINITION. STATUS and the derived flags: the fields of STATUS (10_state.md R27), the error codes
(60_exceptions.md R240) and section codes (00_scope.md R10), what completion and an error write
(60_exceptions.md R243), exhaustion (10_state.md R36) and WBITS (R23). -/

namespace Sys2Proof.Machine

/-- The code of an error kind (60_exceptions.md R240). -/
def ErrKind.code : ErrKind → BitVec 4
  | .malformedText => 1
  | .unrecognizedPieceCode => 2
  | .unexpectedEndOfStream => 3
  | .invalidKingConfiguration => 4
  | .illegalCommand => 5
  | .invalidOperand => 6
  | .capacityExceeded => 7

/-- The code of a section (00_scope.md R10). -/
def Sec.code : Sec → BitVec 2
  | .prim => 0
  | .turn => 1
  | .board => 2
  | .hand => 3

/-- Field ERR of STATUS, bits 3:0 (10_state.md R27). -/
def statusErr (st : CsrWord) : BitVec 4 := st.extractLsb' 0 4

/-- Field SEC of STATUS, bits 5:4 (10_state.md R27). -/
def statusSec (st : CsrWord) : BitVec 2 := st.extractLsb' 4 2

/-- Field STICKY of STATUS, bit 6 (10_state.md R27). -/
def statusSticky (st : CsrWord) : Bool := st.getLsbD 6

/-- Field OFF of STATUS, bits 31:16 (10_state.md R27). -/
def statusOff (st : CsrWord) : BitVec 16 := st.extractLsb' 16 16

/-- A STATUS word from its fields; bits 15:7 are hardwired 0 (10_state.md R27). -/
def statusWord (err : BitVec 4) (sec : BitVec 2) (sticky : Bool) (off : BitVec 16) : CsrWord :=
  off ++ 0#9 ++ BitVec.ofBool sticky ++ sec ++ err

/-- STATUS after a command that completed: ERR, SEC and OFF 0, STICKY unchanged (60_exceptions.md R243). -/
def statusDone (st : CsrWord) : CsrWord := statusWord 0 0 (statusSticky st) 0

/-- STATUS after a command that raised E(sec, off) (60_exceptions.md R243). -/
def statusRaised (e : Err) : CsrWord := statusWord e.kind.code e.sec.code true e.off

/-- WBITS = 8*OUTLEN + WCNT (10_state.md R23). -/
def Writer.wbits (w : Writer) : Nat := 8 * w.outlen.toNat + w.wcnt.toNat

/-- Exhausted(), the flag EXH: RPOS = 8*RLEN (40_bitstream.md R122, 10_state.md R36). -/
def State.exhausted (s : State) : Bool := s.rpos.toNat = 8 * s.rlen.toNat

end Sys2Proof.Machine
end

