-- ==== Sys2Proof/Machine/Ops.lean ====
section
/-! DEFINITION. The named operations: memories in canonical form, the spaces of 20_memory.md R50, a command
in progress (`Cmd`), raising and completing (60_exceptions.md R242 to R244), and the primitives of
40_bitstream.md, 41_piece_code.md and 42_records.md, each named as the spec names it. -/

namespace Sys2Proof.Machine

/-! ## Memory -/

/-- The canonical form: strictly rising addresses. An unlisted address holds no value (10_state.md R38),
so no entry can equal what an unlisted address reads as. -/
abbrev Memory.wf (m : List Host.Cell) : Prop := m.Pairwise (fun c d => c.1 < d.1)

/-- The value at an address; none where nothing is written. -/
def Memory.read : List Host.Cell → Nat → Option Byte
  | [], _ => none
  | (b, v) :: m, a => if b = a then some v else Memory.read m a

/-- Write one cell. -/
def Memory.write : List Host.Cell → Nat → Byte → List Host.Cell
  | [], a, v => [(a, v)]
  | (b, u) :: m, a, v =>
    if a < b then (a, v) :: (b, u) :: m
    else if a = b then (a, v) :: m
    else (b, u) :: Memory.write m a v

/-- Make the cells lo to hi-1 unwritten. -/
def Memory.erase (m : List Host.Cell) (lo hi : Nat) : List Host.Cell :=
  m.filter (fun c => !(decide (lo ≤ c.1) && decide (c.1 < hi)))

/-- Which addresses a space has (20_memory.md R50, R53): POS has 0 to 81 and 128 to 128+HAND_CAP-1. -/
def State.hasAddr (s : State) : Space → Nat → Bool
  | .inp, a => a < s.params.inCap
  | .out, a => a < s.params.outCap
  | .pos, a => a ≤ 81 || (128 ≤ a && a < 128 + s.params.handCap)
  | .lut, a => a < 7

/-- The written cells of a space; LUT is no memory. -/
def State.cells (s : State) : Space → List Host.Cell
  | .inp => s.inMem
  | .out => s.outMem
  | .pos => s.posMem
  | .lut => []

/-- Replace the written cells of a space. -/
def State.setCells (s : State) (sp : Space) (m : List Host.Cell) : State :=
  match sp with
  | .inp => { s with inMem := m }
  | .out => { s with outMem := m }
  | .pos => { s with posMem := m }
  | .lut => s

/-- The value a cell holds; none where it is unwritten. -/
def State.cell (s : State) (sp : Space) (a : Nat) : Option Byte := Memory.read (s.cells sp) a

/-! ## A command in progress -/

/-- Where a running command stands: it goes on with a value, it has raised an error (60_exceptions.md
R242), or the model faults. -/
inductive Run (α : Type) where
  | done (a : α) (s : State)
  | raised (e : Err) (s : State)
  | stopped (f : Fault)

/-- Part of a command: pseudocode that returns a value of type α. -/
def Cmd (α : Type) : Type := State → Run α

/-- Return a value. -/
def Cmd.pure {α : Type} (a : α) : Cmd α := fun s => .done a s

/-- Do one part, then the next with its value. After a raise no later step runs (60_exceptions.md R242). -/
def Cmd.bind {α β : Type} (m : Cmd α) (f : α → Cmd β) : Cmd β := fun s =>
  match m s with
  | .done a t => f a t
  | .raised e t => .raised e t
  | .stopped x => .stopped x

/-- `raise E(sec, off)` (60_exceptions.md R242). -/
def Cmd.raise {α : Type} (kind : ErrKind) (sec : Sec) (off : BitVec 16) : Cmd α := fun s =>
  .raised ⟨kind, sec, off⟩ s

/-- The model faults. -/
def Cmd.stop {α : Type} (f : Fault) : Cmd α := fun _ => .stopped f

/-- Read something of the state. -/
def Cmd.get {α : Type} (f : State → α) : Cmd α := fun s => .done (f s) s

/-- Change the state. -/
def Cmd.modify (f : State → State) : Cmd Unit := fun s => .done () (f s)

/-- `for x in l: body x`, in the order of the list. -/
def Cmd.each {α : Type} (l : List α) (body : α → Cmd Unit) : Cmd Unit :=
  match l with
  | [] => .pure ()
  | x :: rest => (body x).bind fun _ => Cmd.each rest body

/-! ## Completing and failing -/

/-- The end of a command that completed: STATUS (60_exceptions.md R243). -/
def State.complete (s : State) : State := { s with status := statusDone s.status }

/-- TAKING AN ERROR: the end of a command that raised one. STATUS is written (60_exceptions.md R243); no
other register is saved, no mode changes, nothing is fetched (R246). -/
def State.takeError (e : Err) (s : State) : State := { s with status := statusRaised e }

/-- A writer CapacityExceeded leaves WACC, WCNT, OUTLEN and the contents of OUT unspecified
(60_exceptions.md R244). -/
def spoilWriter (k : ErrKind) (s : State) : State :=
  match k with
  | .capacityExceeded => { s with writer := none, outMem := [] }
  | _ => s

/-- A failed decode of the turn leaves POS[81] unspecified (60_exceptions.md R244). -/
def spoilTurn (k : ErrKind) (s : State) : State :=
  match k with
  | .unexpectedEndOfStream => { s with posMem := Memory.erase s.posMem 81 82 }
  | _ => s

/-- A failed decode of the board leaves POS[0..80] unspecified (60_exceptions.md R244). -/
def spoilBoard (k : ErrKind) (s : State) : State :=
  match k with
  | .unexpectedEndOfStream | .invalidKingConfiguration =>
    { s with posMem := Memory.erase s.posMem 0 81 }
  | _ => s

/-- A failed decode of the hand leaves HANDLEN and the hand words unspecified (60_exceptions.md R244). -/
def spoilHand (k : ErrKind) (s : State) : State :=
  match k with
  | .unexpectedEndOfStream | .capacityExceeded =>
    { s with
      handlen := none
      posMem := Memory.erase s.posMem 128 (128 + s.params.handCap) }
  | _ => s

/-- A failed UNPACK leaves every POS word and HANDLEN unspecified (43_pack_unpack.md R211, log entry 6);
its check error changes nothing (60_exceptions.md R244). -/
def spoilPosition (k : ErrKind) (s : State) : State :=
  match k with
  | .unexpectedEndOfStream | .invalidKingConfiguration | .capacityExceeded =>
    { s with
      handlen := none
      posMem := Memory.erase (Memory.erase s.posMem 0 82) 128 (128 + s.params.handCap) }
  | _ => s

/-- A command whose errors leave nothing unspecified. -/
def spoilNothing (_ : ErrKind) (s : State) : State := s

/-- Run a command to its end: STATUS by 60_exceptions.md R243, and after an error the state of R244,
`spoil` naming what that command leaves unspecified. -/
def finish (spoil : ErrKind → State → State) (c : Cmd Unit) (s : State) :
    Host.Outcome State Fault Refusal :=
  match c s with
  | .done _ t => .next t.complete
  | .raised e t => .next ((spoil e.kind t).takeError e)
  | .stopped f => .fault f

/-! ## Registers and cells as parts of commands -/

/-- `MemRead(space, addr, 1)` (00_scope.md R9). -/
def memRead (sp : Space) (a : Nat) : Cmd Byte := fun s =>
  if s.hasAddr sp a then
    match s.cell sp a with
    | some v => .done v s
    | none => .stopped (.unwritten sp a)
  else .stopped (.noSuchAddress sp a)

/-- `MemWrite(space, addr, 1, v)` (00_scope.md R9). -/
def memWrite (sp : Space) (a : Nat) (v : Byte) : Cmd Unit := fun s =>
  if s.hasAddr sp a then .done () (s.setCells sp (Memory.write (s.cells sp) a v))
  else .stopped (.noSuchAddress sp a)

/-- `RESULT <- zext_32(v)` (10_state.md R26). -/
def setResult {n : Nat} (v : BitVec n) : Cmd Unit :=
  .modify fun s => { s with result := v.setWidth 32 }

/-- Read RPOS. -/
def cursor : Cmd (BitVec 16) := .get State.rpos

/-- Read WACC, WCNT and OUTLEN; faults where they are unspecified (60_exceptions.md R244). -/
def getWriter : Cmd Writer := fun s =>
  match s.writer with
  | some w => .done w s
  | none => .stopped .unspecifiedWriter

/-- Write WACC, WCNT and OUTLEN. -/
def setWriter (w : Writer) : Cmd Unit := .modify fun s => { s with writer := some w }

/-- Read HANDLEN; faults where it is unspecified (60_exceptions.md R244). -/
def getHandlen : Cmd (BitVec 10) := fun s =>
  match s.handlen with
  | some n => .done n s
  | none => .stopped .unspecifiedHandlen

/-! ## The bit-stream writer (40_bitstream.md R120, R121, R124) -/

/-- Emit WACC as the byte OUT[OUTLEN] and start the next byte (40_bitstream.md R120, R121). -/
def emit (acc : BitVec 8) (outlen : BitVec 13) : Cmd Unit :=
  (memWrite .out outlen.toNat acc).bind fun _ => setWriter ⟨0#8, 0#3, outlen + 1⟩

/-- PutBit(b, sec), 40_bitstream.md R120. -/
def putBit (b : Bool) (sec : Sec) : Cmd Unit :=
  getWriter.bind fun w =>
  (Cmd.get fun s => s.params.outCap).bind fun cap =>
  if w.wcnt = 7#3 ∧ w.outlen.toNat = cap then .raise .capacityExceeded sec (BitVec.ofNat 16 w.wbits)
  else if w.wcnt = 7#3 then emit (w.wacc ||| (bitByte b <<< w.wcnt.toNat)) w.outlen
  else setWriter ⟨w.wacc ||| (bitByte b <<< w.wcnt.toNat), w.wcnt + 1, w.outlen⟩

/-- PutBit for each bit of a string, in order. -/
def putBits (bits : List Bool) (sec : Sec) : Cmd Unit := .each bits fun b => putBit b sec

/-- Flush(sec), 40_bitstream.md R121. -/
def flush (sec : Sec) : Cmd Unit :=
  getWriter.bind fun w =>
  (Cmd.get fun s => s.params.outCap).bind fun cap =>
  if w.wcnt = 0#3 then .pure ()
  else if w.outlen.toNat = cap then .raise .capacityExceeded sec (BitVec.ofNat 16 w.wbits)
  else emit w.wacc w.outlen

/-- PutLE7(v, sec), 40_bitstream.md R124. -/
def putLE7 (v : BitVec 7) (sec : Sec) : Cmd Unit := putBits (le7Bits v) sec

/-! ## The bit-stream reader (40_bitstream.md R122, R123, R125) -/

/-- GetBit(sec, off), 40_bitstream.md R123. -/
def getBit (sec : Sec) (off : BitVec 16) : Cmd Bool :=
  (Cmd.get State.exhausted).bind fun e =>
  if e then .raise .unexpectedEndOfStream sec off
  else
    cursor.bind fun pos =>
    (memRead .inp (pos.toNat / 8)).bind fun byte =>
    (Cmd.modify fun s => { s with rpos := pos + 1 }).bind fun _ =>
    .pure (byte.getLsbD (pos.toNat % 8))

/-- The loop of GetLE7 over the bit numbers still to read (40_bitstream.md R125). -/
def getLE7From (sec : Sec) (start : BitVec 16) (v : BitVec 7) : List Nat → Cmd (BitVec 7)
  | [] => .pure v
  | j :: rest =>
    (getBit sec start).bind fun b =>
    getLE7From sec start (v ||| ((BitVec.ofBool b).setWidth 7 <<< j)) rest

/-- GetLE7(sec), 40_bitstream.md R125. -/
def getLE7 (sec : Sec) : Cmd (BitVec 7) :=
  cursor.bind fun start => getLE7From sec start 0#7 (List.range 7)

/-! ## The piece-type code (41_piece_code.md R150 to R152) -/

/-- PutCode(k, sec), 41_piece_code.md R151, for a kind number k; LUT has no entry 7 (R150). -/
def putCode (k : BitVec 3) (sec : Sec) : Cmd Unit :=
  match lutEntry k with
  | some (len, code) => putBits (codeString len code) sec
  | none => .stop (.noSuchAddress .lut k.toNat)

/-- The loop of DecodeKind: `left` more bits may be read, n are read with value v (41_piece_code.md R152).
The arm after 5 bits is the fault R152 allows; no run reaches it. -/
def decodeKindFrom (sec : Sec) (off : BitVec 16) : Nat → Nat → Nat → Cmd Kind
  | 0, _, _ => .stop .unmatchedCode
  | left + 1, n, v =>
    (getBit sec off).bind fun b =>
    match lutFind (n + 1) (2 * v + b.toNat) with
    | some k => .pure k
    | none => decodeKindFrom sec off left (n + 1) (2 * v + b.toNat)

/-- DecodeKind(sec, off), 41_piece_code.md R152. -/
def decodeKind (sec : Sec) (off : BitVec 16) : Cmd Kind := decodeKindFrom sec off 5 0 0

/-! ## Records (42_records.md R170 to R175) -/

/-- The check of R190 and R210: the turn word is 0x00 or 0x01. -/
def checkTurn : Cmd Unit :=
  (memRead .pos turnAddr).bind fun w =>
  if legalTurn w then .pure () else .raise .invalidOperand .turn (BitVec.ofNat 16 turnAddr)

/-- EncTurn(), 42_records.md R170. -/
def encTurn : Cmd Unit := (memRead .pos turnAddr).bind fun w => putBit (w.getLsbD 0) .turn

/-- DecTurn(), 42_records.md R171. -/
def decTurn : Cmd Unit :=
  cursor.bind fun off =>
  (getBit .turn off).bind fun t => memWrite .pos turnAddr (bitByte t)

/-- EncSquare(w, sec), 42_records.md R172. -/
def encSquare (w : Byte) (sec : Sec) : Cmd Unit :=
  if w = 0x00#8 then putBit false sec
  else
    (putBit true sec).bind fun _ =>
    (putCode (squareKind w) sec).bind fun _ =>
    (if squareKind w ≠ 4#3 then putBit (squareProm w) sec else .pure ()).bind fun _ =>
    putBit (squareColor w) sec

/-- The promotion bit of a record, read for every kind but GOLD (42_records.md R173, R175). -/
def getProm (k : Kind) (sec : Sec) (start : BitVec 16) : Cmd Bool :=
  if k ≠ .gold then getBit sec start else .pure false

/-- DecSquare(sec), 42_records.md R173. -/
def decSquare (sec : Sec) : Cmd Byte :=
  cursor.bind fun start =>
  (getBit sec start).bind fun occ =>
  if occ = false then .pure 0x00#8
  else
    (decodeKind sec start).bind fun k =>
    (getProm k sec start).bind fun p =>
    (getBit sec start).bind fun c => .pure (squareWord k p c)

/-- EncHandRec(h, sec), 42_records.md R174. -/
def encHandRec (h : Byte) (sec : Sec) : Cmd Unit :=
  (putCode (handKind h) sec).bind fun _ =>
  (if handKind h ≠ 4#3 then putBit false sec else .pure ()).bind fun _ =>
  putBit (handColor h) sec

/-- DecHandRec(sec), 42_records.md R175. -/
def decHandRec (sec : Sec) : Cmd Byte :=
  cursor.bind fun start =>
  (decodeKind sec start).bind fun k =>
  (getProm k sec start).bind fun p =>
  (getBit sec start).bind fun c => .pure (handWord k p c)

/-! ## The board section (42_records.md R178 to R183) -/

/-- The square indices 0 to 80 in ascending order (00_scope.md R6). -/
def squares : List Nat := List.range 81

/-- Read the square words at the addresses, refusing the first illegal one (42_records.md R178). -/
def legalWords : List Nat → Cmd (List Byte)
  | [] => .pure []
  | a :: rest =>
    (memRead .pos a).bind fun w =>
    if legalSquare w then (legalWords rest).bind fun ws => .pure (w :: ws)
    else .raise .invalidOperand .board (BitVec.ofNat 16 a)

/-- ValidateBoard(), 42_records.md R178: the squares of the BLACK and the WHITE king. -/
def validateBoard : Cmd (Nat × Nat) :=
  (legalWords squares).bind fun ws =>
  if ws.count blackKing ≠ 1 ∨ ws.count whiteKing ≠ 1 then .raise .invalidKingConfiguration .board 0
  else .pure (ws.idxOf blackKing, ws.idxOf whiteKing)

/-- EncBoard(kb, kw), 42_records.md R179. -/
def encBoard (kb kw : Nat) : Cmd Unit :=
  (putLE7 (BitVec.ofNat 7 kb) .board).bind fun _ =>
  (putLE7 (BitVec.ofNat 7 kw) .board).bind fun _ =>
  .each squares fun a =>
    if a ≠ kb ∧ a ≠ kw then (memRead .pos a).bind fun w => encSquare w .board else .pure ()

/-- CheckKings(pb, pw, start), 42_records.md R182. -/
def checkKings (pb pw : BitVec 7) (start : BitVec 16) : Cmd Unit :=
  if pb.toNat > 80 ∨ pw.toNat > 80 ∨ pb = pw then .raise .invalidKingConfiguration .board start
  else .pure ()

/-- `repeat n: L.append(DecSquare(2))`, 42_records.md R180. -/
def decSquares : Nat → Cmd (List Byte)
  | 0 => .pure []
  | n + 1 => (decSquare .board).bind fun w => (decSquares n).bind fun ws => .pure (w :: ws)

/-- The board InsertKings builds: the kings inserted in ascending index order (42_records.md R183). -/
def boardWithKings (l : List Byte) (pb pw : Nat) : List Byte :=
  if pb < pw then (l.insertIdx pb blackKing).insertIdx pw whiteKing
  else (l.insertIdx pw whiteKing).insertIdx pb blackKing

/-- Write words to POS at consecutive addresses. -/
def writeWords (a : Nat) : List Byte → Cmd Unit
  | [] => .pure ()
  | w :: ws => (memWrite .pos a w).bind fun _ => writeWords (a + 1) ws

/-- InsertKings(L, pb, pw), 42_records.md R183. -/
def insertKings (l : List Byte) (pb pw : BitVec 7) : Cmd Unit :=
  writeWords 0 (boardWithKings l pb.toNat pw.toNat)

/-- DecBoard(), 42_records.md R180. -/
def decBoard : Cmd Unit :=
  cursor.bind fun start =>
  (getLE7 .board).bind fun pb =>
  (getLE7 .board).bind fun pw =>
  (checkKings pb pw start).bind fun _ =>
  (decSquares 79).bind fun l => insertKings l pb pw

/-! ## The hand section (42_records.md R177, R186, R187) -/

/-- The check of HAND_ENC and PACK on HANDLEN and the hand words (42_records.md R177, R198): the
addresses of the words to write. -/
def checkHand : Cmd (List Nat) :=
  getHandlen.bind fun n =>
  (Cmd.get fun s => s.params.handCap).bind fun cap =>
  if n.toNat > cap then .raise .invalidOperand .hand 0
  else
    (Cmd.each ((List.range n.toNat).map handAddr) fun a =>
      (memRead .pos a).bind fun h =>
      if legalHand h then .pure () else .raise .invalidOperand .hand (BitVec.ofNat 16 a)).bind fun _ =>
    .pure ((List.range n.toNat).map handAddr)

/-- EncHand(), 42_records.md R186, over the addresses of the hand words. -/
def encHand (addrs : List Nat) : Cmd Unit :=
  .each addrs fun a => (memRead .pos a).bind fun h => encHandRec h .hand

/-- The loop of DecHand with n records read and room for `room` more, so that n = HAND_CAP exactly when
`room` is 0 (42_records.md R187). It returns the number of records. -/
def decHandFrom : Nat → Nat → Cmd Nat
  | 0, n =>
    (Cmd.get State.exhausted).bind fun e =>
    if e then .pure n else cursor.bind fun off => .raise .capacityExceeded .hand off
  | room + 1, n =>
    (Cmd.get State.exhausted).bind fun e =>
    if e then .pure n
    else
      (decHandRec .hand).bind fun h =>
      (memWrite .pos (handAddr n) h).bind fun _ => decHandFrom room (n + 1)

/-- DecHand(), 42_records.md R187. -/
def decHand : Cmd Unit :=
  (Cmd.get fun s => s.params.handCap).bind fun cap =>
  (decHandFrom cap 0).bind fun n =>
  .modify fun s => { s with handlen := some (BitVec.ofNat 10 n) }

/-! ## Loading the reader, starting the writer -/

/-- The load of R_LOAD and UNPACK (40_bitstream.md R134, 43_pack_unpack.md R211). -/
def loadReader : Cmd Unit :=
  (Cmd.get fun s => s.inlen).bind fun n =>
  (Cmd.get fun s => s.params.inCap).bind fun cap =>
  if n.toNat > cap then .raise .invalidOperand .prim 0
  else .modify fun s => { s with rlen := n, rpos := 0#16 }

/-- The start of an output stream (40_bitstream.md R130, 43_pack_unpack.md R210). OUT is not cleared. -/
def initWriter : Cmd Unit := setWriter Writer.reset

/-! ## Reading a known item at the cursor -/

/-- GetBit n times, for the bits of an item that starts at off. -/
def skipBits (sec : Sec) (off : BitVec 16) : Nat → Cmd Unit
  | 0 => .pure ()
  | n + 1 => (getBit sec off).bind fun _ => skipBits sec off n

/-- The reader takes the n bits of the item at the cursor, then `deliver` hands over its value
(log entry 5). -/
def takeItem (n : Nat) (sec : Sec) (deliver : Cmd Unit) : Cmd Unit :=
  cursor.bind fun start => (skipBits sec start n).bind fun _ => deliver

end Sys2Proof.Machine
end

