-- ==== Sys2Proof/Machine/BitStream.lean ====
section
/-! DEFINITION. The bit-stream writer and reader commands (40_bitstream.md R130 to R137). -/

namespace Sys2Proof.Machine

/-- W_INIT, 40_bitstream.md R130. -/
def execWInit (s : State) : Host.Outcome State Fault Refusal := finish spoilNothing initWriter s

/-- W_BIT b, 40_bitstream.md R131. -/
def execWBit (b : Bool) (s : State) : Host.Outcome State Fault Refusal :=
  finish spoilWriter (putBit b .prim) s

/-- W_LE7 v, 40_bitstream.md R132. -/
def execWLe7 (v : BitVec 7) (s : State) : Host.Outcome State Fault Refusal :=
  finish spoilWriter (putLE7 v .prim) s

/-- W_FLUSH, 40_bitstream.md R133. -/
def execWFlush (s : State) : Host.Outcome State Fault Refusal := finish spoilWriter (flush .prim) s

/-- R_LOAD, 40_bitstream.md R134. -/
def execRLoad (s : State) : Host.Outcome State Fault Refusal := finish spoilNothing loadReader s

/-- R_EXH, 40_bitstream.md R135. -/
def execRExh (s : State) : Host.Outcome State Fault Refusal :=
  finish spoilNothing
    ((Cmd.get State.exhausted).bind fun e => setResult (if e then 1#1 else 0#1)) s

/-- R_BIT, 40_bitstream.md R136. -/
def execRBit (s : State) : Host.Outcome State Fault Refusal :=
  finish spoilNothing
    (cursor.bind fun off => (getBit .prim off).bind fun b => setResult (BitVec.ofBool b)) s

/-- R_LE7, 40_bitstream.md R137. -/
def execRLe7 (s : State) : Host.Outcome State Fault Refusal :=
  finish spoilNothing ((getLE7 .prim).bind fun v => setResult v) s

end Sys2Proof.Machine
end

