-- ==== Sys2Proof/Machine/Control.lean ====
section
/-! DEFINITION. The control commands (44_control.md R230, R231). -/

namespace Sys2Proof.Machine

/-- RESET, 44_control.md R230: every register at its 10_state.md R38 value, the memories kept. -/
def execReset (s : State) : Host.Outcome State Fault Refusal :=
  .next { s with
    writer := some Writer.reset
    inlen := 0#13
    rlen := 0#13
    rpos := 0#16
    result := 0#32
    status := 0#32
    handlen := some 0#10 }

/-- CLRERR, 44_control.md R231. -/
def execClrerr (s : State) : Host.Outcome State Fault Refusal := .next { s with status := 0#32 }

end Sys2Proof.Machine
end

