-- ==== Sys2Proof/Machine/PieceCode.lean ====
section
/-! DEFINITION. The piece-type code commands (41_piece_code.md R153, R154). -/

namespace Sys2Proof.Machine

/-- W_CODE k, 41_piece_code.md R153. -/
def execWCode (k : Kind) (s : State) : Host.Outcome State Fault Refusal :=
  finish spoilWriter (putCode k.num .prim) s

/-- R_CODE, 41_piece_code.md R154: the offset is taken before the first bit is read. -/
def execRCode (s : State) : Host.Outcome State Fault Refusal :=
  finish spoilNothing
    (cursor.bind fun off => (decodeKind .prim off).bind fun k => setResult k.num) s

end Sys2Proof.Machine
end

