-- ==== Sys2Proof/Machine/Position.lean ====
section
/-! DEFINITION. The whole-position commands (43_pack_unpack.md R210, R211). -/

namespace Sys2Proof.Machine

/-- `total <- 8*OUTLEN + WCNT`, 43_pack_unpack.md R210. -/
def writtenBits : Cmd (BitVec 16) := getWriter.bind fun w => .pure (BitVec.ofNat 16 w.wbits)

/-- The write phase of PACK, with the king squares and the hand addresses the check phase found
(43_pack_unpack.md R210). -/
def writePosition (kb kw : Nat) (addrs : List Nat) : Cmd Unit :=
  initWriter.bind fun _ =>
  encTurn.bind fun _ =>
  (encBoard kb kw).bind fun _ =>
  (encHand addrs).bind fun _ =>
  writtenBits.bind fun total =>
  (flush .hand).bind fun _ => setResult total

/-- The check phase of PACK, then its write phase (43_pack_unpack.md R210). -/
def packPosition : Cmd Unit :=
  checkTurn.bind fun _ =>
  validateBoard.bind fun k =>
  checkHand.bind fun addrs => writePosition k.1 k.2 addrs

/-- PACK, 43_pack_unpack.md R210. -/
def execPack (s : State) : Host.Outcome State Fault Refusal := finish spoilWriter packPosition s

/-- The three sections of UNPACK and its result (43_pack_unpack.md R211). -/
def readPosition : Cmd Unit :=
  decTurn.bind fun _ =>
  decBoard.bind fun _ =>
  decHand.bind fun _ =>
  getHandlen.bind fun n => setResult n

/-- UNPACK, 43_pack_unpack.md R211. -/
def execUnpack (s : State) : Host.Outcome State Fault Refusal :=
  finish spoilPosition (loadReader.bind fun _ => readPosition) s

end Sys2Proof.Machine
end

