-- ==== Sys2Proof/Machine/Records.lean ====
section
/-! DEFINITION. The record commands (42_records.md R190 to R199). -/

namespace Sys2Proof.Machine

/-- TURN_ENC, 42_records.md R190. -/
def execTurnEnc (s : State) : Host.Outcome State Fault Refusal :=
  finish spoilWriter (checkTurn.bind fun _ => encTurn) s

/-- TURN_DEC, 42_records.md R191. -/
def execTurnDec (s : State) : Host.Outcome State Fault Refusal := finish spoilTurn decTurn s

/-- SQ_ENC w, 42_records.md R192; an operand that is not LegalNonKing is InvalidOperand with SEC 0 and
OFF 0, as at dispatch. -/
def execSqEnc (w : Byte) (s : State) : Host.Outcome State Fault Refusal :=
  finish spoilWriter
    (if legalNonKing w then encSquare w .board else .raise .invalidOperand .prim 0) s

/-- SQ_DEC, 42_records.md R193. -/
def execSqDec (s : State) : Host.Outcome State Fault Refusal :=
  finish spoilNothing ((decSquare .board).bind fun w => setResult w) s

/-- HREC_ENC h, 42_records.md R194; an operand that is not LegalHand is InvalidOperand with SEC 0 and
OFF 0, as at dispatch. -/
def execHrecEnc (h : Byte) (s : State) : Host.Outcome State Fault Refusal :=
  finish spoilWriter
    (if legalHand h then encHandRec h .hand else .raise .invalidOperand .prim 0) s

/-- HREC_DEC, 42_records.md R195: END is 0x100. -/
def execHrecDec (s : State) : Host.Outcome State Fault Refusal :=
  finish spoilNothing
    ((Cmd.get State.exhausted).bind fun e =>
      if e then setResult 0x100#9 else (decHandRec .hand).bind fun h => setResult h) s

/-- BOARD_ENC, 42_records.md R196. -/
def execBoardEnc (s : State) : Host.Outcome State Fault Refusal :=
  finish spoilWriter (validateBoard.bind fun k => encBoard k.1 k.2) s

/-- BOARD_DEC, 42_records.md R197. -/
def execBoardDec (s : State) : Host.Outcome State Fault Refusal := finish spoilBoard decBoard s

/-- HAND_ENC, 42_records.md R198. -/
def execHandEnc (s : State) : Host.Outcome State Fault Refusal :=
  finish spoilWriter (checkHand.bind fun addrs => encHand addrs) s

/-- HAND_DEC, 42_records.md R199. -/
def execHandDec (s : State) : Host.Outcome State Fault Refusal := finish spoilHand decHand s

end Sys2Proof.Machine
end

