-- ==== Sys2Proof/Machine/StreamItems.lean ====
section
/-! DEFINITION. The rows of the opcode table for the packed stream (30_encoding.md R80, R83 to R86). An
item is executed by the reader that meets it at RPOS, the decode cursor (10_state.md R35): it takes the
item's bits and delivers the item's value as the one command that reads a single item of that form
delivers it (log entry 5). -/

namespace Sys2Proof.Machine

/-- CODE.PAWN, 30_encoding.md R80, as R_CODE delivers it (41_piece_code.md R154). -/
def execCodePawn (s : State) : Host.Outcome State Fault Refusal :=
  finish spoilNothing (takeItem 1 .prim (setResult Kind.pawn.num)) s

/-- CODE.LANCE, 30_encoding.md R80, as R_CODE delivers it (41_piece_code.md R154). -/
def execCodeLance (s : State) : Host.Outcome State Fault Refusal :=
  finish spoilNothing (takeItem 3 .prim (setResult Kind.lance.num)) s

/-- CODE.KNIGHT, 30_encoding.md R80, as R_CODE delivers it (41_piece_code.md R154). -/
def execCodeKnight (s : State) : Host.Outcome State Fault Refusal :=
  finish spoilNothing (takeItem 3 .prim (setResult Kind.knight.num)) s

/-- CODE.SILVER, 30_encoding.md R80, as R_CODE delivers it (41_piece_code.md R154). -/
def execCodeSilver (s : State) : Host.Outcome State Fault Refusal :=
  finish spoilNothing (takeItem 3 .prim (setResult Kind.silver.num)) s

/-- CODE.GOLD, 30_encoding.md R80, as R_CODE delivers it (41_piece_code.md R154). -/
def execCodeGold (s : State) : Host.Outcome State Fault Refusal :=
  finish spoilNothing (takeItem 4 .prim (setResult Kind.gold.num)) s

/-- CODE.BISHOP, 30_encoding.md R80, as R_CODE delivers it (41_piece_code.md R154). -/
def execCodeBishop (s : State) : Host.Outcome State Fault Refusal :=
  finish spoilNothing (takeItem 5 .prim (setResult Kind.bishop.num)) s

/-- CODE.ROOK, 30_encoding.md R80, as R_CODE delivers it (41_piece_code.md R154). -/
def execCodeRook (s : State) : Host.Outcome State Fault Refusal :=
  finish spoilNothing (takeItem 5 .prim (setResult Kind.rook.num)) s

/-- REC.TURN, 30_encoding.md R86, as TURN_DEC delivers it (42_records.md R191). -/
def execRecTurn (t : Colour) (s : State) : Host.Outcome State Fault Refusal :=
  finish spoilTurn (takeItem 1 .turn (memWrite .pos turnAddr (bitByte t.bit))) s

/-- REC.KING, 30_encoding.md R85, as R_LE7 delivers it (40_bitstream.md R137). -/
def execRecKing (i : BitVec 7) (s : State) : Host.Outcome State Fault Refusal :=
  finish spoilNothing (takeItem 7 .prim (setResult i)) s

/-- REC.SQ_EMPTY, 30_encoding.md R83, as SQ_DEC delivers it (42_records.md R193). -/
def execRecSqEmpty (s : State) : Host.Outcome State Fault Refusal :=
  finish spoilNothing (takeItem 1 .board (setResult 0x00#8)) s

/-- REC.SQ_PIECE, 30_encoding.md R83, as SQ_DEC delivers it (42_records.md R193). -/
def execRecSqPiece (k : PromKind) (p : Bool) (c : Colour) (s : State) :
    Host.Outcome State Fault Refusal :=
  finish spoilNothing
    (takeItem (1 + (codeBits k.kind).length + 2) .board (setResult (squareWord k.kind p c.bit))) s

/-- REC.SQ_GOLD, 30_encoding.md R83, as SQ_DEC delivers it (42_records.md R193). -/
def execRecSqGold (c : Colour) (s : State) : Host.Outcome State Fault Refusal :=
  finish spoilNothing (takeItem 6 .board (setResult (squareWord .gold false c.bit))) s

/-- REC.HAND, 30_encoding.md R84, as HREC_DEC delivers it (42_records.md R195). -/
def execRecHand (k : PromKind) (p : Bool) (c : Colour) (s : State) :
    Host.Outcome State Fault Refusal :=
  finish spoilNothing
    (takeItem ((codeBits k.kind).length + 2) .hand (setResult (handWord k.kind p c.bit))) s

/-- REC.HAND_GOLD, 30_encoding.md R84, as HREC_DEC delivers it (42_records.md R195). -/
def execRecHandGold (c : Colour) (s : State) : Host.Outcome State Fault Refusal :=
  finish spoilNothing (takeItem 5 .hand (setResult (handWord .gold false c.bit))) s

end Sys2Proof.Machine
end

