-- ==== Sys2Proof/Machine/Dispatch.lean ====
section
/-! DEFINITION. The one match from instructions to meanings. -/

namespace Sys2Proof.Machine

def exec (i : Instr) (s : State) : Host.Outcome State Fault Refusal :=
  match i with
  | .reset => Sys2Proof.Machine.execReset s
  | .clrerr => Sys2Proof.Machine.execClrerr s
  | .wInit => Sys2Proof.Machine.execWInit s
  | .wBit b => Sys2Proof.Machine.execWBit b s
  | .wLe7 v => Sys2Proof.Machine.execWLe7 v s
  | .wCode k => Sys2Proof.Machine.execWCode k s
  | .wFlush => Sys2Proof.Machine.execWFlush s
  | .rLoad => Sys2Proof.Machine.execRLoad s
  | .rExh => Sys2Proof.Machine.execRExh s
  | .rBit => Sys2Proof.Machine.execRBit s
  | .rLe7 => Sys2Proof.Machine.execRLe7 s
  | .rCode => Sys2Proof.Machine.execRCode s
  | .turnEnc => Sys2Proof.Machine.execTurnEnc s
  | .turnDec => Sys2Proof.Machine.execTurnDec s
  | .sqEnc w => Sys2Proof.Machine.execSqEnc w s
  | .sqDec => Sys2Proof.Machine.execSqDec s
  | .hrecEnc h => Sys2Proof.Machine.execHrecEnc h s
  | .hrecDec => Sys2Proof.Machine.execHrecDec s
  | .boardEnc => Sys2Proof.Machine.execBoardEnc s
  | .boardDec => Sys2Proof.Machine.execBoardDec s
  | .handEnc => Sys2Proof.Machine.execHandEnc s
  | .handDec => Sys2Proof.Machine.execHandDec s
  | .pack => Sys2Proof.Machine.execPack s
  | .unpack => Sys2Proof.Machine.execUnpack s
  | .codePawn => Sys2Proof.Machine.execCodePawn s
  | .codeLance => Sys2Proof.Machine.execCodeLance s
  | .codeKnight => Sys2Proof.Machine.execCodeKnight s
  | .codeSilver => Sys2Proof.Machine.execCodeSilver s
  | .codeGold => Sys2Proof.Machine.execCodeGold s
  | .codeBishop => Sys2Proof.Machine.execCodeBishop s
  | .codeRook => Sys2Proof.Machine.execCodeRook s
  | .recTurn t => Sys2Proof.Machine.execRecTurn t s
  | .recKing n => Sys2Proof.Machine.execRecKing n s
  | .recSqEmpty => Sys2Proof.Machine.execRecSqEmpty s
  | .recSqPiece k p c => Sys2Proof.Machine.execRecSqPiece k p c s
  | .recSqGold c => Sys2Proof.Machine.execRecSqGold c s
  | .recHand k p c => Sys2Proof.Machine.execRecHand k p c s
  | .recHandGold c => Sys2Proof.Machine.execRecHandGold c s

end Sys2Proof.Machine
end

