-- ==== Sys2Proof/Machine/Host.lean ====
section
/-! DEFINITION. The host side: dispatch of a word written to CMD (44_control.md R232), the CSR map
(10_state.md R34), host accesses of IN, OUT and POS (20_memory.md R50, R56, R59), the hardware reset
(70_reset_and_hazards.md R270), the host pseudo-instructions (30_encoding.md R104), and how an
instruction is placed for the next step. -/

namespace Sys2Proof.Machine

/-- What dispatch raises for a rejected word (44_control.md R232). Only the two command rejections can
come out of the command decoder. -/
def rejectErr : Reject → Err
  | .invalidOperand => ⟨.invalidOperand, .prim, 0⟩
  | .illegalCommand | .endOfStream | .kingField | .trailingBits => ⟨.illegalCommand, .prim, 0⟩

/-- Dispatch(word), 44_control.md R232: a word that fails here changes nothing but STATUS. -/
def dispatch (word : CsrWord) (s : State) : Host.Outcome State Fault Refusal :=
  match decodeCmd word with
  | .ok i => exec i s
  | .error r => .next (s.takeError (rejectErr r))

/-- A host write to the CSR space (10_state.md R34). A write to a read-only register has no effect. -/
def csrWrite (a : BitVec 4) (v : CsrWord) (s : State) : Host.Outcome State Fault Refusal :=
  match a.toNat with
  | 0x0 => dispatch v s
  | 0x1 | 0x2 | 0x3 | 0x4 | 0x6 | 0x7 => .next s
  | 0x5 => .next { s with inlen := v.setWidth 13 }
  | 0x8 => .next { s with handlen := some (v.setWidth 10) }
  | _ => .refused (.reservedCsr a)

/-- The host gets a value back; nothing else changes (20_memory.md R59). -/
def State.answer (s : State) (v : CsrWord) : State := { s with hostData := v }

/-- A host read of the CSR space (10_state.md R34); bits a register does not have read 0. -/
def csrRead (a : BitVec 4) (s : State) : Host.Outcome State Fault Refusal :=
  match a.toNat with
  | 0x0 => .next (s.answer 0#32)
  | 0x1 => .next (s.answer s.status)
  | 0x2 => .next (s.answer s.result)
  | 0x3 =>
    match s.writer with
    | some w => .next (s.answer (w.outlen.setWidth 32))
    | none => .fault .unspecifiedWriter
  | 0x4 =>
    match s.writer with
    | some w => .next (s.answer ((w.wcnt ++ w.wacc).setWidth 32))
    | none => .fault .unspecifiedWriter
  | 0x5 => .next (s.answer (s.inlen.setWidth 32))
  | 0x6 => .next (s.answer (s.rlen.setWidth 32))
  | 0x7 => .next (s.answer (s.rpos.setWidth 32))
  | 0x8 =>
    match s.handlen with
    | some n => .next (s.answer (n.setWidth 32))
    | none => .fault .unspecifiedHandlen
  | _ => .refused (.reservedCsr a)

/-- A host write of a cell of IN or POS (20_memory.md R50, R56). -/
def hostWrite (sp : Space) (a : Nat) (v : Byte) (s : State) : Host.Outcome State Fault Refusal :=
  if s.hasAddr sp a then .next (s.setCells sp (Memory.write (s.cells sp) a v))
  else .refused (.reservedAddress sp a)

/-- A host read of a cell of IN, OUT or POS (20_memory.md R50, R56, R59); an unwritten cell faults
(10_state.md R38). -/
def hostRead (sp : Space) (a : Nat) (s : State) : Host.Outcome State Fault Refusal :=
  if s.hasAddr sp a then
    match s.cell sp a with
    | some v => .next (s.answer (v.setWidth 32))
    | none => .fault (.unwritten sp a)
  else .refused (.reservedAddress sp a)

/-- The hardware reset, 70_reset_and_hazards.md R270: every register at its 10_state.md R38 value, IN, OUT
and POS unwritten. The parameters and the host's own side stay. -/
def State.hardReset (s : State) : State :=
  { State.resetWith s.params with script := s.script, hostData := s.hostData }

/-- One host event. -/
def hostStep (ev : HostEvent) (s : State) : Host.Outcome State Fault Refusal :=
  match ev with
  | .csrWrite a v => csrWrite a v s
  | .csrRead a => csrRead a s
  | .inWrite a v => hostWrite .inp a v s
  | .inRead a => hostRead .inp a s
  | .outRead a => hostRead .out a s
  | .posWrite a v => hostWrite .pos a v s
  | .posRead a => hostRead .pos a s
  | .hardReset => .next s.hardReset

/-- The next event of the host's script, or nothing: the block is idle until the host acts
(70_reset_and_hazards.md R271). -/
def runScript (s : State) : Host.Outcome State Fault Refusal :=
  match s.script with
  | [] => .next s
  | ev :: rest => hostStep ev { s with script := rest }

/-! ## Pseudo-instructions (30_encoding.md R104) -/

/-- The host issues a command: a write of its word to CMD (30_encoding.md R100). -/
def issue (w : CmdWord) : HostEvent := .csrWrite 0x0#4 (w.setWidth 32)

/-- `HOST.IN [b0, b1, ...]` from address a on: the bytes. -/
def hostInFrom (a : Nat) : List Byte → List HostEvent
  | [] => []
  | b :: rest => .inWrite a b :: hostInFrom (a + 1) rest

/-- `HOST.IN [b0, b1, ...]` (30_encoding.md R104). -/
def hostIn (bytes : List Byte) : List HostEvent :=
  hostInFrom 0 bytes ++ [.csrWrite 0x5#4 (BitVec.ofNat 32 bytes.length)]

/-- `HOST.POS a = v` (30_encoding.md R104). -/
def hostPos (a : Nat) (v : Byte) : List HostEvent := [.posWrite a v]

/-- `HOST.HANDLEN n` (30_encoding.md R104). -/
def hostHandlen (n : CsrWord) : List HostEvent := [.csrWrite 0x8#4 n]

/-- `HOST.RD reg` (30_encoding.md R104). -/
def hostRd (reg : BitVec 4) : List HostEvent := [.csrRead reg]

/-- `W_STR "bitstring"`, the assembler's: one W_BIT per character, in order (30_encoding.md R104). -/
def wStr (bits : List Bool) : List Instr := bits.map .wBit

/-! ## Placing an instruction for the next step -/

/-- The command that reads a single item of a form at the cursor (log entry 5). -/
def readerOf : Form → Instr
  | .code => .rCode
  | .turn => .turnDec
  | .king => .rLe7
  | .square => .sqDec
  | .hand => .hrecDec

/-- Put a host write of CMD before the rest of the script. -/
def State.withCommand (s : State) (w : CmdWord) : State := { s with script := issue w :: s.script }

/-- The command word of an instruction; a stream item has none. -/
def wordOf (i : Instr) : CmdWord :=
  match encode i with
  | .command w => w
  | .stream _ _ => 0

/-- Put a stream item of at most 8 bits where the reader takes its next bit: byte IN[0], a session of one
byte with the cursor at its start, and the command that reads such an item. -/
def State.withItem (s : State) (f : Form) (bits : List Bool) : State :=
  { s with
    inMem := Memory.write s.inMem 0 (BitVec.ofNat 8 (leNat bits))
    rlen := 1#13
    rpos := 0#16
    script := issue (wordOf (readerOf f)) :: s.script }

/-- Place the instruction of an opcode-table row. A word that is no instruction is written to CMD as it
is. -/
def State.placeWord (s : State) (nbits w : Nat) : State :=
  match decodeTableWord nbits w with
  | some i =>
    match encode i with
    | .command cw => s.withCommand cw
    | .stream f bits => s.withItem f bits
  | none => { s with script := .csrWrite 0x0#4 (BitVec.ofNat 32 w) :: s.script }

end Sys2Proof.Machine
end

