-- ==== Sys2Proof/Machine/Step.lean ====
section
/-! DEFINITION. One step: the next event of the host's script (Machine/Host.lean). SFENC-CORE has no
program counter and fetches nothing (10_state.md R35): the next instruction is the word the host's next
write puts into CMD, or the stream item at RPOS that this word makes the reader take. -/

namespace Sys2Proof.Machine

/-- One step of the machine with its host (20_memory.md R57, R58; log entry 1). -/
def step (s : State) : Host.Outcome State Fault Refusal := runScript s

/-- s with an instruction placed where the next step takes it (log entries 1 and 5). -/
def State.withFetchWord (s : State) (nbits w : Nat) : State := s.placeWord nbits w

end Sys2Proof.Machine
end

