-- ==== Sys2Proof/Safety.lean ====
section
/-! DEFINITION. The terms of the claims: the invariant of the machine, the two bit streams as functions of
the state, the bit strings of the packed position written out from 30_encoding.md R80 to R87, and what a
position in POS is. Nothing here is called by a step. -/

namespace Sys2Proof

/-- The code strings of 30_encoding.md R80, letter for letter. -/
def Kind.text : Kind → List Bool
  | .pawn => [false]
  | .lance => [true, false, false]
  | .knight => [true, false, true]
  | .silver => [true, true, false]
  | .gold => [true, true, true, false]
  | .bishop => [true, true, true, true, false]
  | .rook => [true, true, true, true, true]

namespace Machine

/-! ## The invariant -/

/-- The writer registers agree with OUT: OUTLEN is at most OUT_CAP, the bytes below OUTLEN are written, and
WACC is 0 from bit WCNT up (10_state.md R21, R23). -/
abbrev State.WriterOk (s : State) (w : Writer) : Prop :=
  w.outlen.toNat ≤ s.params.outCap ∧
  (∀ a < w.outlen.toNat, (s.cell .out a).isSome = true) ∧
  w.wacc.toNat < 2 ^ w.wcnt.toNat

/-- STATUS is a word R27 and R243 allow: bits 15:7 are 0, ERR is 0 or one of the codes some command
raises (60_exceptions.md R240), ERR = 0 leaves SEC and OFF 0, and an error has STICKY set. -/
abbrev statusOk (st : CsrWord) : Prop :=
  st.extractLsb' 7 9 = 0#9 ∧
  (statusErr st = 0 ∧ statusSec st = 0 ∧ statusOff st = 0 ∨
    3 ≤ (statusErr st).toNat ∧ (statusErr st).toNat ≤ 7 ∧ statusSticky st = true)

/-- Every written cell of a space has an address the space has. -/
abbrev State.Bounded (s : State) (sp : Space) : Prop := ∀ c ∈ s.cells sp, s.hasAddr sp c.1 = true

/-- The invariant: legal parameters (00_scope.md R5), memories in canonical form within their spaces
(20_memory.md R50), the writer and the reader in range (10_state.md R21 to R25), RESULT[31:16] = 0 (R26),
STATUS legal (R27). -/
structure State.Inv (s : State) : Prop where
  params : s.params.legal
  inWf : Memory.wf s.inMem
  outWf : Memory.wf s.outMem
  posWf : Memory.wf s.posMem
  inBounded : s.Bounded .inp
  outBounded : s.Bounded .out
  posBounded : s.Bounded .pos
  writer : ∀ w, s.writer = some w → s.WriterOk w
  rlen : s.rlen.toNat ≤ s.params.inCap
  rpos : s.rpos.toNat ≤ 8 * s.rlen.toNat
  result : s.result.toNat < 65536
  status : statusOk s.status

/-- The faults that are the spec's own: a read of a cell or register that holds no specified value
(93_implementation_defined.md U1, U2). The other two are never met. -/
abbrev Fault.unspecifiedRead : Fault → Prop
  | .unwritten _ _ | .unspecifiedWriter | .unspecifiedHandlen => True
  | .noSuchAddress _ _ | .unmatchedCode => False

/-- The cell or register the fault names holds no specified value in s (10_state.md R38, 60_exceptions.md
R244). -/
def Fault.unspecifiedIn (s : State) : Fault → Prop
  | .unwritten sp a => sp ≠ .lut ∧ s.hasAddr sp a = true ∧ s.cell sp a = none
  | .unspecifiedWriter => s.writer = none
  | .unspecifiedHandlen => s.handlen = none
  | .noSuchAddress _ _ | .unmatchedCode => False

/-! ## The two streams -/

/-- Stream bit j of the reader's input: bit j & 7 of IN[j >> 3] (20_memory.md R62). -/
def State.streamBit (s : State) (j : Nat) : Option Bool :=
  (s.cell .inp (j / 8)).map fun byte => byte.getLsbD (j % 8)

/-- The reader's next bits are these, and they are left to read. -/
def State.Offers (s : State) (bits : List Bool) : Prop :=
  s.rpos.toNat + bits.length ≤ 8 * s.rlen.toNat ∧
  ∀ j (h : j < bits.length), s.streamBit (s.rpos.toNat + j) = some bits[j]

/-- The reader's next bits are these, and no bit is left after them. -/
def State.OffersLast (s : State) (bits : List Bool) : Prop :=
  s.Offers bits ∧ s.rpos.toNat + bits.length = 8 * s.rlen.toNat

/-- The reader's next bits are these, and the bit after them, which is left to read, lies in IN[a], a byte
that holds no specified value (10_state.md R38). -/
def State.OffersUnwritten (s : State) (bits : List Bool) (a : Nat) : Prop :=
  s.Offers bits ∧ s.rpos.toNat + bits.length < 8 * s.rlen.toNat ∧
  a = (s.rpos.toNat + bits.length) / 8 ∧ s.cell .inp a = none

/-- Bit j of what the writer has written: of OUT[j >> 3] below 8*OUTLEN, of WACC from there to WBITS
(10_state.md R21, R23). -/
def State.outBit (s : State) (w : Writer) (j : Nat) : Option Bool :=
  if j < 8 * w.outlen.toNat then (s.cell .out (j / 8)).map fun byte => byte.getLsbD (j % 8)
  else if j < w.wbits then some (w.wacc.getLsbD (j % 8))
  else none

/-- The registers and memories other than WACC, WCNT, OUTLEN, OUT, STATUS and RESULT are the same. -/
abbrev sameButWriter (s t : State) : Prop :=
  t = { s with writer := t.writer, outMem := t.outMem, status := t.status, result := t.result }

/-- t is s with the bits appended to the output stream: the bits written before are kept, the new ones
follow, the bytes of OUT outside [OUTLEN before, OUTLEN after) are untouched, and STATUS says OK. -/
def State.Wrote (s t : State) (bits : List Bool) : Prop :=
  sameButWriter s t ∧ t.result = s.result ∧ t.status = statusDone s.status ∧
  ∃ w w', s.writer = some w ∧ t.writer = some w' ∧ w'.wbits = w.wbits + bits.length ∧
    (∀ j < w.wbits, t.outBit w' j = s.outBit w j) ∧
    (∀ j (h : j < bits.length), t.outBit w' (w.wbits + j) = some bits[j]) ∧
    (∀ a, a < w.outlen.toNat ∨ w'.outlen.toNat ≤ a → t.cell .out a = s.cell .out a)

/-- Room for n more bits: PutBit fails only when it completes a byte with OUTLEN = OUT_CAP
(40_bitstream.md R120). -/
abbrev State.Room (s : State) (w : Writer) (n : Nat) : Prop := (w.wbits + n) / 8 ≤ s.params.outCap

/-- What CapacityExceeded leaves of a writer command: WACC, WCNT, OUTLEN and OUT unspecified, STATUS as
raised, everything else the same (60_exceptions.md R244). -/
def State.overflowed (s : State) (sec : Sec) (off : Nat) : State :=
  { s with
    writer := none
    outMem := []
    status := statusRaised ⟨.capacityExceeded, sec, BitVec.ofNat 16 off⟩ }

/-! ## The packed position -/

/-- `code ++ promotion bit ++ colour bit`, the promotion bit left out for GOLD (30_encoding.md R83, R84). -/
def recordBits (k : Kind) (p c : Bool) : List Bool :=
  k.text ++ (if k = .gold then [] else [p]) ++ [c]

/-- The square record of a non-king square word (30_encoding.md R83). -/
def squareBits (w : Byte) : List Bool :=
  if w = 0x00#8 then [false]
  else
    match Kind.ofNum (squareKind w) with
    | some k => true :: recordBits k (squareProm w) (squareColor w)
    | none => []

/-- The hand record of a hand-record word: the promotion bit is 0 whatever bit 4 says (30_encoding.md
R84). -/
def handBits (h : Byte) : List Bool :=
  match Kind.ofNum (handKind h) with
  | some k => recordBits k false (handColor h)
  | none => []

/-- The hand record a hand-record word is read from: bit 4 is the promotion bit as read, left out for GOLD
(30_encoding.md R84, 42_records.md R175). -/
def readBits (h : Byte) : List Bool :=
  match Kind.ofNum (handKind h) with
  | some k => recordBits k (h.getLsbD 4) (handColor h)
  | none => []

/-- A word DecHandRec can return: legal, and bit 4 is 0 for GOLD, which has no promotion bit (10_state.md
R32). -/
def readHand (h : Byte) : Bool := legalHand h && !(handKind h == 4#3 && h.getLsbD 4)

/-- A hand-record word with bit 4 cleared (42_records.md R189). -/
def clearProm (h : Byte) : Byte := h &&& 0xEF#8

/-- The bits of the hand records a list of words is read from. -/
def readSection (hs : List Byte) : List Bool := hs.flatMap readBits

/-- A stream that holds at least one bit of a hand record and ends inside it (30_encoding.md R91). -/
def cutHandRecord (bits : List Bool) : Prop := bits ≠ [] ∧ decodeHandRec bits = none

/-- The two king fields (30_encoding.md R85, R87). -/
def kingBits (kb kw : Nat) : List Bool :=
  le7Bits (BitVec.ofNat 7 kb) ++ le7Bits (BitVec.ofNat 7 kw)

/-- The non-king squares in ascending index. -/
def otherSquares (kb kw : Nat) : List Nat := squares.filter fun a => a ≠ kb ∧ a ≠ kw

/-- The board section of the board b with its kings at kb and kw (30_encoding.md R87). -/
def boardBits (b : Nat → Byte) (kb kw : Nat) : List Bool :=
  kingBits kb kw ++ (otherSquares kb kw).flatMap fun a => squareBits (b a)

/-- The bits of a board section that ends inside an item whose first bit is bit `off`: the BLACK king
field, the WHITE king field (whatever the BLACK one says), or a square record after good king fields
(42_records.md R180, 60_exceptions.md R245). -/
def cutBoard (off : Nat) (bits : List Bool) : Prop :=
  bits.length < 7 ∧ off = 0 ∨ 7 ≤ bits.length ∧ bits.length < 14 ∧ off = 7 ∨
    ∃ (pb pw : Nat) (l : List Byte) (cut : List Bool), pb ≤ 80 ∧ pw ≤ 80 ∧ pb ≠ pw ∧ l.length < 79 ∧
      (∀ w ∈ l, legalNonKing w = true) ∧ decodeItem .square cut = .error .endOfStream ∧
      bits = kingBits pb pw ++ l.flatMap squareBits ++ cut ∧
      off = (kingBits pb pw ++ l.flatMap squareBits).length

/-- The hand section of a list of hand-record words (30_encoding.md R87). -/
def handSection (hs : List Byte) : List Bool := hs.flatMap handBits

/-- The packed position without its pad: turn, board section, hand section (30_encoding.md R87). -/
def packedBits (turn : Bool) (b : Nat → Byte) (kb kw : Nat) (hs : List Byte) : List Bool :=
  turn :: (boardBits b kb kw ++ handSection hs)

/-- The bits of an encoding: a command word has 16 (30_encoding.md R100). -/
def Encoded.size : Encoded → Nat
  | .command _ => 16
  | .stream _ bits => bits.length

/-- hc(k), the length of a hand record (30_encoding.md R84, R89). -/
def handCost : Kind → Nat
  | .pawn => 3
  | .lance | .knight | .silver | .gold => 5
  | .bishop | .rook => 7

/-- The length the spec states for each instruction: 16 bits for a command word (R100), LEN for a code
(R80), and the record lengths of R83 to R86. -/
def Instr.specLength : Instr → Nat
  | .codePawn => 1
  | .codeLance | .codeKnight | .codeSilver => 3
  | .codeGold => 4
  | .codeBishop | .codeRook => 5
  | .recTurn _ => 1
  | .recKing _ => 7
  | .recSqEmpty => 1
  | .recSqPiece .pawn _ _ => 4
  | .recSqPiece .lance _ _ | .recSqPiece .knight _ _ | .recSqPiece .silver _ _ => 6
  | .recSqPiece .bishop _ _ | .recSqPiece .rook _ _ => 8
  | .recSqGold _ => 6
  | .recHand .pawn _ _ => 3
  | .recHand .lance _ _ | .recHand .knight _ _ | .recHand .silver _ _ => 5
  | .recHand .bishop _ _ | .recHand .rook _ _ => 7
  | .recHandGold _ => 5
  | .reset | .clrerr | .wInit | .wBit _ | .wLe7 _ | .wCode _ | .wFlush | .rLoad | .rExh | .rBit
  | .rLe7 | .rCode | .turnEnc | .turnDec | .sqEnc _ | .sqDec | .hrecEnc _ | .hrecDec | .boardEnc
  | .boardDec | .handEnc | .handDec | .pack | .unpack => 16

/-- The pad of a stream of n bits (30_encoding.md R88). -/
def padBits (n : Nat) : List Bool := List.replicate ((8 - n % 8) % 8) false

/-- A board with one king of each colour, at kb and kw, and legal words everywhere (10_state.md R31). -/
structure LegalBoard (b : Nat → Byte) (kb kw : Nat) : Prop where
  legal : ∀ a ≤ 80, legalSquare (b a) = true
  black : kb ≤ 80 ∧ ∀ a ≤ 80, b a = blackKing ↔ a = kb
  white : kw ≤ 80 ∧ ∀ a ≤ 80, b a = whiteKing ↔ a = kw

/-- POS[0..80] hold the board b. -/
def State.HoldsBoard (s : State) (b : Nat → Byte) : Prop := ∀ a ≤ 80, s.cell .pos a = some (b a)

/-- HANDLEN and POS[128..] hold the hand-record words hs. -/
def State.HoldsHand (s : State) (hs : List Byte) : Prop :=
  s.handlen = some (BitVec.ofNat 10 hs.length) ∧ hs.length ≤ s.params.handCap ∧
  ∀ i (h : i < hs.length), s.cell .pos (128 + i) = some hs[i]

/-- A position that passes PACK's check phase (43_pack_unpack.md R210): turn word, board with its kings,
HANDLEN and hand words. -/
structure Position (s : State) (turn : Bool) (b : Nat → Byte) (kb kw : Nat) (hs : List Byte) : Prop where
  turnWord : s.cell .pos turnAddr = some (bitByte turn)
  board : s.HoldsBoard b
  kings : LegalBoard b kb kw
  hand : s.HoldsHand hs
  legal : ∀ h ∈ hs, legalHand h = true

/-- Everything but the named cells and registers is the same: RPOS, RESULT, STATUS. -/
abbrev sameButReader (s t : State) : Prop :=
  t = { s with rpos := t.rpos, result := t.result, status := t.status }

/-- Everything but RPOS, STATUS and the POS words at the addresses of A is the same. -/
def sameButPos (A : Nat → Prop) (s t : State) : Prop :=
  t = { s with rpos := t.rpos, status := t.status, posMem := t.posMem } ∧
  ∀ a, ¬ A a → t.cell .pos a = s.cell .pos a

/-! ## The command words -/

/-- The IMM forms of 30_encoding.md R102. -/
inductive ImmForm where
  | none | bit | u7 | kind | sqw | hrw
  deriving DecidableEq, Repr

/-- The opcode map of 30_encoding.md R101: OPC and IMM form, row by row. -/
def opcodeMap : List (Nat × ImmForm) :=
  [(0x01, .none), (0x02, .none), (0x10, .none), (0x11, .bit), (0x12, .u7), (0x13, .kind)] ++
  [(0x14, .none), (0x20, .none), (0x21, .none), (0x22, .none), (0x23, .none), (0x24, .none)] ++
  [(0x30, .none), (0x31, .none), (0x32, .sqw), (0x33, .none), (0x34, .hrw), (0x35, .none)] ++
  [(0x36, .none), (0x37, .none), (0x38, .none), (0x39, .none), (0x40, .none), (0x41, .none)]

/-- `0x01 | COLOR<<2 | PROM<<3 | KIND<<4` as a number (10_state.md R31). -/
def pieceNumber (k p c : Nat) : Nat := 1 + 4 * c + 8 * p + 16 * k

/-- A non-king piece: KIND 0 to 6, PROM and COLOR one bit, no promoted GOLD (10_state.md R31). -/
abbrev IsPiece (w : Byte) : Prop :=
  ∃ k ≤ 6, ∃ p ≤ 1, ∃ c ≤ 1, (k = 4 → p = 0) ∧ w.toNat = pieceNumber k p c

/-- Which IMM values a form admits (30_encoding.md R102). -/
def ImmForm.admits : ImmForm → Byte → Prop
  | .none, imm => imm.toNat = 0
  | .bit, imm => imm.toNat ≤ 1
  | .u7, imm => imm.toNat ≤ 127
  | .kind, imm => imm.toNat ≤ 6
  | .sqw, imm => imm.toNat = 0 ∨ IsPiece imm
  | .hrw, imm => imm.toNat % 8 ≤ 6 ∧ imm.toNat / 32 = 0

/-- The value an item of the stream delivers to RESULT (41_piece_code.md R154, 40_bitstream.md R137,
42_records.md R193, R195); the turn field delivers nothing there (R191). -/
def itemValue : Instr → Option Nat
  | .codePawn => some 0
  | .codeLance => some 1
  | .codeKnight => some 2
  | .codeSilver => some 3
  | .codeGold => some 4
  | .codeBishop => some 5
  | .codeRook => some 6
  | .recKing i => some i.toNat
  | .recSqEmpty => some 0
  | .recSqPiece k p c => some (pieceNumber k.kind.num.toNat p.toNat c.bit.toNat)
  | .recSqGold c => some (pieceNumber 4 0 c.bit.toNat)
  | .recHand k p c => some (k.kind.num.toNat + 8 * c.bit.toNat + 16 * p.toNat)
  | .recHandGold c => some (4 + 8 * c.bit.toNat)
  | .recTurn _ | .reset | .clrerr | .wInit | .wBit _ | .wLe7 _ | .wCode _ | .wFlush | .rLoad | .rExh
  | .rBit | .rLe7 | .rCode | .turnEnc | .turnDec | .sqEnc _ | .sqDec | .hrecEnc _ | .hrecDec
  | .boardEnc | .boardDec | .handEnc | .handDec | .pack | .unpack => none

/-! ## Sequences of commands -/

/-- The state after the commands, one after the other, where every one of them completes or fails with a
next state. -/
def runInstrs : List Instr → State → Option State
  | [], s => some s
  | i :: rest, s =>
    match exec i s with
    | .next t => runInstrs rest t
    | .fault _ => none
    | .refused _ => none

end Machine
end Sys2Proof
end

