-- ==== Sys2Proof/Certificates/Slice0/Obligations.lean ====
section
/-! DEFINITION. The statements for the provers. Each docstring names the rules of spec/ it formalises.
`s.Inv` is the invariant of Safety.lean, which the statements ResetHasInvariant and StepKeepsInvariant
are about; where a statement has it as a premise, it could fail only in states no run reaches. -/

section statements

open Sys2Proof Sys2Proof.Machine

/-! ## Encodings -/

/-- The opcode map of 30_encoding.md R101, word by word, with the operands R102 admits in IMM, R104's
example words, and one stream item of each form (R80, R83 to R86), all written out from the spec. -/
def Obligations.SampleWordsDecode : Prop :=
  (∀ e ∈ [(0x0001#16, Instr.reset), (0x0002#16, .clrerr), (0x0010#16, .wInit), (0x0014#16, .wFlush),
      (0x0020#16, .rLoad), (0x0021#16, .rExh), (0x0022#16, .rBit), (0x0023#16, .rLe7),
      (0x0024#16, .rCode)] ++
    [(0x0030#16, Instr.turnEnc), (0x0031#16, .turnDec), (0x0033#16, .sqDec), (0x0035#16, .hrecDec),
      (0x0036#16, .boardEnc), (0x0037#16, .boardDec), (0x0038#16, .handEnc), (0x0039#16, .handDec),
      (0x0040#16, .pack), (0x0041#16, .unpack)],
    decodeCommand e.1 = .ok e.2) ∧
  decodeCommand 0x0011#16 = .ok (.wBit false) ∧ decodeCommand 0x0111#16 = .ok (.wBit true) ∧
  (∀ v : BitVec 7, decodeCommand (v.setWidth 8 ++ 0x12#8) = .ok (.wLe7 v)) ∧
  (∀ e ∈ [(0x0013#16, Kind.pawn), (0x0113#16, .lance), (0x0213#16, .knight), (0x0313#16, .silver),
      (0x0413#16, .gold), (0x0513#16, .bishop), (0x0613#16, .rook)],
    decodeCommand e.1 = .ok (.wCode e.2)) ∧
  (∀ w : Byte, legalNonKing w = true → decodeCommand (w ++ 0x32#8) = .ok (.sqEnc w)) ∧
  (∀ h : Byte, legalHand h = true → decodeCommand (h ++ 0x34#8) = .ok (.hrecEnc h)) ∧
  decodeCommand 0x4C12#16 = .ok (.wLe7 76#7) ∧ decodeCommand 0x6D32#16 = .ok (.sqEnc 0x6D#8) ∧
  decodeCommand 0x0D34#16 = .ok (.hrecEnc 0x0D#8) ∧
  decodeCommand 0x0000#16 = .error .illegalCommand ∧
  decodeItem .code [true, false, true] = .ok (.codeKnight, []) ∧
  decodeItem .turn [true] = .ok (.recTurn .white, []) ∧
  decodeItem .king [false, false, true, true, false, false, true] = .ok (.recKing 76#7, []) ∧
  decodeItem .square [true, true, true, true, false, true] = .ok (.recSqGold .white, []) ∧
  decodeItem .hand [false, false, true] = .ok (.recHand .pawn false .white, [])

/-- 44_control.md R232, with the opcode map of 30_encoding.md R101 and the IMM forms of R102: the word
written to CMD is checked in this order, and a word that fails changes nothing but STATUS. -/
def Obligations.DispatchChecksTheWord : Prop :=
  ∀ (v : CsrWord) (s : State),
    (65536 ≤ v.toNat →
      csrWrite 0x0#4 v s = .next { s with status := statusRaised ⟨.illegalCommand, .prim, 0⟩ }) ∧
    (v.toNat < 65536 → (∀ f, (v.toNat % 256, f) ∉ opcodeMap) →
      csrWrite 0x0#4 v s = .next { s with status := statusRaised ⟨.illegalCommand, .prim, 0⟩ }) ∧
    (∀ f, v.toNat < 65536 → (v.toNat % 256, f) ∈ opcodeMap →
      ¬ f.admits (BitVec.ofNat 8 (v.toNat / 256)) →
      csrWrite 0x0#4 v s = .next { s with status := statusRaised ⟨.invalidOperand, .prim, 0⟩ }) ∧
    (∀ f, v.toNat < 65536 → (v.toNat % 256, f) ∈ opcodeMap →
      f.admits (BitVec.ofNat 8 (v.toNat / 256)) →
      ∃ i, decodeCommand (v.setWidth 16) = .ok i ∧ csrWrite 0x0#4 v s = exec i s)

/-- 30_encoding.md R80 to R86, R101, R102: decoding an encoding gives the instruction back, for every
well-formed instruction and every value of its operands. -/
def Obligations.DecodeOfEncode : Prop :=
  ∀ i : Instr, i.wellFormed = true → decode (encode i) = .ok i

/-- 30_encoding.md R101, R102: a command word has at most one meaning, and the decoder accepts only
well-formed instructions. -/
def Obligations.EncodeOfDecode : Prop :=
  ∀ (w : CmdWord) (i : Instr), decodeCommand w = .ok i →
    i.wellFormed = true ∧ encode i = .command w

/-- 30_encoding.md R90: what follows an item does not change how it is read, and an item that is read is
the one its bits encode. -/
def Obligations.ItemsAreSelfDelimiting : Prop :=
  (∀ (i : Instr) (f : Form) (bits rest : List Bool), i.wellFormed = true →
    encode i = .stream f bits → decodeItem f (bits ++ rest) = .ok (i, rest)) ∧
  (∀ (f : Form) (stream rest : List Bool) (i : Instr), decodeItem f stream = .ok (i, rest) →
    i.wellFormed = true ∧ ∃ bits, encode i = .stream f bits ∧ stream = bits ++ rest)

/-- 30_encoding.md R81: prefix-free, Kraft sum 1 (here in 32nds), and every string of 5 or more bits
begins with exactly one code, which is found after at most 5 bits. -/
def Obligations.PieceCodeIsComplete : Prop :=
  (∀ k k' : Kind, k.text <+: k'.text → k = k') ∧
  (Kind.all.map fun k => 2 ^ (5 - k.text.length)).sum = 32 ∧
  ∀ bits : List Bool, 5 ≤ bits.length → ∃ k rest, takeCode bits = some (k, rest) ∧
    bits = k.text ++ rest ∧ k.text.length ≤ 5 ∧ ∀ k' : Kind, k'.text <+: bits → k' = k

/-- 10_state.md R31: the legal square words are the empty square, the two kings and the non-king pieces,
29 in all. -/
def Obligations.LegalSquareWords : Prop :=
  (∀ w : Byte, legalSquare w = true ↔ w = 0x00#8 ∨ w = 0x03#8 ∨ w = 0x07#8 ∨ IsPiece w) ∧
  ((List.range 256).filter fun n => legalSquare (BitVec.ofNat 8 n)).length = 29

/-- 30_encoding.md R89: the length of a packed position counts its non-king pieces, wherever they stand. -/
def Obligations.PackedLengthCountsPieces : Prop :=
  ∀ (turn : Bool) (b : Nat → Byte) (kb kw : Nat) (hs : List Byte), LegalBoard b kb kw →
    (∀ h ∈ hs, legalHand h = true) →
    (packedBits turn b kb kw hs).length = 94 +
      ((otherSquares kb kw).map fun a => if b a = 0x00#8 then 0
        else ((Kind.ofNum (squareKind (b a))).map handCost).getD 0).sum +
      (hs.map fun h => ((Kind.ofNum (handKind h)).map handCost).getD 0).sum

/-! ## The step and the host -/

/-- 20_memory.md R57, R59, 44_control.md R232: a step performs the host's next access and nothing else;
all it adds is that the access is taken off the script (the model's form of the host, log entry 1). A
write of CMD runs exec of the decoded instruction, or is rejected with only STATUS changed; every other
access is the CSR or memory access that CsrMap and HostMemoryAccess speak of; and a hardware reset gives
the reset state (when it can come is log entry 13). -/
def Obligations.StepRunsTheDecodedCommand : Prop :=
  ∀ (s : State) (rest : List HostEvent),
    (∀ (w : CmdWord) (i : Instr), s.script = issue w :: rest → decodeCommand w = .ok i →
      step s = exec i { s with script := rest }) ∧
    (∀ (v : CsrWord) (i : Instr), s.script = .csrWrite 0x0#4 v :: rest → decodeCmd v = .ok i →
      step s = exec i { s with script := rest }) ∧
    (∀ (v : CsrWord) (r : Reject), s.script = .csrWrite 0x0#4 v :: rest → decodeCmd v = .error r →
      (r = .illegalCommand ∧ step s = .next { s with
        script := rest, status := statusRaised ⟨.illegalCommand, .prim, 0⟩ }) ∨
      (r = .invalidOperand ∧ step s = .next { s with
        script := rest, status := statusRaised ⟨.invalidOperand, .prim, 0⟩ })) ∧
    (∀ a v, s.script = .csrWrite a v :: rest → step s = csrWrite a v { s with script := rest }) ∧
    (∀ a, s.script = .csrRead a :: rest → step s = csrRead a { s with script := rest }) ∧
    (∀ a v, s.script = .inWrite a v :: rest → step s = hostWrite .inp a v { s with script := rest }) ∧
    (∀ a, s.script = .inRead a :: rest → step s = hostRead .inp a { s with script := rest }) ∧
    (∀ a, s.script = .outRead a :: rest → step s = hostRead .out a { s with script := rest }) ∧
    (∀ a v, s.script = .posWrite a v :: rest → step s = hostWrite .pos a v { s with script := rest }) ∧
    (∀ a, s.script = .posRead a :: rest → step s = hostRead .pos a { s with script := rest }) ∧
    (s.script = .hardReset :: rest → step s = .next
      { State.resetWith s.params with script := rest, hostData := s.hostData })

/-- The model's reading of the stream rows of the opcode table (log entry 5): the command that reads one
item of a form does, where the stream offers the item i, exactly what i does. -/
def Obligations.ReaderExecutesTheItem : Prop :=
  ∀ (s : State) (f : Form) (bits rest : List Bool) (i : Instr), s.Inv → s.Offers bits →
    decodeItem f bits = .ok (i, rest) → exec (readerOf f) s = exec i s

/-- withFetchWord (log entries 1, 5 and 8): the next step runs the instruction placed, and the placing
changes nothing else the instruction does not need. -/
def Obligations.PlacedInstructionRuns : Prop :=
  ∀ (s : State) (nbits w : Nat) (i : Instr), s.Inv → decodeTableWord nbits w = some i →
    step (s.withFetchWord nbits w) = exec i { s.withFetchWord nbits w with script := s.script } ∧
    (∀ cw, encode i = .command cw →
      { s.withFetchWord nbits w with script := s.script } = s)

/-- 10_state.md R34: the CSR map. Reads give the register, zero-extended; a write of a read-only register
has no effect; a write of CMD dispatches; reserved addresses are refused. 60_exceptions.md R244: a read of
OUTLEN, WSTATE or HANDLEN while it is unspecified faults (that R244's cells include these registers is log
entry 4, DEDUCED). -/
def Obligations.CsrMap : Prop :=
  ∀ (s : State) (v : CsrWord),
    csrRead 0x0#4 s = .next { s with hostData := 0#32 } ∧
    csrRead 0x1#4 s = .next { s with hostData := s.status } ∧
    csrRead 0x2#4 s = .next { s with hostData := s.result } ∧
    (∀ w, s.writer = some w →
      csrRead 0x3#4 s = .next { s with hostData := w.outlen.setWidth 32 } ∧
      csrRead 0x4#4 s = .next { s with
        hostData := BitVec.ofNat 32 (w.wacc.toNat + 256 * w.wcnt.toNat) }) ∧
    (s.writer = none → csrRead 0x3#4 s = .fault .unspecifiedWriter ∧
      csrRead 0x4#4 s = .fault .unspecifiedWriter) ∧
    csrRead 0x5#4 s = .next { s with hostData := s.inlen.setWidth 32 } ∧
    csrRead 0x6#4 s = .next { s with hostData := s.rlen.setWidth 32 } ∧
    csrRead 0x7#4 s = .next { s with hostData := s.rpos.setWidth 32 } ∧
    (∀ n, s.handlen = some n → csrRead 0x8#4 s = .next { s with hostData := n.setWidth 32 }) ∧
    (s.handlen = none → csrRead 0x8#4 s = .fault .unspecifiedHandlen) ∧
    csrWrite 0x0#4 v s = dispatch v s ∧
    (∀ a ∈ [0x1#4, 0x2#4, 0x3#4, 0x4#4, 0x6#4, 0x7#4], csrWrite a v s = .next s) ∧
    csrWrite 0x5#4 v s = .next { s with inlen := BitVec.ofNat 13 (v.toNat % 8192) } ∧
    csrWrite 0x8#4 v s = .next { s with handlen := some (BitVec.ofNat 10 (v.toNat % 1024)) } ∧
    (∀ a : BitVec 4, 9 ≤ a.toNat →
      csrRead a s = .refused (.reservedCsr a) ∧ csrWrite a v s = .refused (.reservedCsr a))

/-- 20_memory.md R59: no read of any space has a side effect. -/
def Obligations.HostReadsChangeNothing : Prop :=
  ∀ (s t : State) (ev : HostEvent),
    ((∃ a, ev = .csrRead a) ∨ ∃ n, ev = .inRead n ∨ ev = .outRead n ∨ ev = .posRead n) →
    hostStep ev s = .next t → t = { s with hostData := t.hostData }

/-- 20_memory.md R50, R53, R56, R59, 10_state.md R38: the addresses each space has, what a host write of
one cell does and what a host read of one cell answers. -/
def Obligations.HostMemoryAccess : Prop :=
  ∀ (s : State),
    (∀ a, (s.hasAddr .inp a = true ↔ a < s.params.inCap) ∧
      (s.hasAddr .out a = true ↔ a < s.params.outCap) ∧
      (s.hasAddr .pos a = true ↔ a ≤ 81 ∨ 128 ≤ a ∧ a < 128 + s.params.handCap)) ∧
    (∀ sp a v, (sp = .inp ∨ sp = .pos) → s.hasAddr sp a = true →
      ∃ t, hostWrite sp a v s = .next t ∧ t = s.setCells sp (t.cells sp) ∧ t.cell sp a = some v ∧
        ∀ b, b ≠ a → t.cell sp b = s.cell sp b) ∧
    (∀ sp a v, s.hasAddr sp a = true → s.cell sp a = some v →
      hostRead sp a s = .next { s with hostData := v.setWidth 32 }) ∧
    (∀ sp a, sp ≠ .lut → s.hasAddr sp a = true → s.cell sp a = none →
      hostRead sp a s = .fault (.unwritten sp a)) ∧
    (∀ sp a v, sp ≠ .lut → s.hasAddr sp a = false →
      hostRead sp a s = .refused (.reservedAddress sp a) ∧
      (sp ≠ .out → hostWrite sp a v s = .refused (.reservedAddress sp a)))

/-- 70_reset_and_hazards.md R270, 10_state.md R38: both resets. The hardware reset leaves every cell of
IN, OUT and POS unwritten, the command keeps them. -/
def Obligations.ResetValues : Prop :=
  (∀ (s : State) (rest : List HostEvent), s.script = .hardReset :: rest →
    ∃ t, step s = .next t ∧ t.writer = some ⟨0#8, 0#3, 0#13⟩ ∧ t.inlen = 0#13 ∧ t.rlen = 0#13 ∧
      t.rpos = 0#16 ∧ t.result = 0#32 ∧ t.status = 0#32 ∧ t.handlen = some 0#10 ∧
      (∀ sp a, t.cell sp a = none) ∧ t.params = s.params) ∧
  ∀ s : State, exec .reset s = .next { s with
    writer := some ⟨0#8, 0#3, 0#13⟩, inlen := 0#13, rlen := 0#13, rpos := 0#16, result := 0#32,
    status := 0#32, handlen := some 0#10 }

/-- 44_control.md R230, R231: CLRERR clears STATUS and nothing else; either command with IMM not 0 fails
with InvalidOperand and does nothing else. -/
def Obligations.ControlCommands : Prop :=
  decodeCommand 0x0001#16 = .ok .reset ∧ decodeCommand 0x0002#16 = .ok .clrerr ∧
  ∀ s : State, exec .clrerr s = .next { s with status := 0#32 } ∧
    ∀ imm : BitVec 8, imm ≠ 0 →
      dispatch ((imm ++ 0x01#8).setWidth 32) s =
        .next { s with status := statusRaised ⟨.invalidOperand, .prim, 0⟩ } ∧
      dispatch ((imm ++ 0x02#8).setWidth 32) s =
        .next { s with status := statusRaised ⟨.invalidOperand, .prim, 0⟩ }

/-- 70_reset_and_hazards.md R271: after reset the reader is exhausted, the writer empty, STATUS 0, and the
block is idle until the host acts. -/
def Obligations.IdleAfterReset : Prop :=
  (∀ p : Params, (State.resetWith p).exhausted = true ∧
    (∃ w, (State.resetWith p).writer = some w ∧ w.wbits = 0) ∧ (State.resetWith p).status = 0#32) ∧
  ∀ s : State, s.script = [] → step s = .next s

/-! ## The writer -/

/-- 40_bitstream.md R130: W_INIT, from every state; OUT and RESULT are kept. -/
def Obligations.StartStream : Prop :=
  decodeCommand 0x0010#16 = .ok .wInit ∧
  ∀ s : State, exec .wInit s = .next { s with
    writer := some ⟨0#8, 0#3, 0#13⟩, status := statusDone s.status }

/-- 40_bitstream.md R120, R131: W_BIT on the registers. The bit goes to WACC[WCNT]; the 8th bit of a byte
is written to OUT[OUTLEN] with the others; with OUT full it is CapacityExceeded at WBITS. -/
def Obligations.WriteBit : Prop :=
  ∀ (s : State) (b : Bool) (acc : BitVec 8) (cnt : BitVec 3) (len : BitVec 13),
    s.writer = some ⟨acc, cnt, len⟩ →
    (cnt.toNat ≠ 7 → exec (.wBit b) s = .next { s with
      writer := some ⟨acc ||| BitVec.ofNat 8 (b.toNat * 2 ^ cnt.toNat), cnt + 1, len⟩
      status := statusDone s.status }) ∧
    (cnt.toNat = 7 → len.toNat < s.params.outCap → exec (.wBit b) s = .next { s with
      writer := some ⟨0#8, 0#3, len + 1⟩
      outMem := Memory.write s.outMem len.toNat (acc ||| BitVec.ofNat 8 (b.toNat * 128))
      status := statusDone s.status }) ∧
    (cnt.toNat = 7 → len.toNat = s.params.outCap →
      exec (.wBit b) s = .next (s.overflowed .prim (8 * len.toNat + 7)))

/-- 40_bitstream.md R124, R132, 41_piece_code.md R151, R153, 42_records.md R172, R174, R192, R194: the
commands with an operand in IMM complete where their bits fit, and append exactly those bits. -/
def Obligations.ImmediateWritersAppend : Prop :=
  ∀ (s : State) (w : Writer), s.Inv → s.writer = some w →
    (∀ b, s.Room w 1 → ∃ t, exec (.wBit b) s = .next t ∧ s.Wrote t [b]) ∧
    (∀ v, s.Room w 7 → ∃ t, exec (.wLe7 v) s = .next t ∧ s.Wrote t (le7Bits v)) ∧
    (∀ k, s.Room w (Kind.text k).length →
      ∃ t, exec (.wCode k) s = .next t ∧ s.Wrote t (Kind.text k)) ∧
    (∀ x, legalNonKing x = true → s.Room w (squareBits x).length →
      ∃ t, exec (.sqEnc x) s = .next t ∧ s.Wrote t (squareBits x)) ∧
    (∀ h, legalHand h = true → s.Room w (handBits h).length →
      ∃ t, exec (.hrecEnc h) s = .next t ∧ s.Wrote t (handBits h))

/-- 42_records.md R170, R179, R186, R190, R196, R198: the encode commands complete where their input is
legal and their bits fit, and append exactly the turn bit, the board section, the hand section. -/
def Obligations.PositionWritersAppend : Prop :=
  ∀ (s : State) (w : Writer), s.Inv → s.writer = some w →
    (∀ turn : Bool, s.cell .pos 81 = some (bitByte turn) → s.Room w 1 →
      ∃ t, exec .turnEnc s = .next t ∧ s.Wrote t [turn]) ∧
    (∀ b kb kw, s.HoldsBoard b → LegalBoard b kb kw → s.Room w (boardBits b kb kw).length →
      ∃ t, exec .boardEnc s = .next t ∧ s.Wrote t (boardBits b kb kw)) ∧
    (∀ hs, s.HoldsHand hs → (∀ h ∈ hs, legalHand h = true) → s.Room w (handSection hs).length →
      ∃ t, exec .handEnc s = .next t ∧ s.Wrote t (handSection hs))

/-- 40_bitstream.md R121, R133: W_FLUSH emits the partial byte with zeros above it, does nothing without
one, and with OUT full is CapacityExceeded at WBITS. -/
def Obligations.FlushPartialByte : Prop :=
  ∀ (s : State) (w : Writer), s.Inv → s.writer = some w →
    (w.wcnt.toNat = 0 → exec .wFlush s = .next { s with status := statusDone s.status }) ∧
    (w.wcnt.toNat ≠ 0 → w.outlen.toNat < s.params.outCap →
      exec .wFlush s = .next { s with
        writer := some ⟨0#8, 0#3, w.outlen + 1⟩
        outMem := Memory.write s.outMem w.outlen.toNat w.wacc
        status := statusDone s.status }) ∧
    (w.wcnt.toNat ≠ 0 → w.outlen.toNat = s.params.outCap →
      exec .wFlush s = .next (s.overflowed .prim (8 * w.outlen.toNat + w.wcnt.toNat)))

/-- 40_bitstream.md R120, 60_exceptions.md R241, R244: bits that do not fit raise CapacityExceeded at the
bit that would complete byte OUT_CAP, with the command's section; everything but the writer and OUT is
kept. -/
def Obligations.WriterOverflow : Prop :=
  ∀ (s : State) (w : Writer), s.Inv → s.writer = some w →
    (∀ b, ¬ s.Room w 1 → exec (.wBit b) s = .next (s.overflowed .prim (8 * s.params.outCap + 7))) ∧
    (∀ v, ¬ s.Room w 7 → exec (.wLe7 v) s = .next (s.overflowed .prim (8 * s.params.outCap + 7))) ∧
    (∀ k, ¬ s.Room w (Kind.text k).length →
      exec (.wCode k) s = .next (s.overflowed .prim (8 * s.params.outCap + 7))) ∧
    (∀ x, legalNonKing x = true → ¬ s.Room w (squareBits x).length →
      exec (.sqEnc x) s = .next (s.overflowed .board (8 * s.params.outCap + 7))) ∧
    (∀ h, legalHand h = true → ¬ s.Room w (handBits h).length →
      exec (.hrecEnc h) s = .next (s.overflowed .hand (8 * s.params.outCap + 7))) ∧
    (∀ turn : Bool, s.cell .pos 81 = some (bitByte turn) → ¬ s.Room w 1 →
      exec .turnEnc s = .next (s.overflowed .turn (8 * s.params.outCap + 7))) ∧
    (∀ b kb kw, s.HoldsBoard b → LegalBoard b kb kw → ¬ s.Room w (boardBits b kb kw).length →
      exec .boardEnc s = .next (s.overflowed .board (8 * s.params.outCap + 7))) ∧
    (∀ hs, s.HoldsHand hs → (∀ h ∈ hs, legalHand h = true) → ¬ s.Room w (handSection hs).length →
      exec .handEnc s = .next (s.overflowed .hand (8 * s.params.outCap + 7)))

/-- 40_bitstream.md R126: W_INIT, then any bits, before and after the flush. -/
def Obligations.WriterLaw : Prop :=
  ∀ (s : State) (bits : List Bool), s.Inv → (bits.length + 7) / 8 ≤ s.params.outCap →
    (∃ t w, runInstrs (.wInit :: bits.map .wBit) s = some t ∧ t.writer = some w ∧
      w.wbits = bits.length ∧ w.outlen.toNat = bits.length / 8 ∧ w.wcnt.toNat = bits.length % 8 ∧
      ∀ i < 8, w.wacc.getLsbD i =
        (decide (i < bits.length % 8) && bits.getD (8 * (bits.length / 8) + i) false)) ∧
    (∃ t w, runInstrs (.wInit :: bits.map .wBit ++ [.wFlush]) s = some t ∧ t.writer = some w ∧
      w.outlen.toNat = (bits.length + 7) / 8 ∧ w.wcnt = 0#3 ∧
      ∀ j < (bits.length + 7) / 8, ∃ byte, t.cell .out j = some byte ∧
        ∀ i < 8, byte.getLsbD i = bits.getD (8 * j + i) false)

/-! ## The reader -/

/-- 40_bitstream.md R134: R_LOAD captures INLEN and points at bit 0, or fails and changes nothing else. It
does not read IN. -/
def Obligations.LoadReader : Prop :=
  decodeCommand 0x0020#16 = .ok .rLoad ∧
  ∀ s : State,
    (s.inlen.toNat ≤ s.params.inCap → exec .rLoad s = .next { s with
      rlen := s.inlen, rpos := 0#16, status := statusDone s.status }) ∧
    (s.params.inCap < s.inlen.toNat → exec .rLoad s = .next { s with
      status := statusRaised ⟨.invalidOperand, .prim, 0⟩ })

/-- 40_bitstream.md R135: R_EXH reports exhaustion and consumes nothing. -/
def Obligations.ReportExhaustion : Prop :=
  decodeCommand 0x0021#16 = .ok .rExh ∧
  ∀ s : State, exec .rExh s = .next { s with
    result := if s.rpos.toNat = 8 * s.rlen.toNat then 1#32 else 0#32
    status := statusDone s.status }

/-- 40_bitstream.md R123, R136: R_BIT gives bit RPOS & 7 of IN[RPOS >> 3] and moves on one bit, or fails
at the end with everything else unchanged. -/
def Obligations.ReadBit : Prop :=
  decodeCommand 0x0022#16 = .ok .rBit ∧
  ∀ s : State, s.Inv →
    (∀ byte, s.rpos.toNat < 8 * s.rlen.toNat → s.cell .inp (s.rpos.toNat / 8) = some byte →
      exec .rBit s = .next { s with
        rpos := BitVec.ofNat 16 (s.rpos.toNat + 1)
        result := BitVec.ofNat 32 (byte.toNat / 2 ^ (s.rpos.toNat % 8) % 2)
        status := statusDone s.status }) ∧
    (s.rpos.toNat = 8 * s.rlen.toNat → exec .rBit s = .next { s with
      status := statusRaised ⟨.unexpectedEndOfStream, .prim, s.rpos⟩ })

/-- 40_bitstream.md R125, R137: R_LE7 reads 7 bits, least significant first; with fewer left it consumes
them and fails, RESULT unchanged. -/
def Obligations.ReadField : Prop :=
  decodeCommand 0x0023#16 = .ok .rLe7 ∧
  ∀ s : State, s.Inv →
    (∀ v : BitVec 7, s.Offers (le7Bits v) → exec .rLe7 s = .next { s with
      rpos := BitVec.ofNat 16 (s.rpos.toNat + 7)
      result := v.setWidth 32
      status := statusDone s.status }) ∧
    (∀ bits, bits.length < 7 → s.OffersLast bits → exec .rLe7 s = .next { s with
      rpos := BitVec.ofNat 16 (8 * s.rlen.toNat)
      status := statusRaised ⟨.unexpectedEndOfStream, .prim, s.rpos⟩ })

/-- 41_piece_code.md R152, R154: R_CODE reads the code the stream begins with; a stream that ends inside a
code is UnexpectedEndOfStream. -/
def Obligations.ReadCode : Prop :=
  decodeCommand 0x0024#16 = .ok .rCode ∧
  ∀ s : State, s.Inv →
    (∀ k : Kind, s.Offers k.text → exec .rCode s = .next { s with
      rpos := BitVec.ofNat 16 (s.rpos.toNat + k.text.length)
      result := k.num.setWidth 32
      status := statusDone s.status }) ∧
    (∀ bits, takeCode bits = none → s.OffersLast bits → exec .rCode s = .next { s with
      rpos := BitVec.ofNat 16 (8 * s.rlen.toNat)
      status := statusRaised ⟨.unexpectedEndOfStream, .prim, s.rpos⟩ })

/-- 41_piece_code.md R155: what W_CODE appends, R_CODE reads back, whatever bits follow; and any stream
with 5 bits left gives the one kind whose code it begins with. -/
def Obligations.CodeLaw : Prop :=
  (∀ (s : State) (w : Writer) (k : Kind), s.Inv → s.writer = some w → s.Room w (Kind.text k).length →
    ∃ t bits, exec (.wCode k) s = .next t ∧ s.Wrote t bits ∧
      lutEntry k.num = some (bits.length, (bits.foldl (fun v b => 2 * v + b.toNat) 0)) ∧
      ∀ u : State, u.Inv → u.Offers bits → exec .rCode u = .next { u with
        rpos := BitVec.ofNat 16 (u.rpos.toNat + bits.length)
        result := k.num.setWidth 32
        status := statusDone u.status }) ∧
  (∀ (s : State) (bits : List Bool), s.Inv → s.Offers bits → 5 ≤ bits.length →
    ∃ k : Kind, k.text <+: bits ∧ (∀ k' : Kind, k'.text <+: bits → k' = k) ∧
      exec .rCode s = .next { s with
        rpos := BitVec.ofNat 16 (s.rpos.toNat + k.text.length)
        result := k.num.setWidth 32
        status := statusDone s.status })

/-- 42_records.md R173, R193: SQ_DEC gives the word whose record the stream begins with; a stream that
ends inside the record is UnexpectedEndOfStream, RESULT unchanged. -/
def Obligations.ReadSquare : Prop :=
  decodeCommand 0x0033#16 = .ok .sqDec ∧
  ∀ s : State, s.Inv →
    (∀ w, legalNonKing w = true → s.Offers (squareBits w) → exec .sqDec s = .next { s with
      rpos := BitVec.ofNat 16 (s.rpos.toNat + (squareBits w).length)
      result := w.setWidth 32
      status := statusDone s.status }) ∧
    (∀ bits, decodeItem .square bits = .error .endOfStream → s.OffersLast bits →
      exec .sqDec s = .next { s with
        rpos := BitVec.ofNat 16 (8 * s.rlen.toNat)
        status := statusRaised ⟨.unexpectedEndOfStream, .board, s.rpos⟩ })

/-- 42_records.md R175, R195: HREC_DEC gives END on an exhausted reader, else the word of the hand record
with the promotion bit as read; a stream that ends inside the record is UnexpectedEndOfStream. -/
def Obligations.ReadHandRecord : Prop :=
  decodeCommand 0x0035#16 = .ok .hrecDec ∧
  ∀ s : State, s.Inv →
    (s.rpos.toNat = 8 * s.rlen.toNat → exec .hrecDec s = .next { s with
      result := 0x100#32, status := statusDone s.status }) ∧
    (∀ h, readHand h = true → s.Offers (readBits h) → exec .hrecDec s = .next { s with
      rpos := BitVec.ofNat 16 (s.rpos.toNat + (readBits h).length)
      result := h.setWidth 32
      status := statusDone s.status }) ∧
    (∀ bits, cutHandRecord bits → s.OffersLast bits → exec .hrecDec s = .next { s with
      rpos := BitVec.ofNat 16 (8 * s.rlen.toNat)
      status := statusRaised ⟨.unexpectedEndOfStream, .hand, s.rpos⟩ })

/-- 42_records.md R171, R191: TURN_DEC writes the bit to POS[81]; on an exhausted reader it fails, and
POS[81] is unspecified (60_exceptions.md R244). -/
def Obligations.ReadTurn : Prop :=
  decodeCommand 0x0031#16 = .ok .turnDec ∧
  ∀ s : State, s.Inv →
    (∀ turn : Bool, s.Offers [turn] → ∃ t, exec .turnDec s = .next t ∧
      sameButPos (fun a => a = 81) s t ∧ t.cell .pos 81 = some (bitByte turn) ∧
      t.rpos = BitVec.ofNat 16 (s.rpos.toNat + 1) ∧ t.status = statusDone s.status) ∧
    (s.rpos.toNat = 8 * s.rlen.toNat → ∃ t, exec .turnDec s = .next t ∧
      sameButPos (fun a => a = 81) s t ∧ t.cell .pos 81 = none ∧ t.rpos = s.rpos ∧
      t.status = statusRaised ⟨.unexpectedEndOfStream, .turn, s.rpos⟩)

/-- 40_bitstream.md R127: R_LOAD of N bytes, then m R_BIT with m at most 8N: the last one gives bit m-1 of
IN and RPOS is m; one more at m = 8N is UnexpectedEndOfStream. -/
def Obligations.ReaderLaw : Prop :=
  ∀ (s : State) (m : Nat), s.Inv → s.inlen.toNat ≤ s.params.inCap → m ≤ 8 * s.inlen.toNat →
    (∀ j < s.inlen.toNat, (s.cell .inp j).isSome = true) →
    (∃ t, runInstrs (.rLoad :: List.replicate m .rBit) s = some t ∧ t.rpos = BitVec.ofNat 16 m ∧
      sameButReader { s with rlen := s.inlen } t ∧ (0 < m → statusErr t.status = 0) ∧
      (0 < m → ∃ byte, s.cell .inp ((m - 1) / 8) = some byte ∧
        t.result = if byte.getLsbD ((m - 1) % 8) then 1#32 else 0#32)) ∧
    (m = 8 * s.inlen.toNat →
      ∃ t, runInstrs (.rLoad :: List.replicate m .rBit ++ [.rBit]) s = some t ∧
        t.rpos = BitVec.ofNat 16 m ∧
        t.status = statusRaised ⟨.unexpectedEndOfStream, .prim, BitVec.ofNat 16 m⟩)

/-- 30_encoding.md R80, R83 to R86: every item of the stream, offered at RPOS, is consumed whole and
delivers its value (codes, king fields, square and hand records to RESULT, the turn field to POS[81]),
as the model reads those rows of the opcode table (log entry 5). -/
def Obligations.StreamItemsComplete : Prop :=
  ∀ (s : State) (i : Instr) (f : Form) (bits : List Bool), s.Inv → i.wellFormed = true →
    encode i = .stream f bits → s.Offers bits →
    (∀ n, itemValue i = some n → exec i s = .next { s with
      rpos := BitVec.ofNat 16 (s.rpos.toNat + bits.length)
      result := BitVec.ofNat 32 n
      status := statusDone s.status }) ∧
    (∀ c, i = .recTurn c → ∃ t, exec i s = .next t ∧ sameButPos (fun a => a = 81) s t ∧
      t.cell .pos 81 = some (bitByte c.bit) ∧ t.rpos = BitVec.ofNat 16 (s.rpos.toNat + 1) ∧
      t.status = statusDone s.status)

/-! ## Boards and hands -/

/-- 42_records.md R180, R183, R184, R197: BOARD_DEC on two good king fields and 79 records gives the
closed form of InsertKings. -/
def Obligations.ReadBoard : Prop :=
  ∀ (s : State) (pb pw : Nat) (l : List Byte) (rest : List Bool), s.Inv → pb ≤ 80 → pw ≤ 80 →
    pb ≠ pw → l.length = 79 → (∀ w ∈ l, legalNonKing w = true) →
    s.Offers (kingBits pb pw ++ l.flatMap squareBits ++ rest) →
    ∃ t, exec .boardDec s = .next t ∧ sameButPos (fun a => a ≤ 80) s t ∧
      t.rpos = BitVec.ofNat 16 (s.rpos.toNat + 14 + (l.flatMap squareBits).length) ∧
      t.status = statusDone s.status ∧
      t.cell .pos pb = some 0x03#8 ∧ t.cell .pos pw = some 0x07#8 ∧
      ∀ i ≤ 80, i ≠ pb → i ≠ pw →
        t.cell .pos i = l[i - (if pb < i then 1 else 0) - (if pw < i then 1 else 0)]?

/-- 42_records.md R182, 60_exceptions.md R244: two whole king fields that name no board are
InvalidKingConfiguration at the BLACK field, RPOS 14 bits further, POS[0..80] unspecified. -/
def Obligations.BadKingsRejected : Prop :=
  ∀ (s : State) (pb pw : BitVec 7), s.Inv → s.Offers (le7Bits pb ++ le7Bits pw) →
    (pb.toNat > 80 ∨ pw.toNat > 80 ∨ pb = pw) →
    ∃ t, exec .boardDec s = .next t ∧ sameButPos (fun a => a ≤ 80) s t ∧
      (∀ a ≤ 80, t.cell .pos a = none) ∧ t.rpos = BitVec.ofNat 16 (s.rpos.toNat + 14) ∧
      t.status = statusRaised ⟨.invalidKingConfiguration, .board, s.rpos⟩

/-- 42_records.md R197, 60_exceptions.md R241, R244, R245: a stream that ends inside a king field or a
square record (`cutBoard`): the offset is that item's first bit, every bit is consumed, POS[0..80] is
unspecified. A bad BLACK field is not looked at before the WHITE field is whole. -/
def Obligations.ShortBoardRejected : Prop :=
  ∀ (s : State) (off : Nat) (bits : List Bool), s.Inv → s.OffersLast bits → cutBoard off bits →
    ∃ t, exec .boardDec s = .next t ∧ sameButPos (fun a => a ≤ 80) s t ∧
      (∀ a ≤ 80, t.cell .pos a = none) ∧ t.rpos = BitVec.ofNat 16 (8 * s.rlen.toNat) ∧
      t.status = statusRaised ⟨.unexpectedEndOfStream, .board, BitVec.ofNat 16 (s.rpos.toNat + off)⟩

/-- 42_records.md R185: the board law. What BOARD_ENC writes, BOARD_DEC reads back to the same 81 words,
whatever bits follow. -/
def Obligations.BoardRoundTrip : Prop :=
  ∀ (s : State) (w : Writer) (b : Nat → Byte) (kb kw : Nat), s.Inv → s.writer = some w →
    s.HoldsBoard b → LegalBoard b kb kw → s.Room w (boardBits b kb kw).length →
    ∃ t bits, exec .boardEnc s = .next t ∧ s.Wrote t bits ∧
      bits.length = 14 + ((otherSquares kb kw).map fun a => (squareBits (b a)).length).sum ∧
      ∀ (u : State) (rest : List Bool), u.Inv → u.Offers (bits ++ rest) →
        ∃ v, exec .boardDec u = .next v ∧ (∀ a ≤ 80, v.cell .pos a = s.cell .pos a) ∧
          v.rpos = BitVec.ofNat 16 (u.rpos.toNat + bits.length) ∧ statusErr v.status = 0

/-- 42_records.md R187, R199: HAND_DEC places the records up to the end of the stream, in order. -/
def Obligations.ReadHand : Prop :=
  ∀ (s : State) (hs : List Byte), s.Inv → (∀ h ∈ hs, readHand h = true) →
    hs.length ≤ s.params.handCap → s.OffersLast (readSection hs) →
    ∃ t, exec .handDec s = .next t ∧
      sameButPos (fun a => 128 ≤ a ∧ a < 128 + hs.length) { s with handlen := t.handlen } t ∧
      t.handlen = some (BitVec.ofNat 10 hs.length) ∧
      (∀ i (h : i < hs.length), t.cell .pos (128 + i) = some hs[i]) ∧
      t.rpos = BitVec.ofNat 16 (8 * s.rlen.toNat) ∧ t.status = statusDone s.status

/-- 42_records.md R187, R199, 60_exceptions.md R244: a record cut short, or one record too many; HANDLEN
and the hand words are then unspecified. That these are all hand words up to HAND_CAP, also the ones the
command had not reached, is the model's reading of R244's `POS[128 ..]` (log entry 6, DEDUCED). -/
def Obligations.HandDecodeErrors : Prop :=
  ∀ (s : State) (hs : List Byte) (bits : List Bool), s.Inv → (∀ h ∈ hs, readHand h = true) →
    (hs.length < s.params.handCap → cutHandRecord bits → s.OffersLast (readSection hs ++ bits) →
      ∃ t, exec .handDec s = .next t ∧
        sameButPos (fun a => 128 ≤ a ∧ a < 128 + s.params.handCap) { s with handlen := none } t ∧
        (∀ i < s.params.handCap, t.cell .pos (128 + i) = none) ∧
        t.rpos = BitVec.ofNat 16 (8 * s.rlen.toNat) ∧
        t.status = statusRaised ⟨.unexpectedEndOfStream, .hand,
          BitVec.ofNat 16 (s.rpos.toNat + (readSection hs).length)⟩) ∧
    (hs.length = s.params.handCap → bits ≠ [] → s.Offers (readSection hs ++ bits) →
      ∃ t, exec .handDec s = .next t ∧
        sameButPos (fun a => 128 ≤ a ∧ a < 128 + s.params.handCap) { s with handlen := none } t ∧
        (∀ i < s.params.handCap, t.cell .pos (128 + i) = none) ∧
        t.rpos = BitVec.ofNat 16 (s.rpos.toNat + (readSection hs).length) ∧
        t.status = statusRaised ⟨.capacityExceeded, .hand,
          BitVec.ofNat 16 (s.rpos.toNat + (readSection hs).length)⟩)

/-- 42_records.md R189: the hand law. What HAND_ENC writes, HAND_DEC reads back with bit 4 cleared, where
the stream ends exactly there; an empty hand is zero bits. -/
def Obligations.HandRoundTrip : Prop :=
  ∀ (s : State) (w : Writer) (hs : List Byte), s.Inv → s.writer = some w → s.HoldsHand hs →
    (∀ h ∈ hs, legalHand h = true) → s.Room w (handSection hs).length →
    ∃ t bits, exec .handEnc s = .next t ∧ s.Wrote t bits ∧ (hs = [] → bits = []) ∧
      ∀ u : State, u.Inv → u.OffersLast bits → hs.length ≤ u.params.handCap →
        ∃ v, exec .handDec u = .next v ∧ v.handlen = some (BitVec.ofNat 10 hs.length) ∧
          (∀ i (h : i < hs.length), v.cell .pos (128 + i) = some (hs[i] &&& 0xEF#8)) ∧
          statusErr v.status = 0

/-- 42_records.md R178, R196: ValidateBoard's errors through BOARD_ENC. The lowest illegal word is the one
reported, before a king-count error; nothing but STATUS changes. -/
def Obligations.BoardChecks : Prop :=
  ∀ (s : State) (b : Nat → Byte), s.HoldsBoard b →
    (∀ a ≤ 80, (∀ x < a, legalSquare (b x) = true) → legalSquare (b a) = false →
      exec .boardEnc s = .next { s with
        status := statusRaised ⟨.invalidOperand, .board, BitVec.ofNat 16 a⟩ }) ∧
    ((∀ a ≤ 80, legalSquare (b a) = true) →
      ((List.range 81).countP (fun a => b a = 0x03#8) ≠ 1 ∨
        (List.range 81).countP (fun a => b a = 0x07#8) ≠ 1) →
      exec .boardEnc s = .next { s with
        status := statusRaised ⟨.invalidKingConfiguration, .board, 0⟩ })

/-- 42_records.md R177, R190, R198: the operand errors of TURN_ENC and HAND_ENC; nothing but STATUS changes.
The clauses for SQ_ENC and HREC_ENC are exec on operands that no word decodes to: R192 and R194 have such
an operand refused at dispatch (DispatchChecksTheWord), and that exec, which is total, gives the same
error is the model's choice (log entry 11, DESIGN CHOICE). -/
def Obligations.OperandChecks : Prop :=
  ∀ s : State,
    (∀ w, s.cell .pos 81 = some w → w ≠ 0x00#8 → w ≠ 0x01#8 →
      exec .turnEnc s = .next { s with status := statusRaised ⟨.invalidOperand, .turn, 81#16⟩ }) ∧
    (∀ w, legalNonKing w = false →
      exec (.sqEnc w) s = .next { s with status := statusRaised ⟨.invalidOperand, .prim, 0⟩ }) ∧
    (∀ h, legalHand h = false →
      exec (.hrecEnc h) s = .next { s with status := statusRaised ⟨.invalidOperand, .prim, 0⟩ }) ∧
    (∀ n, s.handlen = some n → s.params.handCap < n.toNat →
      exec .handEnc s = .next { s with status := statusRaised ⟨.invalidOperand, .hand, 0⟩ }) ∧
    (∀ (n : BitVec 10) (b : Nat → Byte) (i : Nat), s.handlen = some n → n.toNat ≤ s.params.handCap →
      i < n.toNat → (∀ j ≤ i, s.cell .pos (128 + j) = some (b j)) →
      (∀ j < i, legalHand (b j) = true) → legalHand (b i) = false →
      exec .handEnc s = .next { s with
        status := statusRaised ⟨.invalidOperand, .hand, BitVec.ofNat 16 (128 + i)⟩ })

/-! ## PACK and UNPACK -/

/-- 43_pack_unpack.md R210, 60_exceptions.md R245: PACK's check phase, in its order; nothing but STATUS
changes. -/
def Obligations.PackChecksInOrder : Prop :=
  ∀ (s : State) (w : Byte) (b : Nat → Byte), s.cell .pos 81 = some w →
    (w ≠ 0x00#8 → w ≠ 0x01#8 →
      exec .pack s = .next { s with status := statusRaised ⟨.invalidOperand, .turn, 81#16⟩ }) ∧
    (∀ a ≤ 80, w = 0x00#8 ∨ w = 0x01#8 → s.HoldsBoard b → (∀ x < a, legalSquare (b x) = true) →
      legalSquare (b a) = false → exec .pack s = .next { s with
        status := statusRaised ⟨.invalidOperand, .board, BitVec.ofNat 16 a⟩ }) ∧
    (w = 0x00#8 ∨ w = 0x01#8 → s.HoldsBoard b → (∀ a ≤ 80, legalSquare (b a) = true) →
      ((List.range 81).countP (fun a => b a = 0x03#8) ≠ 1 ∨
        (List.range 81).countP (fun a => b a = 0x07#8) ≠ 1) →
      exec .pack s = .next { s with
        status := statusRaised ⟨.invalidKingConfiguration, .board, 0⟩ }) ∧
    (∀ (kb kw : Nat) (n : BitVec 10) (h : Nat → Byte), w = 0x00#8 ∨ w = 0x01#8 → s.HoldsBoard b → LegalBoard b kb kw →
      s.handlen = some n →
      (s.params.handCap < n.toNat →
        exec .pack s = .next { s with status := statusRaised ⟨.invalidOperand, .hand, 0⟩ }) ∧
      (∀ i, n.toNat ≤ s.params.handCap → i < n.toNat → (∀ j ≤ i, s.cell .pos (128 + j) = some (h j)) →
        (∀ j < i, legalHand (h j) = true) → legalHand (h i) = false →
        exec .pack s = .next { s with
          status := statusRaised ⟨.invalidOperand, .hand, BitVec.ofNat 16 (128 + i)⟩ }))

/-- 43_pack_unpack.md R210, R214, 30_encoding.md R87, R88: PACK of a position that fits, from any state
of the writer: OUT holds the packed position and its pad, RESULT its length. -/
def Obligations.PackWritesThePosition : Prop :=
  ∀ (s : State) (turn : Bool) (b : Nat → Byte) (kb kw : Nat) (hs : List Byte) (n : Nat), s.Inv →
    Position s turn b kb kw hs → n = (packedBits turn b kb kw hs).length →
    (n + 7) / 8 ≤ s.params.outCap →
    ∃ t, exec .pack s = .next t ∧ sameButWriter s t ∧ t.status = statusDone s.status ∧
      t.result = BitVec.ofNat 32 n ∧
      n = 1 + 14 + ((otherSquares kb kw).map fun a => (squareBits (b a)).length).sum +
        (hs.map fun h => (handBits h).length).sum ∧
      t.writer = some ⟨0#8, 0#3, BitVec.ofNat 13 ((n + 7) / 8)⟩ ∧
      (∀ j < (n + 7) / 8, ∃ byte, t.cell .out j = some byte ∧
        ∀ i < 8, byte.getLsbD i = (packedBits turn b kb kw hs).getD (8 * j + i) false) ∧
      ∀ a, (n + 7) / 8 ≤ a → t.cell .out a = s.cell .out a

/-- 43_pack_unpack.md R210, 60_exceptions.md R241: PACK of a position that does not fit: the section being
written, and the bits written before the failing bit or pad. -/
def Obligations.PackOverflow : Prop :=
  ∀ (s : State) (turn : Bool) (b : Nat → Byte) (kb kw : Nat) (hs : List Byte) (n : Nat), s.Inv →
    Position s turn b kb kw hs → n = (packedBits turn b kb kw hs).length →
    8 * s.params.outCap < n →
    exec .pack s = .next (s.overflowed
      (if 8 * s.params.outCap + 7 < 1 + (boardBits b kb kw).length then .board else .hand)
      (min n (8 * s.params.outCap + 7)))

/-- 43_pack_unpack.md R211: UNPACK of a stream that is a turn bit, a board section and whole hand records:
POS, HANDLEN and RESULT; the rest is kept. -/
def Obligations.UnpackReadsThePosition : Prop :=
  ∀ (s : State) (turn : Bool) (pb pw : Nat) (l hs : List Byte), s.Inv →
    s.inlen.toNat ≤ s.params.inCap → pb ≤ 80 → pw ≤ 80 → pb ≠ pw → l.length = 79 →
    (∀ w ∈ l, legalNonKing w = true) → (∀ h ∈ hs, readHand h = true) →
    hs.length ≤ s.params.handCap →
    State.OffersLast { s with rlen := s.inlen, rpos := 0#16 }
      (turn :: (kingBits pb pw ++ l.flatMap squareBits ++ readSection hs)) →
    ∃ t, exec .unpack s = .next t ∧
      sameButPos (fun a => a ≤ 81 ∨ 128 ≤ a ∧ a < 128 + hs.length)
        { s with rlen := s.inlen, handlen := t.handlen, result := t.result } t ∧
      t.rpos = BitVec.ofNat 16 (8 * s.inlen.toNat) ∧ t.status = statusDone s.status ∧
      t.handlen = some (BitVec.ofNat 10 hs.length) ∧ t.result = BitVec.ofNat 32 hs.length ∧
      t.cell .pos 81 = some (bitByte turn) ∧ t.cell .pos pb = some 0x03#8 ∧
      t.cell .pos pw = some 0x07#8 ∧
      (∀ i ≤ 80, i ≠ pb → i ≠ pw →
        t.cell .pos i = l[i - (if pb < i then 1 else 0) - (if pw < i then 1 else 0)]?) ∧
      ∀ i (h : i < hs.length), t.cell .pos (128 + i) = some hs[i]

/-- 43_pack_unpack.md R211, 42_records.md R187, 60_exceptions.md R244: the errors of UNPACK: INLEN too
large, no bit at all, bad kings, a board cut short, a hand record cut short, HAND_CAP reached with bits
left. Its stream starts at bit 0 of IN with RLEN = INLEN. That a failure in a section leaves also the words
of POS and the HANDLEN of sections not reached unspecified is the model's reading of R211 and R244 (log
entry 6, DEDUCED). -/
def Obligations.UnpackErrors : Prop :=
  ∀ s : State, s.Inv →
    (s.params.inCap < s.inlen.toNat →
      exec .unpack s = .next { s with status := statusRaised ⟨.invalidOperand, .prim, 0⟩ }) ∧
    (s.inlen = 0#13 → ∃ t, exec .unpack s = .next t ∧ (∀ a, t.cell .pos a = none) ∧
      t = { s with rlen := 0#13, rpos := 0#16, handlen := none, posMem := t.posMem
                   status := statusRaised ⟨.unexpectedEndOfStream, .turn, 0#16⟩ }) ∧
    (∀ (turn : Bool) (pb pw : BitVec 7), s.inlen.toNat ≤ s.params.inCap →
      State.Offers { s with rlen := s.inlen, rpos := 0#16 } (turn :: (le7Bits pb ++ le7Bits pw)) →
      (pb.toNat > 80 ∨ pw.toNat > 80 ∨ pb = pw) →
      ∃ t, exec .unpack s = .next t ∧ (∀ a, t.cell .pos a = none) ∧
        t = { s with rlen := s.inlen, rpos := 15#16, handlen := none, posMem := t.posMem
                     status := statusRaised ⟨.invalidKingConfiguration, .board, 1#16⟩ }) ∧
    (∀ (turn : Bool) (off : Nat) (bits : List Bool), s.inlen.toNat ≤ s.params.inCap →
      State.OffersLast { s with rlen := s.inlen, rpos := 0#16 } (turn :: bits) → cutBoard off bits →
      ∃ t, exec .unpack s = .next t ∧ (∀ a, t.cell .pos a = none) ∧
        t = { s with
          rlen := s.inlen, rpos := BitVec.ofNat 16 (8 * s.inlen.toNat), handlen := none
          posMem := t.posMem
          status := statusRaised ⟨.unexpectedEndOfStream, .board, BitVec.ofNat 16 (1 + off)⟩ }) ∧
    ∀ (turn : Bool) (pb pw : Nat) (l hs : List Byte) (bits : List Bool) (off : Nat),
      s.inlen.toNat ≤ s.params.inCap → pb ≤ 80 → pw ≤ 80 → pb ≠ pw → l.length = 79 →
      (∀ w ∈ l, legalNonKing w = true) → (∀ h ∈ hs, readHand h = true) →
      off = 1 + 14 + (l.flatMap squareBits).length + (readSection hs).length →
      (hs.length < s.params.handCap → cutHandRecord bits →
        State.OffersLast { s with rlen := s.inlen, rpos := 0#16 }
          (turn :: (kingBits pb pw ++ l.flatMap squareBits ++ (readSection hs ++ bits))) →
        ∃ t, exec .unpack s = .next t ∧ (∀ a, t.cell .pos a = none) ∧
          t = { s with
            rlen := s.inlen, rpos := BitVec.ofNat 16 (8 * s.inlen.toNat), handlen := none
            posMem := t.posMem
            status := statusRaised ⟨.unexpectedEndOfStream, .hand, BitVec.ofNat 16 off⟩ }) ∧
      (hs.length = s.params.handCap → bits ≠ [] →
        State.Offers { s with rlen := s.inlen, rpos := 0#16 }
          (turn :: (kingBits pb pw ++ l.flatMap squareBits ++ (readSection hs ++ bits))) →
        ∃ t, exec .unpack s = .next t ∧ (∀ a, t.cell .pos a = none) ∧
          t = { s with
            rlen := s.inlen, rpos := BitVec.ofNat 16 off, handlen := none, posMem := t.posMem
            status := statusRaised ⟨.capacityExceeded, .hand, BitVec.ofNat 16 off⟩ })

/-- 43_pack_unpack.md R212, R213: the round trip of PACK and UNPACK, with the pad bits read as hand
records: exact where the length is a multiple of 8, extra BLACK PAWNs for 3 or 6 pad bits, and
UnexpectedEndOfStream for every other pad; CapacityExceeded where HAND_CAP is reached with bits left, which
42_records.md R187 says also where R212's third case does not (log entry 9). -/
def Obligations.PackUnpackRoundTrip : Prop :=
  ∀ (s t u : State) (turn : Bool) (b : Nat → Byte) (kb kw : Nat) (hs : List Byte) (n p : Nat) (w : Writer),
    s.Inv → Position s turn b kb kw hs → exec .pack s = .next t → statusErr t.status = 0 →
    n = t.result.toNat → p = (8 - n % 8) % 8 → t.writer = some w → u.Inv →
    u.params = s.params → u.inlen = w.outlen → w.outlen.toNat ≤ u.params.inCap →
    (∀ j < w.outlen.toNat, u.cell .inp j = t.cell .out j) →
    (hs.length + p / 3 ≤ s.params.handCap → p % 3 = 0 → ∃ v, exec .unpack u = .next v ∧
      statusErr v.status = 0 ∧ (∀ a ≤ 81, v.cell .pos a = s.cell .pos a) ∧
      v.handlen = some (BitVec.ofNat 10 (hs.length + p / 3)) ∧
      (∀ i (h : i < hs.length), v.cell .pos (128 + i) = some (hs[i] &&& 0xEF#8)) ∧
      ∀ i < p / 3, v.cell .pos (128 + hs.length + i) = some 0x00#8) ∧
    (s.params.handCap < hs.length + p / 3 ∨ s.params.handCap = hs.length + p / 3 ∧ p % 3 ≠ 0 →
      ∃ v, exec .unpack u = .next v ∧ statusErr v.status = 7 ∧ statusSec v.status = 3) ∧
    (hs.length + p / 3 < s.params.handCap → p % 3 ≠ 0 → ∃ v, exec .unpack u = .next v ∧
      v.status = statusRaised ⟨.unexpectedEndOfStream, .hand, BitVec.ofNat 16 (n + 3 * (p / 3))⟩)

/-! ## What every command does to STATUS and to the state -/

/-- 60_exceptions.md R243: STATUS at the end of every command that has a next state, and RESULT after an
error (R244). -/
def Obligations.StatusAtCompletion : Prop :=
  ∀ (s t : State) (i : Instr), exec i s = .next t →
    (i = .reset ∨ i = .clrerr → t.status = 0#32) ∧
    (i ≠ .reset → i ≠ .clrerr → t.status = statusDone s.status ∨
      t.result = s.result ∧ ∃ e : Err, t.status = statusRaised e ∧
        3 ≤ e.kind.code.toNat ∧ e.kind ≠ .illegalCommand)

/-- 60_exceptions.md R244, first two clauses: after InvalidOperand, and after InvalidKingConfiguration of
an encode, nothing but STATUS has changed. -/
def Obligations.CheckErrorsChangeNothing : Prop :=
  ∀ (s t : State) (i : Instr), i ≠ .reset → i ≠ .clrerr → exec i s = .next t →
    (statusErr t.status = 6 → t = { s with status := t.status }) ∧
    (statusErr t.status = 4 → i = .boardEnc ∨ i = .pack → t = { s with status := t.status })

/-- 60_exceptions.md R244, the clauses for decodes: after UnexpectedEndOfStream every bit is consumed,
after InvalidKingConfiguration RPOS is 14 past OFF, after CapacityExceeded of a hand decode RPOS is OFF. -/
def Obligations.DecodeErrorsLeaveTheCursor : Prop :=
  ∀ (s t : State) (i : Instr), s.Inv → i ≠ .reset → i ≠ .clrerr → exec i s = .next t →
    (statusErr t.status = 3 → t.rpos.toNat = 8 * t.rlen.toNat) ∧
    (statusErr t.status = 4 → i = .boardDec ∨ i = .unpack →
      t.rpos.toNat = (statusOff t.status).toNat + 14) ∧
    (statusErr t.status = 7 → i = .handDec ∨ i = .unpack → t.rpos = statusOff t.status)

/-! ## Frames -/

/-- 20_memory.md R66, 70_reset_and_hazards.md R282: what the writer commands leave alone. Every register
but WACC, WCNT, OUTLEN and STATUS (and RESULT for PACK), all of IN and POS; and of OUT, on completion,
every byte outside [OUTLEN before, OUTLEN after), or for PACK outside [0, OUTLEN after). -/
def Obligations.WriterFrame : Prop :=
  ∀ (s t : State) (i : Instr), s.Inv →
    (i = .wInit ∨ (∃ b, i = .wBit b) ∨ (∃ v, i = .wLe7 v) ∨ (∃ k, i = .wCode k) ∨ i = .wFlush ∨
      i = .turnEnc ∨ (∃ w, i = .sqEnc w) ∨ (∃ h, i = .hrecEnc h) ∨ i = .boardEnc ∨ i = .handEnc ∨
      i = .pack) →
    exec i s = .next t → sameButWriter s t ∧ (i ≠ .pack → t.result = s.result) ∧
    ∀ w w', s.writer = some w → t.writer = some w' → statusErr t.status = 0 →
      ∀ a, (w'.outlen.toNat ≤ a ∨ i ≠ .pack ∧ a < w.outlen.toNat) → t.cell .out a = s.cell .out a

/-- 20_memory.md R66, 70_reset_and_hazards.md R282: what the commands and stream items that return a value
in RESULT leave alone: everything but RPOS, RESULT and STATUS, so all of memory. -/
def Obligations.ReaderFrame : Prop :=
  ∀ (s t : State) (i : Instr),
    (i = .rExh ∨ i = .rBit ∨ i = .rLe7 ∨ i = .rCode ∨ i = .sqDec ∨ i = .hrecDec ∨
      ∃ n, itemValue i = some n) →
    exec i s = .next t → sameButReader s t

/-- 20_memory.md R66, 70_reset_and_hazards.md R282: what the decoders of POS leave alone. -/
def Obligations.DecoderFrame : Prop :=
  ∀ (s t : State) (i : Instr), exec i s = .next t →
    (i = .turnDec ∨ (∃ c, i = .recTurn c) → sameButPos (fun a => a = 81) s t) ∧
    (i = .boardDec → sameButPos (fun a => a ≤ 80) s t) ∧
    (i = .handDec → sameButPos (fun a => 128 ≤ a ∧ a < 128 + s.params.handCap)
      { s with handlen := t.handlen } t) ∧
    (i = .unpack → sameButPos (fun a => a ≤ 81 ∨ 128 ≤ a ∧ a < 128 + s.params.handCap)
      { s with rlen := t.rlen, handlen := t.handlen, result := t.result } t)

/-! ## Invariants -/

/-- 10_state.md R38: the invariant holds after a hardware reset, for every legal choice of parameters. -/
def Obligations.ResetHasInvariant : Prop :=
  (∀ p : Params, p.legal → (State.resetWith p).Inv) ∧ State.reset.Inv

/-- 10_state.md R21, R23, R25, R26, R27, 20_memory.md R50: every step keeps the invariant: WACC is 0 from
bit WCNT up, OUTLEN at most OUT_CAP with the bytes below it written, RPOS at most 8*RLEN, RESULT[31:16] = 0,
STATUS a word R27 allows, the memories in canonical form within their spaces. No step changes the
parameters (00_scope.md R5). -/
def Obligations.StepKeepsInvariant : Prop :=
  ∀ s t : State, s.Inv → step s = .next t → t.Inv ∧ t.params = s.params

/-- 10_state.md R38, 60_exceptions.md R244, 93_implementation_defined.md U1, U2: where a step faults and
where a command does. A step faults only for a cell of IN, OUT or POS its space has, or a register, that
holds no specified value then and there (20_memory.md R56, 30_encoding.md R81: it never accesses an
address that does not exist and never misses a code). And a command that reads such a thing faults on
it: the writer commands on an unspecified writer, HAND_ENC and PACK on an unspecified HANDLEN, the encoders
on the first POS word nobody wrote, the reader, the decoders, the stream items (log entry 5) and UNPACK on
the byte of IN nobody wrote that holds their next bit. Host reads of such things are CsrMap's and
HostMemoryAccess's. The registers' `none`, the unlisted cell and the fault as a stop are log entries 4, 10
and 12 (DEDUCED). -/
def Obligations.FaultsAreUnspecifiedReads : Prop :=
  ∀ s : State, s.Inv →
    (∀ f, step s = .fault f → f.unspecifiedIn s) ∧
    (s.writer = none →
      (∀ b, exec (.wBit b) s = .fault .unspecifiedWriter) ∧
      (∀ v, exec (.wLe7 v) s = .fault .unspecifiedWriter) ∧
      (∀ k, exec (.wCode k) s = .fault .unspecifiedWriter) ∧
      exec .wFlush s = .fault .unspecifiedWriter ∧
      (∀ x, legalNonKing x = true → exec (.sqEnc x) s = .fault .unspecifiedWriter) ∧
      (∀ h, legalHand h = true → exec (.hrecEnc h) s = .fault .unspecifiedWriter) ∧
      (∀ turn : Bool, s.cell .pos 81 = some (bitByte turn) →
        exec .turnEnc s = .fault .unspecifiedWriter) ∧
      (∀ b kb kw, s.HoldsBoard b → LegalBoard b kb kw →
        exec .boardEnc s = .fault .unspecifiedWriter) ∧
      (∀ hs, s.HoldsHand hs → (∀ h ∈ hs, legalHand h = true) → hs ≠ [] →
        exec .handEnc s = .fault .unspecifiedWriter)) ∧
    (s.handlen = none → exec .handEnc s = .fault .unspecifiedHandlen ∧
      ∀ (turn : Bool) (b : Nat → Byte) (kb kw : Nat), s.cell .pos 81 = some (bitByte turn) →
        s.HoldsBoard b → LegalBoard b kb kw → exec .pack s = .fault .unspecifiedHandlen) ∧
    (s.cell .pos 81 = none → exec .turnEnc s = .fault (.unwritten .pos 81) ∧
      exec .pack s = .fault (.unwritten .pos 81)) ∧
    (∀ a ≤ 80, (∀ x < a, ∃ w, s.cell .pos x = some w ∧ legalSquare w = true) → s.cell .pos a = none →
      exec .boardEnc s = .fault (.unwritten .pos a) ∧
      ∀ turn : Bool, s.cell .pos 81 = some (bitByte turn) →
        exec .pack s = .fault (.unwritten .pos a)) ∧
    (∀ (n : BitVec 10) (i : Nat), s.handlen = some n → n.toNat ≤ s.params.handCap → i < n.toNat →
      (∀ j < i, ∃ h, s.cell .pos (128 + j) = some h ∧ legalHand h = true) →
      s.cell .pos (128 + i) = none →
      exec .handEnc s = .fault (.unwritten .pos (128 + i)) ∧
      ∀ (turn : Bool) (b : Nat → Byte) (kb kw : Nat), s.cell .pos 81 = some (bitByte turn) →
        s.HoldsBoard b → LegalBoard b kb kw →
        exec .pack s = .fault (.unwritten .pos (128 + i))) ∧
    (∀ (bits : List Bool) (a : Nat), s.OffersUnwritten bits a →
      (bits = [] → exec .rBit s = .fault (.unwritten .inp a) ∧
        exec .turnDec s = .fault (.unwritten .inp a)) ∧
      (bits.length < 7 → exec .rLe7 s = .fault (.unwritten .inp a)) ∧
      (takeCode bits = none → exec .rCode s = .fault (.unwritten .inp a)) ∧
      (decodeItem .square bits = .error .endOfStream → exec .sqDec s = .fault (.unwritten .inp a)) ∧
      (decodeHandRec bits = none → exec .hrecDec s = .fault (.unwritten .inp a)) ∧
      (∀ off, cutBoard off bits → exec .boardDec s = .fault (.unwritten .inp a)) ∧
      (∀ (hs : List Byte) (cut : List Bool), (∀ h ∈ hs, readHand h = true) →
        hs.length < s.params.handCap → decodeHandRec cut = none → bits = readSection hs ++ cut →
        exec .handDec s = .fault (.unwritten .inp a)) ∧
      ∀ (i : Instr) (f : Form) (item : List Bool), encode i = .stream f item →
        bits.length < item.length → exec i s = .fault (.unwritten .inp a)) ∧
    ∀ (bits : List Bool) (a : Nat), s.inlen.toNat ≤ s.params.inCap →
      State.OffersUnwritten { s with rlen := s.inlen, rpos := 0#16 } bits a →
      (bits = [] ∨ (∃ turn rest off, bits = turn :: rest ∧ cutBoard off rest) ∨
        ∃ (turn : Bool) (pb pw : Nat) (l hs : List Byte) (cut : List Bool), pb ≤ 80 ∧ pw ≤ 80 ∧
          pb ≠ pw ∧ l.length = 79 ∧ (∀ w ∈ l, legalNonKing w = true) ∧ (∀ h ∈ hs, readHand h = true) ∧
          hs.length < s.params.handCap ∧ decodeHandRec cut = none ∧
          bits = turn :: (kingBits pb pw ++ l.flatMap squareBits ++ (readSection hs ++ cut))) →
      exec .unpack s = .fault (.unwritten .inp a)

/-- 20_memory.md R56: no command is refused; a step is refused only for a host access of a reserved
address. -/
def Obligations.OnlyReservedAccessesRefused : Prop :=
  (∀ (s : State) (i : Instr) (r : Refusal), exec i s ≠ .refused r) ∧
  ∀ (s : State) (r : Refusal), step s = .refused r → ∃ ev rest, s.script = ev :: rest ∧
    ((∃ a v, (ev = .csrRead a ∨ ev = .csrWrite a v) ∧ 9 ≤ a.toNat) ∨
      (∃ a v, (ev = .inRead a ∨ ev = .inWrite a v) ∧ s.params.inCap ≤ a) ∨
      (∃ a, ev = .outRead a ∧ s.params.outCap ≤ a) ∨
      ∃ a v, (ev = .posRead a ∨ ev = .posWrite a v) ∧
        (81 < a ∧ a < 128 ∨ 128 + s.params.handCap ≤ a))

end statements
end

