-- ==== Sys2Proof/Laws/Memory.lean ====
section
/-! SUPPORT. Laws of the memories: read after write, read after erase, and that every operation keeps the
canonical form and the bound on addresses. -/

namespace Sys2Proof.Machine

@[simp] theorem Memory.read_nil (a : Nat) : Memory.read [] a = none := rfl

theorem Memory.read_write (m : List Host.Cell) (a b : Nat) (v : Byte) :
    Memory.read (Memory.write m a v) b = if a = b then some v else Memory.read m b := by
  induction m with
  | nil => simp [Memory.write, Memory.read]
  | cons c m ih =>
    obtain ⟨x, u⟩ := c
    unfold Memory.write
    split
    · by_cases h : a = b <;> simp [Memory.read, h]
    · split
      · subst_vars; by_cases h : x = b <;> simp [Memory.read, h]
      · rw [Memory.read, Memory.read, ih]
        by_cases h : x = b
        · subst h; simp [*]
        · simp [h]

@[simp] theorem Memory.read_write_same (m : List Host.Cell) (a : Nat) (v : Byte) :
    Memory.read (Memory.write m a v) a = some v := by simp [Memory.read_write]

theorem Memory.read_write_other (m : List Host.Cell) {a b : Nat} (v : Byte) (h : a ≠ b) : Memory.read (Memory.write m a v) b = Memory.read m b := by
  simp [Memory.read_write, h]

theorem Memory.mem_write {m : List Host.Cell} {a : Nat} {v : Byte} {c : Host.Cell}
    (h : c ∈ Memory.write m a v) : c = (a, v) ∨ c ∈ m := by
  induction m with
  | nil => simpa [Memory.write] using h
  | cons d m ih =>
    obtain ⟨x, u⟩ := d
    unfold Memory.write at h
    split at h
    · simpa using h
    · split at h
      · rcases List.mem_cons.1 h with h | h <;> simp [h]
      · rcases List.mem_cons.1 h with h | h
        · simp [h]
        · rcases ih h with h | h <;> simp [h]

theorem Memory.wf_nil : Memory.wf [] := List.Pairwise.nil

/-- A write keeps the canonical form. -/
theorem Memory.wf_write (m : List Host.Cell) (a : Nat) (v : Byte) (hm : Memory.wf m) :
    Memory.wf (Memory.write m a v) := by
  induction m with
  | nil => simp [Memory.write]
  | cons c m ih =>
    obtain ⟨x, u⟩ := c
    obtain ⟨h1, h2⟩ := List.pairwise_cons.1 hm
    unfold Memory.write
    split
    · rename_i hlt
      refine List.pairwise_cons.2 ⟨fun d hd => ?_, hm⟩
      rcases List.mem_cons.1 hd with h | h
      · simp [h, hlt]
      · exact Nat.lt_trans hlt (h1 d h)
    · split
      · subst_vars; exact List.pairwise_cons.2 ⟨h1, h2⟩
      · rename_i hge hne
        refine List.pairwise_cons.2 ⟨fun d hd => ?_, ih h2⟩
        rcases Memory.mem_write hd with h | h
        · simp only [h]; omega
        · exact h1 d h

/-- Erasing keeps the canonical form. -/
theorem Memory.wf_erase (m : List Host.Cell) (lo hi : Nat) (hm : Memory.wf m) :
    Memory.wf (Memory.erase m lo hi) := List.Pairwise.filter _ hm

theorem Memory.read_erase (m : List Host.Cell) (lo hi a : Nat) :
    Memory.read (Memory.erase m lo hi) a = if lo ≤ a ∧ a < hi then none else Memory.read m a := by
  induction m with
  | nil => simp [Memory.erase]
  | cons c m ih =>
    obtain ⟨x, u⟩ := c
    unfold Memory.erase at ih ⊢
    rw [List.filter_cons]
    by_cases hx : lo ≤ x ∧ x < hi
    · simp only [hx, decide_true, Bool.and_self, Bool.not_true, Bool.false_eq_true, if_false, ih]
      simp only [Memory.read]
      by_cases hxa : x = a
      · subst hxa; simp [hx]
      · simp [hxa]
    · have : (!(decide (lo ≤ x) && decide (x < hi))) = true := by simp; omega
      simp only [this, if_true, Memory.read, ih]
      by_cases hxa : x = a
      · subst hxa; simp [hx]
      · simp [hxa]

theorem Memory.mem_of_mem_erase {m : List Host.Cell} {lo hi : Nat} {c : Host.Cell}
    (h : c ∈ Memory.erase m lo hi) : c ∈ m := (List.mem_filter.1 h).1

/-- A cell that reads as a value is listed. -/
theorem Memory.mem_of_read {m : List Host.Cell} {a : Nat} {v : Byte} (h : Memory.read m a = some v) :
    (a, v) ∈ m := by
  induction m with
  | nil => simp at h
  | cons c m ih =>
    obtain ⟨x, u⟩ := c
    rw [Memory.read] at h
    split at h
    · simp_all
    · exact List.mem_cons_of_mem _ (ih h)

end Sys2Proof.Machine
end

