-- ==== Sys2Proof/Laws/State.lean ====
section
/-! SUPPORT. One lemma per field for each named update of the state, so that no later proof unfolds a
record update. -/

namespace Sys2Proof.Machine

section complete
variable (s : State)

@[simp] theorem State.complete_params : s.complete.params = s.params := rfl
@[simp] theorem State.complete_writer : s.complete.writer = s.writer := rfl
@[simp] theorem State.complete_inlen : s.complete.inlen = s.inlen := rfl
@[simp] theorem State.complete_rlen : s.complete.rlen = s.rlen := rfl
@[simp] theorem State.complete_rpos : s.complete.rpos = s.rpos := rfl
@[simp] theorem State.complete_result : s.complete.result = s.result := rfl
@[simp] theorem State.complete_status : s.complete.status = statusDone s.status := rfl
@[simp] theorem State.complete_handlen : s.complete.handlen = s.handlen := rfl
@[simp] theorem State.complete_inMem : s.complete.inMem = s.inMem := rfl
@[simp] theorem State.complete_outMem : s.complete.outMem = s.outMem := rfl
@[simp] theorem State.complete_posMem : s.complete.posMem = s.posMem := rfl
@[simp] theorem State.complete_script : s.complete.script = s.script := rfl
@[simp] theorem State.complete_hostData : s.complete.hostData = s.hostData := rfl

end complete

section takeError
variable (e : Err) (s : State)

@[simp] theorem State.takeError_params : (s.takeError e).params = s.params := rfl
@[simp] theorem State.takeError_writer : (s.takeError e).writer = s.writer := rfl
@[simp] theorem State.takeError_inlen : (s.takeError e).inlen = s.inlen := rfl
@[simp] theorem State.takeError_rlen : (s.takeError e).rlen = s.rlen := rfl
@[simp] theorem State.takeError_rpos : (s.takeError e).rpos = s.rpos := rfl
@[simp] theorem State.takeError_result : (s.takeError e).result = s.result := rfl
@[simp] theorem State.takeError_status : (s.takeError e).status = statusRaised e := rfl
@[simp] theorem State.takeError_handlen : (s.takeError e).handlen = s.handlen := rfl
@[simp] theorem State.takeError_inMem : (s.takeError e).inMem = s.inMem := rfl
@[simp] theorem State.takeError_outMem : (s.takeError e).outMem = s.outMem := rfl
@[simp] theorem State.takeError_posMem : (s.takeError e).posMem = s.posMem := rfl
@[simp] theorem State.takeError_script : (s.takeError e).script = s.script := rfl
@[simp] theorem State.takeError_hostData : (s.takeError e).hostData = s.hostData := rfl

end takeError

section setCells
variable (s : State) (sp : Space) (m : List Host.Cell)

@[simp] theorem State.setCells_params : (s.setCells sp m).params = s.params := by cases sp <;> rfl
@[simp] theorem State.setCells_writer : (s.setCells sp m).writer = s.writer := by cases sp <;> rfl
@[simp] theorem State.setCells_inlen : (s.setCells sp m).inlen = s.inlen := by cases sp <;> rfl
@[simp] theorem State.setCells_rlen : (s.setCells sp m).rlen = s.rlen := by cases sp <;> rfl
@[simp] theorem State.setCells_rpos : (s.setCells sp m).rpos = s.rpos := by cases sp <;> rfl
@[simp] theorem State.setCells_result : (s.setCells sp m).result = s.result := by cases sp <;> rfl
@[simp] theorem State.setCells_status : (s.setCells sp m).status = s.status := by cases sp <;> rfl
@[simp] theorem State.setCells_handlen : (s.setCells sp m).handlen = s.handlen := by cases sp <;> rfl
@[simp] theorem State.setCells_script : (s.setCells sp m).script = s.script := by cases sp <;> rfl
@[simp] theorem State.setCells_hostData : (s.setCells sp m).hostData = s.hostData := by
  cases sp <;> rfl
@[simp] theorem State.setCells_inp : s.setCells .inp m = { s with inMem := m } := rfl
@[simp] theorem State.setCells_out : s.setCells .out m = { s with outMem := m } := rfl
@[simp] theorem State.setCells_pos : s.setCells .pos m = { s with posMem := m } := rfl
@[simp] theorem State.cells_inp : s.cells .inp = s.inMem := rfl
@[simp] theorem State.cells_out : s.cells .out = s.outMem := rfl
@[simp] theorem State.cells_pos : s.cells .pos = s.posMem := rfl

end setCells

section answer
variable (s : State) (v : CsrWord)

@[simp] theorem State.answer_hostData : (s.answer v).hostData = v := rfl
@[simp] theorem State.answer_script : (s.answer v).script = s.script := rfl
@[simp] theorem State.answer_status : (s.answer v).status = s.status := rfl

end answer

section hardReset
variable (s : State)

@[simp] theorem State.hardReset_params : s.hardReset.params = s.params := rfl
@[simp] theorem State.hardReset_script : s.hardReset.script = s.script := rfl
@[simp] theorem State.hardReset_hostData : s.hardReset.hostData = s.hostData := rfl

end hardReset

section place
variable (s : State) (w : CmdWord) (f : Form) (bits : List Bool)

@[simp] theorem State.withCommand_script : (s.withCommand w).script = issue w :: s.script := rfl
@[simp] theorem State.withItem_rpos : (s.withItem f bits).rpos = 0#16 := rfl
@[simp] theorem State.withItem_rlen : (s.withItem f bits).rlen = 1#13 := rfl
@[simp] theorem State.withItem_script :
    (s.withItem f bits).script = issue (wordOf (readerOf f)) :: s.script := rfl

end place

/-! ## The fields of a STATUS word (10_state.md R27) -/

section status
variable (e : BitVec 4) (c : BitVec 2) (k : Bool) (o : BitVec 16)

theorem statusWord_bit (i : Nat) : (statusWord e c k o).getLsbD i =
    if i < 4 then e.getLsbD i else if i < 6 then c.getLsbD (i - 4) else if i = 6 then k
    else if i < 16 then false else o.getLsbD (i - 16) := by
  simp only [statusWord, BitVec.getLsbD_append]
  by_cases h1 : i < 4
  · simp [h1]
  by_cases h2 : i < 6
  · have : i - 4 < 2 := by omega
    simp only [h1, h2, this, if_true, if_false]
  by_cases h3 : i = 6
  · subst h3; simp
  have h4 : ¬ i - 4 < 2 := by omega
  have h5 : ¬ i - 4 - 2 < 1 := by omega
  simp only [h1, h2, h3, h4, h5, if_false]
  by_cases h6 : i < 16
  · have : i - 4 - 2 - 1 < 9 := by omega
    simp [h6, this]
  · have : ¬ i - 4 - 2 - 1 < 9 := by omega
    simp only [h6, this, if_false]
    congr 1

@[simp] theorem statusErr_word : statusErr (statusWord e c k o) = e := by
  apply BitVec.eq_of_getLsbD_eq
  intro i hi
  simp only [statusErr, BitVec.getLsbD_extractLsb', statusWord_bit, hi, if_true, decide_true,
    Bool.true_and, Nat.zero_add]

@[simp] theorem statusSec_word : statusSec (statusWord e c k o) = c := by
  apply BitVec.eq_of_getLsbD_eq
  intro i hi
  have h1 : ¬ 4 + i < 4 := by omega
  have h2 : 4 + i < 6 := by omega
  simp only [statusSec, BitVec.getLsbD_extractLsb', statusWord_bit, hi, h1, h2, if_true, if_false,
    decide_true, Bool.true_and, Nat.add_sub_cancel_left]

@[simp] theorem statusSticky_word : statusSticky (statusWord e c k o) = k := by
  rw [statusSticky, statusWord_bit]; rfl

@[simp] theorem statusOff_word : statusOff (statusWord e c k o) = o := by
  apply BitVec.eq_of_getLsbD_eq
  intro i hi
  have h1 : ¬ 16 + i < 4 := by omega
  have h2 : ¬ 16 + i < 6 := by omega
  have h3 : ¬ 16 + i = 6 := by omega
  have h4 : ¬ 16 + i < 16 := by omega
  simp only [statusOff, BitVec.getLsbD_extractLsb', statusWord_bit, hi, h1, h2, h3, h4, if_false,
    decide_true, Bool.true_and, Nat.add_sub_cancel_left]

@[simp] theorem statusWord_reserved : (statusWord e c k o).extractLsb' 7 9 = 0#9 := by
  apply BitVec.eq_of_getLsbD_eq
  intro i hi
  have h1 : ¬ 7 + i < 4 := by omega
  have h2 : ¬ 7 + i < 6 := by omega
  have h3 : ¬ 7 + i = 6 := by omega
  have h4 : 7 + i < 16 := by omega
  simp only [BitVec.getLsbD_extractLsb', statusWord_bit, h1, h2, h3, h4, if_false, if_true,
    Bool.and_false, BitVec.getLsbD_zero]

end status

end Sys2Proof.Machine
end

