-- ==== Sys2Proof/Laws/Cmd.lean ====
section
/-! SUPPORT. Laws of commands in progress: how `bind` runs, how `finish` ends, and the two ways the later
files say what a command can do: `Keeps` (a relation between the state before and every state it can end
in) and `Safe` (a predicate it preserves, and which faults it can stop with). -/

namespace Sys2Proof.Machine

variable {α β : Type}

@[simp] theorem Cmd.pure_apply (a : α) (s : State) : Cmd.pure a s = .done a s := rfl
@[simp] theorem Cmd.get_apply (f : State → α) (s : State) : Cmd.get f s = .done (f s) s := rfl
@[simp] theorem Cmd.modify_apply (f : State → State) (s : State) :
    Cmd.modify f s = .done () (f s) := rfl
@[simp] theorem Cmd.raise_apply (k : ErrKind) (c : Sec) (o : BitVec 16) (s : State) :
    (Cmd.raise k c o : Cmd α) s = .raised ⟨k, c, o⟩ s := rfl
@[simp] theorem Cmd.stop_apply (f : Fault) (s : State) : (Cmd.stop f : Cmd α) s = .stopped f := rfl
@[simp] theorem cursor_apply (s : State) : cursor s = .done s.rpos s := rfl
@[simp] theorem setResult_apply {n : Nat} (v : BitVec n) (s : State) :
    setResult v s = .done () { s with result := v.setWidth 32 } := rfl
@[simp] theorem setWriter_apply (w : Writer) (s : State) :
    setWriter w s = .done () { s with writer := some w } := rfl

theorem Cmd.bind_done {m : Cmd α} {f : α → Cmd β} {s t : State} {a : α} (h : m s = .done a t) :
    m.bind f s = f a t := by simp [Cmd.bind, h]

theorem Cmd.bind_raised {m : Cmd α} {f : α → Cmd β} {s t : State} {e : Err} (h : m s = .raised e t) :
    m.bind f s = .raised e t := by simp [Cmd.bind, h]

theorem Cmd.bind_stopped {m : Cmd α} {f : α → Cmd β} {s : State} {x : Fault} (h : m s = .stopped x) :
    m.bind f s = .stopped x := by simp [Cmd.bind, h]

/-- Two parts are done when the first one is, and the second one after it. -/
theorem Cmd.bind_done_inv {m : Cmd α} {f : α → Cmd β} {s t : State} {b : β}
    (h : m.bind f s = .done b t) : ∃ a u, m s = .done a u ∧ f a u = .done b t := by
  unfold Cmd.bind at h
  cases hm : m s with
  | done a u => rw [hm] at h; exact ⟨a, u, rfl, h⟩
  | raised e u => rw [hm] at h; cases h
  | stopped f => rw [hm] at h; cases h

@[simp] theorem Cmd.pure_bind (a : α) (f : α → Cmd β) : (Cmd.pure a).bind f = f a := rfl

@[simp] theorem Cmd.get_bind_apply (g : State → α) (f : α → Cmd β) (s : State) :
    (Cmd.get g).bind f s = f (g s) s := rfl

@[simp] theorem Cmd.cursor_bind_apply (f : BitVec 16 → Cmd β) (s : State) :
    cursor.bind f s = f s.rpos s := rfl

@[simp] theorem Cmd.modify_bind_apply (g : State → State) (f : Unit → Cmd β) (s : State) :
    (Cmd.modify g).bind f s = f () (g s) := rfl

theorem Cmd.bind_assoc {γ : Type} (m : Cmd α) (f : α → Cmd β) (g : β → Cmd γ) :
    (m.bind f).bind g = m.bind fun a => (f a).bind g := by
  funext s
  simp only [Cmd.bind]
  cases m s <;> rfl

theorem Cmd.each_append (l l' : List α) (body : α → Cmd Unit) :
    Cmd.each (l ++ l') body = (Cmd.each l body).bind fun _ => Cmd.each l' body := by
  induction l with
  | nil => rfl
  | cons x l ih => simp only [List.cons_append, Cmd.each, ih, Cmd.bind_assoc]

theorem Cmd.each_cons (x : α) (l : List α) (body : α → Cmd Unit) :
    Cmd.each (x :: l) body = (body x).bind fun _ => Cmd.each l body := rfl

/-! ## finish -/

variable {spoil : ErrKind → State → State} {c : Cmd Unit} {s t : State}

theorem finish_done (h : c s = .done () t) : finish spoil c s = .next t.complete := by
  simp [finish, h]

theorem finish_raised {e : Err} (h : c s = .raised e t) :
    finish spoil c s = .next ((spoil e.kind t).takeError e) := by simp [finish, h]

theorem finish_stopped {f : Fault} (h : c s = .stopped f) : finish spoil c s = .fault f := by
  simp [finish, h]

/-- A command that ends in a next state has completed or has raised an error. -/
theorem finish_next_cases (h : finish spoil c s = .next t) :
    (∃ u, c s = .done () u ∧ t = u.complete) ∨
    (∃ e u, c s = .raised e u ∧ t = (spoil e.kind u).takeError e) := by
  unfold finish at h
  split at h
  · next u hc => exact .inl ⟨u, hc, by cases h; rfl⟩
  · next e u hc => exact .inr ⟨e, u, hc, by cases h; rfl⟩
  · cases h

/-- No command is refused. -/
theorem finish_ne_refused (r : Refusal) : finish spoil c s ≠ .refused r := by
  unfold finish
  split <;> simp

/-! ## What a command keeps -/

/-- Every state the command can end in, completed or raised, is related to the state before. -/
def Cmd.Keeps (R : State → State → Prop) (c : Cmd α) : Prop := ∀ s,
  match c s with
  | .done _ t => R s t
  | .raised _ t => R s t
  | .stopped _ => True

section keeps
variable {R : State → State → Prop}

theorem Cmd.keeps_pure (hr : ∀ s, R s s) (a : α) : (Cmd.pure a).Keeps R := fun s => hr s
theorem Cmd.keeps_get (hr : ∀ s, R s s) (f : State → α) : (Cmd.get f).Keeps R := fun s => hr s
theorem Cmd.keeps_raise (hr : ∀ s, R s s) (k : ErrKind) (c : Sec) (o : BitVec 16) :
    (Cmd.raise k c o : Cmd α).Keeps R := fun s => hr s
theorem Cmd.keeps_stop (f : Fault) : (Cmd.stop f : Cmd α).Keeps R := fun _ => trivial
theorem Cmd.keeps_modify {f : State → State} (h : ∀ s, R s (f s)) : (Cmd.modify f).Keeps R :=
  fun s => h s

theorem Cmd.keeps_bind (ht : ∀ a b c, R a b → R b c → R a c) {m : Cmd α} {f : α → Cmd β}
    (hm : m.Keeps R) (hf : ∀ a, (f a).Keeps R) : (m.bind f).Keeps R := by
  intro s
  have h1 := hm s
  unfold Cmd.bind
  cases h : m s with
  | done a t =>
    rw [h] at h1
    have h2 := hf a t
    simp only
    cases h' : f a t <;> rw [h'] at h2
    · exact ht _ _ _ h1 h2
    · exact ht _ _ _ h1 h2
    · trivial
  | raised e t => rw [h] at h1; exact h1
  | stopped f => trivial

theorem Cmd.keeps_each (hr : ∀ s, R s s) (ht : ∀ a b c, R a b → R b c → R a c) (l : List α)
    {body : α → Cmd Unit} (h : ∀ a, (body a).Keeps R) : (Cmd.each l body).Keeps R := by
  induction l with
  | nil => exact Cmd.keeps_pure hr ()
  | cons x l ih => exact Cmd.keeps_bind ht (h x) fun _ => ih

theorem Cmd.keeps_ite {p : Prop} [Decidable p] {c d : Cmd α} (hc : p → c.Keeps R)
    (hd : ¬p → d.Keeps R) : (if p then c else d).Keeps R := by
  split
  · exact hc ‹_›
  · exact hd ‹_›

theorem Cmd.Keeps.done {c : Cmd α} (h : c.Keeps R) {s t : State} {a : α} (hc : c s = .done a t) :
    R s t := by have := h s; rw [hc] at this; exact this

theorem Cmd.Keeps.raised {c : Cmd α} (h : c.Keeps R) {s t : State} {e : Err}
    (hc : c s = .raised e t) : R s t := by have := h s; rw [hc] at this; exact this

end keeps

/-! ## What a command preserves, and how it can stop -/

/-- An end in a state with P, completed or with an error some command raises (60_exceptions.md R240), or a
fault that F admits. -/
def Run.Ok (P : State → Prop) (F : Fault → Prop) : Run α → Prop
  | .done _ t => P t
  | .raised e t => P t ∧ 3 ≤ e.kind.code.toNat
  | .stopped f => F f

/-- From a state with P the command ends so. -/
def Cmd.Safe (P : State → Prop) (F : Fault → Prop) (c : Cmd α) : Prop := ∀ s, P s → (c s).Ok P F

section safe
variable {P : State → Prop} {F : Fault → Prop}

theorem Cmd.safe_pure (a : α) : (Cmd.pure a).Safe P F := fun _ h => h
theorem Cmd.safe_get (f : State → α) : (Cmd.get f).Safe P F := fun _ h => h
theorem Cmd.safe_raise {k : ErrKind} (hk : 3 ≤ k.code.toNat) (c : Sec) (o : BitVec 16) :
    (Cmd.raise k c o : Cmd α).Safe P F := fun _ h => ⟨h, hk⟩
theorem Cmd.safe_stop {f : Fault} (h : F f) : (Cmd.stop f : Cmd α).Safe P F := fun _ _ => h
theorem Cmd.safe_modify {f : State → State} (h : ∀ s, P s → P (f s)) : (Cmd.modify f).Safe P F :=
  fun s hs => h s hs

theorem Cmd.safe_bind {m : Cmd α} {f : α → Cmd β} (hm : m.Safe P F) (hf : ∀ a, (f a).Safe P F) :
    (m.bind f).Safe P F := by
  intro s hs
  have h1 := hm s hs
  unfold Cmd.bind
  cases h : m s with
  | done a t => rw [h] at h1; exact hf a t h1
  | raised e t => rw [h] at h1; exact h1
  | stopped f => rw [h] at h1; exact h1

/-- As `safe_bind`, where the second part needs to know what the first one returned. -/
theorem Cmd.safe_bind_of {m : Cmd α} {f : α → Cmd β} {A : α → Prop} (hm : m.Safe P F)
    (ha : ∀ s t a, P s → m s = .done a t → A a) (hf : ∀ a, A a → (f a).Safe P F) :
    (m.bind f).Safe P F := by
  intro s hs
  have h1 := hm s hs
  unfold Cmd.bind
  cases h : m s with
  | done a t => rw [h] at h1; exact hf a (ha s t a hs h) t h1
  | raised e t => rw [h] at h1; exact h1
  | stopped f => rw [h] at h1; exact h1

theorem Cmd.safe_each (l : List α) {body : α → Cmd Unit} (h : ∀ a ∈ l, (body a).Safe P F) :
    (Cmd.each l body).Safe P F := by
  induction l with
  | nil => exact Cmd.safe_pure ()
  | cons x l ih =>
    exact Cmd.safe_bind (h x List.mem_cons_self) fun _ => ih fun a ha => h a (List.mem_cons_of_mem _ ha)

theorem Cmd.safe_ite {p : Prop} [Decidable p] {c d : Cmd α} (hc : p → c.Safe P F)
    (hd : ¬p → d.Safe P F) : (if p then c else d).Safe P F := by
  split
  · exact hc ‹_›
  · exact hd ‹_›

end safe

end Sys2Proof.Machine
end

