-- ==== Sys2Proof/Laws/Reader.lean ====
section
/-! SUPPORT. Laws of the bit-stream reader: GetBit takes the next bit of the stream, every field and record
primitive takes exactly the bits of its item, and a stream that ends inside an item raises
UnexpectedEndOfStream with every bit consumed (40_bitstream.md R123, R127, 41_piece_code.md R152, R155). -/

namespace Sys2Proof.Machine

/-- The state with the cursor n bits further. -/
def State.advance (s : State) (n : Nat) : State := { s with rpos := s.rpos + BitVec.ofNat 16 n }

/-- What the reader needs of the state. -/
structure State.RInv (s : State) : Prop where
  cap : s.params.inCap ≤ 8191
  rlen : s.rlen.toNat ≤ s.params.inCap
  rpos : s.rpos.toNat ≤ 8 * s.rlen.toNat

theorem State.Inv.rInv {s : State} (h : s.Inv) : s.RInv := ⟨h.params.1.2, h.rlen, h.rpos⟩

section advance
variable (s : State) (n : Nat)

@[simp] theorem State.advance_params : (s.advance n).params = s.params := rfl
@[simp] theorem State.advance_writer : (s.advance n).writer = s.writer := rfl
@[simp] theorem State.advance_inlen : (s.advance n).inlen = s.inlen := rfl
@[simp] theorem State.advance_rlen : (s.advance n).rlen = s.rlen := rfl
@[simp] theorem State.advance_result : (s.advance n).result = s.result := rfl
@[simp] theorem State.advance_status : (s.advance n).status = s.status := rfl
@[simp] theorem State.advance_handlen : (s.advance n).handlen = s.handlen := rfl
@[simp] theorem State.advance_inMem : (s.advance n).inMem = s.inMem := rfl
@[simp] theorem State.advance_outMem : (s.advance n).outMem = s.outMem := rfl
@[simp] theorem State.advance_posMem : (s.advance n).posMem = s.posMem := rfl
@[simp] theorem State.advance_script : (s.advance n).script = s.script := rfl
@[simp] theorem State.advance_hostData : (s.advance n).hostData = s.hostData := rfl
@[simp] theorem State.advance_streamBit (j : Nat) : (s.advance n).streamBit j = s.streamBit j := rfl
@[simp] theorem State.advance_cell (sp : Space) (a : Nat) : (s.advance n).cell sp a = s.cell sp a := by
  cases sp <;> rfl

end advance

theorem State.advance_zero (s : State) : s.advance 0 = s := by simp [State.advance]

theorem State.advance_advance (s : State) (m n : Nat) : (s.advance m).advance n = s.advance (m + n) := by
  simp only [State.advance]
  congr 1
  rw [BitVec.add_assoc]
  congr 1
  apply BitVec.eq_of_toNat_eq
  simp

theorem State.advance_rpos {s : State} (hi : s.RInv) {n : Nat}
    (h : s.rpos.toNat + n ≤ 8 * s.rlen.toNat) : (s.advance n).rpos.toNat = s.rpos.toNat + n := by
  have := hi.cap; have := hi.rlen
  simp only [State.advance, BitVec.toNat_add, BitVec.toNat_ofNat]
  omega

theorem State.RInv.advance {s : State} (hi : s.RInv) {n : Nat}
    (h : s.rpos.toNat + n ≤ 8 * s.rlen.toNat) : (s.advance n).RInv :=
  ⟨hi.cap, hi.rlen, by rw [State.advance_rpos hi h]; exact h⟩

theorem State.Offers.le {s : State} {bits : List Bool} (h : s.Offers bits) :
    s.rpos.toNat + bits.length ≤ 8 * s.rlen.toNat := h.1

theorem State.offers_nil {s : State} (hi : s.RInv) : s.Offers [] :=
  ⟨hi.rpos, fun j h => absurd h (Nat.not_lt_zero j)⟩

theorem State.Offers.left {s : State} {b b' : List Bool} (h : s.Offers (b ++ b')) : s.Offers b := by
  refine ⟨by have := h.1; rw [List.length_append] at this; omega, fun j hj => ?_⟩
  have := h.2 j (by rw [List.length_append]; omega)
  rw [List.getElem_append_left hj] at this
  exact this

theorem State.Offers.right {s : State} (hi : s.RInv) {b b' : List Bool} (h : s.Offers (b ++ b')) :
    (s.advance b.length).Offers b' := by
  have hle := h.left.1
  have h1 := h.1
  rw [List.length_append] at h1
  refine ⟨by rw [State.advance_rpos hi hle]; simp only [State.advance_rlen]; omega, fun j hj => ?_⟩
  have := h.2 (b.length + j) (by rw [List.length_append]; omega)
  rw [List.getElem_append_right (by omega)] at this
  rw [State.advance_rpos hi hle, State.advance_streamBit, Nat.add_assoc, this]
  simp

theorem State.OffersLast.right {s : State} (hi : s.RInv) {b b' : List Bool}
    (h : s.OffersLast (b ++ b')) : (s.advance b.length).OffersLast b' := by
  refine ⟨h.1.right hi, ?_⟩
  rw [State.advance_rpos hi h.1.left.1]
  have := h.2
  rw [List.length_append] at this
  simp only [State.advance_rlen]; omega

theorem State.exhausted_iff (s : State) : s.exhausted = true ↔ s.rpos.toNat = 8 * s.rlen.toNat := by
  simp [State.exhausted]

/-- GetBit takes the next bit (40_bitstream.md R123). -/
theorem getBit_ok {s : State} (hi : s.RInv) (sec : Sec) (off : BitVec 16) {b : Bool}
    {bits : List Bool} (h : s.Offers (b :: bits)) : getBit sec off s = .done b (s.advance 1) := by
  have hle := h.1
  rw [List.length_cons] at hle
  have hex : s.exhausted = false := by
    rw [Bool.eq_false_iff]; intro hc
    have := (s.exhausted_iff).1 hc; omega
  have hb := h.2 0 (by simp)
  simp only [State.streamBit, Nat.add_zero, List.getElem_cons_zero, Option.map_eq_some_iff] at hb
  obtain ⟨byte, hc, hb⟩ := hb
  have hcap := hi.rlen
  have haddr : s.hasAddr .inp (s.rpos.toNat / 8) = true := by
    simp only [State.hasAddr, decide_eq_true_eq]; omega
  simp [getBit, hex, Cmd.bind, memRead, haddr, hc, hb, State.advance]

/-- GetBit on an exhausted reader (40_bitstream.md R123). -/
theorem getBit_end {s : State} (sec : Sec) (off : BitVec 16) (h : s.exhausted = true) :
    getBit sec off s = .raised ⟨.unexpectedEndOfStream, sec, off⟩ s := by
  simp [getBit, h]

theorem State.OffersLast.exhausted {s : State} (h : s.OffersLast []) : s.exhausted = true := by
  rw [State.exhausted_iff]; exact h.2

theorem State.OffersUnwritten.right {s : State} (hi : s.RInv) {b b' : List Bool} {a : Nat}
    (h : s.OffersUnwritten (b ++ b') a) : (s.advance b.length).OffersUnwritten b' a := by
  have hb := State.advance_rpos hi h.1.left.1
  obtain ⟨ho, hlt, ha, hc⟩ := h
  rw [List.length_append] at hlt ha
  exact ⟨ho.right hi, by rw [hb]; simp only [State.advance_rlen]; omega, by rw [hb, ha]; congr 1; omega,
    by rw [State.advance_cell]; exact hc⟩

/-- GetBit where the next bit lies in an unwritten byte (40_bitstream.md R123, 10_state.md R38). -/
theorem getBit_unwritten {s : State} (hi : s.RInv) (sec : Sec) (off : BitVec 16) {a : Nat}
    (h : s.OffersUnwritten [] a) : getBit sec off s = .stopped (.unwritten .inp a) := by
  obtain ⟨-, hlt, ha, hc⟩ := h
  rw [List.length_nil, Nat.add_zero] at hlt ha
  have hex : s.exhausted = false := by
    rw [Bool.eq_false_iff]; intro he
    have := (s.exhausted_iff).1 he; omega
  have hcap := hi.rlen
  have haddr : s.hasAddr .inp (s.rpos.toNat / 8) = true := by
    simp only [State.hasAddr, decide_eq_true_eq]; omega
  rw [ha] at hc
  simp [getBit, hex, Cmd.bind, memRead, haddr, hc, ha]

/-- m has taken n bits and what it does next is GetBit: what every field and record primitive does on bits
that end inside its item. -/
def Cmd.TakesNext {α : Type} (m : Cmd α) (s : State) (sec : Sec) (off : BitVec 16) (n : Nat) : Prop :=
  ∃ k : Bool → Cmd α, m s = (getBit sec off).bind k (s.advance n)

section takesNext
variable {α β : Type} {m : Cmd α} {s : State} {sec : Sec} {off : BitVec 16} {n : Nat}

/-- A stream that ends there: every bit is consumed, then the error. -/
theorem Cmd.TakesNext.short (h : m.TakesNext s sec off n) (he : (s.advance n).exhausted = true) :
    m s = .raised ⟨.unexpectedEndOfStream, sec, off⟩ (s.advance n) := by
  obtain ⟨k, h⟩ := h
  rw [h, Cmd.bind_raised (getBit_end sec off he)]

/-- A stream whose next byte is unwritten. -/
theorem Cmd.TakesNext.unwritten (h : m.TakesNext s sec off n) (hi : (s.advance n).RInv) {a : Nat}
    (ho : (s.advance n).OffersUnwritten [] a) : m s = .stopped (.unwritten .inp a) := by
  obtain ⟨k, h⟩ := h
  rw [h, Cmd.bind_stopped (getBit_unwritten hi sec off ho)]

theorem Cmd.TakesNext.bind (h : m.TakesNext s sec off n) (f : α → Cmd β) :
    (m.bind f).TakesNext s sec off n := by
  obtain ⟨k, h⟩ := h
  refine ⟨fun b => (k b).bind f, ?_⟩
  rw [← Cmd.bind_assoc]
  simp only [Cmd.bind, h]

/-- A first part that is done, and a second one that takes the next bit. -/
theorem Cmd.TakesNext.after {f : α → Cmd β} {a : α} {j : Nat} (hm : m s = .done a (s.advance j))
    (h : (f a).TakesNext (s.advance j) sec off n) : (m.bind f).TakesNext s sec off (j + n) := by
  obtain ⟨k, h⟩ := h
  exact ⟨k, by rw [Cmd.bind_done hm, h, State.advance_advance]⟩

/-- GetBit itself, and what begins with it. -/
theorem getBit_takesNext (s : State) (sec : Sec) (off : BitVec 16) (k : Bool → Cmd β) :
    ((getBit sec off).bind k).TakesNext s sec off 0 := ⟨k, by rw [State.advance_zero]⟩

end takesNext

theorem State.OffersLast.exhausted_advance {s : State} (hi : s.RInv) {bits : List Bool}
    (h : s.OffersLast bits) : (s.advance bits.length).exhausted = true := by
  rw [State.exhausted_iff, State.advance_rpos hi h.1.1]; exact h.2

theorem State.OffersUnwritten.advance {s : State} (hi : s.RInv) {bits : List Bool} {a : Nat}
    (h : s.OffersUnwritten bits a) :
    (s.advance bits.length).RInv ∧ (s.advance bits.length).OffersUnwritten [] a :=
  ⟨hi.advance h.1.1, State.OffersUnwritten.right hi (by rwa [List.append_nil])⟩

/-- A list of bits taken one after the other: what every field and record primitive is made of. -/
theorem Offers.uncons {s : State} (hi : s.RInv) {b : Bool} {bits : List Bool}
    (h : s.Offers (b :: bits)) : (s.advance 1).RInv ∧ (s.advance 1).Offers bits :=
  ⟨hi.advance (by have := h.1; rw [List.length_cons] at this; omega),
    State.Offers.right hi (b := [b]) h⟩

theorem OffersLast.uncons {s : State} (hi : s.RInv) {b : Bool} {bits : List Bool}
    (h : s.OffersLast (b :: bits)) : (s.advance 1).RInv ∧ (s.advance 1).OffersLast bits :=
  ⟨(Offers.uncons hi h.1).1, State.OffersLast.right hi (b := [b]) h⟩

/-- Taking any n bits that are left. -/
theorem skipBits_ok {s : State} (hi : s.RInv) (sec : Sec) (off : BitVec 16) (bits : List Bool)
    (h : s.Offers bits) : skipBits sec off bits.length s = .done () (s.advance bits.length) := by
  induction bits generalizing s with
  | nil => rw [List.length_nil, State.advance_zero]; rfl
  | cons b bits ih =>
    obtain ⟨hi', h'⟩ := Offers.uncons hi h
    rw [List.length_cons, skipBits, Cmd.bind_done (getBit_ok hi sec off h), ih hi' h',
      State.advance_advance, Nat.add_comm]

/-- Taking n bits where fewer are there. -/
theorem skipBits_takesNext {s : State} (hi : s.RInv) (sec : Sec) (off : BitVec 16) (bits : List Bool)
    (h : s.Offers bits) (n : Nat) (hn : bits.length < n) :
    (skipBits sec off n).TakesNext s sec off bits.length := by
  induction bits generalizing s n with
  | nil =>
    obtain ⟨m, rfl⟩ : ∃ m, n = m + 1 := ⟨n - 1, by simp at hn; omega⟩
    exact getBit_takesNext _ _ _ _
  | cons b bits ih =>
    rw [List.length_cons] at hn
    obtain ⟨m, rfl⟩ : ∃ m, n = m + 1 := ⟨n - 1, by omega⟩
    obtain ⟨hi', h'⟩ := Offers.uncons hi h
    rw [List.length_cons, Nat.add_comm bits.length]
    exact .after (f := fun _ => skipBits sec off m) (getBit_ok hi sec off h) (ih hi' h' m (by omega))

/-- Taking n bits where fewer are left: all of them are consumed, then the error. -/
theorem skipBits_short {s : State} (hi : s.RInv) (sec : Sec) (off : BitVec 16) (bits : List Bool)
    (h : s.OffersLast bits) (n : Nat) (hn : bits.length < n) :
    skipBits sec off n s =
      .raised ⟨.unexpectedEndOfStream, sec, off⟩ (s.advance bits.length) :=
  (skipBits_takesNext hi sec off bits h.1 n hn).short (h.exhausted_advance hi)

/-- A known item at the cursor. -/
theorem takeItem_ok {s : State} (hi : s.RInv) (sec : Sec) (deliver : Cmd Unit) (bits : List Bool)
    (h : s.Offers bits) : takeItem bits.length sec deliver s = deliver (s.advance bits.length) := by
  rw [takeItem, Cmd.cursor_bind_apply, Cmd.bind_done (skipBits_ok hi sec _ bits h)]

/-! ## Fields -/

theorem le7Bits_eq (v : BitVec 7) : le7Bits v = [v.getLsbD 0, v.getLsbD 1, v.getLsbD 2, v.getLsbD 3,
    v.getLsbD 4, v.getLsbD 5, v.getLsbD 6] := rfl

theorem length_le7Bits (v : BitVec 7) : (le7Bits v).length = 7 := rfl

/-- The value GetLE7 builds from 7 bits. -/
def le7Of (b0 b1 b2 b3 b4 b5 b6 : Bool) : BitVec 7 :=
  0#7 ||| (BitVec.ofBool b0).setWidth 7 <<< 0 ||| (BitVec.ofBool b1).setWidth 7 <<< 1 |||
    (BitVec.ofBool b2).setWidth 7 <<< 2 ||| (BitVec.ofBool b3).setWidth 7 <<< 3 |||
    (BitVec.ofBool b4).setWidth 7 <<< 4 ||| (BitVec.ofBool b5).setWidth 7 <<< 5 |||
    (BitVec.ofBool b6).setWidth 7 <<< 6

theorem le7Of_bits : ∀ v : BitVec 7, le7Of (v.getLsbD 0) (v.getLsbD 1) (v.getLsbD 2) (v.getLsbD 3)
    (v.getLsbD 4) (v.getLsbD 5) (v.getLsbD 6) = v := by decide +kernel

/-- GetLE7 takes the 7 bits of a field and gives its value (40_bitstream.md R125). -/
theorem getLE7_ok {s : State} (hi : s.RInv) (sec : Sec) (v : BitVec 7)
    (h : s.Offers (le7Bits v)) : getLE7 sec s = .done v (s.advance 7) := by
  have key : ∀ b0 b1 b2 b3 b4 b5 b6, s.Offers [b0, b1, b2, b3, b4, b5, b6] →
      getLE7 sec s = .done (le7Of b0 b1 b2 b3 b4 b5 b6) (s.advance 7) := by
    intro b0 b1 b2 b3 b4 b5 b6 h
    obtain ⟨i1, o1⟩ := Offers.uncons hi h
    obtain ⟨i2, o2⟩ := Offers.uncons i1 o1
    obtain ⟨i3, o3⟩ := Offers.uncons i2 o2
    obtain ⟨i4, o4⟩ := Offers.uncons i3 o3
    obtain ⟨i5, o5⟩ := Offers.uncons i4 o4
    obtain ⟨i6, o6⟩ := Offers.uncons i5 o5
    have hr : List.range 7 = [0, 1, 2, 3, 4, 5, 6] := rfl
    rw [getLE7, Cmd.cursor_bind_apply, hr]
    simp only [getLE7From]
    rw [Cmd.bind_done (getBit_ok hi sec _ h), Cmd.bind_done (getBit_ok i1 sec _ o1),
      Cmd.bind_done (getBit_ok i2 sec _ o2), Cmd.bind_done (getBit_ok i3 sec _ o3),
      Cmd.bind_done (getBit_ok i4 sec _ o4), Cmd.bind_done (getBit_ok i5 sec _ o5),
      Cmd.bind_done (getBit_ok i6 sec _ o6)]
    simp only [State.advance_advance]
    rfl
  rw [le7Bits_eq] at h
  rw [key _ _ _ _ _ _ _ h, le7Of_bits]

theorem getLE7From_takesNext {s : State} (hi : s.RInv) (sec : Sec) (start : BitVec 16)
    (bits : List Bool) (h : s.Offers bits) (l : List Nat) (hl : bits.length < l.length) (v : BitVec 7) :
    (getLE7From sec start v l).TakesNext s sec start bits.length := by
  induction bits generalizing s l v with
  | nil =>
    cases l with
    | nil => simp at hl
    | cons j l => exact getBit_takesNext _ _ _ _
  | cons b bits ih =>
    cases l with
    | nil => simp at hl
    | cons j l =>
      obtain ⟨hi', h'⟩ := Offers.uncons hi h
      rw [List.length_cons, Nat.add_comm bits.length]
      exact .after
        (f := fun b => getLE7From sec start (v ||| ((BitVec.ofBool b).setWidth 7 <<< j)) l)
        (getBit_ok hi sec start h) (ih hi' h' l (by simpa using hl) _)

/-- GetLE7 with fewer than 7 bits there (40_bitstream.md R125). -/
theorem getLE7_takesNext {s : State} (hi : s.RInv) (sec : Sec) (bits : List Bool)
    (h : s.Offers bits) (hl : bits.length < 7) :
    (getLE7 sec).TakesNext s sec s.rpos bits.length :=
  getLE7From_takesNext hi sec _ bits h _ (by simpa using hl) _

/-- GetLE7 with fewer than 7 bits left (40_bitstream.md R125, R137). -/
theorem getLE7_short {s : State} (hi : s.RInv) (sec : Sec) (bits : List Bool)
    (h : s.OffersLast bits) (hl : bits.length < 7) :
    getLE7 sec s = .raised ⟨.unexpectedEndOfStream, sec, s.rpos⟩ (s.advance bits.length) :=
  (getLE7_takesNext hi sec bits h.1 hl).short (h.exhausted_advance hi)

/-! ## The piece-type code -/

/-- The bit strings that end before a code is complete (30_encoding.md R82). -/
def partialCodes : List (List Bool) :=
  [[], [true], [true, false], [true, true], [true, true, true], [true, true, true, true]]

/-- Every bit list begins with a code, which takeCode finds, or is one of the partial codes
(30_encoding.md R81, R82). -/
theorem takeCode_cases (bits : List Bool) :
    (∃ k rest, bits = Kind.text k ++ rest ∧ takeCode bits = some (k, rest)) ∨
    (bits ∈ partialCodes ∧ takeCode bits = none) := by
  match bits with
  | [] => exact .inr ⟨by decide, rfl⟩
  | false :: r => exact .inl ⟨.pawn, r, rfl, rfl⟩
  | [true] => exact .inr ⟨by decide, rfl⟩
  | [true, false] => exact .inr ⟨by decide, rfl⟩
  | true :: false :: false :: r => exact .inl ⟨.lance, r, rfl, rfl⟩
  | true :: false :: true :: r => exact .inl ⟨.knight, r, rfl, rfl⟩
  | [true, true] => exact .inr ⟨by decide, rfl⟩
  | true :: true :: false :: r => exact .inl ⟨.silver, r, rfl, rfl⟩
  | [true, true, true] => exact .inr ⟨by decide, rfl⟩
  | true :: true :: true :: false :: r => exact .inl ⟨.gold, r, rfl, rfl⟩
  | [true, true, true, true] => exact .inr ⟨by decide, rfl⟩
  | true :: true :: true :: true :: false :: r => exact .inl ⟨.bishop, r, rfl, rfl⟩
  | true :: true :: true :: true :: true :: r => exact .inl ⟨.rook, r, rfl, rfl⟩

/-- takeCode finds the code a list begins with, whatever follows (41_piece_code.md R155). -/
theorem takeCode_text (k : Kind) (rest : List Bool) : takeCode (k.text ++ rest) = some (k, rest) := by
  cases k <;> rfl

/-- LUT holds the code strings (10_state.md R29, 30_encoding.md R80). -/
theorem codeBits_eq_text (k : Kind) : codeBits k = k.text := by cases k <;> rfl

/-- DecodeKind takes exactly the bits of the code the stream begins with (41_piece_code.md R155). -/
theorem decodeKind_ok {s : State} (hi : s.RInv) (sec : Sec) (off : BitVec 16) (k : Kind)
    (h : s.Offers k.text) : decodeKind sec off s = .done k (s.advance k.text.length) := by
  cases k <;> simp only [Kind.text] at h
  case pawn =>
    rw [decodeKind, decodeKindFrom, Cmd.bind_done (getBit_ok hi sec off h)]; rfl
  all_goals
    obtain ⟨i1, o1⟩ := Offers.uncons hi h
    obtain ⟨i2, o2⟩ := Offers.uncons i1 o1
  case lance | knight | silver =>
    rw [decodeKind, decodeKindFrom, Cmd.bind_done (getBit_ok hi sec off h)]
    show decodeKindFrom sec off 4 1 1 _ = _
    rw [decodeKindFrom, Cmd.bind_done (getBit_ok i1 sec off o1)]
    simp only [show lutFind (1 + 1) (2 * 1 + Bool.toNat false) = none from rfl,
      show lutFind (1 + 1) (2 * 1 + Bool.toNat true) = none from rfl]
    rw [decodeKindFrom, Cmd.bind_done (getBit_ok i2 sec off o2)]
    simp only [State.advance_advance]
    rfl
  all_goals
    obtain ⟨i3, o3⟩ := Offers.uncons i2 o2
    rw [decodeKind, decodeKindFrom, Cmd.bind_done (getBit_ok hi sec off h)]
    show decodeKindFrom sec off 4 1 1 _ = _
    rw [decodeKindFrom, Cmd.bind_done (getBit_ok i1 sec off o1)]
    show decodeKindFrom sec off 3 2 3 _ = _
    rw [decodeKindFrom, Cmd.bind_done (getBit_ok i2 sec off o2)]
    show decodeKindFrom sec off 2 3 7 _ = _
    rw [decodeKindFrom, Cmd.bind_done (getBit_ok i3 sec off o3)]
  case gold => simp only [State.advance_advance]; rfl
  all_goals
    obtain ⟨i4, o4⟩ := Offers.uncons i3 o3
    show decodeKindFrom sec off 1 4 15 _ = _
    rw [decodeKindFrom, Cmd.bind_done (getBit_ok i4 sec off o4)]
    simp only [State.advance_advance]; rfl

/-- A bit that completes no code: the loop goes on (41_piece_code.md R152). -/
theorem decodeKindFrom_next {s : State} (hi : s.RInv) (sec : Sec) (off : BitVec 16) {left n v m : Nat}
    {b : Bool} {bits : List Bool} (h : s.Offers (b :: bits))
    (hf : lutFind (n + 1) (2 * v + b.toNat) = none)
    (hk : (decodeKindFrom sec off left (n + 1) (2 * v + b.toNat)).TakesNext (s.advance 1) sec off m) :
    (decodeKindFrom sec off (left + 1) n v).TakesNext s sec off (m + 1) := by
  rw [Nat.add_comm m]
  refine .after (f := fun b => match lutFind (n + 1) (2 * v + b.toNat) with
    | some k => .pure k
    | none => decodeKindFrom sec off left (n + 1) (2 * v + b.toNat)) (getBit_ok hi sec off h) ?_
  simp only [hf]
  exact hk

/-- DecodeKind where the bits there end inside a code (41_piece_code.md R152). -/
theorem decodeKind_takesNext {s : State} (hi : s.RInv) (sec : Sec) (off : BitVec 16)
    (bits : List Bool) (hp : bits ∈ partialCodes) (h : s.Offers bits) :
    (decodeKind sec off).TakesNext s sec off bits.length := by
  have start : ∀ (t : State) (left n v : Nat),
      (decodeKindFrom sec off (left + 1) n v).TakesNext t sec off 0 :=
    fun t _ _ _ => getBit_takesNext t sec off _
  simp only [partialCodes, List.mem_cons, List.not_mem_nil, or_false] at hp
  rcases hp with rfl | rfl | rfl | rfl | rfl | rfl
  · exact start _ _ _ _
  all_goals
    obtain ⟨i1, o1⟩ := Offers.uncons hi h
    refine decodeKindFrom_next hi sec off h rfl ?_
  · exact start _ _ _ _
  all_goals
    obtain ⟨i2, o2⟩ := Offers.uncons i1 o1
    refine decodeKindFrom_next i1 sec off o1 rfl ?_
  · exact start _ _ _ _
  · exact start _ _ _ _
  all_goals
    obtain ⟨i3, o3⟩ := Offers.uncons i2 o2
    refine decodeKindFrom_next i2 sec off o2 rfl ?_
  · exact start _ _ _ _
  · exact decodeKindFrom_next i3 sec off o3 rfl (start _ _ _ _)

/-- DecodeKind on a stream that ends inside a code (41_piece_code.md R152, 90_conflicts.md C1). -/
theorem decodeKind_short {s : State} (hi : s.RInv) (sec : Sec) (off : BitVec 16) (bits : List Bool)
    (hp : bits ∈ partialCodes) (h : s.OffersLast bits) :
    decodeKind sec off s =
      .raised ⟨.unexpectedEndOfStream, sec, off⟩ (s.advance bits.length) :=
  (decodeKind_takesNext hi sec off bits hp h.1).short (h.exhausted_advance hi)

end Sys2Proof.Machine
end

