-- ==== Sys2Proof/Laws/Writer.lean ====
section
/-! SUPPORT. Laws of the bit-stream writer: PutBit, PutBit of a string, and Flush append exactly their
bits, or raise CapacityExceeded at the bit that completes a byte past OUT (40_bitstream.md R120, R121). -/

namespace Sys2Proof.Machine

/-- What the writer needs of the state to append bits. -/
structure State.WInv (s : State) (w : Writer) : Prop where
  cap : s.params.outCap ≤ 8191
  wf : Memory.wf s.outMem
  bounded : s.Bounded .out
  ok : s.WriterOk w

theorem State.Inv.wInv {s : State} (h : s.Inv) {w : Writer} (hw : s.writer = some w) : s.WInv w :=
  ⟨h.params.2.1.2, h.outWf, h.outBounded, h.writer w hw⟩

/-- t is s with the bits appended to the output stream. -/
structure Put (s t : State) (w w' : Writer) (bits : List Bool) : Prop where
  same : t = { s with writer := some w', outMem := t.outMem }
  wbits : w'.wbits = w.wbits + bits.length
  old : ∀ j < w.wbits, t.outBit w' j = s.outBit w j
  new : ∀ j (h : j < bits.length), t.outBit w' (w.wbits + j) = some bits[j]
  frame : ∀ a, a < w.outlen.toNat ∨ w'.outlen.toNat ≤ a → t.cell .out a = s.cell .out a
  inv : t.WInv w'

theorem Writer.wcnt_lt (w : Writer) : w.wcnt.toNat < 8 := w.wcnt.isLt

theorem Writer.wbits_div (w : Writer) : w.wbits / 8 = w.outlen.toNat := by
  have := w.wcnt_lt; unfold Writer.wbits; omega

theorem Writer.wbits_mod (w : Writer) : w.wbits % 8 = w.wcnt.toNat := by
  have := w.wcnt_lt; unfold Writer.wbits; omega

theorem State.outBit_byte {s : State} {w : Writer} {j : Nat} (h : j < 8 * w.outlen.toNat) :
    s.outBit w j = (s.cell .out (j / 8)).map fun byte => byte.getLsbD (j % 8) := if_pos h

theorem State.outBit_acc {s : State} {w : Writer} {j : Nat} (h : ¬ j < 8 * w.outlen.toNat)
    (h' : j < w.wbits) : s.outBit w j = some (w.wacc.getLsbD (j % 8)) := by
  rw [State.outBit, if_neg h, if_pos h']

theorem Put.writer {s t : State} {w w' : Writer} {bits : List Bool} (h : Put s t w w' bits) :
    t.writer = some w' := by rw [h.same]

theorem Put.params {s t : State} {w w' : Writer} {bits : List Bool} (h : Put s t w w' bits) :
    t.params = s.params := by rw [h.same]

theorem Put.posMem {s t : State} {w w' : Writer} {bits : List Bool} (h : Put s t w w' bits) :
    t.posMem = s.posMem := by rw [h.same]

theorem Put.refl {s : State} {w : Writer} (hw : s.writer = some w) (hi : s.WInv w) :
    Put s s w w [] where
  same := by cases s; simp_all
  wbits := rfl
  old := fun _ _ => rfl
  new := fun j h => absurd h (Nat.not_lt_zero j)
  frame := fun _ _ => rfl
  inv := hi

theorem Put.trans {s t u : State} {w w' w'' : Writer} {b b' : List Bool} (h : Put s t w w' b)
    (h' : Put t u w' w'' b') : Put s u w w'' (b ++ b') where
  same := by
    have h1 := h'.same
    rw [h.same] at h1
    rw [h1]
  wbits := by rw [h'.wbits, h.wbits, List.length_append]; omega
  old := fun j hj => by rw [h'.old j (by rw [h.wbits]; omega), h.old j hj]
  new := fun j hj => by
    by_cases hjb : j < b.length
    · rw [h'.old _ (by rw [h.wbits]; omega), h.new j hjb, List.getElem_append_left hjb]
    · have hj' : j - b.length < b'.length := by rw [List.length_append] at hj; omega
      have := h'.new (j - b.length) hj'
      rw [h.wbits] at this
      rw [List.getElem_append_right (by omega), ← this]
      congr 1; omega
  frame := fun a ha => by
    have h1 := w.wbits_div; have h2 := w'.wbits_div; have h3 := w''.wbits_div
    have h4 := h.wbits; have h5 := h'.wbits
    rw [h'.frame a (by omega), h.frame a (by omega)]
  inv := h'.inv

/-- WACC with one more bit: the bits below are kept and bit n is the new one. -/
theorem acc_getLsbD (acc : BitVec 8) (b : Bool) (n i : Nat) (hn : n < 8) :
    (acc ||| (bitByte b <<< n)).getLsbD i = (acc.getLsbD i || (decide (i = n) && b)) := by
  cases b <;> simp [bitByte, BitVec.getLsbD_shiftLeft, BitVec.getLsbD_or]
  by_cases h : i = n
  · subst h; simp [hn]
  · simp [h]; omega

theorem acc_high (acc : BitVec 8) (n i : Nat) (h : acc.toNat < 2 ^ n) (hi : n ≤ i) :
    acc.getLsbD i = false := by
  rw [BitVec.getLsbD, Nat.testBit_lt_two_pow]
  exact Nat.lt_of_lt_of_le h (Nat.pow_le_pow_right (by omega) hi)

theorem acc_lt (acc : BitVec 8) (b : Bool) (n : Nat) (hn : n < 8) (h : acc.toNat < 2 ^ n) :
    (acc ||| (bitByte b <<< n)).toNat < 2 ^ (n + 1) := by
  apply Nat.lt_pow_two_of_testBit
  intro i hi
  have := acc_getLsbD acc b n i hn
  rw [acc_high acc n i h (by omega)] at this
  rw [BitVec.getLsbD] at this
  rw [this]; simp; omega

/-- PutBit where no byte is completed. -/
theorem putBit_low {s : State} {w : Writer} (b : Bool) (sec : Sec) (hw : s.writer = some w)
    (h7 : w.wcnt ≠ 7#3) :
    putBit b sec s = .done ()
      { s with writer := some ⟨w.wacc ||| (bitByte b <<< w.wcnt.toNat), w.wcnt + 1, w.outlen⟩ } := by
  simp [putBit, Cmd.bind, getWriter, hw, h7]

/-- PutBit where a byte is completed and there is room for it. -/
theorem putBit_byte {s : State} {w : Writer} (b : Bool) (sec : Sec) (hw : s.writer = some w)
    (h7 : w.wcnt = 7#3) (hcap : w.outlen.toNat < s.params.outCap) :
    putBit b sec s = .done ()
      { s with
        writer := some ⟨0#8, 0#3, w.outlen + 1⟩
        outMem := Memory.write s.outMem w.outlen.toNat (w.wacc ||| (bitByte b <<< w.wcnt.toNat)) } := by
  have : w.outlen.toNat ≠ s.params.outCap := by omega
  simp [putBit, Cmd.bind, getWriter, hw, h7, this, emit, memWrite, State.hasAddr, hcap]

/-- PutBit where a byte is completed and OUT is full (40_bitstream.md R120). -/
theorem putBit_full {s : State} {w : Writer} (b : Bool) (sec : Sec) (hw : s.writer = some w)
    (h7 : w.wcnt = 7#3) (hcap : w.outlen.toNat = s.params.outCap) :
    putBit b sec s = .raised ⟨.capacityExceeded, sec, BitVec.ofNat 16 w.wbits⟩ s := by
  simp [putBit, Cmd.bind, getWriter, hw, h7, hcap]

theorem putBit_unspecified {s : State} (b : Bool) (sec : Sec) (hw : s.writer = none) :
    putBit b sec s = .stopped .unspecifiedWriter := by simp [putBit, Cmd.bind, getWriter, hw]

/-- Writing the completed byte acc at OUT[OUTLEN]: the stream so far is that byte's bits after the old
ones. -/
theorem emitted_outBit {s : State} {w : Writer} (acc : BitVec 8)
    (hadd : (w.outlen + 1).toNat = w.outlen.toNat + 1) (t : State)
    (ht : t = { s with writer := some ⟨0#8, 0#3, w.outlen + 1⟩
                       outMem := Memory.write s.outMem w.outlen.toNat acc }) (j : Nat)
    (hj : j < 8 * (w.outlen.toNat + 1)) :
    t.outBit ⟨0#8, 0#3, w.outlen + 1⟩ j =
      if j < 8 * w.outlen.toNat then s.outBit w j else some (acc.getLsbD (j % 8)) := by
  subst ht
  simp only [State.outBit, hadd, hj, if_true, State.cell, State.cells_out]
  rw [Memory.read_write]
  by_cases h : j < 8 * w.outlen.toNat
  · simp only [h, if_true]; rw [if_neg (by omega)]
  · simp only [h, if_false]; rw [if_pos (by omega)]; rfl

/-- PutBit appends its bit where there is room (40_bitstream.md R120). -/
theorem putBit_ok {s : State} {w : Writer} (b : Bool) (sec : Sec) (hw : s.writer = some w)
    (hi : s.WInv w) (hroom : s.Room w 1) :
    ∃ t w', putBit b sec s = .done () t ∧ Put s t w w' [b] := by
  have hcnt := w.wcnt_lt
  have hcap := hi.cap
  have hle := hi.ok.1
  have hacc := hi.ok.2.2
  by_cases h7 : w.wcnt = 7#3
  · have h7' : w.wcnt.toNat = 7 := by rw [h7]; rfl
    have hlt : w.outlen.toNat < s.params.outCap := by
      unfold State.Room Writer.wbits at hroom; omega
    have hadd : (w.outlen + 1).toNat = w.outlen.toNat + 1 := by
      rw [BitVec.toNat_add]; simp; omega
    refine ⟨_, ⟨0#8, 0#3, w.outlen + 1⟩, putBit_byte b sec hw h7 hlt, ?_⟩
    have hbit := emitted_outBit (s := s) (w.wacc ||| (bitByte b <<< w.wcnt.toNat)) hadd _ rfl
    have hwb : w.wbits = 8 * w.outlen.toNat + 7 := by unfold Writer.wbits; omega
    constructor
    · rfl
    · simp only [Writer.wbits, hadd]; simp; omega
    · intro j hj
      rw [hbit j (by omega)]
      by_cases hlow : j < 8 * w.outlen.toNat
      · rw [if_pos hlow]
      · rw [if_neg hlow, State.outBit, if_neg hlow, if_pos hj, acc_getLsbD _ _ _ _ hcnt]
        have : ¬ (j % 8 = w.wcnt.toNat) := by omega
        simp [this]
    · intro j hj
      have hj0 : j = 0 := by simpa using hj
      subst hj0
      rw [hbit _ (by omega), if_neg (by omega), acc_getLsbD _ _ _ _ hcnt,
        acc_high _ w.wcnt.toNat _ hacc (by omega)]
      have : w.wbits % 8 = w.wcnt.toNat := w.wbits_mod
      simp [this]
    · intro a ha
      simp only [State.cell, State.cells_out]
      rw [Memory.read_write_other]
      simp only [hadd] at ha
      omega
    · refine ⟨hcap, Memory.wf_write _ _ _ hi.wf, ?_, ?_, ?_, by simp⟩
      · intro c hc
        rcases Memory.mem_write hc with h | h
        · simp only [h, State.hasAddr, decide_eq_true_eq]; exact hlt
        · exact hi.bounded c h
      · simp only [hadd]; omega
      · intro a ha
        simp only [hadd] at ha
        simp only [State.cell, State.cells_out]
        rw [Memory.read_write]
        split
        · rfl
        · exact hi.ok.2.1 a (by omega)
  · have hlt : w.wcnt.toNat < 7 := by
      have : w.wcnt.toNat ≠ 7 := fun h => h7 (BitVec.eq_of_toNat_eq h)
      omega
    have hadd : (w.wcnt + 1).toNat = w.wcnt.toNat + 1 := by rw [BitVec.toNat_add]; simp; omega
    refine ⟨_, ⟨w.wacc ||| (bitByte b <<< w.wcnt.toNat), w.wcnt + 1, w.outlen⟩,
      putBit_low b sec hw h7, ?_⟩
    have hwb : w.wbits = 8 * w.outlen.toNat + w.wcnt.toNat := rfl
    constructor
    · rfl
    · simp only [Writer.wbits, hadd, List.length_singleton]; omega
    · intro j hj
      by_cases hlow : j < 8 * w.outlen.toNat
      · rw [State.outBit_byte (s := s) (w := w) hlow]
        exact State.outBit_byte (w := ⟨_, _, w.outlen⟩) hlow
      · rw [State.outBit_acc (s := s) (w := w) hlow hj]
        rw [State.outBit_acc (w := ⟨_, w.wcnt + 1, w.outlen⟩) hlow (by
          show j < 8 * w.outlen.toNat + (w.wcnt + 1).toNat
          rw [hadd]; omega), acc_getLsbD _ _ _ _ hcnt]
        have : ¬ (j % 8 = w.wcnt.toNat) := by omega
        simp [this]
    · intro j hj
      have hj0 : j = 0 := by simpa using hj
      subst hj0
      have hmod := w.wbits_mod
      rw [State.outBit_acc (w := ⟨_, w.wcnt + 1, w.outlen⟩) (by
          show ¬ (w.wbits + 0 < 8 * w.outlen.toNat); omega) (by
          show w.wbits + 0 < 8 * w.outlen.toNat + (w.wcnt + 1).toNat
          rw [hadd]; omega), acc_getLsbD _ _ _ _ hcnt, acc_high _ w.wcnt.toNat _ hacc (by omega)]
      simp [hmod]
    · intro a _; rfl
    · refine ⟨hcap, hi.wf, hi.bounded, hle, hi.ok.2.1, ?_⟩
      rw [hadd]; exact acc_lt _ _ _ hcnt hacc

theorem Room.mono {s : State} {w : Writer} {m n : Nat} (h : s.Room w n) (hmn : m ≤ n) :
    s.Room w m := by unfold State.Room at *; omega

theorem Put.room {s t : State} {w w' : Writer} {b : List Bool} (h : Put s t w w' b) {n : Nat}
    (hr : s.Room w (b.length + n)) : t.Room w' n := by
  unfold State.Room at *; rw [h.params, h.wbits]; omega

/-- Any string of bits that fits is appended (40_bitstream.md R120, R126). -/
theorem putBits_ok {s : State} {w : Writer} (bits : List Bool) (sec : Sec) (hw : s.writer = some w)
    (hi : s.WInv w) (hroom : s.Room w bits.length) :
    ∃ t w', putBits bits sec s = .done () t ∧ Put s t w w' bits := by
  induction bits generalizing s w with
  | nil => exact ⟨s, w, rfl, Put.refl hw hi⟩
  | cons b bits ih =>
    obtain ⟨t, w1, h1, p1⟩ := putBit_ok b sec hw hi (Room.mono hroom (by simp))
    obtain ⟨u, w2, h2, p2⟩ := ih p1.writer p1.inv (p1.room (by simpa [Nat.add_comm] using hroom))
    refine ⟨u, w2, ?_, p1.trans p2⟩
    rw [putBits, Cmd.each_cons, Cmd.bind_done h1]
    exact h2

/-- A string of bits that does not fit raises CapacityExceeded at the bit that would complete byte
OUT_CAP (40_bitstream.md R120, 60_exceptions.md R241). Everything but the writer and OUT is unchanged. -/
theorem putBits_full {s : State} {w : Writer} (bits : List Bool) (sec : Sec) (hw : s.writer = some w)
    (hi : s.WInv w) (hfull : ¬ s.Room w bits.length) :
    ∃ t, putBits bits sec s =
        .raised ⟨.capacityExceeded, sec, BitVec.ofNat 16 (8 * s.params.outCap + 7)⟩ t ∧
      t = { s with writer := t.writer, outMem := t.outMem } := by
  induction bits generalizing s w with
  | nil =>
    have := hi.ok.1
    exfalso; apply hfull; unfold State.Room
    have := w.wbits_div
    simp; omega
  | cons b bits ih =>
    by_cases h1 : s.Room w 1
    · obtain ⟨t, w1, h1, p1⟩ := putBit_ok b sec hw hi h1
      obtain ⟨u, h2, hu⟩ := ih p1.writer p1.inv (by
        intro h; apply hfull; unfold State.Room at *; rw [p1.params, p1.wbits] at h
        simp only [List.length_cons, List.length_nil] at *; omega)
      refine ⟨u, ?_, ?_⟩
      · rw [putBits, Cmd.each_cons, Cmd.bind_done h1]
        rw [p1.params] at h2
        exact h2
      · rw [p1.same] at hu; rw [hu]
    · have hle := hi.ok.1
      have hcnt := w.wcnt_lt
      have h7' : w.wcnt.toNat = 7 ∧ w.outlen.toNat = s.params.outCap := by
        unfold State.Room Writer.wbits at h1; omega
      have h7 : w.wcnt = 7#3 := BitVec.eq_of_toNat_eq h7'.1
      refine ⟨s, ?_, by cases s; rfl⟩
      rw [putBits, Cmd.each_cons, Cmd.bind_raised (putBit_full b sec hw h7 h7'.2)]
      have : w.wbits = 8 * s.params.outCap + 7 := by unfold Writer.wbits; omega
      rw [this]

theorem putBits_append (b b' : List Bool) (sec : Sec) :
    putBits (b ++ b') sec = (putBits b sec).bind fun _ => putBits b' sec := Cmd.each_append _ _ _

theorem putBits_cons (b : Bool) (bits : List Bool) (sec : Sec) :
    putBits (b :: bits) sec = (putBit b sec).bind fun _ => putBits bits sec := rfl

theorem putBits_singleton (b : Bool) (sec : Sec) : putBits [b] sec = putBit b sec := by
  funext s
  simp only [putBits, Cmd.each, Cmd.bind]
  cases putBit b sec s <;> rfl

theorem putBits_nil (sec : Sec) : putBits [] sec = Cmd.pure () := rfl

/-- Flush where there is a partial byte and room for it. -/
theorem flush_byte {s : State} {w : Writer} (sec : Sec) (hw : s.writer = some w) (h0 : w.wcnt ≠ 0#3)
    (hcap : w.outlen.toNat < s.params.outCap) :
    flush sec s = .done ()
      { s with
        writer := some ⟨0#8, 0#3, w.outlen + 1⟩
        outMem := Memory.write s.outMem w.outlen.toNat w.wacc } := by
  have : w.outlen.toNat ≠ s.params.outCap := by omega
  simp [flush, Cmd.bind, getWriter, hw, h0, this, emit, memWrite, State.hasAddr, hcap]

/-- Flush with a partial byte and room: the pad bits are appended, and the byte is in OUT
(40_bitstream.md R121). With no partial byte it does nothing. -/
theorem flush_ok {s : State} {w : Writer} (sec : Sec) (hw : s.writer = some w) (hi : s.WInv w)
    (hroom : (w.wbits + 7) / 8 ≤ s.params.outCap) :
    ∃ t w', flush sec s = .done () t ∧ Put s t w w' (padBits w.wbits) ∧ w'.wcnt = 0#3 := by
  have hcnt := w.wcnt_lt
  have hmod := w.wbits_mod
  by_cases h0 : w.wcnt = 0#3
  · refine ⟨s, w, by simp [flush, Cmd.bind, getWriter, hw, h0], ?_, h0⟩
    have : padBits w.wbits = [] := by unfold padBits; rw [hmod, h0]; rfl
    rw [this]; exact Put.refl hw hi
  · have h0' : 0 < w.wcnt.toNat := by
      rcases Nat.eq_zero_or_pos w.wcnt.toNat with h | h
      · exact absurd (BitVec.eq_of_toNat_eq h) h0
      · exact h
    have hlt : w.outlen.toNat < s.params.outCap := by unfold Writer.wbits at hroom; omega
    have hcap := hi.cap
    have hadd : (w.outlen + 1).toNat = w.outlen.toNat + 1 := by rw [BitVec.toNat_add]; simp; omega
    have hne : w.outlen.toNat ≠ s.params.outCap := by omega
    have hwb : w.wbits = 8 * w.outlen.toNat + w.wcnt.toNat := rfl
    have hbit := emitted_outBit (s := s) w.wacc hadd _ rfl
    refine ⟨_, ⟨0#8, 0#3, w.outlen + 1⟩, flush_byte sec hw h0 hlt, ?_, rfl⟩
    have hpad : (padBits w.wbits).length = 8 - w.wcnt.toNat := by
      unfold padBits; rw [List.length_replicate]; omega
    constructor
    · rfl
    · rw [hpad]; simp only [Writer.wbits, hadd]; simp; omega
    · intro j hj
      rw [hbit j (by omega)]
      by_cases hlow : j < 8 * w.outlen.toNat
      · rw [if_pos hlow]
      · rw [if_neg hlow, State.outBit, if_neg hlow, if_pos hj]
    · intro j hj
      rw [hpad] at hj
      rw [hbit _ (by omega), if_neg (by omega), acc_high _ w.wcnt.toNat _ hi.ok.2.2 (by omega)]
      simp [padBits]
    · intro a ha
      simp only [State.cell, State.cells_out]
      rw [Memory.read_write_other]
      simp only [hadd] at ha
      omega
    · refine ⟨hcap, Memory.wf_write _ _ _ hi.wf, ?_, ?_, ?_, by simp⟩
      · intro c hc
        rcases Memory.mem_write hc with h | h
        · simp only [h, State.hasAddr, decide_eq_true_eq]; exact hlt
        · exact hi.bounded c h
      · simp only [hadd]; omega
      · intro a ha
        simp only [hadd] at ha
        simp only [State.cell, State.cells_out]
        rw [Memory.read_write]
        split
        · rfl
        · exact hi.ok.2.1 a (by omega)

/-- Flush of a partial byte with OUT full (40_bitstream.md R121). -/
theorem flush_full {s : State} {w : Writer} (sec : Sec) (hw : s.writer = some w)
    (h0 : w.wcnt ≠ 0#3) (hcap : w.outlen.toNat = s.params.outCap) :
    flush sec s = .raised ⟨.capacityExceeded, sec, BitVec.ofNat 16 w.wbits⟩ s := by
  simp [flush, Cmd.bind, getWriter, hw, h0, hcap]

/-- A writer command whose bits fit completes, and its state is `Wrote`. -/
theorem Put.wrote {s t : State} {w w' : Writer} {bits : List Bool} (hw : s.writer = some w)
    (h : Put s t w w' bits) : s.Wrote t.complete bits := by
  have hs := h.same
  refine ⟨?_, by rw [hs]; rfl, by rw [hs]; rfl, w, w', hw, h.writer, h.wbits, h.old, h.new, h.frame⟩
  rw [hs]; rfl

end Sys2Proof.Machine
end

