-- ==== Sys2Proof/Laws/Records.lean ====
section
/-! SUPPORT. Laws of the records: what the record primitives write (42_records.md R172, R174) and take
(R173, R175), and how the stream decoder of Decode.lean reads the same bits (30_encoding.md R90). -/

namespace Sys2Proof.Machine

/-! ## Words and their fields -/

theorem Kind.ofNum_num (k : Kind) : Kind.ofNum k.num = some k := by cases k <;> rfl

theorem PromKind.kind_ne_gold (k : PromKind) : k.kind ≠ .gold := by cases k <;> decide

theorem PromKind.prom_kind (k : PromKind) : k.kind.prom = some k := by cases k <;> rfl

theorem Kind.prom_cases (k : Kind) : (k = .gold ∧ k.prom = none) ∨
    ∃ pk : PromKind, k = pk.kind ∧ k.prom = some pk := by
  cases k
  case gold => exact .inl ⟨rfl, rfl⟩
  all_goals exact .inr ⟨_, rfl, rfl⟩

theorem Colour.ofBit_bit (c : Colour) : Colour.ofBit c.bit = c := by cases c <;> rfl

theorem Colour.bit_ofBit (b : Bool) : (Colour.ofBit b).bit = b := by cases b <;> rfl

/-- Every non-empty legal non-king square word is a kind, a promotion bit and a colour
(10_state.md R31). -/
theorem legalNonKing_cases : ∀ w : Byte, legalNonKing w = true →
    w = 0x00#8 ∨ ∃ k, Kind.ofNum (squareKind w) = some k ∧ squareKind w = k.num ∧
      w = squareWord k (squareProm w) (squareColor w) ∧ (k = .gold → squareProm w = false) := by
  intro w
  have h : ∀ w : Byte, legalNonKing w = true → w = 0x00#8 ∨
      ∃ k ∈ Kind.all, Kind.ofNum (squareKind w) = some k ∧ squareKind w = k.num ∧
        w = squareWord k (squareProm w) (squareColor w) ∧ (k = .gold → squareProm w = false) := by
    decide +kernel
  intro hw
  rcases h w hw with h | ⟨k, -, h⟩
  · exact .inl h
  · exact .inr ⟨k, h⟩

/-- Every legal hand-record word is a kind, a promotion bit and a colour (10_state.md R32). -/
theorem legalHand_cases (h : Byte) (hh : legalHand h = true) :
    ∃ k, Kind.ofNum (handKind h) = some k ∧ handKind h = k.num ∧
      h = handWord k (h.getLsbD 4) (handColor h) := by
  have key : ∀ h : Byte, legalHand h = true → ∃ k ∈ Kind.all, Kind.ofNum (handKind h) = some k ∧
      handKind h = k.num ∧ h = handWord k (h.getLsbD 4) (handColor h) := by decide +kernel
  obtain ⟨k, -, h⟩ := key h hh
  exact ⟨k, h⟩

theorem squareWord_fields (k : Kind) (p c : Bool) : squareWord k p c ≠ 0x00#8 ∧
    squareKind (squareWord k p c) = k.num ∧ squareProm (squareWord k p c) = p ∧
    squareColor (squareWord k p c) = c := by
  cases k <;> cases p <;> cases c <;> decide

/-- The records DecSquare builds are legal (42_records.md R173). -/
theorem legalNonKing_squareWord (k : Kind) (p c : Bool) (hp : k = .gold → p = false) :
    legalNonKing (squareWord k p c) = true := by
  cases k <;> cases p <;> cases c <;> first | decide | (exact absurd (hp rfl) (by decide))

theorem squareBits_squareWord (k : Kind) (p c : Bool) :
    squareBits (squareWord k p c) = true :: recordBits k p c := by
  obtain ⟨h0, h1, h2, h3⟩ := squareWord_fields k p c
  rw [squareBits, if_neg h0, h1, Kind.ofNum_num]
  simp only [h2, h3]

theorem squareBits_empty : squareBits 0x00#8 = [false] := rfl

theorem length_recordBits (k : Kind) (p c : Bool) :
    (recordBits k p c).length = k.text.length + (if k = .gold then 0 else 1) + 1 := by
  cases k <;> rfl

/-! ## Writing records -/

/-- PutCode(k) is PutBit of the code string (41_piece_code.md R151). -/
theorem putCode_num (k : Kind) (sec : Sec) : putCode k.num sec = putBits k.text sec := by
  cases k <;> rfl

/-- EncSquare writes the square record of a legal non-king word (42_records.md R172). -/
theorem encSquare_eq (w : Byte) (hw : legalNonKing w = true) (sec : Sec) :
    encSquare w sec = putBits (squareBits w) sec := by
  by_cases h0 : w = 0x00#8
  · subst h0
    rw [encSquare, if_pos rfl, squareBits_empty, putBits_singleton]
  · obtain ⟨k, hk, hn, -, -⟩ := (legalNonKing_cases w hw).resolve_left h0
    rw [encSquare, if_neg h0, squareBits, if_neg h0, hk, hn, putCode_num]
    simp only [recordBits]
    rw [putBits_cons, List.append_assoc]
    congr 1; funext _
    rw [putBits_append]
    congr 1; funext _
    by_cases hg : k = .gold
    · subst hg; exact (putBits_singleton _ _).symm
    · have : k.num ≠ 4#3 := by revert hg; cases k <;> decide
      rw [if_pos this, if_neg hg, List.singleton_append, putBits_cons, putBits_singleton]

/-- EncHandRec writes the hand record of a legal hand-record word (42_records.md R174). -/
theorem encHandRec_eq (h : Byte) (hh : legalHand h = true) (sec : Sec) :
    encHandRec h sec = putBits (handBits h) sec := by
  obtain ⟨k, hk, hn, -⟩ := legalHand_cases h hh
  rw [encHandRec, handBits, hk, hn, putCode_num]
  simp only [recordBits]
  rw [List.append_assoc, putBits_append]
  congr 1; funext _
  by_cases hg : k = .gold
  · subst hg; exact (putBits_singleton _ _).symm
  · have : k.num ≠ 4#3 := by revert hg; cases k <;> decide
    rw [if_pos this, if_neg hg, List.singleton_append, putBits_cons, putBits_singleton]

/-! ## Taking records -/

/-- The common end of DecSquare and DecHandRec: code, promotion bit unless GOLD, colour bit. -/
def takeRecord (sec : Sec) (start : BitVec 16) (g : Kind → Bool → Bool → Byte) : Cmd Byte :=
  (decodeKind sec start).bind fun k =>
  (getProm k sec start).bind fun p =>
  (getBit sec start).bind fun c => .pure (g k p c)

/-- A record is taken whole and gives its kind, promotion bit (0 for GOLD) and colour. -/
theorem takeRecord_ok {s : State} (hi : s.RInv) (sec : Sec) (start : BitVec 16)
    (g : Kind → Bool → Bool → Byte) (k : Kind) (p c : Bool) (h : s.Offers (recordBits k p c)) :
    takeRecord sec start g s =
      .done (g k (if k = .gold then false else p) c) (s.advance (recordBits k p c).length) := by
  have hk : s.Offers k.text := by rw [recordBits, List.append_assoc] at h; exact h.left
  have hr : (s.advance k.text.length).Offers ((if k = .gold then [] else [p]) ++ [c]) := by
    rw [recordBits, List.append_assoc] at h; exact h.right hi
  have hi' := hi.advance hk.1
  rw [takeRecord, Cmd.bind_done (decodeKind_ok hi sec start k hk), length_recordBits]
  by_cases hg : k = .gold
  · subst hg
    rw [if_pos rfl, List.nil_append] at hr
    show ((Cmd.pure false).bind _) _ = _
    rw [Cmd.pure_bind, Cmd.bind_done (getBit_ok hi' sec start hr), State.advance_advance]
    rfl
  · rw [if_neg hg] at hr
    obtain ⟨i1, o1⟩ := Offers.uncons hi' hr
    rw [getProm, if_pos hg, Cmd.bind_done (getBit_ok hi' sec start hr),
      Cmd.bind_done (getBit_ok i1 sec start o1), if_neg hg, if_neg hg]
    simp only [State.advance_advance]
    rfl

/-- A bit list holds a whole record at its front, or it ends inside one. -/
def RecordEnds (bits : List Bool) : Prop :=
  bits ∈ partialCodes ∨ ∃ k : Kind, bits = k.text ∨ (k ≠ .gold ∧ ∃ p, bits = k.text ++ [p])

theorem record_cases (bits : List Bool) :
    (∃ k p c rest, bits = recordBits k p c ++ rest) ∨ RecordEnds bits := by
  rcases takeCode_cases bits with ⟨k, rest, rfl, -⟩ | ⟨hp, -⟩
  · by_cases hg : k = .gold
    · match rest with
      | [] => exact .inr (.inr ⟨k, .inl (by simp)⟩)
      | c :: rest => exact .inl ⟨k, false, c, rest, by simp [recordBits, hg]⟩
    · match rest with
      | [] => exact .inr (.inr ⟨k, .inl (by simp)⟩)
      | [p] => exact .inr (.inr ⟨k, .inr ⟨hg, p, rfl⟩⟩)
      | p :: c :: rest => exact .inl ⟨k, p, c, rest, by simp [recordBits, hg]⟩
  · exact .inr (.inl hp)

/-- Bits that end inside a record: what comes next is another bit of it. -/
theorem takeRecord_takesNext {s : State} (hi : s.RInv) (sec : Sec) (start : BitVec 16)
    (g : Kind → Bool → Bool → Byte) (bits : List Bool) (hb : RecordEnds bits) (h : s.Offers bits) :
    (takeRecord sec start g).TakesNext s sec start bits.length := by
  rcases hb with hp | ⟨k, rfl | ⟨hg, p, rfl⟩⟩
  · exact (decodeKind_takesNext hi sec start bits hp h).bind _
  · refine .after (n := 0) (decodeKind_ok hi sec start k h) ?_
    unfold getProm
    split
    · exact (getBit_takesNext _ _ _ _ : Cmd.TakesNext ((getBit sec start).bind _) _ _ _ _)
    · exact getBit_takesNext _ _ _ _
  · rw [List.length_append]
    have hi' := hi.advance h.left.1
    refine .after (decodeKind_ok hi sec start k h.left) ?_
    rw [getProm, if_pos hg]
    exact .after (n := 0) (getBit_ok hi' sec start (h.right hi)) (getBit_takesNext _ _ _ _)

/-- A stream that ends inside a record: every bit is consumed, then the error. -/
theorem takeRecord_short {s : State} (hi : s.RInv) (sec : Sec) (start : BitVec 16)
    (g : Kind → Bool → Bool → Byte) (bits : List Bool) (hb : RecordEnds bits)
    (h : s.OffersLast bits) :
    takeRecord sec start g s =
      .raised ⟨.unexpectedEndOfStream, sec, start⟩ (s.advance bits.length) :=
  (takeRecord_takesNext hi sec start g bits hb h.1).short (h.exhausted_advance hi)

/-- DecSquare takes the record of a legal non-king word and gives the word back (42_records.md R173). -/
theorem decSquare_ok {s : State} (hi : s.RInv) (sec : Sec) (w : Byte) (hw : legalNonKing w = true)
    (h : s.Offers (squareBits w)) :
    decSquare sec s = .done w (s.advance (squareBits w).length) := by
  rcases legalNonKing_cases w hw with rfl | ⟨k, hk, hn, he, hg⟩
  · rw [decSquare, Cmd.cursor_bind_apply, Cmd.bind_done (getBit_ok hi sec _ h)]; rfl
  · rw [he, squareBits_squareWord] at h
    obtain ⟨i1, o1⟩ := Offers.uncons hi h
    rw [decSquare, Cmd.cursor_bind_apply, Cmd.bind_done (getBit_ok hi sec _ h)]
    show takeRecord sec s.rpos squareWord _ = _
    rw [takeRecord_ok i1 sec s.rpos squareWord k _ _ o1, State.advance_advance]
    have : (if k = .gold then false else squareProm w) = squareProm w := by
      by_cases h : k = .gold
      · rw [if_pos h, hg h]
      · rw [if_neg h]
    rw [this, ← he]
    congr 2
    conv => rhs; rw [he, squareBits_squareWord]
    rw [List.length_cons, Nat.add_comm]

/-- DecSquare where the bits there end inside the record (42_records.md R173). -/
theorem decSquare_takesNext {s : State} (hi : s.RInv) (sec : Sec) (bits : List Bool)
    (hb : bits = [] ∨ ∃ r, bits = true :: r ∧ RecordEnds r) (h : s.Offers bits) :
    (decSquare sec).TakesNext s sec s.rpos bits.length := by
  rcases hb with rfl | ⟨r, rfl, hr⟩
  · exact getBit_takesNext s sec s.rpos _
  · obtain ⟨i1, o1⟩ := Offers.uncons hi h
    obtain ⟨k, hk⟩ := takeRecord_takesNext i1 sec s.rpos squareWord r hr o1
    refine ⟨k, ?_⟩
    rw [decSquare, Cmd.cursor_bind_apply, Cmd.bind_done (getBit_ok hi sec _ h), List.length_cons,
      Nat.add_comm, ← State.advance_advance]
    exact hk

/-- DecSquare on a stream that ends inside the record (42_records.md R173). -/
theorem decSquare_short {s : State} (hi : s.RInv) (sec : Sec) (bits : List Bool)
    (hb : bits = [] ∨ ∃ r, bits = true :: r ∧ RecordEnds r) (h : s.OffersLast bits) :
    decSquare sec s = .raised ⟨.unexpectedEndOfStream, sec, s.rpos⟩ (s.advance bits.length) :=
  (decSquare_takesNext hi sec bits hb h.1).short (h.exhausted_advance hi)

/-- DecHandRec takes a hand record and gives its word, the promotion bit as read (42_records.md R175). -/
theorem decHandRec_ok {s : State} (hi : s.RInv) (sec : Sec) (k : Kind) (p c : Bool)
    (h : s.Offers (recordBits k p c)) :
    decHandRec sec s = .done (handWord k (if k = .gold then false else p) c)
      (s.advance (recordBits k p c).length) := by
  rw [decHandRec, Cmd.cursor_bind_apply]
  exact takeRecord_ok hi sec s.rpos handWord k p c h

/-- DecHandRec where the bits there end inside the record (42_records.md R175). -/
theorem decHandRec_takesNext {s : State} (hi : s.RInv) (sec : Sec) (bits : List Bool)
    (hb : RecordEnds bits) (h : s.Offers bits) :
    (decHandRec sec).TakesNext s sec s.rpos bits.length :=
  takeRecord_takesNext hi sec s.rpos handWord bits hb h

/-- DecHandRec on a stream that ends inside the record (42_records.md R175). -/
theorem decHandRec_short {s : State} (hi : s.RInv) (sec : Sec) (bits : List Bool)
    (hb : RecordEnds bits) (h : s.OffersLast bits) :
    decHandRec sec s = .raised ⟨.unexpectedEndOfStream, sec, s.rpos⟩ (s.advance bits.length) :=
  (decHandRec_takesNext hi sec bits hb h.1).short (h.exhausted_advance hi)

/-! ## The stream decoder reads the same bits -/

theorem decodePiece_record (k : Kind) (p c : Bool) (rest : List Bool) :
    decodePiece (recordBits k p c ++ rest) =
      some (match k.prom with
        | some pk => .recSqPiece pk p (.ofBit c)
        | none => .recSqGold (.ofBit c), rest) := by
  cases k <;> rfl

theorem decodeHandRec_record (k : Kind) (p c : Bool) (rest : List Bool) :
    decodeHandRec (recordBits k p c ++ rest) =
      some (match k.prom with
        | some pk => .recHand pk p (.ofBit c)
        | none => .recHandGold (.ofBit c), rest) := by
  cases k <;> rfl

theorem decodePiece_ends {bits : List Bool} (h : RecordEnds bits) : decodePiece bits = none := by
  rcases h with h | ⟨k, rfl | ⟨hg, p, rfl⟩⟩
  · simp only [partialCodes, List.mem_cons, List.not_mem_nil, or_false] at h
    rcases h with rfl | rfl | rfl | rfl | rfl | rfl <;> rfl
  · cases k <;> rfl
  · cases k <;> first | rfl | exact absurd rfl hg

theorem decodeHandRec_ends {bits : List Bool} (h : RecordEnds bits) : decodeHandRec bits = none := by
  rcases h with h | ⟨k, rfl | ⟨hg, p, rfl⟩⟩
  · simp only [partialCodes, List.mem_cons, List.not_mem_nil, or_false] at h
    rcases h with rfl | rfl | rfl | rfl | rfl | rfl <;> rfl
  · cases k <;> rfl
  · cases k <;> first | rfl | exact absurd rfl hg

end Sys2Proof.Machine
end

