-- ==== Sys2Proof/Laws/Board.lean ====
section
/-! SUPPORT. Laws of the board section: what ValidateBoard answers (42_records.md R178), what EncBoard
writes (R179), what DecBoard takes (R180), and the closed form of InsertKings (R183, R184). -/

namespace Sys2Proof.Machine

theorem memRead_ok {s : State} {sp : Space} {a : Nat} {v : Byte} (ha : s.hasAddr sp a = true)
    (h : s.cell sp a = some v) : memRead sp a s = .done v s := by simp [memRead, ha, h]

theorem memRead_unwritten {s : State} {sp : Space} {a : Nat} (ha : s.hasAddr sp a = true)
    (h : s.cell sp a = none) : memRead sp a s = .stopped (.unwritten sp a) := by
  simp [memRead, ha, h]

theorem memWrite_ok {s : State} {sp : Space} {a : Nat} (v : Byte) (ha : s.hasAddr sp a = true) :
    memWrite sp a v s = .done () (s.setCells sp (Memory.write (s.cells sp) a v)) := by
  simp [memWrite, ha]

theorem hasAddr_board {s : State} {a : Nat} (h : a ≤ 81) : s.hasAddr .pos a = true := by
  simp [State.hasAddr, h]

theorem hasAddr_hand {s : State} {i : Nat} (h : i < s.params.handCap) :
    s.hasAddr .pos (128 + i) = true := by simp [State.hasAddr, h]

theorem squares_le {a : Nat} (h : a ∈ squares) : a ≤ 80 := by
  have := List.mem_range.1 h; omega

/-! ## Boards as lists of words -/

/-- Reading legal words in order gives them all. -/
theorem legalWords_ok {s : State} (b : Nat → Byte) (l : List Nat) (hl : ∀ a ∈ l, a ≤ 80)
    (h : ∀ a ∈ l, s.cell .pos a = some (b a)) (hb : ∀ a ∈ l, legalSquare (b a) = true) :
    legalWords l s = .done (l.map b) s := by
  induction l with
  | nil => rfl
  | cons a l ih =>
    have ha := hl a List.mem_cons_self
    rw [legalWords, Cmd.bind_done (memRead_ok (hasAddr_board (by omega)) (h a List.mem_cons_self)),
      if_pos (hb a List.mem_cons_self),
      Cmd.bind_done (ih (fun x hx => hl x (List.mem_cons_of_mem _ hx))
        (fun x hx => h x (List.mem_cons_of_mem _ hx)) fun x hx => hb x (List.mem_cons_of_mem _ hx))]
    rfl

/-- The first illegal word is the one reported (42_records.md R178). -/
theorem legalWords_illegal {s : State} (b : Nat → Byte) (n m a : Nat) (ha : a ≤ 80) (hn : n ≤ a)
    (hm : a < n + m) (h : ∀ x, n ≤ x → x ≤ a → s.cell .pos x = some (b x))
    (hb : ∀ x, n ≤ x → x < a → legalSquare (b x) = true) (hi : legalSquare (b a) = false) :
    legalWords (List.range' n m) s =
      .raised ⟨.invalidOperand, .board, BitVec.ofNat 16 a⟩ s := by
  induction m generalizing n with
  | zero => omega
  | succ m ih =>
    rw [List.range'_succ, legalWords,
      Cmd.bind_done (memRead_ok (hasAddr_board (by omega)) (h n (by omega) hn))]
    by_cases hna : n = a
    · subst hna; rw [if_neg (by rw [hi]; decide)]; rfl
    · rw [if_pos (hb n (by omega) (by omega)),
        Cmd.bind_raised (ih (n + 1) (by omega) (by omega) (fun x hx => h x (by omega))
          fun x hx => hb x (by omega))]

/-- A square nobody has written, with legal words before it: the check faults there (10_state.md R38). -/
theorem legalWords_unwritten {s : State} (b : Nat → Byte) (n m a : Nat) (ha : a ≤ 80) (hn : n ≤ a)
    (hm : a < n + m) (h : ∀ x, n ≤ x → x < a → s.cell .pos x = some (b x))
    (hb : ∀ x, n ≤ x → x < a → legalSquare (b x) = true) (hc : s.cell .pos a = none) :
    legalWords (List.range' n m) s = .stopped (.unwritten .pos a) := by
  induction m generalizing n with
  | zero => omega
  | succ m ih =>
    rw [List.range'_succ, legalWords]
    by_cases hna : n = a
    · subst hna; rw [Cmd.bind_stopped (memRead_unwritten (hasAddr_board (by omega)) hc)]
    · rw [Cmd.bind_done (memRead_ok (hasAddr_board (by omega)) (h n (by omega) (by omega))),
        if_pos (hb n (by omega) (by omega)),
        Cmd.bind_stopped (ih (n + 1) (by omega) (by omega) (fun x hx => h x (by omega))
          fun x hx => hb x (by omega))]

/-- ValidateBoard faults on the first unwritten square, where the words before it are legal. -/
theorem validateBoard_unwritten {s : State} (b : Nat → Byte) {a : Nat} (ha : a ≤ 80)
    (h : ∀ x < a, s.cell .pos x = some (b x)) (hb : ∀ x < a, legalSquare (b x) = true)
    (hc : s.cell .pos a = none) : validateBoard s = .stopped (.unwritten .pos a) := by
  rw [validateBoard, squares, List.range_eq_range', Cmd.bind_stopped
    (legalWords_unwritten b 0 81 a ha (by omega) (by omega) (fun x _ => h x) (fun x _ => hb x) hc)]

theorem count_squares (p : Nat → Bool) (k : Nat) (hk : k ≤ 80) (h : ∀ a ≤ 80, p a = true ↔ a = k) :
    squares.countP p = 1 := by
  have : squares.countP p = squares.countP (fun a => a == k) := by
    apply List.countP_congr
    intro a ha
    rw [h a (squares_le ha)]; simp
  rw [this]
  show squares.count k = 1
  exact List.count_eq_one_of_mem List.nodup_range (List.mem_range.2 (by omega))

theorem count_board (b : Nat → Byte) (v : Byte) (k : Nat) (hk : k ≤ 80)
    (h : ∀ a ≤ 80, b a = v ↔ a = k) : (squares.map b).count v = 1 := by
  rw [List.count, List.countP_map]
  exact count_squares _ k hk fun a ha => by simp [h a ha]

theorem idxOf_board (b : Nat → Byte) (v : Byte) (k : Nat) (hk : k ≤ 80)
    (h : ∀ a ≤ 80, b a = v ↔ a = k) : (squares.map b).idxOf v = k := by
  have hlen : (squares.map b).length = 81 := by simp [squares]
  rw [List.idxOf, List.findIdx_eq (by omega)]
  constructor
  · simp [squares, (h k hk).2 rfl]
  · intro j hj
    have : b j ≠ v := fun hc => by have := (h j (by omega)).1 hc; omega
    simp [squares, this]

/-- ValidateBoard finds the kings of a legal board and changes nothing (42_records.md R178). -/
theorem validateBoard_ok {s : State} {b : Nat → Byte} {kb kw : Nat} (h : s.HoldsBoard b)
    (hb : LegalBoard b kb kw) : validateBoard s = .done (kb, kw) s := by
  rw [validateBoard, Cmd.bind_done (legalWords_ok b squares (fun a => squares_le)
    (fun a ha => h a (squares_le ha)) fun a ha => hb.legal a (squares_le ha)),
    count_board b _ kb hb.black.1 hb.black.2, count_board b _ kw hb.white.1 hb.white.2,
    idxOf_board b _ kb hb.black.1 hb.black.2, idxOf_board b _ kw hb.white.1 hb.white.2]
  simp

theorem LegalBoard.ne {b : Nat → Byte} {kb kw : Nat} (h : LegalBoard b kb kw) : kb ≠ kw := by
  intro hc
  have h1 := (h.black.2 kb h.black.1).2 rfl
  have h2 := (h.white.2 kb h.black.1).2 hc
  rw [h1] at h2
  exact absurd h2 (by decide)

/-- Off the king squares a legal board has legal non-king words. -/
theorem LegalBoard.nonKing {b : Nat → Byte} {kb kw : Nat} (h : LegalBoard b kb kw) {a : Nat}
    (ha : a ∈ otherSquares kb kw) : legalNonKing (b a) = true := by
  simp only [otherSquares, List.mem_filter, decide_eq_true_eq] at ha
  have hle := squares_le ha.1
  have h1 : b a ≠ blackKing := fun hc => ha.2.1 ((h.black.2 a hle).1 hc)
  have h2 : b a ≠ whiteKing := fun hc => ha.2.2 ((h.white.2 a hle).1 hc)
  have := h.legal a hle
  simpa [legalSquare, h1, h2] using this

/-! ## Writing the board -/

/-- PutBit of a string changes only the writer and OUT. -/
def writerOnly (s t : State) : Prop := t = { s with writer := t.writer, outMem := t.outMem }

theorem writerOnly.refl (s : State) : writerOnly s s := by cases s; rfl

theorem writerOnly.trans (a b c : State) (h : writerOnly a b) (h' : writerOnly b c) :
    writerOnly a c := by unfold writerOnly at *; rw [h] at h'; rw [h']

theorem writerOnly.posMem {s t : State} (h : writerOnly s t) : t.posMem = s.posMem := by rw [h]

theorem writerOnly.params {s t : State} (h : writerOnly s t) : t.params = s.params := by rw [h]

theorem writerOnly.hasAddr {s t : State} (h : writerOnly s t) (sp : Space) (a : Nat) :
    t.hasAddr sp a = s.hasAddr sp a := by cases sp <;> simp [State.hasAddr, h.params]

theorem keeps_setWriter (w : Writer) : (setWriter w).Keeps writerOnly :=
  Cmd.keeps_modify fun s => by unfold writerOnly; rfl

theorem keeps_getWriter : getWriter.Keeps writerOnly := by
  intro s; unfold getWriter; cases s.writer
  · trivial
  · exact writerOnly.refl s

theorem keeps_emit (acc : BitVec 8) (n : BitVec 13) : (emit acc n).Keeps writerOnly := by
  refine Cmd.keeps_bind writerOnly.trans ?_ fun _ => keeps_setWriter _
  intro s
  by_cases h : s.hasAddr .out n.toNat = true
  · simp only [memWrite, h, if_true]; unfold writerOnly; rfl
  · simp only [memWrite, h, Bool.false_eq_true, if_false]

theorem keeps_putBit (b : Bool) (sec : Sec) : (putBit b sec).Keeps writerOnly :=
  Cmd.keeps_bind writerOnly.trans keeps_getWriter fun _ =>
  Cmd.keeps_bind writerOnly.trans (Cmd.keeps_get writerOnly.refl _) fun _ =>
  Cmd.keeps_ite (fun _ => Cmd.keeps_raise writerOnly.refl _ _ _) fun _ =>
  Cmd.keeps_ite (fun _ => keeps_emit _ _) fun _ => keeps_setWriter _

theorem keeps_putBits (bits : List Bool) (sec : Sec) : (putBits bits sec).Keeps writerOnly :=
  Cmd.keeps_each writerOnly.refl writerOnly.trans bits fun b => keeps_putBit b sec

theorem keeps_flush (sec : Sec) : (flush sec).Keeps writerOnly :=
  Cmd.keeps_bind writerOnly.trans keeps_getWriter fun _ =>
  Cmd.keeps_bind writerOnly.trans (Cmd.keeps_get writerOnly.refl _) fun _ =>
  Cmd.keeps_ite (fun _ => Cmd.keeps_pure writerOnly.refl _) fun _ =>
  Cmd.keeps_ite (fun _ => Cmd.keeps_raise writerOnly.refl _ _ _) fun _ => keeps_emit _ _

/-- Two commands that agree on every state the first part can leave. -/
theorem Cmd.bind_congr_of {α β : Type} {m : Cmd α} {f g : α → Cmd β} {R : State → State → Prop}
    (hm : m.Keeps R) (s : State) (h : ∀ a t, R s t → f a t = g a t) : m.bind f s = m.bind g s := by
  have := hm s
  unfold Cmd.bind
  cases hc : m s with
  | done a t => rw [hc] at this; exact h a t this
  | raised e t => rfl
  | stopped x => rfl

/-- A loop that reads one POS word per address and writes that word's bits is PutBit of all the bits. -/
theorem each_encode (sec : Sec) (body : Nat → Cmd Unit) (bitsOf : Nat → List Bool) (l : List Nat)
    (s : State)
    (h : ∀ a ∈ l, ∀ t, writerOnly s t → body a t = putBits (bitsOf a) sec t) :
    Cmd.each l body s = putBits (l.flatMap bitsOf) sec s := by
  induction l generalizing s with
  | nil => rfl
  | cons a l ih =>
    rw [Cmd.each_cons, List.flatMap_cons, putBits_append]
    have h1 := h a List.mem_cons_self s (writerOnly.refl s)
    have : (body a).bind (fun _ => Cmd.each l body) s =
        (putBits (bitsOf a) sec).bind (fun _ => Cmd.each l body) s := by
      unfold Cmd.bind; rw [h1]
    rw [this]
    refine Cmd.bind_congr_of (keeps_putBits _ _) s fun _ t ht => ih t fun x hx u hu => ?_
    exact h x (List.mem_cons_of_mem _ hx) u (writerOnly.trans _ _ _ ht hu)

/-- EncBoard is PutBit of the board section's bits (42_records.md R179, 30_encoding.md R87). -/
theorem encBoard_eq {s : State} {b : Nat → Byte} {kb kw : Nat} (h : s.HoldsBoard b)
    (hb : LegalBoard b kb kw) : encBoard kb kw s = putBits (boardBits b kb kw) .board s := by
  have hf : (otherSquares kb kw).flatMap (fun a => squareBits (b a)) =
      squares.flatMap fun a => if a ≠ kb ∧ a ≠ kw then squareBits (b a) else [] := by
    unfold otherSquares
    generalize squares = l
    induction l with
    | nil => rfl
    | cons a l ih =>
      rw [List.filter_cons, List.flatMap_cons]
      by_cases hc : a ≠ kb ∧ a ≠ kw
      · rw [if_pos (by simpa using hc), if_pos hc, List.flatMap_cons, ih]
      · rw [if_neg (by simpa using hc), if_neg hc, ih, List.nil_append]
  rw [boardBits, kingBits, hf, List.append_assoc, putBits_append]
  unfold encBoard putLE7
  refine Cmd.bind_congr_of (keeps_putBits _ _) s fun _ t ht => ?_
  rw [putBits_append]
  refine Cmd.bind_congr_of (keeps_putBits _ _) t fun _ u hu => ?_
  have hsu := writerOnly.trans _ _ _ ht hu
  refine each_encode .board _ _ squares u fun a ha v hv => ?_
  have hsv := writerOnly.trans _ _ _ hsu hv
  by_cases hc : a ≠ kb ∧ a ≠ kw
  · rw [if_pos hc, if_pos hc]
    have hcell : v.cell .pos a = some (b a) := by
      have := h a (squares_le ha)
      simpa [State.cell, hsv.posMem] using this
    have ha80 := squares_le ha
    rw [Cmd.bind_done (memRead_ok (hasAddr_board (by omega)) hcell), encSquare_eq _ (hb.nonKing ?_)]
    simp only [otherSquares, List.mem_filter, decide_eq_true_eq]; exact ⟨ha, hc⟩
  · rw [if_neg hc, if_neg hc]; rfl

/-! ## Taking the board -/

/-- DecSquare repeated takes the records of the words, one after the other (42_records.md R180). -/
theorem decSquares_ok {s : State} (hi : s.RInv) (l : List Byte)
    (hl : ∀ w ∈ l, legalNonKing w = true) (h : s.Offers (l.flatMap squareBits)) :
    decSquares l.length s = .done l (s.advance (l.flatMap squareBits).length) := by
  induction l generalizing s with
  | nil =>
    show decSquares 0 s = .done [] (s.advance 0)
    rw [State.advance_zero]; rfl
  | cons w l ih =>
    rw [List.flatMap_cons] at h
    rw [List.length_cons, decSquares,
      Cmd.bind_done (decSquare_ok hi .board w (hl w List.mem_cons_self) h.left),
      Cmd.bind_done (ih (hi.advance h.left.1) (fun x hx => hl x (List.mem_cons_of_mem _ hx))
        (h.right hi)), State.advance_advance, List.flatMap_cons, List.length_append]
    rfl

/-- Only POS changed, at the addresses from a up to and below b. -/
structure Placed (s t : State) (a : Nat) (l : List Byte) : Prop where
  same : t = { s with posMem := t.posMem }
  wf : Memory.wf t.posMem
  new : ∀ i (h : i < l.length), t.cell .pos (a + i) = some l[i]
  frame : ∀ x, x < a ∨ a + l.length ≤ x → t.cell .pos x = s.cell .pos x

/-- Writing words at consecutive addresses of POS. -/
theorem writeWords_ok {s : State} (hs : Memory.wf s.posMem) (a : Nat) (l : List Byte)
    (ha : ∀ i, a ≤ i → i < a + l.length → s.hasAddr .pos i = true) :
    ∃ t, writeWords a l s = .done () t ∧ Placed s t a l := by
  induction l generalizing s a with
  | nil => exact ⟨s, rfl, by cases s; rfl, hs, fun i h => absurd h (Nat.not_lt_zero i), fun _ _ => rfl⟩
  | cons w l ih =>
    simp only [List.length_cons] at ha
    have h1 := memWrite_ok w (ha a (by omega) (by omega))
    rw [State.setCells_pos, State.cells_pos] at h1
    obtain ⟨t, ht, hp⟩ := ih (s := { s with posMem := Memory.write s.posMem a w })
      (Memory.wf_write _ _ _ hs) (a + 1) (fun i h1 h2 => ha i (by omega) (by omega))
    refine ⟨t, by rw [writeWords, Cmd.bind_done h1]; exact ht, ?_, hp.wf, ?_, ?_⟩
    · have := hp.same; rw [this]
    · intro i hi
      cases i with
      | zero =>
        rw [Nat.add_zero, hp.frame a (by omega)]
        simp [State.cell, Memory.read_write_same]
      | succ i =>
        have := hp.new i (by simpa using hi)
        rw [show a + (i + 1) = a + 1 + i by omega, this]; simp
    · intro x hx
      simp only [List.length_cons] at hx
      rw [hp.frame x (by omega)]
      simp only [State.cell, State.cells_pos]
      rw [Memory.read_write_other _ _ (by omega)]

theorem length_insert_two (l : List Byte) (a b : Nat) (u v : Byte) (hl : l.length = 79) (ha : a ≤ 79)
    (hb : b ≤ 80) : ((l.insertIdx a u).insertIdx b v).length = 81 := by
  have h1 : (l.insertIdx a u).length = 80 := by rw [List.length_insertIdx_of_le_length (by omega), hl]
  rw [List.length_insertIdx_of_le_length (by omega), h1]

theorem length_boardWithKings (l : List Byte) (pb pw : Nat) (hl : l.length = 79) (hb : pb ≤ 80)
    (hw : pw ≤ 80) (hne : pb ≠ pw) : (boardWithKings l pb pw).length = 81 := by
  unfold boardWithKings
  split
  · exact length_insert_two _ _ _ _ _ hl (by omega) hw
  · exact length_insert_two _ _ _ _ _ hl (by omega) hb

/-- The entries of a list with two more, the smaller index first. -/
theorem insert_two_get (l : List Byte) (a b : Nat) (u v : Byte) (hl : l.length = 79) (hab : a < b)
    (hb : b ≤ 80) (i : Nat) (hi : i ≤ 80) :
    ((l.insertIdx a u).insertIdx b v)[i]? =
      if i = a then some u else if i = b then some v
      else l[i - ((if a < i then 1 else 0) + if b < i then 1 else 0)]? := by
  have h1 : (l.insertIdx a u).length = 80 := by rw [List.length_insertIdx_of_le_length (by omega), hl]
  have inner : ∀ j ≤ 79, (l.insertIdx a u)[j]? =
      if j = a then some u else l[j - if a < j then 1 else 0]? := by
    intro j hj
    rcases Nat.lt_trichotomy j a with h | h | h
    · rw [List.getElem?_insertIdx_of_lt h, if_neg (by omega), if_neg (by omega)]; rfl
    · subst h; rw [List.getElem?_insertIdx_self, if_pos rfl, if_pos (by omega)]
    · rw [List.getElem?_insertIdx_of_gt h, if_neg (by omega), if_pos h]
  rcases Nat.lt_trichotomy i b with h | h | h
  · rw [List.getElem?_insertIdx_of_lt h, inner i (by omega)]
    have h2 : i ≠ b := by omega
    have h3 : ¬ b < i := by omega
    simp only [h2, h3, if_false, Nat.add_zero]
  · subst h
    have h2 : i ≠ a := by omega
    simp only [List.getElem?_insertIdx_self, h1, hb, h2, if_true, if_false]
  · have h2 : i - 1 ≠ a := by omega
    have h3 : a < i - 1 := by omega
    have h4 : i ≠ a := by omega
    have h5 : i ≠ b := by omega
    have h6 : a < i := by omega
    rw [List.getElem?_insertIdx_of_gt h, inner (i - 1) (by omega)]
    simp only [h, h2, h3, h4, h5, h6, if_true, if_false, Nat.sub_sub]

/-- The closed form of InsertKings (42_records.md R184). -/
theorem boardWithKings_get (l : List Byte) (pb pw : Nat) (hl : l.length = 79) (hb : pb ≤ 80)
    (hw : pw ≤ 80) (hne : pb ≠ pw) (i : Nat) (hi : i ≤ 80) :
    (boardWithKings l pb pw)[i]? =
      if i = pb then some blackKing else if i = pw then some whiteKing
      else l[i - ((if pb < i then 1 else 0) + if pw < i then 1 else 0)]? := by
  unfold boardWithKings
  split
  · rename_i h; exact insert_two_get l pb pw _ _ hl h hw i hi
  · rename_i h
    rw [insert_two_get l pw pb _ _ hl (by omega) hb i hi]
    by_cases h1 : i = pb
    · rw [if_pos h1, if_pos h1, if_neg (by omega)]
    · rw [if_neg h1, if_neg h1, Nat.add_comm]

/-- CheckKings passes two different squares of the board (42_records.md R182). -/
theorem checkKings_ok {pb pw : Nat} (hpb : pb ≤ 80) (hpw : pw ≤ 80) (hne : pb ≠ pw)
    (start : BitVec 16) (s : State) :
    checkKings (BitVec.ofNat 7 pb) (BitVec.ofNat 7 pw) start s = .done () s := by
  have hkb : (BitVec.ofNat 7 pb).toNat = pb := by simp; omega
  have hkw : (BitVec.ofNat 7 pw).toNat = pw := by simp; omega
  rw [checkKings, if_neg]
  · rfl
  · rw [hkb, hkw]
    rintro (h | h | h)
    · omega
    · omega
    · apply hne; rw [← hkb, ← hkw, h]

/-- DecBoard on two king fields and 79 square records (42_records.md R180). -/
theorem decBoard_ok {s : State} (hi : s.RInv) (hs : Memory.wf s.posMem) (pb pw : Nat)
    (hpb : pb ≤ 80) (hpw : pw ≤ 80) (hne : pb ≠ pw) (l : List Byte) (hlen : l.length = 79)
    (hl : ∀ w ∈ l, legalNonKing w = true)
    (h : s.Offers (kingBits pb pw ++ l.flatMap squareBits)) :
    ∃ t, decBoard s = .done () t ∧
      Placed (s.advance (kingBits pb pw ++ l.flatMap squareBits).length) t 0
        (boardWithKings l pb pw) := by
  have hkb : (BitVec.ofNat 7 pb).toNat = pb := by simp; omega
  have hkw : (BitVec.ofNat 7 pw).toNat = pw := by simp; omega
  have hk : (kingBits pb pw).length = 14 := rfl
  have h1 : s.Offers (le7Bits (BitVec.ofNat 7 pb)) := by
    unfold kingBits at h; rw [List.append_assoc] at h; exact h.left
  have h2 : (s.advance 7).Offers (le7Bits (BitVec.ofNat 7 pw)) := by
    unfold kingBits at h; rw [List.append_assoc] at h; exact (h.right hi).left
  have h3 : (s.advance 14).Offers (l.flatMap squareBits) := h.right hi
  have i1 := hi.advance (n := 7) h1.1
  have i2 := hi.advance (n := 14) (by have := h.left.1; rw [hk] at this; exact this)
  rw [decBoard, Cmd.cursor_bind_apply, Cmd.bind_done (getLE7_ok hi .board _ h1),
    Cmd.bind_done (getLE7_ok i1 .board _ h2), State.advance_advance]
  have hck := checkKings_ok hpb hpw hne s.rpos (s.advance 14)
  have h79 := decSquares_ok i2 l hl h3
  rw [hlen] at h79
  rw [Cmd.bind_done hck, Cmd.bind_done h79, State.advance_advance, insertKings, hkb, hkw]
  have hall : (kingBits pb pw ++ l.flatMap squareBits).length = 14 + (l.flatMap squareBits).length := by
    rw [List.length_append, hk]
  rw [hall]
  refine writeWords_ok (s := s.advance _) hs 0 _ fun i _ h => hasAddr_board ?_
  rw [length_boardWithKings l pb pw hlen hpb hpw hne] at h
  omega

/-- DecBoard on king fields that name no board (42_records.md R182). -/
theorem decBoard_kings {s : State} (hi : s.RInv) (pb pw : BitVec 7)
    (hbad : pb.toNat > 80 ∨ pw.toNat > 80 ∨ pb = pw)
    (h : s.Offers (le7Bits pb ++ le7Bits pw)) :
    decBoard s = .raised ⟨.invalidKingConfiguration, .board, s.rpos⟩ (s.advance 14) := by
  have i1 := hi.advance (n := 7) h.left.1
  have h2 : (s.advance 7).Offers (le7Bits pw) := h.right hi
  rw [decBoard, Cmd.cursor_bind_apply, Cmd.bind_done (getLE7_ok hi .board _ h.left),
    Cmd.bind_done (getLE7_ok i1 .board _ h2), State.advance_advance,
    Cmd.bind_raised (show checkKings pb pw s.rpos _ = _ by rw [checkKings, if_pos hbad]; rfl)]

/-- Bits that hold no whole square record end inside one. -/
theorem squareEnds_of_cut {bits : List Bool} (h : decodeItem .square bits = .error .endOfStream) :
    bits = [] ∨ ∃ r, bits = true :: r ∧ RecordEnds r := by
  match bits with
  | [] => exact .inl rfl
  | false :: r => cases h
  | true :: r =>
    refine .inr ⟨r, rfl, ?_⟩
    rcases record_cases r with ⟨k, p, c, rest, rfl⟩ | hr
    · simp only [decodeItem, decodePiece_record] at h; cases h
    · exact hr

/-- The squares' loop where the bits there end inside a record: it is at that record's first bit. -/
theorem decSquares_takesNext {s : State} (hi : s.RInv) (l : List Byte)
    (hl : ∀ w ∈ l, legalNonKing w = true) (n : Nat) (hn : l.length < n) (cut : List Bool)
    (hc : decodeItem .square cut = .error .endOfStream) (h : s.Offers (l.flatMap squareBits ++ cut)) :
    (decSquares n).TakesNext s .board (s.advance (l.flatMap squareBits).length).rpos
      (l.flatMap squareBits ++ cut).length := by
  induction l generalizing s n with
  | nil =>
    obtain ⟨m, rfl⟩ : ∃ m, n = m + 1 := ⟨n - 1, by simp at hn; omega⟩
    have := decSquare_takesNext hi .board cut (squareEnds_of_cut hc) h
    rw [List.flatMap_nil, List.length_nil, State.advance_zero]
    exact this.bind _
  | cons w l ih =>
    simp only [List.length_cons] at hn
    obtain ⟨m, rfl⟩ : ∃ m, n = m + 1 := ⟨n - 1, by omega⟩
    rw [List.flatMap_cons, List.append_assoc] at h
    have hd := decSquare_ok hi .board w (hl w List.mem_cons_self) h.left
    have ht := (ih (hi.advance h.left.1) (fun x hx => hl x (List.mem_cons_of_mem _ hx)) m (by omega)
      (h.right hi)).bind fun ws => .pure (w :: ws)
    rw [State.advance_advance] at ht
    rw [List.flatMap_cons, List.append_assoc, List.length_append, List.length_append (bs := _ ++ cut)]
    exact .after (f := fun w => (decSquares m).bind fun ws => .pure (w :: ws)) hd ht

theorem exists_le7Bits : ∀ l : List Bool, l.length = 7 → ∃ v, le7Bits v = l
  | [b0, b1, b2, b3, b4, b5, b6], _ => ⟨le7Of b0 b1 b2 b3 b4 b5 b6, by
    revert b0 b1 b2 b3 b4 b5 b6; decide⟩

/-- DecBoard where the bits there end inside an item: it is at that item's first bit (42_records.md
R180). -/
theorem decBoard_takesNext {s : State} (hi : s.RInv) {off : Nat} {bits : List Bool}
    (hb : cutBoard off bits) (h : s.Offers bits) :
    decBoard.TakesNext s .board (s.advance off).rpos bits.length := by
  rcases hb with ⟨h7, rfl⟩ | ⟨h7, h14, rfl⟩ | ⟨pb, pw, l, cut, hpb, hpw, hne, hl, hw, hc, rfl, rfl⟩
  · rw [State.advance_zero]
    exact (getLE7_takesNext hi .board bits h h7).bind _
  · obtain ⟨v, hv⟩ := exists_le7Bits (bits.take 7) (by simp; omega)
    obtain ⟨rest, rfl⟩ : ∃ rest, bits = le7Bits v ++ rest :=
      ⟨bits.drop 7, by rw [hv, List.take_append_drop]⟩
    rw [List.length_append, length_le7Bits] at *
    have i1 := hi.advance h.left.1
    have ht := (getLE7_takesNext i1 .board rest (h.right hi) (by omega)).bind fun pw =>
      (checkKings v pw s.rpos).bind fun _ => (decSquares 79).bind fun l => insertKings l v pw
    exact .after (f := fun pb => (getLE7 .board).bind fun pw => (checkKings pb pw s.rpos).bind fun _ =>
      (decSquares 79).bind fun l => insertKings l pb pw) (getLE7_ok hi .board v h.left) ht
  · have hk : (kingBits pb pw).length = 14 := rfl
    rw [List.append_assoc] at h
    have h2 : (s.advance 7).Offers (le7Bits (BitVec.ofNat 7 pw)) := h.left.right hi
    have i1 := hi.advance (n := 7) (h.left.left (b := le7Bits _)).1
    have i2 := hi.advance (n := 14) h.left.1
    obtain ⟨k, ht⟩ := (decSquares_takesNext i2 l hw 79 hl cut hc (h.right hi)).bind fun l =>
      insertKings l (BitVec.ofNat 7 pb) (BitVec.ofNat 7 pw)
    refine ⟨k, ?_⟩
    rw [decBoard, Cmd.cursor_bind_apply,
      Cmd.bind_done (getLE7_ok hi .board _ (h.left.left (b := le7Bits _))),
      Cmd.bind_done (getLE7_ok i1 .board _ h2), State.advance_advance,
      Cmd.bind_done (checkKings_ok hpb hpw hne _ _), ht]
    simp only [State.advance_advance, List.length_append, hk, Nat.add_assoc]

/-- DecBoard on a stream that ends inside an item (42_records.md R180, R197). -/
theorem decBoard_cut {s : State} (hi : s.RInv) {off : Nat} {bits : List Bool} (hb : cutBoard off bits)
    (h : s.OffersLast bits) :
    decBoard s =
      .raised ⟨.unexpectedEndOfStream, .board, (s.advance off).rpos⟩ (s.advance bits.length) :=
  (decBoard_takesNext hi hb h.1).short (h.exhausted_advance hi)

/-! ## The board EncBoard wrote -/

theorem idxOf_range {n k : Nat} (h : k < n) : (List.range n).idxOf k = k := by
  rw [List.idxOf, List.findIdx_eq (by simpa using h)]
  simp; omega

theorem otherSquares_comm (a b : Nat) : otherSquares a b = otherSquares b a := by
  unfold otherSquares; congr 1; funext x; simp [and_comm]

/-- Inserting two indices, the smaller first, at their own places rebuilds the list of all squares. -/
theorem insert_otherSquares {a b : Nat} (hab : a < b) (hb : b ≤ 80) :
    ((otherSquares a b).insertIdx a a).insertIdx b b = squares := by
  have hbl : b < squares.length := by simp [squares]; omega
  have hM : squares.eraseIdx b = squares.erase b :=
    (List.erase_eq_eraseIdx_of_idxOf (idxOf_range (by omega))).symm
  have hnd : (squares.erase b).Nodup := List.Nodup.erase b List.nodup_range
  have hMa : ∀ j (h : j < (squares.eraseIdx b).length), j < b → (squares.eraseIdx b)[j] = j := by
    intro j h hj
    rw [List.getElem_eraseIdx_of_lt _ hj]; simp [squares]
  have hlen : (squares.eraseIdx b).length = 80 := by
    rw [List.length_eraseIdx_of_lt hbl]; simp [squares]
  have hidx : (squares.erase b).idxOf a = a := by
    rw [← hM, List.idxOf, List.findIdx_eq (by omega)]
    refine ⟨by simp [hMa a (by omega) hab], fun j hj => ?_⟩
    rw [hMa j (by omega) (by omega)]
    simp; omega
  have hoth : otherSquares a b = (squares.eraseIdx b).eraseIdx a := by
    have hsq : squares.erase b = squares.filter (· != b) :=
      List.Nodup.erase_eq_filter (List.nodup_range (n := 81)) b
    rw [hM, ← List.erase_eq_eraseIdx_of_idxOf hidx, hnd.erase_eq_filter, hsq, List.filter_filter]
    unfold otherSquares; congr 1; funext x
    simp only [bne, Bool.decide_and, decide_not]
    rfl
  rw [hoth]
  have h1 := List.insertIdx_eraseIdx_getElem (l := squares.eraseIdx b) (n := a) (by omega)
  rw [hMa a (by omega) hab] at h1
  rw [h1]
  have h2 := List.insertIdx_eraseIdx_getElem (l := squares) (n := b) hbl
  have h3 : squares[b] = b := by simp [squares]
  rw [h3] at h2
  exact h2

theorem length_otherSquares {a b : Nat} (ha : a ≤ 80) (hb : b ≤ 80) (hne : a ≠ b) :
    (otherSquares a b).length = 79 := by
  rcases Nat.lt_or_gt_of_ne hne with h | h
  · have := congrArg List.length (insert_otherSquares h hb)
    simp only [List.length_insertIdx, squares, List.length_range] at this
    split at this <;> split at this <;> omega
  · rw [otherSquares_comm]
    have := congrArg List.length (insert_otherSquares h ha)
    simp only [List.length_insertIdx, squares, List.length_range] at this
    split at this <;> split at this <;> omega

/-- The words EncBoard leaves out are the ones InsertKings puts back (42_records.md R184, R185). -/
theorem boardWithKings_board {b : Nat → Byte} {kb kw : Nat} (h : LegalBoard b kb kw) :
    boardWithKings ((otherSquares kb kw).map b) kb kw = squares.map b := by
  have hb := (h.black.2 kb h.black.1).2 rfl
  have hw := (h.white.2 kw h.white.1).2 rfl
  unfold boardWithKings
  split
  · rename_i hlt
    rw [← hb, ← List.map_insertIdx, ← hw, ← List.map_insertIdx,
      insert_otherSquares hlt h.white.1]
  · rename_i hlt
    rw [← hw, ← List.map_insertIdx, ← hb, ← List.map_insertIdx, otherSquares_comm,
      insert_otherSquares (by have := h.ne; omega) h.black.1]

end Sys2Proof.Machine
end

