-- ==== Sys2Proof/Laws/Hand.lean ====
section
/-! SUPPORT. Laws of the hand section: the check of HAND_ENC and PACK (42_records.md R177), what EncHand
writes (R186) and what DecHand takes and places (R187). -/

namespace Sys2Proof.Machine

/-! ## Words and records -/

theorem readHand_cases (h : Byte) (hh : readHand h = true) :
    ∃ k, Kind.ofNum (handKind h) = some k ∧
      h = handWord k (if k = .gold then false else h.getLsbD 4) (handColor h) := by
  have key : ∀ h : Byte, readHand h = true → ∃ k ∈ Kind.all, Kind.ofNum (handKind h) = some k ∧
      h = handWord k (if k = .gold then false else h.getLsbD 4) (handColor h) := by decide +kernel
  obtain ⟨k, -, h⟩ := key h hh
  exact ⟨k, h⟩

theorem readHand_handWord (k : Kind) (p c : Bool) (hp : k = .gold → p = false) :
    readHand (handWord k p c) = true := by
  cases k <;> cases p <;> cases c <;> first | decide | (exact absurd (hp rfl) (by decide))

/-- The record EncHandRec writes is read back as the word with bit 4 cleared (42_records.md R189). -/
theorem handBits_eq_readBits : ∀ h : Byte, handBits h = readBits (clearProm h) := by decide +kernel

theorem readHand_clearProm : ∀ h : Byte, legalHand h = true → readHand (clearProm h) = true := by
  decide +kernel

theorem handSection_eq (hs : List Byte) : handSection hs = readSection (hs.map clearProm) := by
  induction hs with
  | nil => rfl
  | cons h hs ih =>
    unfold handSection readSection at *
    rw [List.flatMap_cons, List.map_cons, List.flatMap_cons, ih, handBits_eq_readBits]

theorem readBits_ne_nil {h : Byte} (hh : readHand h = true) : readBits h ≠ [] := by
  obtain ⟨k, hk, -⟩ := readHand_cases h hh
  rw [readBits, hk]
  cases k <;> simp [recordBits, Kind.text]

/-! ## The check and the encoder -/

/-- A loop whose body changes nothing changes nothing. -/
theorem each_stay {α : Type} (l : List α) (body : α → Cmd Unit) (s : State)
    (h : ∀ a ∈ l, body a s = .done () s) : Cmd.each l body s = .done () s := by
  induction l with
  | nil => rfl
  | cons a l ih =>
    rw [Cmd.each_cons, Cmd.bind_done (h a List.mem_cons_self)]
    exact ih fun x hx => h x (List.mem_cons_of_mem _ hx)

/-- A loop ends at the first element whose body raises. -/
theorem each_raised {α : Type} (l l' : List α) (a : α) (body : α → Cmd Unit) (s t : State) (e : Err)
    (h : ∀ x ∈ l, body x s = .done () s) (ha : body a s = .raised e t) :
    Cmd.each (l ++ a :: l') body s = .raised e t := by
  rw [Cmd.each_append, Cmd.bind_done (each_stay l body s h), Cmd.each_cons, Cmd.bind_raised ha]

/-- A loop ends at the first element whose body faults. -/
theorem each_stopped {α : Type} (l l' : List α) (a : α) (body : α → Cmd Unit) (s : State) (f : Fault)
    (h : ∀ x ∈ l, body x s = .done () s) (ha : body a s = .stopped f) :
    Cmd.each (l ++ a :: l') body s = .stopped f := by
  rw [Cmd.each_append, Cmd.bind_done (each_stay l body s h), Cmd.each_cons, Cmd.bind_stopped ha]

theorem range_split {n i : Nat} (h : i < n) :
    ∃ l, List.range n = List.range i ++ i :: l := by
  refine ⟨List.range' (i + 1) (n - i - 1), ?_⟩
  rw [List.range_eq_range', List.range_eq_range', ← List.range'_succ]
  have := List.range'_append_1 (s := 0) (m := i) (n := n - i - 1 + 1)
  rw [Nat.zero_add] at this
  rw [this]; congr 1; omega

theorem handlen_toNat {s : State} (hc : s.params.handCap ≤ 896) {hs : List Byte}
    (h : s.HoldsHand hs) : (BitVec.ofNat 10 hs.length).toNat = hs.length := by
  have := h.2.1
  simp; omega

/-- The addresses of the hand words (42_records.md R177). -/
theorem checkHand_ok {s : State} (hc : s.params.handCap ≤ 896) {hs : List Byte} (h : s.HoldsHand hs)
    (hl : ∀ w ∈ hs, legalHand w = true) :
    checkHand s = .done ((List.range hs.length).map handAddr) s := by
  have hn := handlen_toNat hc h
  have hg : getHandlen s = .done (BitVec.ofNat 10 hs.length) s := by simp [getHandlen, h.1]
  rw [checkHand, Cmd.bind_done hg, Cmd.get_bind_apply, hn, if_neg (by have := h.2.1; omega)]
  rw [Cmd.bind_done (each_stay _ _ s ?_)]
  · rfl
  · intro a ha
    obtain ⟨i, hi, rfl⟩ := List.mem_map.1 ha
    have hi := List.mem_range.1 hi
    rw [handAddr, Cmd.bind_done (memRead_ok (hasAddr_hand (by have := h.2.1; omega)) (h.2.2 i hi)),
      if_pos (hl _ (List.getElem_mem hi))]
    rfl

/-- HANDLEN > HAND_CAP (42_records.md R177). -/
theorem checkHand_len {s : State} {n : BitVec 10} (h : s.handlen = some n)
    (hn : s.params.handCap < n.toNat) : checkHand s = .raised ⟨.invalidOperand, .hand, 0⟩ s := by
  have hg : getHandlen s = .done n s := by simp [getHandlen, h]
  rw [checkHand, Cmd.bind_done hg, Cmd.get_bind_apply, if_pos hn]
  rfl

/-- The first illegal hand word is the one reported (42_records.md R198). -/
theorem checkHand_illegal {s : State} {n : BitVec 10} (h : s.handlen = some n)
    (hn : n.toNat ≤ s.params.handCap) (b : Nat → Byte) (i : Nat) (hi : i < n.toNat)
    (hcell : ∀ j ≤ i, s.cell .pos (128 + j) = some (b j))
    (hleg : ∀ j < i, legalHand (b j) = true) (hbad : legalHand (b i) = false) :
    checkHand s = .raised ⟨.invalidOperand, .hand, BitVec.ofNat 16 (128 + i)⟩ s := by
  have hg : getHandlen s = .done n s := by simp [getHandlen, h]
  rw [checkHand, Cmd.bind_done hg, Cmd.get_bind_apply, if_neg (by omega)]
  obtain ⟨l, hl⟩ := range_split hi
  rw [hl, List.map_append, List.map_cons, Cmd.bind_raised (each_raised _ _ _ _ s s _ ?_ ?_)]
  · intro a ha
    obtain ⟨j, hj, rfl⟩ := List.mem_map.1 ha
    have hj := List.mem_range.1 hj
    rw [handAddr, Cmd.bind_done (memRead_ok (hasAddr_hand (by omega)) (hcell j (by omega))),
      if_pos (hleg j hj)]
    rfl
  · rw [handAddr, Cmd.bind_done (memRead_ok (hasAddr_hand (by omega)) (hcell i (by omega))),
      if_neg (by rw [hbad]; decide)]
    rfl

/-- HANDLEN unspecified (60_exceptions.md R244). -/
theorem checkHand_unspecified {s : State} (h : s.handlen = none) :
    checkHand s = .stopped .unspecifiedHandlen := by
  have hg : getHandlen s = .stopped .unspecifiedHandlen := by simp [getHandlen, h]
  rw [checkHand, Cmd.bind_stopped hg]

/-- A hand word nobody has written, with legal words before it: the check faults there
(10_state.md R38). -/
theorem checkHand_unwritten {s : State} {n : BitVec 10} (h : s.handlen = some n)
    (hn : n.toNat ≤ s.params.handCap) (b : Nat → Byte) {i : Nat} (hi : i < n.toNat)
    (hcell : ∀ j < i, s.cell .pos (128 + j) = some (b j)) (hleg : ∀ j < i, legalHand (b j) = true)
    (hc : s.cell .pos (128 + i) = none) :
    checkHand s = .stopped (.unwritten .pos (128 + i)) := by
  have hg : getHandlen s = .done n s := by simp [getHandlen, h]
  rw [checkHand, Cmd.bind_done hg, Cmd.get_bind_apply, if_neg (by omega)]
  obtain ⟨l, hl⟩ := range_split hi
  rw [hl, List.map_append, List.map_cons, Cmd.bind_stopped (each_stopped _ _ _ _ s _ ?_ ?_)]
  · intro a ha
    obtain ⟨j, hj, rfl⟩ := List.mem_map.1 ha
    have hj := List.mem_range.1 hj
    rw [handAddr, Cmd.bind_done (memRead_ok (hasAddr_hand (by omega)) (hcell j hj)),
      if_pos (hleg j hj)]
    rfl
  · rw [handAddr, Cmd.bind_stopped (memRead_unwritten (hasAddr_hand (by omega)) hc)]

/-- EncHand is PutBit of the hand section's bits (42_records.md R186, 30_encoding.md R87). -/
theorem encHand_eq {s : State} {hs : List Byte} (h : s.HoldsHand hs)
    (hl : ∀ w ∈ hs, legalHand w = true) :
    encHand ((List.range hs.length).map handAddr) s = putBits (handSection hs) .hand s := by
  have hbits : handSection hs = ((List.range hs.length).map handAddr).flatMap
      fun a => handBits (hs.getD (a - 128) 0) := by
    have hr : (List.range hs.length).map (fun i => hs.getD i 0) = hs := by
      apply List.ext_getElem (by simp)
      intro i h1 h2
      simp [h2]
    unfold handSection
    conv => lhs; rw [← hr]
    simp only [List.flatMap_map, handAddr, Nat.add_sub_cancel_left]
  rw [hbits]
  unfold encHand
  refine each_encode .hand _ (fun a => handBits (hs.getD (a - 128) 0)) _ s fun a ha t ht => ?_
  obtain ⟨i, hi, rfl⟩ := List.mem_map.1 ha
  have hi := List.mem_range.1 hi
  have hcell : t.cell .pos (128 + i) = some hs[i] := by
    have := h.2.2 i hi
    simpa [State.cell, ht.posMem] using this
  have hget : hs.getD (handAddr i - 128) 0 = hs[i] := by simp [handAddr, hi]
  rw [handAddr, Cmd.bind_done (memRead_ok (by
    rw [ht.hasAddr]; exact hasAddr_hand (by have := h.2.1; omega)) hcell),
    encHandRec_eq _ (hl _ (List.getElem_mem hi))]
  rw [handAddr] at hget
  rw [hget]

/-! ## The decoder -/

/-- DecHandRec takes the record of a word and gives the word. -/
theorem decHandRec_word {s : State} (hi : s.RInv) (h : Byte) (hh : readHand h = true)
    (ho : s.Offers (readBits h)) :
    decHandRec .hand s = .done h (s.advance (readBits h).length) := by
  obtain ⟨k, hk, he⟩ := readHand_cases h hh
  have hb : readBits h = recordBits k (h.getLsbD 4) (handColor h) := by rw [readBits, hk]
  rw [hb] at ho ⊢
  rw [decHandRec_ok hi .hand k _ _ ho, ← he]

theorem RecordEnds_of_cut {bits : List Bool} (h : decodeHandRec bits = none) : RecordEnds bits := by
  rcases record_cases bits with ⟨k, p, c, rest, rfl⟩ | h'
  · rw [decodeHandRec_record] at h; cases h
  · exact h'

theorem Placed.offers {s t : State} {a : Nat} {l : List Byte} (h : Placed s t a l)
    {bits : List Bool} (ho : s.Offers bits) : t.Offers bits := by rw [h.same]; exact ho

theorem Placed.offersLast {s t : State} {a : Nat} {l : List Byte} (h : Placed s t a l)
    {bits : List Bool} (ho : s.OffersLast bits) : t.OffersLast bits := by rw [h.same]; exact ho

theorem Placed.offersUnwritten {s t : State} {a : Nat} {l : List Byte} (h : Placed s t a l)
    {bits : List Bool} {x : Nat} (ho : s.OffersUnwritten bits x) : t.OffersUnwritten bits x := by
  rw [h.same]; exact ho

theorem Placed.rInv {s t : State} {a : Nat} {l : List Byte} (h : Placed s t a l) (hi : s.RInv) :
    t.RInv := by rw [h.same]; exact ⟨hi.cap, hi.rlen, hi.rpos⟩

theorem Placed.refl {s : State} (hs : Memory.wf s.posMem) (a : Nat) : Placed s s a [] where
  same := by cases s; rfl
  wf := hs
  new := fun i h => absurd h (Nat.not_lt_zero i)
  frame := fun _ _ => rfl

/-- One word, then more at the next addresses. -/
theorem Placed.cons {s t : State} (a : Nat) (w : Byte) (l : List Byte)
    (h : Placed { s with posMem := Memory.write s.posMem a w } t (a + 1) l) :
    Placed s t a (w :: l) where
  same := by have := h.same; rw [this]
  wf := h.wf
  new := by
    intro i hi
    cases i with
    | zero =>
      rw [Nat.add_zero, h.frame a (by omega)]
      simp [State.cell, Memory.read_write_same]
    | succ i =>
      have := h.new i (by simpa using hi)
      rw [show a + (i + 1) = a + 1 + i by omega, this]; simp
  frame := by
    intro x hx
    simp only [List.length_cons] at hx
    rw [h.frame x (by omega)]
    simp only [State.cell, State.cells_pos]
    rw [Memory.read_write_other _ _ (by omega)]

theorem not_exhausted {s : State} {bits : List Bool} (hb : bits ≠ []) (h : s.Offers bits) :
    s.exhausted = false := by
  rw [Bool.eq_false_iff]; intro hc
  have h1 := (s.exhausted_iff).1 hc
  have h2 := h.1
  have : bits.length ≠ 0 := fun h => hb (List.length_eq_zero_iff.1 h)
  omega

/-- The loop of DecHand over the records of the words hs, with room left over. -/
theorem decHandFrom_records {s : State} (hi : s.RInv) (hs : Memory.wf s.posMem) (ws : List Byte)
    (hw : ∀ w ∈ ws, readHand w = true) (n room : Nat) (hn : n + ws.length ≤ s.params.handCap)
    (h : s.Offers (readSection ws)) :
    ∃ t, decHandFrom (ws.length + room) n s = decHandFrom room (n + ws.length) t ∧
      Placed (s.advance (readSection ws).length) t (128 + n) ws := by
  induction ws generalizing s n with
  | nil =>
    refine ⟨s, by simp, ?_⟩
    show Placed (s.advance 0) s _ _
    rw [State.advance_zero]; exact Placed.refl hs _
  | cons w ws ih =>
    simp only [List.length_cons] at hn
    have hw1 := hw w List.mem_cons_self
    have hsec : readSection (w :: ws) = readBits w ++ readSection ws := rfl
    rw [hsec] at h
    have hadr : (s.advance (readBits w).length).hasAddr .pos (128 + n) = true :=
      hasAddr_hand (by simp only [State.advance_params]; omega)
    have hwr := memWrite_ok w hadr
    rw [State.setCells_pos, State.cells_pos] at hwr
    obtain ⟨t, ht, hp⟩ := ih (s := { s.advance (readBits w).length with
        posMem := Memory.write (s.advance (readBits w).length).posMem (128 + n) w })
      ⟨hi.cap, hi.rlen, (hi.advance h.left.1).rpos⟩ (Memory.wf_write _ _ _ hs)
      (fun x hx => hw x (List.mem_cons_of_mem _ hx)) (n + 1) (by simp only [State.advance_params]; omega)
      (h.right hi)
    refine ⟨t, ?_, ?_⟩
    · rw [List.length_cons, show ws.length + 1 + room = ws.length + room + 1 by omega, decHandFrom,
        Cmd.get_bind_apply, not_exhausted (readBits_ne_nil hw1) h.left, if_neg (by decide),
        Cmd.bind_done (decHandRec_word hi w hw1 h.left), handAddr, Cmd.bind_done hwr, ht]
      congr 1; omega
    · have hcomm : Placed { s.advance (readSection (w :: ws)).length with
          posMem := Memory.write (s.advance (readSection (w :: ws)).length).posMem (128 + n) w }
          t (128 + n + 1) ws := by
        rw [hsec, List.length_append, ← State.advance_advance]
        exact hp
      exact Placed.cons (s := s.advance (readSection (w :: ws)).length) _ _ _ hcomm

/-- DecHand at the end of the stream. -/
theorem decHandFrom_end {s : State} (room n : Nat) (h : s.exhausted = true) :
    decHandFrom room n s = .done n s := by
  cases room <;> simp [decHandFrom, h]

/-- DecHand with HAND_CAP records read and bits left (42_records.md R187). -/
theorem decHandFrom_full {s : State} (n : Nat) (h : s.exhausted = false) :
    decHandFrom 0 n s = .raised ⟨.capacityExceeded, .hand, s.rpos⟩ s := by
  simp [decHandFrom, h]

/-- DecHand on a stream that ends inside a record (42_records.md R187). -/
theorem decHandFrom_cut {s : State} (hi : s.RInv) (room n : Nat) (bits : List Bool)
    (hb : cutHandRecord bits) (h : s.OffersLast bits) :
    decHandFrom (room + 1) n s =
      .raised ⟨.unexpectedEndOfStream, .hand, s.rpos⟩ (s.advance bits.length) := by
  rw [decHandFrom, Cmd.get_bind_apply, not_exhausted hb.1 h.1, if_neg (by decide),
    Cmd.bind_raised (decHandRec_short hi .hand bits (RecordEnds_of_cut hb.2) h)]

/-- DecHand's loop where the bits there end inside a record and the next byte is unwritten. -/
theorem decHandFrom_unwritten {s : State} (hi : s.RInv) (room n : Nat) {cut : List Bool} {a : Nat}
    (hc : decodeHandRec cut = none) (h : s.OffersUnwritten cut a) :
    decHandFrom (room + 1) n s = .stopped (.unwritten .inp a) := by
  have hex : s.exhausted = false := by
    rw [Bool.eq_false_iff]; intro he
    have := (s.exhausted_iff).1 he; have := h.2.1; omega
  obtain ⟨i, o⟩ := h.advance hi
  rw [decHandFrom, Cmd.get_bind_apply, hex, if_neg (by decide), Cmd.bind_stopped
    ((decHandRec_takesNext hi .hand cut (RecordEnds_of_cut hc) h.1).unwritten i o)]

/-- DecHand where the records there are followed by an unwritten byte (10_state.md R38). -/
theorem decHand_unwritten {s : State} (hi : s.RInv) (hs : Memory.wf s.posMem) (ws : List Byte)
    (hw : ∀ w ∈ ws, readHand w = true) (hn : ws.length < s.params.handCap) {cut : List Bool} {a : Nat}
    (hc : decodeHandRec cut = none) (h : s.OffersUnwritten (readSection ws ++ cut) a) :
    decHand s = .stopped (.unwritten .inp a) := by
  obtain ⟨m, hm⟩ : ∃ m, s.params.handCap = ws.length + (m + 1) :=
    ⟨s.params.handCap - ws.length - 1, by omega⟩
  obtain ⟨t, ht, hp⟩ := decHandFrom_records hi hs ws hw 0 (m + 1) (by omega) h.1.left
  rw [decHand, Cmd.get_bind_apply, hm, Cmd.bind_stopped (ht.trans (decHandFrom_unwritten
    (hp.rInv (hi.advance h.1.left.1)) m _ hc (hp.offersUnwritten (h.right hi))))]

/-- DecHand takes the records of the words hs up to the end of the stream (42_records.md R187). -/
theorem decHand_ok {s : State} (hi : s.RInv) (hs : Memory.wf s.posMem) (ws : List Byte)
    (hw : ∀ w ∈ ws, readHand w = true) (hn : ws.length ≤ s.params.handCap)
    (h : s.OffersLast (readSection ws)) :
    ∃ t, decHand s = .done () { t with handlen := some (BitVec.ofNat 10 ws.length) } ∧
      Placed (s.advance (readSection ws).length) t 128 ws := by
  obtain ⟨t, ht, hp⟩ := decHandFrom_records hi hs ws hw 0 (s.params.handCap - ws.length) (by omega) h.1
  refine ⟨t, ?_, hp⟩
  have hex : t.exhausted = true := by
    have : (s.advance (readSection ws).length).OffersLast [] := by
      have h' : s.OffersLast (readSection ws ++ []) := by rw [List.append_nil]; exact h
      exact h'.right hi
    exact (hp.offersLast this).exhausted
  rw [decHandFrom_end _ _ hex, Nat.zero_add, Nat.add_sub_cancel' hn] at ht
  rw [decHand, Cmd.get_bind_apply, Cmd.bind_done ht]
  rfl

/-- DecHand on records and then a record cut short (42_records.md R187). -/
theorem decHand_cut {s : State} (hi : s.RInv) (hs : Memory.wf s.posMem) (ws : List Byte)
    (hw : ∀ w ∈ ws, readHand w = true) (hn : ws.length < s.params.handCap) (bits : List Bool)
    (hb : cutHandRecord bits) (h : s.OffersLast (readSection ws ++ bits)) :
    ∃ t, decHand s =
        .raised ⟨.unexpectedEndOfStream, .hand, (s.advance (readSection ws).length).rpos⟩ t ∧
      Placed (s.advance (readSection ws ++ bits).length) t 128 ws := by
  obtain ⟨m, hm⟩ : ∃ m, s.params.handCap = ws.length + (m + 1) :=
    ⟨s.params.handCap - ws.length - 1, by omega⟩
  obtain ⟨t, ht, hp⟩ := decHandFrom_records hi hs ws hw 0 (m + 1) (by omega) h.1.left
  have ho := hp.offersLast (h.right hi)
  have hr := hp.rInv (hi.advance h.1.left.1)
  refine ⟨t.advance bits.length, ?_, ?_⟩
  · rw [decHand, Cmd.get_bind_apply, hm,
      Cmd.bind_raised (ht.trans (decHandFrom_cut hr m _ bits hb ho))]
    have : t.rpos = (s.advance (readSection ws).length).rpos := by rw [hp.same]
    rw [this]
  · rw [List.length_append, ← State.advance_advance]
    have := hp.same
    exact ⟨by rw [this]; rfl, hp.wf, hp.new, hp.frame⟩

/-- DecHand on more than HAND_CAP records (42_records.md R187). -/
theorem decHand_full {s : State} (hi : s.RInv) (hs : Memory.wf s.posMem) (ws : List Byte)
    (hw : ∀ w ∈ ws, readHand w = true) (hn : ws.length = s.params.handCap) (bits : List Bool)
    (hb : bits ≠ []) (h : s.Offers (readSection ws ++ bits)) :
    ∃ t, decHand s =
        .raised ⟨.capacityExceeded, .hand, (s.advance (readSection ws).length).rpos⟩ t ∧
      Placed (s.advance (readSection ws).length) t 128 ws := by
  obtain ⟨t, ht, hp⟩ := decHandFrom_records hi hs ws hw 0 0 (by omega) h.left
  have ho := hp.offers (h.right hi)
  rw [Nat.add_zero] at ht
  refine ⟨t, ?_, hp⟩
  rw [decHand, Cmd.get_bind_apply, ← hn,
    Cmd.bind_raised (ht.trans (decHandFrom_full _ (not_exhausted hb ho)))]
  have : t.rpos = (s.advance (readSection ws).length).rpos := by rw [hp.same]
  rw [this]

end Sys2Proof.Machine
end

