-- ==== Sys2Proof/Laws/Position.lean ====
section
/-! SUPPORT. Laws of PACK and UNPACK: the write phase is PutBit of the whole packed position and its pad
(43_pack_unpack.md R210), the reading phase takes turn, board and hand (R211). -/

namespace Sys2Proof.Machine

/-! ## PACK -/

theorem legalTurn_bitByte (t : Bool) : legalTurn (bitByte t) = true := by cases t <;> decide

theorem bitByte_bit (t : Bool) : (bitByte t).getLsbD 0 = t := by cases t <;> decide

theorem checkTurn_ok {s : State} {turn : Bool} (h : s.cell .pos turnAddr = some (bitByte turn)) :
    checkTurn s = .done () s := by
  rw [checkTurn, Cmd.bind_done (memRead_ok (hasAddr_board (by decide)) h), legalTurn_bitByte]
  rfl

theorem checkTurn_illegal {s : State} {w : Byte} (h : s.cell .pos turnAddr = some w)
    (hw : legalTurn w = false) : checkTurn s = .raised ⟨.invalidOperand, .turn, 81#16⟩ s := by
  rw [checkTurn, Cmd.bind_done (memRead_ok (hasAddr_board (by decide)) h), hw]
  rfl

/-- EncTurn is PutBit of the turn bit (42_records.md R170). -/
theorem encTurn_eq {s : State} {turn : Bool} (h : s.cell .pos turnAddr = some (bitByte turn)) :
    encTurn s = putBits [turn] .turn s := by
  rw [encTurn, Cmd.bind_done (memRead_ok (hasAddr_board (by decide)) h), putBits_singleton, bitByte_bit]

theorem Position.of_writerOnly {s t : State} {turn : Bool} {b : Nat → Byte} {kb kw : Nat}
    {hs : List Byte} (h : Position s turn b kb kw hs) (hp : writerOnly s t) :
    Position t turn b kb kw hs := by
  have hpos : ∀ a, t.cell .pos a = s.cell .pos a := fun a => by simp [State.cell, hp.posMem]
  exact {
    turnWord := by rw [hpos]; exact h.turnWord
    board := fun a ha => by rw [hpos]; exact h.board a ha
    kings := h.kings
    hand := ⟨by rw [hp]; exact h.hand.1, by rw [hp.params]; exact h.hand.2.1,
      fun i hi => by rw [hpos]; exact h.hand.2.2 i hi⟩
    legal := h.legal }

theorem Put.writerOnly {s t : State} {w w' : Writer} {bits : List Bool} (h : Put s t w w' bits) :
    writerOnly s t := by
  have := h.same
  unfold Machine.writerOnly
  rw [h.writer]; exact this

theorem writtenBits_ok {s : State} {w : Writer} (h : s.writer = some w) :
    writtenBits s = .done (BitVec.ofNat 16 w.wbits) s := by
  have hg : getWriter s = .done w s := by simp [getWriter, h]
  rw [writtenBits, Cmd.bind_done hg]
  rfl

/-- PACK's check phase passes for a position (43_pack_unpack.md R210). -/
theorem packPosition_checks {s : State} (hc : s.params.handCap ≤ 896) {turn : Bool}
    {b : Nat → Byte} {kb kw : Nat} {hs : List Byte} (h : Position s turn b kb kw hs) :
    packPosition s = writePosition kb kw ((List.range hs.length).map handAddr) s := by
  rw [packPosition, Cmd.bind_done (checkTurn_ok h.turnWord),
    Cmd.bind_done (validateBoard_ok h.board h.kings), Cmd.bind_done (checkHand_ok hc h.hand h.legal)]

/-- The state PACK starts its stream in. -/
def State.freshWriter (s : State) : State := { s with writer := some Writer.reset }

theorem freshWriter_wInv {s : State} (hc : s.params.outCap ≤ 8191) (hm : Memory.wf s.outMem)
    (hb : s.Bounded .out) : s.freshWriter.WInv Writer.reset :=
  ⟨hc, hm, hb, Nat.zero_le _, fun a ha => absurd ha (Nat.not_lt_zero a), by decide⟩

theorem Position.fresh {s : State} {turn : Bool} {b : Nat → Byte} {kb kw : Nat} {hs : List Byte}
    (h : Position s turn b kb kw hs) : Position s.freshWriter turn b kb kw hs :=
  h.of_writerOnly rfl

/-- PACK of a position that fits: the stream is the packed position and its pad, RESULT its length. -/
theorem writePosition_ok {s : State} (hc : s.params.outCap ≤ 8191) (hm : Memory.wf s.outMem)
    (hbd : s.Bounded .out) {turn : Bool} {b : Nat → Byte} {kb kw : Nat} {hs : List Byte} (h : Position s turn b kb kw hs)
    {n : Nat} (hn : n = (packedBits turn b kb kw hs).length) (hroom : (n + 7) / 8 ≤ s.params.outCap) :
    ∃ t w', writePosition kb kw ((List.range hs.length).map handAddr) s =
        .done () { t with result := (BitVec.ofNat 16 n).setWidth 32 } ∧
      Put s.freshWriter t Writer.reset w' (packedBits turn b kb kw hs ++ padBits n) ∧
      w'.wcnt = 0#3 := by
  have hw0 : s.freshWriter.writer = some Writer.reset := rfl
  have hi0 := freshWriter_wInv hc hm hbd
  have hlen : n = 1 + ((boardBits b kb kw).length + (handSection hs).length) := by
    rw [hn]; simp [packedBits]; omega
  have hwb : Writer.reset.wbits = 0 := rfl
  have hp0 : s.freshWriter.params = s.params := rfl
  have room : ∀ m ≤ n, s.freshWriter.Room Writer.reset m := by
    intro m hmn; unfold State.Room; rw [hwb, hp0]; omega
  obtain ⟨t1, w1, e1, p1⟩ := putBits_ok [turn] .turn hw0 hi0 (room _ (by simp; omega))
  obtain ⟨t2, w2, e2, p2⟩ := putBits_ok (boardBits b kb kw) .board p1.writer p1.inv
    (p1.room (room _ (by simp only [List.length_singleton]; omega)))
  have p12 := p1.trans p2
  obtain ⟨t3, w3, e3, p3⟩ := putBits_ok (handSection hs) .hand p2.writer p2.inv
    (p12.room (room _ (by simp only [List.length_append, List.length_singleton]; omega)))
  have p13 := p12.trans p3
  have hbits : [turn] ++ boardBits b kb kw ++ handSection hs = packedBits turn b kb kw hs := by
    simp [packedBits]
  rw [hbits] at p13
  have hw3 : w3.wbits = n := by rw [p13.wbits, hwb, ← hn, Nat.zero_add]
  obtain ⟨t4, w4, e4, p4, h4⟩ := flush_ok .hand p3.writer p3.inv (by
    rw [hw3, p13.params]; exact hroom)
  rw [hw3] at p4
  refine ⟨t4, w4, ?_, p13.trans p4, h4⟩
  have q0 := h.fresh
  have q1 := q0.of_writerOnly p1.writerOnly
  have q2 := q1.of_writerOnly p2.writerOnly
  rw [writePosition]
  show (encTurn.bind _) s.freshWriter = _
  rw [Cmd.bind_done ((encTurn_eq q0.turnWord).trans e1),
    Cmd.bind_done ((encBoard_eq q1.board q1.kings).trans e2),
    Cmd.bind_done ((encHand_eq q2.hand q2.legal).trans e3),
    Cmd.bind_done (writtenBits_ok p3.writer), Cmd.bind_done e4, hw3]
  rfl

/-- PACK of a position that does not fit (43_pack_unpack.md R210): the first bit that cannot be written,
or the pad. -/
theorem writePosition_full {s : State} (hc : 1 ≤ s.params.outCap ∧ s.params.outCap ≤ 8191)
    (hm : Memory.wf s.outMem)
    (hbd : s.Bounded .out) {turn : Bool} {b : Nat → Byte} {kb kw : Nat} {hs : List Byte} (h : Position s turn b kb kw hs)
    {n : Nat} (hn : n = (packedBits turn b kb kw hs).length) (hfull : 8 * s.params.outCap < n) :
    ∃ t, writePosition kb kw ((List.range hs.length).map handAddr) s =
        .raised ⟨.capacityExceeded,
          if 8 * s.params.outCap + 7 < 1 + (boardBits b kb kw).length then .board else .hand,
          BitVec.ofNat 16 (min n (8 * s.params.outCap + 7))⟩ t ∧
      writerOnly s t := by
  have hw0 : s.freshWriter.writer = some Writer.reset := rfl
  have hi0 := freshWriter_wInv hc.2 hm hbd
  have hlen : n = 1 + ((boardBits b kb kw).length + (handSection hs).length) := by
    rw [hn]; simp [packedBits]; omega
  have hwb : Writer.reset.wbits = 0 := rfl
  have hp0 : s.freshWriter.params = s.params := rfl
  have hf : writerOnly s s.freshWriter := rfl
  obtain ⟨t1, w1, e1, p1⟩ := putBits_ok [turn] .turn hw0 hi0 (by
    unfold State.Room; rw [hwb, hp0]; simp)
  have q0 := h.fresh
  have q1 := q0.of_writerOnly p1.writerOnly
  have hpar1 := p1.params
  rw [hp0] at hpar1
  have hw1 : w1.wbits = 1 := p1.wbits
  rw [writePosition]
  show ∃ t, (encTurn.bind _) s.freshWriter = _ ∧ _
  rw [Cmd.bind_done ((encTurn_eq q0.turnWord).trans e1)]
  by_cases hb : 8 * s.params.outCap + 7 < 1 + (boardBits b kb kw).length
  · obtain ⟨t2, e2, k2⟩ := putBits_full (boardBits b kb kw) .board p1.writer p1.inv (by
      unfold State.Room; rw [hw1, hpar1]; omega)
    refine ⟨t2, ?_, hf.trans _ _ _ (p1.writerOnly.trans _ _ _ k2)⟩
    rw [Cmd.bind_raised ((encBoard_eq q1.board q1.kings).trans e2), if_pos hb, hpar1,
      Nat.min_eq_right (by omega)]
  · obtain ⟨t2, w2, e2, p2⟩ := putBits_ok (boardBits b kb kw) .board p1.writer p1.inv (by
      unfold State.Room; rw [hw1, hpar1]; omega)
    have q2 := q1.of_writerOnly p2.writerOnly
    have hpar2 := p2.params
    rw [hpar1] at hpar2
    have hw2 : w2.wbits = 1 + (boardBits b kb kw).length := by rw [p2.wbits, hw1]
    rw [Cmd.bind_done ((encBoard_eq q1.board q1.kings).trans e2), if_neg hb]
    by_cases hh : 8 * s.params.outCap + 7 < n
    · obtain ⟨t3, e3, k3⟩ := putBits_full (handSection hs) .hand p2.writer p2.inv (by
        unfold State.Room; rw [hw2, hpar2]; omega)
      refine ⟨t3, ?_, hf.trans _ _ _ (p1.writerOnly.trans _ _ _ (p2.writerOnly.trans _ _ _ k3))⟩
      rw [Cmd.bind_raised ((encHand_eq q2.hand q2.legal).trans e3), hpar2, Nat.min_eq_right (by omega)]
    · obtain ⟨t3, w3, e3, p3⟩ := putBits_ok (handSection hs) .hand p2.writer p2.inv (by
        unfold State.Room; rw [hw2, hpar2]; omega)
      have hw3 : w3.wbits = n := by rw [p3.wbits, hw2]; omega
      have hd := w3.wbits_div
      have hmod := w3.wbits_mod
      have hf3 := flush_full (s := t3) .hand p3.writer (by
        intro h0; rw [h0] at hmod; simp at hmod; omega) (by rw [p3.params, hpar2]; omega)
      refine ⟨t3, ?_, hf.trans _ _ _
        (p1.writerOnly.trans _ _ _ (p2.writerOnly.trans _ _ _ p3.writerOnly))⟩
      rw [Cmd.bind_done ((encHand_eq q2.hand q2.legal).trans e3),
        Cmd.bind_done (writtenBits_ok p3.writer), Cmd.bind_raised hf3, hw3,
        Nat.min_eq_left (by omega)]

/-! ## UNPACK -/

/-- The session UNPACK and R_LOAD start (40_bitstream.md R134). -/
def State.loaded (s : State) : State := { s with rlen := s.inlen, rpos := 0#16 }

theorem loadReader_ok {s : State} (h : s.inlen.toNat ≤ s.params.inCap) :
    loadReader s = .done () s.loaded := by
  rw [loadReader, Cmd.get_bind_apply, Cmd.get_bind_apply, if_neg (by omega)]
  rfl

theorem loadReader_len {s : State} (h : s.params.inCap < s.inlen.toNat) :
    loadReader s = .raised ⟨.invalidOperand, .prim, 0⟩ s := by
  rw [loadReader, Cmd.get_bind_apply, Cmd.get_bind_apply, if_pos h]
  rfl

theorem loaded_rInv {s : State} (hc : s.params.inCap ≤ 8191) (h : s.inlen.toNat ≤ s.params.inCap) :
    s.loaded.RInv := ⟨hc, h, Nat.zero_le _⟩

/-- DecTurn takes one bit (42_records.md R171). -/
theorem decTurn_ok {s : State} (hi : s.RInv) (hm : Memory.wf s.posMem) (turn : Bool)
    (bits : List Bool) (h : s.Offers (turn :: bits)) :
    ∃ t, decTurn s = .done () t ∧ Placed (s.advance 1) t turnAddr [bitByte turn] := by
  have hw := memWrite_ok (s := s.advance 1) (bitByte turn) (hasAddr_board (a := turnAddr) (by decide))
  obtain ⟨t, ht, hp⟩ := writeWords_ok (s := s.advance 1) hm turnAddr [bitByte turn]
    fun i h1 h2 => hasAddr_board (by simp [turnAddr] at *; omega)
  have hb : writeWords turnAddr [bitByte turn] (s.advance 1) =
      memWrite .pos turnAddr (bitByte turn) (s.advance 1) := by
    simp only [writeWords]
    rw [Cmd.bind_done hw, hw]; rfl
  refine ⟨t, ?_, hp⟩
  rw [decTurn, Cmd.cursor_bind_apply, Cmd.bind_done (getBit_ok hi .turn _ h), ← hb, ht]

theorem Placed.unadvance {s t : State} {n m a : Nat} {l : List Byte}
    (h : Placed (s.advance n) t a l) : Placed (s.advance (n + m)) (t.advance m) a l := by
  rw [← State.advance_advance]
  have := h.same
  exact ⟨by rw [this]; rfl, h.wf, h.new, h.frame⟩

/-- The parts of POS UNPACK writes: board, turn word, the words of the hand; t is the state after it but
for HANDLEN and RESULT. -/
structure Unpacked (s t : State) (turn : Bool) (l : List Byte) (hs : List Byte) : Prop where
  same : t = { s with posMem := t.posMem }
  wf : Memory.wf t.posMem
  board : ∀ i (h : i < l.length), t.cell .pos i = some l[i]
  turnWord : t.cell .pos 81 = some (bitByte turn)
  hand : ∀ i (h : i < hs.length), t.cell .pos (128 + i) = some hs[i]
  frame : ∀ x, 81 < x → (x < 128 ∨ 128 + hs.length ≤ x) → t.cell .pos x = s.cell .pos x

theorem Unpacked.of_placed {s t1 t2 t3 : State} {turn : Bool} {l hs : List Byte} (hl : l.length = 81)
    {k m n : Nat} (h1 : Placed (s.advance k) t1 turnAddr [bitByte turn])
    (h2 : Placed (t1.advance m) t2 0 l) (h3 : Placed (t2.advance n) t3 128 hs) :
    Unpacked (s.advance (k + m + n)) t3 turn l hs where
  same := by
    have e1 := h1.same; have e2 := h2.same; have e3 := h3.same
    rw [← State.advance_advance, ← State.advance_advance]
    rw [e3, e2, e1]; rfl
  wf := h3.wf
  board := fun i h => by
    rw [h3.frame i (by omega), State.advance_cell]
    have := h2.new i h
    rwa [Nat.zero_add] at this
  turnWord := by
    rw [h3.frame 81 (by omega), State.advance_cell, h2.frame 81 (by omega), State.advance_cell]
    exact h1.new 0 (by simp)
  hand := fun i h => h3.new i h
  frame := fun x hx hx' => by
    rw [h3.frame x hx', State.advance_cell, h2.frame x (by omega), State.advance_cell,
      h1.frame x (by simp [turnAddr]; omega), State.advance_cell, State.advance_cell]

/-- The turn and board sections of UNPACK (43_pack_unpack.md R211). -/
theorem readBoard_ok {s : State} (hi : s.RInv) (hm : Memory.wf s.posMem) (turn : Bool) (pb pw : Nat)
    (hpb : pb ≤ 80) (hpw : pw ≤ 80) (hne : pb ≠ pw) (l : List Byte) (hlen : l.length = 79)
    (hl : ∀ w ∈ l, legalNonKing w = true) (rest : List Bool)
    (h : s.Offers (turn :: (kingBits pb pw ++ l.flatMap squareBits ++ rest))) :
    ∃ t1 t2, decTurn s = .done () t1 ∧ decBoard t1 = .done () t2 ∧
      Placed (s.advance 1) t1 turnAddr [bitByte turn] ∧
      Placed (t1.advance (kingBits pb pw ++ l.flatMap squareBits).length) t2 0
        (boardWithKings l pb pw) := by
  obtain ⟨t1, e1, p1⟩ := decTurn_ok hi hm turn _ h
  obtain ⟨i1, o1⟩ := Offers.uncons hi h
  obtain ⟨t2, e2, p2⟩ := decBoard_ok (p1.rInv i1) p1.wf pb pw hpb hpw hne l hlen hl
    (p1.offers o1).left
  exact ⟨t1, t2, e1, e2, p1, p2⟩

theorem Placed.offersLast_advance {s t : State} {n m a : Nat} {l : List Byte}
    (h : Placed (s.advance n) t a l) {bits : List Bool}
    (ho : ((s.advance n).advance m).OffersLast bits) : (t.advance m).OffersLast bits := by
  rw [h.same]; exact ho

/-- UNPACK's sections, a whole position and nothing after it (43_pack_unpack.md R211). -/
theorem readPosition_ok {s : State} (hi : s.RInv) (hm : Memory.wf s.posMem)
    (hc : s.params.handCap ≤ 896) (turn : Bool) (pb pw : Nat)
    (hpb : pb ≤ 80) (hpw : pw ≤ 80) (hne : pb ≠ pw) (l : List Byte) (hlen : l.length = 79)
    (hl : ∀ w ∈ l, legalNonKing w = true) (hs : List Byte) (hw : ∀ w ∈ hs, readHand w = true)
    (hn : hs.length ≤ s.params.handCap)
    (h : s.OffersLast (turn :: (kingBits pb pw ++ l.flatMap squareBits ++ readSection hs))) :
    ∃ t, readPosition s = .done () { t with
        handlen := some (BitVec.ofNat 10 hs.length)
        result := BitVec.ofNat 32 hs.length } ∧
      Unpacked (s.advance (8 * s.rlen.toNat - s.rpos.toNat)) t turn (boardWithKings l pb pw) hs := by
  obtain ⟨t1, t2, e1, e2, p1, p2⟩ := readBoard_ok hi hm turn pb pw hpb hpw hne l hlen hl _ h.1
  obtain ⟨i1, o1⟩ := OffersLast.uncons hi h
  have i1' := p1.rInv i1
  have o1' := p1.offersLast o1
  have o2' := p2.offersLast (o1'.right i1')
  have i2' := p2.rInv (i1'.advance o1'.1.left.1)
  have hpar1 : t1.params = s.params := by rw [p1.same]; rfl
  have hpar2 : t2.params = s.params := by
    have : t2.params = t1.params := by rw [p2.same]; rfl
    rw [this, hpar1]
  obtain ⟨t3, e3, p3⟩ := decHand_ok i2' p2.wf hs hw (by rw [hpar2]; exact hn) o2'
  have hall := h.2
  rw [List.length_cons, List.length_append] at hall
  refine ⟨t3, ?_, ?_⟩
  · rw [readPosition, Cmd.bind_done e1, Cmd.bind_done e2, Cmd.bind_done e3]
    have hg : ∀ u : State, u.handlen = some (BitVec.ofNat 10 hs.length) →
        (getHandlen.bind fun n => setResult n) u =
          .done () { u with result := (BitVec.ofNat 10 hs.length).setWidth 32 } := by
      intro u hu
      have hgu : getHandlen u = .done (BitVec.ofNat 10 hs.length) u := by simp [getHandlen, hu]
      rw [Cmd.bind_done hgu]; rfl
    rw [hg _ rfl]
    have : (BitVec.ofNat 10 hs.length).setWidth 32 = BitVec.ofNat 32 hs.length := by
      apply BitVec.eq_of_toNat_eq; simp; omega
    rw [this]
  · have := Unpacked.of_placed (length_boardWithKings l pb pw hlen hpb hpw hne) p1 p2 p3
    have hsum : 1 + (kingBits pb pw ++ l.flatMap squareBits).length + (readSection hs).length =
        8 * s.rlen.toNat - s.rpos.toNat := by omega
    rwa [hsum] at this

/-- UNPACK's sections where there is no bit of the turn field (43_pack_unpack.md R211). -/
theorem readPosition_empty {s : State} (h : s.exhausted = true) :
    readPosition s = .raised ⟨.unexpectedEndOfStream, .turn, s.rpos⟩ s := by
  have : decTurn s = .raised ⟨.unexpectedEndOfStream, .turn, s.rpos⟩ s := by
    rw [decTurn, Cmd.cursor_bind_apply, Cmd.bind_raised (getBit_end .turn _ h)]
  rw [readPosition, Cmd.bind_raised this]

/-- UNPACK's sections where the board ends inside an item (43_pack_unpack.md R211). -/
theorem readPosition_boardCut {s : State} (hi : s.RInv) (hm : Memory.wf s.posMem) (turn : Bool)
    {off : Nat} {bits : List Bool} (hb : cutBoard off bits) (h : s.OffersLast (turn :: bits)) :
    ∃ t, readPosition s =
        .raised ⟨.unexpectedEndOfStream, .board, (s.advance (1 + off)).rpos⟩ t ∧
      t = { s.advance (1 + bits.length) with posMem := t.posMem } := by
  obtain ⟨t, e, p⟩ := decTurn_ok hi hm turn bits h.1
  obtain ⟨i1, o1⟩ := OffersLast.uncons hi h
  have hs := p.same
  refine ⟨t.advance bits.length, ?_, ?_⟩
  · rw [readPosition, Cmd.bind_done e, Cmd.bind_raised (decBoard_cut (p.rInv i1) hb (p.offersLast o1)),
      ← State.advance_advance]
    congr 2
    rw [hs]; rfl
  · rw [← State.advance_advance, hs]; rfl

/-- UNPACK's sections where the turn field, an item of the board or a hand record runs into an unwritten
byte (10_state.md R38). -/
theorem readPosition_unwritten {s : State} (hi : s.RInv) (hm : Memory.wf s.posMem) {bits : List Bool}
    {a : Nat} (h : s.OffersUnwritten bits a)
    (hb : bits = [] ∨ (∃ turn rest off, bits = turn :: rest ∧ cutBoard off rest) ∨
      ∃ (turn : Bool) (pb pw : Nat) (l hs : List Byte) (cut : List Bool), pb ≤ 80 ∧ pw ≤ 80 ∧ pb ≠ pw ∧
        l.length = 79 ∧ (∀ w ∈ l, legalNonKing w = true) ∧ (∀ w ∈ hs, readHand w = true) ∧
        hs.length < s.params.handCap ∧ decodeHandRec cut = none ∧
        bits = turn :: (kingBits pb pw ++ l.flatMap squareBits ++ (readSection hs ++ cut))) :
    readPosition s = .stopped (.unwritten .inp a) := by
  rcases hb with rfl | ⟨turn, rest, off, rfl, hc⟩ |
    ⟨turn, pb, pw, l, hs, cut, hpb, hpw, hne, hlen, hl, hw, hn, hc, rfl⟩
  · have : decTurn s = .stopped (.unwritten .inp a) := by
      rw [decTurn, Cmd.cursor_bind_apply, Cmd.bind_stopped (getBit_unwritten hi .turn _ h)]
    rw [readPosition, Cmd.bind_stopped this]
  · obtain ⟨t, e, p⟩ := decTurn_ok hi hm turn rest h.1
    have i1 := p.rInv (Offers.uncons hi h.1).1
    have o1 := p.offersUnwritten (State.OffersUnwritten.right hi (b := [turn]) h)
    obtain ⟨i2, o2⟩ := o1.advance i1
    rw [readPosition, Cmd.bind_done e,
      Cmd.bind_stopped ((decBoard_takesNext i1 hc o1.1).unwritten i2 o2)]
  · obtain ⟨t1, t2, e1, e2, p1, p2⟩ := readBoard_ok hi hm turn pb pw hpb hpw hne l hlen hl _ h.1
    have i1 := p1.rInv (Offers.uncons hi h.1).1
    have o1 := p1.offersUnwritten (State.OffersUnwritten.right hi (b := [turn]) h)
    have i2 := p2.rInv (i1.advance o1.1.left.1)
    have o2 := p2.offersUnwritten (o1.right i1)
    have hpar : t2.params = s.params := by rw [p2.same, p1.same]; rfl
    rw [readPosition, Cmd.bind_done e1, Cmd.bind_done e2,
      Cmd.bind_stopped (decHand_unwritten i2 p2.wf hs hw (by rw [hpar]; exact hn) hc o2)]

/-- UNPACK's sections where the hand ends inside a record (43_pack_unpack.md R211). -/
theorem readPosition_cut {s : State} (hi : s.RInv) (hm : Memory.wf s.posMem) (turn : Bool)
    (pb pw : Nat)
    (hpb : pb ≤ 80) (hpw : pw ≤ 80) (hne : pb ≠ pw) (l : List Byte) (hlen : l.length = 79)
    (hl : ∀ w ∈ l, legalNonKing w = true) (hs : List Byte) (hw : ∀ w ∈ hs, readHand w = true)
    (hn : hs.length < s.params.handCap) (bits : List Bool) (hb : cutHandRecord bits)
    (h : s.OffersLast
      (turn :: (kingBits pb pw ++ l.flatMap squareBits ++ (readSection hs ++ bits)))) :
    ∃ t, readPosition s =
        .raised ⟨.unexpectedEndOfStream, .hand, (s.advance
          (1 + (kingBits pb pw ++ l.flatMap squareBits).length + (readSection hs).length)).rpos⟩ t ∧
      t = { s.advance (8 * s.rlen.toNat - s.rpos.toNat) with posMem := t.posMem } := by
  obtain ⟨t1, t2, e1, e2, p1, p2⟩ := readBoard_ok hi hm turn pb pw hpb hpw hne l hlen hl _ h.1
  obtain ⟨i1, o1⟩ := OffersLast.uncons hi h
  have i1' := p1.rInv i1
  have o1' := p1.offersLast o1
  have o2' := p2.offersLast (o1'.right i1')
  have i2' := p2.rInv (i1'.advance o1'.1.left.1)
  have hpar1 : t1.params = s.params := by rw [p1.same]; rfl
  have hpar2 : t2.params = s.params := by
    have : t2.params = t1.params := by rw [p2.same]; rfl
    rw [this, hpar1]
  obtain ⟨t3, e3, p3⟩ := decHand_cut i2' p2.wf hs hw (by rw [hpar2]; exact hn) bits hb o2'
  have hall := h.2
  rw [List.length_cons, List.length_append] at hall
  refine ⟨t3, ?_, ?_⟩
  · rw [readPosition, Cmd.bind_done e1, Cmd.bind_done e2, Cmd.bind_raised e3]
    congr 2
    rw [← State.advance_advance, ← State.advance_advance]
    have q1 := p1.same; have q2 := p2.same
    rw [q2, q1]; rfl
  · have hsum : 8 * s.rlen.toNat - s.rpos.toNat = 1 + (kingBits pb pw ++ l.flatMap squareBits).length +
        (readSection hs ++ bits).length := by omega
    rw [hsum, ← State.advance_advance, ← State.advance_advance]
    have q1 := p1.same; have q2 := p2.same; have q3 := p3.same
    rw [q3, q2, q1]; rfl

/-- UNPACK's sections where the hand holds more than HAND_CAP records (43_pack_unpack.md R211). -/
theorem readPosition_full {s : State} (hi : s.RInv) (hm : Memory.wf s.posMem) (turn : Bool)
    (pb pw : Nat)
    (hpb : pb ≤ 80) (hpw : pw ≤ 80) (hne : pb ≠ pw) (l : List Byte) (hlen : l.length = 79)
    (hl : ∀ w ∈ l, legalNonKing w = true) (hs : List Byte) (hw : ∀ w ∈ hs, readHand w = true)
    (hn : hs.length = s.params.handCap) (bits : List Bool) (hb : bits ≠ [])
    (h : s.Offers (turn :: (kingBits pb pw ++ l.flatMap squareBits ++ (readSection hs ++ bits)))) :
    ∃ t, readPosition s =
        .raised ⟨.capacityExceeded, .hand, (s.advance
          (1 + (kingBits pb pw ++ l.flatMap squareBits).length + (readSection hs).length)).rpos⟩ t ∧
      t = { s.advance (1 + (kingBits pb pw ++ l.flatMap squareBits).length +
        (readSection hs).length) with posMem := t.posMem } := by
  obtain ⟨t1, t2, e1, e2, p1, p2⟩ := readBoard_ok hi hm turn pb pw hpb hpw hne l hlen hl _ h
  obtain ⟨i1, o1⟩ := Offers.uncons hi h
  have i1' := p1.rInv i1
  have o1' := p1.offers o1
  have o2' := p2.offers (o1'.right i1')
  have i2' := p2.rInv (i1'.advance o1'.left.1)
  have hpar1 : t1.params = s.params := by rw [p1.same]; rfl
  have hpar2 : t2.params = s.params := by
    have : t2.params = t1.params := by rw [p2.same]; rfl
    rw [this, hpar1]
  obtain ⟨t3, e3, p3⟩ := decHand_full i2' p2.wf hs hw (by rw [hpar2]; exact hn) bits hb o2'
  have q1 := p1.same; have q2 := p2.same; have q3 := p3.same
  refine ⟨t3, ?_, ?_⟩
  · rw [readPosition, Cmd.bind_done e1, Cmd.bind_done e2, Cmd.bind_raised e3]
    congr 2
    rw [← State.advance_advance, ← State.advance_advance]
    rw [q2, q1]; rfl
  · rw [← State.advance_advance, ← State.advance_advance]
    rw [q3, q2, q1]; rfl

end Sys2Proof.Machine
end

