-- ==== Sys2Proof/Laws/Invariant.lean ====
section
/-! SUPPORT. The invariant of Safety.lean through every operation: what each primitive and each command keeps,
and that it stops only for a read of an unspecified cell or register (20_memory.md R56, 30_encoding.md
R81, 93_implementation_defined.md U1, U2, U12). -/

namespace Sys2Proof.Machine

/-! ## The writer -/

theorem State.Inv.put {s t : State} {w w' : Writer} {bits : List Bool} (h : s.Inv)
    (p : Put s t w w' bits) : t.Inv := by
  have hi := p.inv
  obtain ⟨m, rfl⟩ : ∃ m, t = { s with writer := some w', outMem := m } := ⟨_, p.same⟩
  exact {
    params := h.params
    inWf := h.inWf
    outWf := hi.wf
    posWf := h.posWf
    inBounded := h.inBounded
    outBounded := hi.bounded
    posBounded := h.posBounded
    writer := fun v hv => by cases hv; exact hi.ok
    rlen := h.rlen
    rpos := h.rpos
    result := h.result
    status := h.status }

/-- A property of the state that no writer primitive can change. -/
def WriterStable (Q : State → Prop) : Prop := ∀ s t, writerOnly s t → Q s → Q t

section writer
variable {Q : State → Prop} (hQ : WriterStable Q)
include hQ

theorem putBit_safe (b : Bool) (sec : Sec) :
    (putBit b sec).Safe (fun s => s.Inv ∧ Q s) Fault.unspecifiedRead := by
  intro s ⟨hs, hq⟩
  cases hw : s.writer with
  | none => rw [putBit_unspecified b sec hw]; trivial
  | some w =>
    have hi := hs.wInv hw
    by_cases hr : s.Room w 1
    · obtain ⟨t, w', e, p⟩ := putBit_ok b sec hw hi hr
      rw [e]
      exact ⟨hs.put p, hQ _ _ p.writerOnly hq⟩
    · have hle := hi.ok.1
      have hcnt := w.wcnt_lt
      have h7 : w.wcnt.toNat = 7 ∧ w.outlen.toNat = s.params.outCap := by
        unfold State.Room Writer.wbits at hr; omega
      rw [putBit_full b sec hw (BitVec.eq_of_toNat_eq h7.1) h7.2]
      exact ⟨⟨hs, hq⟩, Nat.le_of_ble_eq_true rfl⟩

theorem putBits_safe (bits : List Bool) (sec : Sec) :
    (putBits bits sec).Safe (fun s => s.Inv ∧ Q s) Fault.unspecifiedRead :=
  Cmd.safe_each bits fun b _ => putBit_safe hQ b sec

theorem flush_safe (sec : Sec) :
    (flush sec).Safe (fun s => s.Inv ∧ Q s) Fault.unspecifiedRead := by
  intro s ⟨hs, hq⟩
  cases hw : s.writer with
  | none =>
    have : flush sec s = .stopped .unspecifiedWriter := by simp [flush, Cmd.bind, getWriter, hw]
    rw [this]; trivial
  | some w =>
    have hi := hs.wInv hw
    have hle := hi.ok.1
    have hcnt := w.wcnt_lt
    by_cases hr : (w.wbits + 7) / 8 ≤ s.params.outCap
    · obtain ⟨t, w', e, p, -⟩ := flush_ok sec hw hi hr
      rw [e]
      exact ⟨hs.put p, hQ _ _ p.writerOnly hq⟩
    · have h0 : w.wcnt ≠ 0#3 := by
        intro h; unfold Writer.wbits at hr; rw [h] at hr; simp at hr; omega
      rw [flush_full sec hw h0 (by unfold Writer.wbits at hr; omega)]
      exact ⟨⟨hs, hq⟩, Nat.le_of_ble_eq_true rfl⟩

theorem putCode_safe (k : BitVec 3) (hk : k ≠ 7#3) (sec : Sec) :
    (putCode k sec).Safe (fun s => s.Inv ∧ Q s) Fault.unspecifiedRead := by
  have : ∀ k : BitVec 3, k ≠ 7#3 → (lutEntry k).isSome = true := by decide
  obtain ⟨⟨len, code⟩, he⟩ := Option.isSome_iff_exists.1 (this k hk)
  rw [putCode, he]
  exact putBits_safe hQ _ _

theorem encSquare_safe (w : Byte) (hw : squareKind w ≠ 7#3) (sec : Sec) :
    (encSquare w sec).Safe (fun s => s.Inv ∧ Q s) Fault.unspecifiedRead := by
  unfold encSquare
  refine Cmd.safe_ite (fun _ => putBit_safe hQ _ _) fun _ => ?_
  refine Cmd.safe_bind (putBit_safe hQ _ _) fun _ => ?_
  refine Cmd.safe_bind (putCode_safe hQ _ hw _) fun _ => ?_
  refine Cmd.safe_bind (Cmd.safe_ite (fun _ => putBit_safe hQ _ _) fun _ => Cmd.safe_pure _) fun _ => ?_
  exact putBit_safe hQ _ _

theorem encHandRec_safe (h : Byte) (hh : handKind h ≠ 7#3) (sec : Sec) :
    (encHandRec h sec).Safe (fun s => s.Inv ∧ Q s) Fault.unspecifiedRead := by
  unfold encHandRec
  refine Cmd.safe_bind (putCode_safe hQ _ hh _) fun _ => ?_
  refine Cmd.safe_bind (Cmd.safe_ite (fun _ => putBit_safe hQ _ _) fun _ => Cmd.safe_pure _) fun _ => ?_
  exact putBit_safe hQ _ _

end writer

/-! ## Reads of POS that change nothing -/

theorem memRead_safe {P : State → Prop} (sp : Space) (a : Nat) (h : ∀ s, P s → s.hasAddr sp a = true) :
    (memRead sp a).Safe P Fault.unspecifiedRead := by
  intro s hs
  have ha := h s hs
  cases hc : s.cell sp a with
  | none => rw [memRead_unwritten ha hc]; trivial
  | some v => rw [memRead_ok ha hc]; exact hs

/-- Nothing has changed. -/
def Unchanged (s t : State) : Prop := t = s

theorem Unchanged.refl (s : State) : Unchanged s s := rfl

theorem Unchanged.trans (a b c : State) (h : Unchanged a b) (h' : Unchanged b c) : Unchanged a c :=
  Eq.trans h' h

/-- A command that only looks: it leaves the state as it was, however it ends. -/
abbrev Looks {α : Type} (c : Cmd α) : Prop := c.Keeps Unchanged

theorem looks_pure {α : Type} (a : α) : Looks (Cmd.pure a) := Cmd.keeps_pure Unchanged.refl a

theorem looks_raise {α : Type} (k : ErrKind) (c : Sec) (o : BitVec 16) :
    Looks (Cmd.raise k c o : Cmd α) := Cmd.keeps_raise Unchanged.refl k c o

theorem looks_bind {α β : Type} {m : Cmd α} {f : α → Cmd β} (hm : Looks m) (hf : ∀ a, Looks (f a)) :
    Looks (m.bind f) := Cmd.keeps_bind Unchanged.trans hm hf

theorem looks_memRead (sp : Space) (a : Nat) : Looks (memRead sp a) := by
  intro s
  by_cases ha : s.hasAddr sp a = true
  · cases hc : s.cell sp a with
    | none => rw [memRead_unwritten ha hc]; trivial
    | some v => rw [memRead_ok ha hc]; rfl
  · simp [memRead, ha]

theorem looks_checkTurn : Looks checkTurn :=
  looks_bind (looks_memRead _ _) fun _ =>
  Cmd.keeps_ite (fun _ => looks_pure _) fun _ => looks_raise _ _ _

theorem looks_legalWords (l : List Nat) : Looks (legalWords l) := by
  induction l with
  | nil => exact looks_pure _
  | cons a l ih =>
    refine looks_bind (looks_memRead _ _) fun w => ?_
    refine Cmd.keeps_ite (fun _ => ?_) fun _ => looks_raise _ _ _
    exact looks_bind ih fun _ => looks_pure _

theorem looks_validateBoard : Looks validateBoard :=
  looks_bind (looks_legalWords _) fun _ =>
  Cmd.keeps_ite (fun _ => looks_raise _ _ _) fun _ => looks_pure _

theorem looks_getHandlen : Looks getHandlen := by
  intro s; unfold getHandlen
  cases s.handlen with
  | none => trivial
  | some n => rfl

theorem looks_checkHand : Looks checkHand :=
  looks_bind looks_getHandlen fun _ =>
  looks_bind (Cmd.keeps_get Unchanged.refl _) fun _ =>
  Cmd.keeps_ite (fun _ => looks_raise _ _ _) fun _ =>
  looks_bind
    (Cmd.keeps_each Unchanged.refl Unchanged.trans _ fun _ =>
      looks_bind (looks_memRead _ _) fun _ =>
      Cmd.keeps_ite (fun _ => looks_pure _) fun _ => looks_raise _ _ _)
    fun _ => looks_pure _

section looks
variable {P : State → Prop}

theorem checkTurn_safe : checkTurn.Safe P Fault.unspecifiedRead :=
  Cmd.safe_bind (memRead_safe _ _ fun _ _ => hasAddr_board (by decide)) fun _ =>
  Cmd.safe_ite (fun _ => Cmd.safe_pure _) fun _ => Cmd.safe_raise (by decide) _ _

theorem legalWords_safe (l : List Nat) (hl : ∀ a ∈ l, a ≤ 81) :
    (legalWords l).Safe P Fault.unspecifiedRead := by
  induction l with
  | nil => exact Cmd.safe_pure _
  | cons a l ih =>
    refine Cmd.safe_bind (memRead_safe _ _ fun _ _ => hasAddr_board (hl a List.mem_cons_self))
      fun w => ?_
    refine Cmd.safe_ite (fun _ => ?_) fun _ => Cmd.safe_raise (by decide) _ _
    exact Cmd.safe_bind (ih fun x hx => hl x (List.mem_cons_of_mem _ hx)) fun _ => Cmd.safe_pure _

theorem validateBoard_safe : validateBoard.Safe P Fault.unspecifiedRead :=
  Cmd.safe_bind (legalWords_safe _ fun _ h => Nat.le_succ_of_le (squares_le h)) fun _ =>
  Cmd.safe_ite (fun _ => Cmd.safe_raise (by decide) _ _) fun _ => Cmd.safe_pure _

theorem getHandlen_safe : getHandlen.Safe P Fault.unspecifiedRead := by
  intro s hs; unfold getHandlen
  cases s.handlen with
  | none => trivial
  | some n => exact hs

theorem checkHand_safe {cap : Nat} (hP : ∀ s, P s → s.params.handCap = cap) :
    checkHand.Safe P Fault.unspecifiedRead := by
  refine Cmd.safe_bind getHandlen_safe fun n => ?_
  refine Cmd.safe_bind_of (A := fun c => c = cap) (Cmd.safe_get _)
    (fun s t a hs h => by cases h; exact hP s hs) fun c hc => ?_
  subst hc
  refine Cmd.safe_ite (fun _ => Cmd.safe_raise (by decide) _ _) fun hn => ?_
  refine Cmd.safe_bind (Cmd.safe_each _ fun a ha => ?_) fun _ => Cmd.safe_pure _
  obtain ⟨i, hi, rfl⟩ := List.mem_map.1 ha
  have hi := List.mem_range.1 hi
  refine Cmd.safe_bind (memRead_safe _ _ fun s hs => hasAddr_hand (by rw [hP s hs]; omega)) fun w => ?_
  exact Cmd.safe_ite (fun _ => Cmd.safe_pure _) fun _ => Cmd.safe_raise (by decide) _ _

end looks

theorem memRead_done {s t : State} {sp : Space} {a : Nat} {v : Byte}
    (h : memRead sp a s = .done v t) : s.cell sp a = some v := by
  by_cases ha : s.hasAddr sp a = true
  · cases hc : s.cell sp a with
    | none => rw [memRead_unwritten ha hc] at h; cases h
    | some w => rw [memRead_ok ha hc] at h; cases h; rfl
  · simp [memRead, ha] at h

/-- A check that passed says what the words it read are. -/
theorem legalWords_done {s t : State} {l : List Nat} {ws : List Byte} (h : legalWords l s = .done ws t) :
    ∀ a ∈ l, ∀ w, s.cell .pos a = some w → legalSquare w = true := by
  induction l generalizing ws t with
  | nil => intro a ha; cases ha
  | cons a l ih =>
    intro x hx w hw
    obtain ⟨v, u, hm, h1⟩ := Cmd.bind_done_inv h
    have hu : u = s := (looks_memRead .pos a).done hm
    subst hu
    by_cases hv : legalSquare v = true
    · rw [if_pos hv] at h1
      obtain ⟨vs, y, hr, -⟩ := Cmd.bind_done_inv h1
      rcases List.mem_cons.1 hx with hxa | hxl
      · subst hxa
        rw [memRead_done hm] at hw; cases hw; exact hv
      · exact ih hr x hxl w hw
    · rw [if_neg hv] at h1; cases h1

theorem validateBoard_done {s t : State} {k : Nat × Nat} (h : validateBoard s = .done k t) :
    t = s ∧ ∀ a ≤ 80, ∀ w, s.cell .pos a = some w → legalSquare w = true := by
  refine ⟨looks_validateBoard.done h, ?_⟩
  obtain ⟨ws, u, hl, -⟩ := Cmd.bind_done_inv h
  exact fun a ha => legalWords_done hl a (List.mem_range.2 (by omega))

theorem each_legal_done {s t : State} {l : List Nat}
    (h : Cmd.each l (fun a => (memRead .pos a).bind fun h =>
      if legalHand h then .pure () else .raise .invalidOperand .hand (BitVec.ofNat 16 a)) s = .done () t) :
    ∀ a ∈ l, ∀ w, s.cell .pos a = some w → legalHand w = true := by
  induction l generalizing t with
  | nil => intro a ha; cases ha
  | cons a l ih =>
    intro x hx w hw
    rw [Cmd.each_cons] at h
    obtain ⟨_, y, h1, h2⟩ := Cmd.bind_done_inv h
    obtain ⟨v, u, hm, h3⟩ := Cmd.bind_done_inv h1
    have hu : u = s := (looks_memRead .pos a).done hm
    subst hu
    by_cases hv : legalHand v = true
    · rw [if_pos hv] at h3
      cases h3
      rcases List.mem_cons.1 hx with hxa | hxl
      · subst hxa
        rw [memRead_done hm] at hw; cases hw; exact hv
      · exact ih h2 x hxl w hw
    · rw [if_neg hv] at h3; cases h3

theorem checkHand_done {s t : State} {addrs : List Nat} (h : checkHand s = .done addrs t) :
    t = s ∧ ∀ a ∈ addrs, (∃ i, i < s.params.handCap ∧ a = 128 + i) ∧
      ∀ w, s.cell .pos a = some w → legalHand w = true := by
  refine ⟨looks_checkHand.done h, ?_⟩
  obtain ⟨n, u, hn, h1⟩ := Cmd.bind_done_inv h
  have hu : u = s := looks_getHandlen.done hn
  subst hu
  rw [Cmd.get_bind_apply] at h1
  by_cases hc : n.toNat > u.params.handCap
  · rw [if_pos hc] at h1; cases h1
  · rw [if_neg hc] at h1
    obtain ⟨x, y, he, h2⟩ := Cmd.bind_done_inv h1
    have hadr : addrs = (List.range n.toNat).map handAddr := by cases h2; rfl
    intro a ha
    rw [hadr] at ha
    refine ⟨?_, each_legal_done he a ha⟩
    obtain ⟨i, hi, rfl⟩ := List.mem_map.1 ha
    exact ⟨i, by have := List.mem_range.1 hi; omega, rfl⟩

/-! ## Encoding a checked position -/

theorem squareKind_legal : ∀ w : Byte, legalSquare w = true → squareKind w ≠ 7#3 := by decide +kernel

theorem handKind_legal : ∀ w : Byte, legalHand w = true → handKind w ≠ 7#3 := by decide +kernel

/-- The position and the parameters of s0. -/
def Held (s0 s : State) : Prop := s.params = s0.params ∧ s.posMem = s0.posMem

theorem Held.stable (s0 : State) : WriterStable (Held s0) := fun _ _ h hq =>
  ⟨h.params.trans hq.1, h.posMem.trans hq.2⟩

theorem Held.cell {s0 s : State} (h : Held s0 s) (a : Nat) : s.cell .pos a = s0.cell .pos a := by
  simp [State.cell, h.2]

/-- Reading a POS word and encoding it, where the word there is known. -/
theorem readEncode_safe (s0 : State) (a : Nat) (ha : s0.hasAddr .pos a = true) (ok : Byte → Prop)
    (hok : ∀ w, s0.cell .pos a = some w → ok w) {f : Byte → Cmd Unit}
    (hf : ∀ w, ok w → (f w).Safe (fun s => s.Inv ∧ Held s0 s) Fault.unspecifiedRead) :
    ((memRead .pos a).bind f).Safe (fun s => s.Inv ∧ Held s0 s) Fault.unspecifiedRead := by
  refine Cmd.safe_bind_of (A := ok) (memRead_safe _ _ fun s hs => ?_) (fun s t w hs h => ?_) hf
  · simp only [State.hasAddr, hs.2.1]; exact ha
  · unfold memRead at h
    split at h
    · cases hc : s.cell .pos a with
      | none => rw [hc] at h; cases h
      | some v =>
        rw [hc] at h; cases h
        exact hok _ (by rw [← hs.2.cell]; exact hc)
    · cases h

theorem encTurn_safe (s0 : State) :
    encTurn.Safe (fun s => s.Inv ∧ Held s0 s) Fault.unspecifiedRead :=
  readEncode_safe s0 _ (hasAddr_board (by decide)) (fun _ => True) (fun _ _ => trivial)
    fun _ _ => putBit_safe (Held.stable s0) _ _

theorem encBoard_safe (s0 : State) (kb kw : Nat)
    (h : ∀ a ≤ 80, ∀ w, s0.cell .pos a = some w → legalSquare w = true) :
    (encBoard kb kw).Safe (fun s => s.Inv ∧ Held s0 s) Fault.unspecifiedRead := by
  have hst := Held.stable s0
  refine Cmd.safe_bind (putBits_safe hst _ _) fun _ => ?_
  refine Cmd.safe_bind (putBits_safe hst _ _) fun _ => ?_
  refine Cmd.safe_each _ fun a ha => ?_
  have ha := squares_le ha
  refine Cmd.safe_ite (fun _ => ?_) fun _ => Cmd.safe_pure _
  exact readEncode_safe s0 a (hasAddr_board (by omega)) _ (h a ha)
    fun w hw => encSquare_safe hst w (squareKind_legal w hw) _

theorem encHand_safe (s0 : State) (addrs : List Nat)
    (h : ∀ a ∈ addrs, (∃ i, i < s0.params.handCap ∧ a = 128 + i) ∧
      ∀ w, s0.cell .pos a = some w → legalHand w = true) :
    (encHand addrs).Safe (fun s => s.Inv ∧ Held s0 s) Fault.unspecifiedRead := by
  refine Cmd.safe_each _ fun a ha => ?_
  obtain ⟨⟨i, hi, he⟩, hw⟩ := h a ha
  exact readEncode_safe s0 a (by rw [he]; exact hasAddr_hand hi) _ hw
    fun w hw => encHandRec_safe (Held.stable s0) w (handKind_legal w hw) _

theorem initWriter_safe {Q : State → Prop} (hQ : WriterStable Q) :
    initWriter.Safe (fun s => s.Inv ∧ Q s) Fault.unspecifiedRead := by
  refine Cmd.safe_modify fun s ⟨hs, hq⟩ => ⟨?_, hQ s { s with writer := some Writer.reset } rfl hq⟩
  exact {
    params := hs.params
    inWf := hs.inWf
    outWf := hs.outWf
    posWf := hs.posWf
    inBounded := hs.inBounded
    outBounded := hs.outBounded
    posBounded := hs.posBounded
    writer := fun v hv => by
      cases hv
      exact ⟨Nat.zero_le _, fun a ha => absurd ha (Nat.not_lt_zero a), by decide⟩
    rlen := hs.rlen
    rpos := hs.rpos
    result := hs.result
    status := hs.status }

/-! ## RESULT -/

theorem State.Inv.setResult {s : State} (h : s.Inv) {v : CsrWord} (hv : v.toNat < 65536) :
    ({ s with result := v } : State).Inv where
  params := h.params
  inWf := h.inWf
  outWf := h.outWf
  posWf := h.posWf
  inBounded := h.inBounded
  outBounded := h.outBounded
  posBounded := h.posBounded
  writer := h.writer
  rlen := h.rlen
  rpos := h.rpos
  result := hv
  status := h.status

/-- The parameters of s0. -/
def SameParams (s0 s : State) : Prop := s.params = s0.params

theorem SameParams.stable (s0 : State) : WriterStable (SameParams s0) := fun _ _ h hq =>
  h.params.trans hq

theorem setResult_safe (s0 : State) {n : Nat} (hn : n ≤ 16) (v : BitVec n) :
    (setResult v).Safe (fun s => s.Inv ∧ SameParams s0 s) Fault.unspecifiedRead := by
  refine Cmd.safe_modify fun s ⟨hs, hq⟩ => ⟨hs.setResult ?_, hq⟩
  have := v.isLt
  have h16 : 2 ^ n ≤ 2 ^ 16 := Nat.pow_le_pow_right (by decide) hn
  rw [BitVec.toNat_setWidth]
  exact Nat.lt_of_le_of_lt (Nat.mod_le _ _) (by omega)

theorem setResult_safe_held (s0 : State) {n : Nat} (hn : n ≤ 16) (v : BitVec n) :
    (setResult v).Safe (fun s => s.Inv ∧ Held s0 s) Fault.unspecifiedRead := by
  refine Cmd.safe_modify fun s ⟨hs, hq⟩ => ⟨hs.setResult ?_, hq⟩
  have := v.isLt
  have h16 : 2 ^ n ≤ 2 ^ 16 := Nat.pow_le_pow_right (by decide) hn
  rw [BitVec.toNat_setWidth]
  exact Nat.lt_of_le_of_lt (Nat.mod_le _ _) (by omega)

/-! ## The reader -/

theorem State.Inv.setRpos {s : State} (h : s.Inv) {v : BitVec 16} (hv : v.toNat ≤ 8 * s.rlen.toNat) :
    ({ s with rpos := v } : State).Inv where
  params := h.params
  inWf := h.inWf
  outWf := h.outWf
  posWf := h.posWf
  inBounded := h.inBounded
  outBounded := h.outBounded
  posBounded := h.posBounded
  writer := h.writer
  rlen := h.rlen
  rpos := hv
  result := h.result
  status := h.status

section reader
variable (s0 : State)

theorem getBit_safe (sec : Sec) (off : BitVec 16) :
    (getBit sec off).Safe (fun s => s.Inv ∧ SameParams s0 s) Fault.unspecifiedRead := by
  intro s ⟨hs, hq⟩
  by_cases he : s.exhausted = true
  · rw [getBit_end sec off he]
    exact ⟨⟨hs, hq⟩, Nat.le_of_ble_eq_true rfl⟩
  · have hlt : s.rpos.toNat < 8 * s.rlen.toNat := by
      have h1 := hs.rpos
      have h2 : s.rpos.toNat ≠ 8 * s.rlen.toNat := fun h => he ((s.exhausted_iff).2 h)
      omega
    have hr := hs.rlen
    have hcap := hs.params.1.2
    have haddr : s.hasAddr .inp (s.rpos.toNat / 8) = true := by
      simp only [State.hasAddr, decide_eq_true_eq]; omega
    have he' : s.exhausted = false := by simpa using he
    have hadd : (s.rpos + 1).toNat = s.rpos.toNat + 1 := by
      rw [BitVec.toNat_add]; simp; omega
    cases hc : s.cell .inp (s.rpos.toNat / 8) with
    | none =>
      simp only [getBit, he', Cmd.get_bind_apply, Bool.false_eq_true, if_false, Cmd.cursor_bind_apply]
      rw [Cmd.bind_stopped (memRead_unwritten haddr hc)]
      trivial
    | some v =>
      simp only [getBit, he', Cmd.get_bind_apply, Bool.false_eq_true, if_false, Cmd.cursor_bind_apply]
      rw [Cmd.bind_done (memRead_ok haddr hc)]
      exact ⟨hs.setRpos (by omega), hq⟩

theorem getLE7From_safe (sec : Sec) (start : BitVec 16) (v : BitVec 7) (l : List Nat) :
    (getLE7From sec start v l).Safe (fun s => s.Inv ∧ SameParams s0 s) Fault.unspecifiedRead := by
  induction l generalizing v with
  | nil => exact Cmd.safe_pure _
  | cons j l ih => exact Cmd.safe_bind (getBit_safe s0 _ _) fun _ => ih _

theorem getLE7_safe (sec : Sec) :
    (getLE7 sec).Safe (fun s => s.Inv ∧ SameParams s0 s) Fault.unspecifiedRead :=
  Cmd.safe_bind (Cmd.safe_get _) fun _ => getLE7From_safe s0 _ _ _ _

/-- One level of the decoding tree (30_encoding.md R82): the two next states. -/
theorem decodeKindFrom_safe (sec : Sec) (off : BitVec 16) (left n v : Nat)
    (h : ∀ b : Bool, lutFind (n + 1) (2 * v + b.toNat) = none →
      (decodeKindFrom sec off left (n + 1) (2 * v + b.toNat)).Safe (fun s => s.Inv ∧ SameParams s0 s)
        Fault.unspecifiedRead) :
    (decodeKindFrom sec off (left + 1) n v).Safe (fun s => s.Inv ∧ SameParams s0 s)
      Fault.unspecifiedRead := by
  refine Cmd.safe_bind (getBit_safe s0 _ _) fun b => ?_
  cases hf : lutFind (n + 1) (2 * v + b.toNat) with
  | none => exact h b hf
  | some k => exact Cmd.safe_pure _

/-- DecodeKind never reaches the arm that finds no code (30_encoding.md R81). -/
theorem decodeKind_safe (sec : Sec) (off : BitVec 16) :
    (decodeKind sec off).Safe (fun s => s.Inv ∧ SameParams s0 s) Fault.unspecifiedRead := by
  have h4 : (decodeKindFrom sec off 1 4 15).Safe (fun s => s.Inv ∧ SameParams s0 s)
      Fault.unspecifiedRead := decodeKindFrom_safe s0 _ _ 0 4 15 fun b hb => by
    cases b <;> exact absurd hb (by decide)
  have h3 : (decodeKindFrom sec off 2 3 7).Safe (fun s => s.Inv ∧ SameParams s0 s)
      Fault.unspecifiedRead := decodeKindFrom_safe s0 _ _ 1 3 7 fun b hb => by
    cases b
    · exact absurd hb (by decide)
    · exact h4
  have h23 : (decodeKindFrom sec off 3 2 3).Safe (fun s => s.Inv ∧ SameParams s0 s)
      Fault.unspecifiedRead := decodeKindFrom_safe s0 _ _ 2 2 3 fun b hb => by
    cases b
    · exact absurd hb (by decide)
    · exact h3
  have h22 : (decodeKindFrom sec off 3 2 2).Safe (fun s => s.Inv ∧ SameParams s0 s)
      Fault.unspecifiedRead := decodeKindFrom_safe s0 _ _ 2 2 2 fun b hb => by
    cases b <;> exact absurd hb (by decide)
  have h1 : (decodeKindFrom sec off 4 1 1).Safe (fun s => s.Inv ∧ SameParams s0 s)
      Fault.unspecifiedRead := decodeKindFrom_safe s0 _ _ 3 1 1 fun b _ => by
    cases b
    · exact h22
    · exact h23
  exact decodeKindFrom_safe s0 _ _ 4 0 0 fun b hb => by
    cases b
    · exact absurd hb (by decide)
    · exact h1

theorem getProm_safe (k : Kind) (sec : Sec) (start : BitVec 16) :
    (getProm k sec start).Safe (fun s => s.Inv ∧ SameParams s0 s) Fault.unspecifiedRead :=
  Cmd.safe_ite (fun _ => getBit_safe s0 _ _) fun _ => Cmd.safe_pure _

theorem takeRecord_safe (sec : Sec) (start : BitVec 16) (g : Kind → Bool → Bool → Byte) :
    (takeRecord sec start g).Safe (fun s => s.Inv ∧ SameParams s0 s) Fault.unspecifiedRead :=
  Cmd.safe_bind (decodeKind_safe s0 _ _) fun _ =>
  Cmd.safe_bind (getProm_safe s0 _ _ _) fun _ =>
  Cmd.safe_bind (getBit_safe s0 _ _) fun _ => Cmd.safe_pure _

theorem decSquare_safe (sec : Sec) :
    (decSquare sec).Safe (fun s => s.Inv ∧ SameParams s0 s) Fault.unspecifiedRead :=
  Cmd.safe_bind (Cmd.safe_get _) fun start =>
  Cmd.safe_bind (getBit_safe s0 _ _) fun _ =>
  Cmd.safe_ite (fun _ => Cmd.safe_pure _) fun _ => takeRecord_safe s0 sec start squareWord

theorem decHandRec_safe (sec : Sec) :
    (decHandRec sec).Safe (fun s => s.Inv ∧ SameParams s0 s) Fault.unspecifiedRead :=
  Cmd.safe_bind (Cmd.safe_get _) fun start => takeRecord_safe s0 sec start handWord

theorem memWrite_pos_safe (a : Nat) (v : Byte) (ha : s0.hasAddr .pos a = true) :
    (memWrite .pos a v).Safe (fun s => s.Inv ∧ SameParams s0 s) Fault.unspecifiedRead := by
  intro s ⟨hs, hq⟩
  have ha' : s.hasAddr .pos a = true := by
    unfold SameParams at hq; simp only [State.hasAddr, hq]; exact ha
  rw [memWrite_ok v ha']
  refine ⟨?_, hq⟩
  exact {
    params := hs.params
    inWf := hs.inWf
    outWf := hs.outWf
    posWf := Memory.wf_write _ _ _ hs.posWf
    inBounded := hs.inBounded
    outBounded := hs.outBounded
    posBounded := fun c hc => by
      rcases Memory.mem_write hc with h | h
      · rw [h]; exact ha'
      · exact hs.posBounded c h
    writer := hs.writer
    rlen := hs.rlen
    rpos := hs.rpos
    result := hs.result
    status := hs.status }

theorem decTurn_safe : decTurn.Safe (fun s => s.Inv ∧ SameParams s0 s) Fault.unspecifiedRead :=
  Cmd.safe_bind (Cmd.safe_get _) fun _ =>
  Cmd.safe_bind (getBit_safe s0 _ _) fun _ => memWrite_pos_safe s0 _ _ (hasAddr_board (by decide))

theorem decSquares_safe (n : Nat) :
    (decSquares n).Safe (fun s => s.Inv ∧ SameParams s0 s) Fault.unspecifiedRead := by
  induction n with
  | zero => exact Cmd.safe_pure _
  | succ n ih =>
    exact Cmd.safe_bind (decSquare_safe s0 _) fun _ => Cmd.safe_bind ih fun _ => Cmd.safe_pure _

theorem decSquares_length {n : Nat} {s t : State} {l : List Byte} (h : decSquares n s = .done l t) :
    l.length = n := by
  induction n generalizing s t l with
  | zero => cases h; rfl
  | succ n ih =>
    unfold decSquares Cmd.bind at h
    cases h1 : decSquare .board s with
    | raised e u => rw [h1] at h; cases h
    | stopped f => rw [h1] at h; cases h
    | done w u =>
      rw [h1] at h
      simp only at h
      cases h2 : decSquares n u with
      | raised e y => rw [h2] at h; cases h
      | stopped f => rw [h2] at h; cases h
      | done ws y => rw [h2] at h; cases h; simp [ih h2]

theorem writeWords_safe (a : Nat) (l : List Byte)
    (h : ∀ i, a ≤ i → i < a + l.length → s0.hasAddr .pos i = true) :
    (writeWords a l).Safe (fun s => s.Inv ∧ SameParams s0 s) Fault.unspecifiedRead := by
  induction l generalizing a with
  | nil => exact Cmd.safe_pure _
  | cons w l ih =>
    simp only [List.length_cons] at h
    exact Cmd.safe_bind (memWrite_pos_safe s0 _ _ (h a (by omega) (by omega))) fun _ =>
      ih (a + 1) fun i h1 h2 => h i (by omega) (by omega)

theorem decBoard_safe : decBoard.Safe (fun s => s.Inv ∧ SameParams s0 s) Fault.unspecifiedRead := by
  refine Cmd.safe_bind (Cmd.safe_get _) fun start => ?_
  refine Cmd.safe_bind (getLE7_safe s0 _) fun pb => ?_
  refine Cmd.safe_bind (getLE7_safe s0 _) fun pw => ?_
  by_cases hk : pb.toNat > 80 ∨ pw.toNat > 80 ∨ pb = pw
  · rw [checkKings, if_pos hk]
    exact fun s hs => ⟨hs, Nat.le_of_ble_eq_true rfl⟩
  · rw [checkKings, if_neg hk, Cmd.pure_bind]
    refine Cmd.safe_bind_of (A := fun l => l.length = 79) (decSquares_safe s0 _)
      (fun s t l _ h => decSquares_length h) fun l hl => ?_
    refine writeWords_safe s0 0 _ fun i _ h => hasAddr_board ?_
    rw [length_boardWithKings l _ _ hl (by omega) (by omega)
      (fun h => hk (.inr (.inr (BitVec.eq_of_toNat_eq h))))] at h
    omega

theorem decHandFrom_safe (room n : Nat) (hn : n + room = s0.params.handCap) :
    (decHandFrom room n).Safe (fun s => s.Inv ∧ SameParams s0 s) Fault.unspecifiedRead := by
  induction room generalizing n with
  | zero =>
    refine Cmd.safe_bind (Cmd.safe_get _) fun _ => Cmd.safe_ite (fun _ => Cmd.safe_pure _) fun _ => ?_
    exact Cmd.safe_bind (Cmd.safe_get _) fun _ => Cmd.safe_raise (by decide) _ _
  | succ room ih =>
    refine Cmd.safe_bind (Cmd.safe_get _) fun _ => Cmd.safe_ite (fun _ => Cmd.safe_pure _) fun _ => ?_
    refine Cmd.safe_bind (decHandRec_safe s0 _) fun _ => ?_
    exact Cmd.safe_bind (memWrite_pos_safe s0 _ _ (hasAddr_hand (by omega))) fun _ =>
      ih (n + 1) (by omega)

theorem decHand_safe : decHand.Safe (fun s => s.Inv ∧ SameParams s0 s) Fault.unspecifiedRead := by
  refine Cmd.safe_bind_of (A := fun c => c = s0.params.handCap) (Cmd.safe_get _)
    (fun s t a hs h => by cases h; exact congrArg Params.handCap hs.2) fun c hc => ?_
  refine Cmd.safe_bind (decHandFrom_safe s0 c 0 (by omega)) fun n => ?_
  exact Cmd.safe_modify fun s ⟨hs, hq⟩ =>
    ⟨{ params := hs.params, inWf := hs.inWf, outWf := hs.outWf, posWf := hs.posWf,
       inBounded := hs.inBounded, outBounded := hs.outBounded, posBounded := hs.posBounded,
       writer := hs.writer, rlen := hs.rlen, rpos := hs.rpos, result := hs.result,
       status := hs.status }, hq⟩

theorem loadReader_safe :
    loadReader.Safe (fun s => s.Inv ∧ SameParams s0 s) Fault.unspecifiedRead := by
  intro s ⟨hs, hq⟩
  by_cases h : s.params.inCap < s.inlen.toNat
  · rw [loadReader_len h]; exact ⟨⟨hs, hq⟩, Nat.le_of_ble_eq_true rfl⟩
  · rw [loadReader_ok (by omega)]
    refine ⟨?_, hq⟩
    exact {
      params := hs.params
      inWf := hs.inWf
      outWf := hs.outWf
      posWf := hs.posWf
      inBounded := hs.inBounded
      outBounded := hs.outBounded
      posBounded := hs.posBounded
      writer := hs.writer
      rlen := Nat.le_of_not_lt h
      rpos := Nat.zero_le _
      result := hs.result
      status := hs.status }

theorem skipBits_safe (sec : Sec) (off : BitVec 16) (n : Nat) :
    (skipBits sec off n).Safe (fun s => s.Inv ∧ SameParams s0 s) Fault.unspecifiedRead := by
  induction n with
  | zero => exact Cmd.safe_pure _
  | succ n ih => exact Cmd.safe_bind (getBit_safe s0 _ _) fun _ => ih

theorem takeItem_safe (n : Nat) (sec : Sec) {deliver : Cmd Unit}
    (h : deliver.Safe (fun s => s.Inv ∧ SameParams s0 s) Fault.unspecifiedRead) :
    (takeItem n sec deliver).Safe (fun s => s.Inv ∧ SameParams s0 s) Fault.unspecifiedRead :=
  Cmd.safe_bind (Cmd.safe_get _) fun _ => Cmd.safe_bind (skipBits_safe s0 _ _ _) fun _ => h

end reader

/-! ## finish -/

theorem statusOk_done (st : CsrWord) : statusOk (statusDone st) := by
  simp [statusOk, statusDone]

theorem statusOk_raised {e : Err} (h : 3 ≤ e.kind.code.toNat) : statusOk (statusRaised e) := by
  have h7 : e.kind.code.toNat ≤ 7 := by cases e.kind <;> decide
  simp [statusOk, statusRaised, h, h7]

theorem State.Inv.setStatus {s : State} (h : s.Inv) {v : CsrWord} (hv : statusOk v) :
    ({ s with status := v } : State).Inv where
  params := h.params
  inWf := h.inWf
  outWf := h.outWf
  posWf := h.posWf
  inBounded := h.inBounded
  outBounded := h.outBounded
  posBounded := h.posBounded
  writer := h.writer
  rlen := h.rlen
  rpos := h.rpos
  result := h.result
  status := hv

/-- What an outcome may be: a next state with the invariant and the same parameters, or a fault for a read
of something unspecified. -/
def SafeOutcome (s : State) : Host.Outcome State Fault Refusal → Prop
  | .next t => t.Inv ∧ t.params = s.params
  | .fault f => f.unspecifiedRead
  | .refused _ => False

/-- A spoil keeps the invariant. -/
def SpoilOk (spoil : ErrKind → State → State) : Prop :=
  ∀ k s, s.Inv → (spoil k s).Inv ∧ (spoil k s).params = s.params

theorem finish_ok {spoil : ErrKind → State → State} (hsp : SpoilOk spoil) {c : Cmd Unit}
    {s : State} (h : (c s).Ok (fun t => t.Inv ∧ SameParams s t) Fault.unspecifiedRead) :
    SafeOutcome s (finish spoil c s) := by
  unfold finish
  cases hc : c s with
  | done a t =>
    rw [hc] at h
    exact ⟨h.1.setStatus (statusOk_done _), h.2⟩
  | raised e t =>
    rw [hc] at h
    obtain ⟨⟨h1, h2⟩, h3⟩ := h
    obtain ⟨h4, h5⟩ := hsp e.kind t h1
    exact ⟨h4.setStatus (statusOk_raised h3), h5.trans h2⟩
  | stopped f => rw [hc] at h; exact h

theorem finish_safe {spoil : ErrKind → State → State} (hsp : SpoilOk spoil) {c : Cmd Unit} {s : State}
    (hs : s.Inv) (h : c.Safe (fun t => t.Inv ∧ SameParams s t) Fault.unspecifiedRead) :
    SafeOutcome s (finish spoil c s) := finish_ok hsp (h s ⟨hs, rfl⟩)

theorem spoilOk_nothing : SpoilOk spoilNothing := fun _ _ h => ⟨h, rfl⟩

theorem spoilOk_writer : SpoilOk spoilWriter := by
  intro k s h
  cases k
  case capacityExceeded =>
    exact ⟨{ params := h.params, inWf := h.inWf, outWf := List.Pairwise.nil, posWf := h.posWf
             inBounded := h.inBounded, outBounded := fun c hc => by cases hc
             posBounded := h.posBounded, writer := fun w hw => by cases hw
             rlen := h.rlen, rpos := h.rpos, result := h.result, status := h.status }, rfl⟩
  all_goals exact ⟨h, rfl⟩

/-- Some POS words forgotten, and HANDLEN set or not. -/
theorem State.Inv.forget {s : State} (h : s.Inv) (m : List Host.Cell) (n : Option (BitVec 10))
    (hm : Memory.wf m) (hsub : ∀ c ∈ m, c ∈ s.posMem) :
    ({ s with handlen := n, posMem := m } : State).Inv where
  params := h.params
  inWf := h.inWf
  outWf := h.outWf
  posWf := hm
  inBounded := h.inBounded
  outBounded := h.outBounded
  posBounded := fun c hc => h.posBounded c (hsub c hc)
  writer := h.writer
  rlen := h.rlen
  rpos := h.rpos
  result := h.result
  status := h.status

theorem State.Inv.erase {s : State} (h : s.Inv) (lo hi : Nat) (n : Option (BitVec 10)) :
    ({ s with handlen := n, posMem := Memory.erase s.posMem lo hi } : State).Inv :=
  h.forget _ _ (Memory.wf_erase _ _ _ h.posWf) fun _ hc => Memory.mem_of_mem_erase hc

theorem spoilOk_turn : SpoilOk spoilTurn := by
  intro k s h
  cases k
  case unexpectedEndOfStream => exact ⟨h.erase 81 82 s.handlen, rfl⟩
  all_goals exact ⟨h, rfl⟩

theorem spoilOk_board : SpoilOk spoilBoard := by
  intro k s h
  cases k
  case unexpectedEndOfStream | invalidKingConfiguration => exact ⟨h.erase 0 81 s.handlen, rfl⟩
  all_goals exact ⟨h, rfl⟩

theorem spoilOk_hand : SpoilOk spoilHand := by
  intro k s h
  cases k
  case unexpectedEndOfStream | capacityExceeded => exact ⟨h.erase 128 _ none, rfl⟩
  all_goals exact ⟨h, rfl⟩

theorem spoilOk_position : SpoilOk spoilPosition := by
  intro k s h
  cases k
  case unexpectedEndOfStream | invalidKingConfiguration | capacityExceeded =>
    exact ⟨h.forget _ none (Memory.wf_erase _ _ _ (Memory.wf_erase _ _ _ h.posWf))
      fun _ hc => Memory.mem_of_mem_erase (Memory.mem_of_mem_erase hc), rfl⟩
  all_goals exact ⟨h, rfl⟩

/-! ## The encode commands -/

theorem Run.Ok.weaken {α : Type} {r : Run α} {P P' : State → Prop} {F : Fault → Prop} (h : r.Ok P F)
    (hp : ∀ t, P t → P' t) : r.Ok P' F := by
  cases r with
  | done a t => exact hp _ h
  | raised e t => exact ⟨hp _ h.1, h.2⟩
  | stopped f => exact h

theorem held_sameParams (s t : State) (h : t.Inv ∧ Held s t) : t.Inv ∧ SameParams s t := ⟨h.1, h.2.1⟩

/-- A check that looks, then a part that is safe where the check passed. -/
theorem check_then {α : Type} {s : State} {m : Cmd α} {f : α → Cmd Unit} {P : State → Prop}
    (hs : P s) (hl : Looks m) (hm : m.Safe P Fault.unspecifiedRead)
    (hf : ∀ a, m s = .done a s → (f a s).Ok P Fault.unspecifiedRead) :
    (m.bind f s).Ok P Fault.unspecifiedRead := by
  have h1 := hm s hs
  cases hc : m s with
  | done a t =>
    have ht : t = s := hl.done hc
    subst ht
    rw [Cmd.bind_done hc]; exact hf a hc
  | raised e t => rw [hc] at h1; rw [Cmd.bind_raised hc]; exact h1
  | stopped g => rw [hc] at h1; rw [Cmd.bind_stopped hc]; exact h1

theorem turnEnc_safe {s : State} (hs : s.Inv) :
    SafeOutcome s (finish spoilWriter (checkTurn.bind fun _ => encTurn) s) :=
  finish_ok spoilOk_writer <| check_then ⟨hs, rfl⟩ looks_checkTurn checkTurn_safe fun _ _ =>
    (encTurn_safe s s ⟨hs, rfl, rfl⟩).weaken (held_sameParams s)

theorem boardEnc_safe {s : State} (hs : s.Inv) :
    SafeOutcome s (finish spoilWriter (validateBoard.bind fun k => encBoard k.1 k.2) s) :=
  finish_ok spoilOk_writer <| check_then ⟨hs, rfl⟩ looks_validateBoard validateBoard_safe
    fun k hk => (encBoard_safe s k.1 k.2 (validateBoard_done hk).2 s ⟨hs, rfl, rfl⟩).weaken
      (held_sameParams s)

theorem handEnc_safe {s : State} (hs : s.Inv) :
    SafeOutcome s (finish spoilWriter (checkHand.bind fun addrs => encHand addrs) s) :=
  finish_ok spoilOk_writer <| check_then ⟨hs, rfl⟩ looks_checkHand
    (checkHand_safe (cap := s.params.handCap) fun _ ht => congrArg Params.handCap ht.2)
    fun addrs ha => (encHand_safe s addrs (checkHand_done ha).2 s ⟨hs, rfl, rfl⟩).weaken
      (held_sameParams s)

theorem writtenBits_safe {P : State → Prop} : writtenBits.Safe P Fault.unspecifiedRead :=
  Cmd.safe_bind (fun s hs => by
    unfold getWriter
    cases s.writer with
    | none => trivial
    | some w => exact hs) fun _ => Cmd.safe_pure _

theorem pack_safe {s : State} (hs : s.Inv) :
    SafeOutcome s (finish spoilWriter packPosition s) := by
  refine finish_ok spoilOk_writer ?_
  refine check_then ⟨hs, rfl⟩ looks_checkTurn checkTurn_safe fun _ _ => ?_
  refine check_then ⟨hs, rfl⟩ looks_validateBoard validateBoard_safe fun k hk => ?_
  refine check_then ⟨hs, rfl⟩ looks_checkHand
    (checkHand_safe (cap := s.params.handCap) fun _ ht => congrArg Params.handCap ht.2)
    fun addrs ha => ?_
  have hst := Held.stable s
  refine Run.Ok.weaken (P := fun t => t.Inv ∧ Held s t) ?_ (held_sameParams s)
  refine (?_ : Cmd.Safe _ _ (writePosition k.1 k.2 addrs)) s ⟨hs, rfl, rfl⟩
  refine Cmd.safe_bind (initWriter_safe hst) fun _ => ?_
  refine Cmd.safe_bind (encTurn_safe s) fun _ => ?_
  refine Cmd.safe_bind (encBoard_safe s _ _ (validateBoard_done hk).2) fun _ => ?_
  refine Cmd.safe_bind (encHand_safe s _ (checkHand_done ha).2) fun _ => ?_
  refine Cmd.safe_bind writtenBits_safe fun _ => ?_
  exact Cmd.safe_bind (flush_safe hst _) fun _ => setResult_safe_held s (by decide) _

end Sys2Proof.Machine
end

