-- ==== Sys2Proof/Laws/Frame.lean ====
section
/-! SUPPORT. Frames: what each part of a command leaves alone, however it ends. The writer's parts change WACC,
WCNT, OUTLEN and OUT (`writerOnly`, Laws/Board.lean); the reader's parts change RPOS; the decoders change
RPOS and their own words of POS (70_reset_and_hazards.md R282). -/

namespace Sys2Proof.Machine

/-! ## The writer -/

theorem keeps_putCode (k : BitVec 3) (sec : Sec) : (putCode k sec).Keeps writerOnly := by
  unfold putCode
  split
  · exact keeps_putBits _ _
  · exact Cmd.keeps_stop _

theorem keeps_encSquare (w : Byte) (sec : Sec) : (encSquare w sec).Keeps writerOnly :=
  Cmd.keeps_ite (fun _ => keeps_putBit _ _) fun _ =>
  Cmd.keeps_bind writerOnly.trans (keeps_putBit _ _) fun _ =>
  Cmd.keeps_bind writerOnly.trans (keeps_putCode _ _) fun _ =>
  Cmd.keeps_bind writerOnly.trans
    (Cmd.keeps_ite (fun _ => keeps_putBit _ _) fun _ => Cmd.keeps_pure writerOnly.refl _) fun _ =>
  keeps_putBit _ _

theorem keeps_encHandRec (h : Byte) (sec : Sec) : (encHandRec h sec).Keeps writerOnly :=
  Cmd.keeps_bind writerOnly.trans (keeps_putCode _ _) fun _ =>
  Cmd.keeps_bind writerOnly.trans
    (Cmd.keeps_ite (fun _ => keeps_putBit _ _) fun _ => Cmd.keeps_pure writerOnly.refl _) fun _ =>
  keeps_putBit _ _

/-- A part that only looks changes no more than the writer. -/
theorem Looks.writerOnly {α : Type} {c : Cmd α} (h : Looks c) : c.Keeps writerOnly := by
  intro s
  have := h s
  cases hc : c s with
  | done a t => rw [hc] at this; rw [show t = s from this]; exact writerOnly.refl s
  | raised e t => rw [hc] at this; rw [show t = s from this]; exact writerOnly.refl s
  | stopped f => trivial

theorem keeps_encTurn : encTurn.Keeps writerOnly :=
  Cmd.keeps_bind writerOnly.trans (looks_memRead _ _).writerOnly fun _ => keeps_putBit _ _

theorem keeps_encBoard (kb kw : Nat) : (encBoard kb kw).Keeps writerOnly :=
  Cmd.keeps_bind writerOnly.trans (keeps_putBits _ _) fun _ =>
  Cmd.keeps_bind writerOnly.trans (keeps_putBits _ _) fun _ =>
  Cmd.keeps_each writerOnly.refl writerOnly.trans _ fun _ =>
  Cmd.keeps_ite
    (fun _ => Cmd.keeps_bind writerOnly.trans (looks_memRead _ _).writerOnly fun _ =>
      keeps_encSquare _ _)
    fun _ => Cmd.keeps_pure writerOnly.refl _

theorem keeps_encHand (addrs : List Nat) : (encHand addrs).Keeps writerOnly :=
  Cmd.keeps_each writerOnly.refl writerOnly.trans _ fun _ =>
  Cmd.keeps_bind writerOnly.trans (looks_memRead _ _).writerOnly fun _ => keeps_encHandRec _ _

theorem keeps_initWriter : initWriter.Keeps writerOnly := keeps_setWriter _

/-! ## The reader -/

/-- Only RPOS changed. -/
def readerOnly (s t : State) : Prop := t = { s with rpos := t.rpos }

theorem readerOnly.refl (s : State) : readerOnly s s := by cases s; rfl

theorem readerOnly.trans (a b c : State) (h : readerOnly a b) (h' : readerOnly b c) :
    readerOnly a c := by unfold readerOnly at *; rw [h] at h'; rw [h']

theorem Looks.readerOnly {α : Type} {c : Cmd α} (h : Looks c) : c.Keeps readerOnly := by
  intro s
  have := h s
  cases hc : c s with
  | done a t => rw [hc] at this; rw [show t = s from this]; exact readerOnly.refl s
  | raised e t => rw [hc] at this; rw [show t = s from this]; exact readerOnly.refl s
  | stopped f => trivial

theorem keeps_getBit (sec : Sec) (off : BitVec 16) : (getBit sec off).Keeps readerOnly :=
  Cmd.keeps_bind readerOnly.trans (Cmd.keeps_get readerOnly.refl _) fun _ =>
  Cmd.keeps_ite (fun _ => Cmd.keeps_raise readerOnly.refl _ _ _) fun _ =>
  Cmd.keeps_bind readerOnly.trans (Cmd.keeps_get readerOnly.refl _) fun _ =>
  Cmd.keeps_bind readerOnly.trans (looks_memRead _ _).readerOnly fun _ =>
  Cmd.keeps_bind readerOnly.trans (Cmd.keeps_modify fun _ => rfl) fun _ =>
  Cmd.keeps_pure readerOnly.refl _

theorem keeps_getLE7From (sec : Sec) (start : BitVec 16) (v : BitVec 7) (l : List Nat) :
    (getLE7From sec start v l).Keeps readerOnly := by
  induction l generalizing v with
  | nil => exact Cmd.keeps_pure readerOnly.refl _
  | cons j l ih => exact Cmd.keeps_bind readerOnly.trans (keeps_getBit _ _) fun _ => ih _

theorem keeps_getLE7 (sec : Sec) : (getLE7 sec).Keeps readerOnly :=
  Cmd.keeps_bind readerOnly.trans (Cmd.keeps_get readerOnly.refl _) fun _ => keeps_getLE7From _ _ _ _

theorem keeps_decodeKindFrom (sec : Sec) (off : BitVec 16) (left n v : Nat) :
    (decodeKindFrom sec off left n v).Keeps readerOnly := by
  induction left generalizing n v with
  | zero => exact Cmd.keeps_stop _
  | succ left ih =>
    refine Cmd.keeps_bind readerOnly.trans (keeps_getBit _ _) fun b => ?_
    cases lutFind (n + 1) (2 * v + b.toNat) with
    | none => exact ih _ _
    | some k => exact Cmd.keeps_pure readerOnly.refl _

theorem keeps_takeRecord (sec : Sec) (start : BitVec 16) (g : Kind → Bool → Bool → Byte) :
    (takeRecord sec start g).Keeps readerOnly :=
  Cmd.keeps_bind readerOnly.trans (keeps_decodeKindFrom _ _ _ _ _) fun _ =>
  Cmd.keeps_bind readerOnly.trans
    (Cmd.keeps_ite (fun _ => keeps_getBit _ _) fun _ => Cmd.keeps_pure readerOnly.refl _) fun _ =>
  Cmd.keeps_bind readerOnly.trans (keeps_getBit _ _) fun _ => Cmd.keeps_pure readerOnly.refl _

theorem keeps_decSquare (sec : Sec) : (decSquare sec).Keeps readerOnly :=
  Cmd.keeps_bind readerOnly.trans (Cmd.keeps_get readerOnly.refl _) fun start =>
  Cmd.keeps_bind readerOnly.trans (keeps_getBit _ _) fun _ =>
  Cmd.keeps_ite (fun _ => Cmd.keeps_pure readerOnly.refl _) fun _ =>
  keeps_takeRecord sec start squareWord

theorem keeps_decHandRec (sec : Sec) : (decHandRec sec).Keeps readerOnly :=
  Cmd.keeps_bind readerOnly.trans (Cmd.keeps_get readerOnly.refl _) fun start =>
  keeps_takeRecord sec start handWord

theorem keeps_decSquares (n : Nat) : (decSquares n).Keeps readerOnly := by
  induction n with
  | zero => exact Cmd.keeps_pure readerOnly.refl _
  | succ n ih =>
    exact Cmd.keeps_bind readerOnly.trans (keeps_decSquare _) fun _ =>
      Cmd.keeps_bind readerOnly.trans ih fun _ => Cmd.keeps_pure readerOnly.refl _

theorem keeps_skipBits (sec : Sec) (off : BitVec 16) (n : Nat) :
    (skipBits sec off n).Keeps readerOnly := by
  induction n with
  | zero => exact Cmd.keeps_pure readerOnly.refl _
  | succ n ih => exact Cmd.keeps_bind readerOnly.trans (keeps_getBit _ _) fun _ => ih

/-! ## The decoders -/

/-- Only RPOS and the POS words at addresses in A changed. -/
def placedIn (A : Nat → Prop) (s t : State) : Prop :=
  t = { s with rpos := t.rpos, posMem := t.posMem } ∧
  ∀ a, ¬ A a → t.cell .pos a = s.cell .pos a

section placed
variable {A : Nat → Prop}

theorem placedIn.refl (s : State) : placedIn A s s := ⟨by cases s; rfl, fun _ _ => rfl⟩

theorem placedIn.trans (a b c : State) (h : placedIn A a b) (h' : placedIn A b c) :
    placedIn A a c := by
  refine ⟨?_, fun x hx => (h'.2 x hx).trans (h.2 x hx)⟩
  have h1 := h.1; have h2 := h'.1
  rw [h1] at h2; rw [h2]

theorem placedIn.mono {B : Nat → Prop} (hAB : ∀ a, A a → B a) {s t : State} (h : placedIn A s t) :
    placedIn B s t := ⟨h.1, fun x hx => h.2 x fun ha => hx (hAB x ha)⟩

theorem readerOnly.placedIn {s t : State} (h : readerOnly s t) : placedIn A s t :=
  ⟨by rw [h], fun x _ => by rw [h]; rfl⟩

theorem Cmd.Keeps.mono {α : Type} {c : Cmd α} {R R' : State → State → Prop} (h : c.Keeps R)
    (hr : ∀ s t, R s t → R' s t) : c.Keeps R' := by
  intro s
  have := h s
  cases hc : c s with
  | done a t => rw [hc] at this; exact hr _ _ this
  | raised e t => rw [hc] at this; exact hr _ _ this
  | stopped f => trivial

theorem keeps_memWrite_pos (a : Nat) (v : Byte) (ha : A a) :
    (memWrite .pos a v).Keeps (placedIn A) := by
  intro s
  by_cases h : s.hasAddr .pos a = true
  · rw [memWrite_ok v h]
    refine ⟨rfl, fun x hx => ?_⟩
    simp only [State.cell, State.setCells_pos, State.cells_pos]
    exact Memory.read_write_other _ _ fun h => hx (h ▸ ha)
  · simp [memWrite, h]

theorem keeps_writeWords (a : Nat) (l : List Byte) (h : ∀ i, a ≤ i → i < a + l.length → A i) :
    (writeWords a l).Keeps (placedIn A) := by
  induction l generalizing a with
  | nil => exact Cmd.keeps_pure placedIn.refl _
  | cons w l ih =>
    simp only [List.length_cons] at h
    exact Cmd.keeps_bind placedIn.trans (keeps_memWrite_pos a w (h a (by omega) (by omega))) fun _ =>
      ih (a + 1) fun i h1 h2 => h i (by omega) (by omega)

end placed

theorem keeps_decTurn : decTurn.Keeps (placedIn fun a => a = 81) :=
  Cmd.keeps_bind placedIn.trans (Cmd.keeps_get placedIn.refl _) fun _ =>
  Cmd.keeps_bind placedIn.trans ((keeps_getBit _ _).mono fun _ _ h => h.placedIn) fun _ =>
  keeps_memWrite_pos _ _ rfl

theorem keeps_decHandFrom (room n : Nat) :
    (decHandFrom room n).Keeps (placedIn fun a => 128 + n ≤ a ∧ a < 128 + n + room) := by
  induction room generalizing n with
  | zero =>
    exact Cmd.keeps_bind placedIn.trans (Cmd.keeps_get placedIn.refl _) fun _ =>
      Cmd.keeps_ite (fun _ => Cmd.keeps_pure placedIn.refl _) fun _ =>
      Cmd.keeps_bind placedIn.trans (Cmd.keeps_get placedIn.refl _) fun _ =>
      Cmd.keeps_raise placedIn.refl _ _ _
  | succ room ih =>
    refine Cmd.keeps_bind placedIn.trans (Cmd.keeps_get placedIn.refl _) fun _ => ?_
    refine Cmd.keeps_ite (fun _ => Cmd.keeps_pure placedIn.refl _) fun _ => ?_
    refine Cmd.keeps_bind placedIn.trans ((keeps_decHandRec _).mono fun _ _ h => h.placedIn) fun _ => ?_
    refine Cmd.keeps_bind placedIn.trans (keeps_memWrite_pos _ _ (by unfold handAddr; omega)) fun _ => ?_
    exact (ih (n + 1)).mono fun _ _ h => h.mono fun a ha => by omega

theorem keeps_decBoard : decBoard.Keeps (placedIn fun a => a ≤ 80) := by
  refine Cmd.keeps_bind placedIn.trans (Cmd.keeps_get placedIn.refl _) fun start => ?_
  refine Cmd.keeps_bind placedIn.trans ((keeps_getLE7 _).mono fun _ _ h => h.placedIn) fun pb => ?_
  refine Cmd.keeps_bind placedIn.trans ((keeps_getLE7 _).mono fun _ _ h => h.placedIn) fun pw => ?_
  by_cases hk : pb.toNat > 80 ∨ pw.toNat > 80 ∨ pb = pw
  · rw [checkKings, if_pos hk]
    exact fun s => placedIn.refl s
  · rw [checkKings, if_neg hk, Cmd.pure_bind]
    intro s
    have h1 := ((keeps_decSquares 79).mono fun _ _ h => h.placedIn (A := fun a => a ≤ 80)) s
    cases hc : decSquares 79 s with
    | raised e t => rw [hc] at h1; rw [Cmd.bind_raised hc]; exact h1
    | stopped f => rw [Cmd.bind_stopped hc]; trivial
    | done l t =>
      rw [hc] at h1
      rw [Cmd.bind_done hc]
      have hl := decSquares_length hc
      have h2 := keeps_writeWords (A := fun a => a ≤ 80) 0 (boardWithKings l pb.toNat pw.toNat)
        (fun i _ h => by
          rw [length_boardWithKings l _ _ hl (by omega) (by omega)
            (fun h => hk (.inr (.inr (BitVec.eq_of_toNat_eq h))))] at h
          omega) t
      rw [insertKings]
      cases hw : writeWords 0 (boardWithKings l pb.toNat pw.toNat) t <;> rw [hw] at h2
      · exact placedIn.trans _ _ _ h1 h2
      · exact placedIn.trans _ _ _ h1 h2
      · trivial

end Sys2Proof.Machine
end

