-- ==== Sys2Proof/Laws/PerInstr.lean ====
section
/-! SUPPORT. Per-instruction statements. Family ItemLength: every encoding has the length the spec states
for it (30_encoding.md R80, R83 to R86, R100). -/

namespace Sys2Proof.Laws.ItemLength

open Sys2Proof.Machine

/-- The encoding of i is as long as 30_encoding.md says. -/
def Statement (i : Instr) : Prop := Encoded.size (encode i) = Instr.specLength i

theorem reset : Statement .reset := rfl
theorem clrerr : Statement .clrerr := rfl
theorem wInit : Statement .wInit := rfl
theorem wBit (b : Bool) : Statement (.wBit b) := rfl
theorem wLe7 (v : BitVec 7) : Statement (.wLe7 v) := rfl
theorem wCode (k : Kind) : Statement (.wCode k) := rfl
theorem wFlush : Statement .wFlush := rfl
theorem rLoad : Statement .rLoad := rfl
theorem rExh : Statement .rExh := rfl
theorem rBit : Statement .rBit := rfl
theorem rLe7 : Statement .rLe7 := rfl
theorem rCode : Statement .rCode := rfl
theorem turnEnc : Statement .turnEnc := rfl
theorem turnDec : Statement .turnDec := rfl
theorem sqEnc (w : Byte) : Statement (.sqEnc w) := rfl
theorem sqDec : Statement .sqDec := rfl
theorem hrecEnc (h : Byte) : Statement (.hrecEnc h) := rfl
theorem hrecDec : Statement .hrecDec := rfl
theorem boardEnc : Statement .boardEnc := rfl
theorem boardDec : Statement .boardDec := rfl
theorem handEnc : Statement .handEnc := rfl
theorem handDec : Statement .handDec := rfl
theorem pack : Statement .pack := rfl
theorem unpack : Statement .unpack := rfl
theorem codePawn : Statement .codePawn := rfl
theorem codeLance : Statement .codeLance := rfl
theorem codeKnight : Statement .codeKnight := rfl
theorem codeSilver : Statement .codeSilver := rfl
theorem codeGold : Statement .codeGold := rfl
theorem codeBishop : Statement .codeBishop := rfl
theorem codeRook : Statement .codeRook := rfl
theorem recTurn (t : Colour) : Statement (.recTurn t) := rfl
theorem recKing (i : BitVec 7) : Statement (.recKing i) := rfl
theorem recSqEmpty : Statement .recSqEmpty := rfl
theorem recSqPiece (k : PromKind) (p : Bool) (c : Colour) : Statement (.recSqPiece k p c) := by cases k <;> rfl
theorem recSqGold (c : Colour) : Statement (.recSqGold c) := rfl
theorem recHand (k : PromKind) (p : Bool) (c : Colour) : Statement (.recHand k p c) := by cases k <;> rfl
theorem recHandGold (c : Colour) : Statement (.recHandGold c) := rfl

end Sys2Proof.Laws.ItemLength
end

