-- ==== Sys2Proof/Laws/Unspecified.lean ====
section
/-! SUPPORT. Every fault for something unspecified names a cell or register that was unspecified when the
command began: `Cmd.Honest`, for every part of every command (10_state.md R38, 60_exceptions.md R244).
Laws/Invariant.lean says that there are no other faults. -/

namespace Sys2Proof.Machine

variable {α β : Type}

/-- Whatever is unspecified in t was unspecified in s. -/
def Specifies (s t : State) : Prop := ∀ f : Fault, f.unspecifiedIn t → f.unspecifiedIn s

/-- A part that goes on makes nothing unspecified, and one that faults for something unspecified names
what was so at its start. -/
def Cmd.Honest (c : Cmd α) : Prop := ∀ s,
  match c s with
  | .done _ t => Specifies s t
  | .raised _ _ => True
  | .stopped f => f.unspecifiedRead → f.unspecifiedIn s

theorem Cmd.Honest.stopped {c : Cmd α} (h : c.Honest) {s : State} {f : Fault} (hc : c s = .stopped f)
    (hf : f.unspecifiedRead) : f.unspecifiedIn s := by
  have := h s
  rw [hc] at this
  exact this hf

theorem Specifies.refl (s : State) : Specifies s s := fun _ h => h

/-- Specified registers stay so, and so do the cells. -/
theorem Specifies.intro {s t : State} (hp : t.params = s.params)
    (hc : ∀ sp a, s.hasAddr sp a = true → t.cell sp a = none → s.cell sp a = none)
    (hw : t.writer = none → s.writer = none) (hn : t.handlen = none → s.handlen = none) :
    Specifies s t := by
  intro f h
  cases f with
  | unwritten sp a =>
    have ha : s.hasAddr sp a = true := by
      rw [← h.2.1]; cases sp <;> simp only [State.hasAddr, hp]
    exact ⟨h.1, ha, hc sp a ha h.2.2⟩
  | unspecifiedWriter => exact hw h
  | unspecifiedHandlen => exact hn h
  | noSuchAddress sp a => exact h
  | unmatchedCode => exact h

theorem honest_pure (a : α) : (Cmd.pure a).Honest := fun s => Specifies.refl s
theorem honest_get (f : State → α) : (Cmd.get f).Honest := fun s => Specifies.refl s
theorem honest_raise (k : ErrKind) (c : Sec) (o : BitVec 16) : (Cmd.raise k c o : Cmd α).Honest :=
  fun _ => trivial
theorem honest_modify {f : State → State} (h : ∀ s, Specifies s (f s)) : (Cmd.modify f).Honest :=
  fun s => h s

theorem honest_bind {m : Cmd α} {f : α → Cmd β} (hm : m.Honest) (hf : ∀ a, (f a).Honest) :
    (m.bind f).Honest := by
  intro s
  have h1 := hm s
  unfold Cmd.bind
  cases h : m s with
  | done a t =>
    rw [h] at h1
    have h2 := hf a t
    simp only
    cases h' : f a t <;> rw [h'] at h2
    · exact fun x hx => h1 x (h2 x hx)
    · trivial
    · exact fun hx => h1 _ (h2 hx)
  | raised e t => trivial
  | stopped f => rw [h] at h1; exact h1

theorem honest_each (l : List α) {body : α → Cmd Unit} (h : ∀ a, (body a).Honest) :
    (Cmd.each l body).Honest := by
  induction l with
  | nil => exact honest_pure ()
  | cons x l ih => exact honest_bind (h x) fun _ => ih

theorem honest_ite {p : Prop} [Decidable p] {c d : Cmd α} (hc : c.Honest) (hd : d.Honest) :
    (if p then c else d).Honest := by
  split
  · exact hc
  · exact hd

/-! ## Registers and cells -/

theorem honest_memRead {sp : Space} (h : sp ≠ .lut) (a : Nat) : (memRead sp a).Honest := by
  intro s
  unfold memRead
  by_cases ha : s.hasAddr sp a = true
  · rw [if_pos ha]
    cases hc : s.cell sp a with
    | none => exact fun _ => ⟨h, ha, hc⟩
    | some v => exact Specifies.refl s
  · rw [if_neg ha]; exact fun h => h.elim

theorem honest_memWrite (sp : Space) (a : Nat) (v : Byte) : (memWrite sp a v).Honest := by
  intro s
  unfold memWrite
  by_cases ha : s.hasAddr sp a = true
  · rw [if_pos ha]
    refine Specifies.intro (by simp) (fun sp' b _ h => ?_) (by simp) (by simp)
    by_cases hs : sp' = sp
    · subst hs
      cases sp' <;> simp only [State.cell, State.setCells, State.cells, Memory.read_write] at h ⊢ <;>
        (first | rfl | (split at h <;> first | exact h | cases h))
    · rw [← h]
      cases sp <;> cases sp' <;> first | rfl | exact absurd rfl hs
  · rw [if_neg ha]; exact fun h => h.elim

theorem honest_getWriter : getWriter.Honest := by
  intro s
  unfold getWriter
  cases h : s.writer with
  | none => exact fun _ => h
  | some w => exact Specifies.refl s

theorem honest_setWriter (w : Writer) : (setWriter w).Honest :=
  honest_modify fun s => Specifies.intro rfl (fun sp _ _ h => by cases sp <;> exact h) nofun id

theorem honest_getHandlen : getHandlen.Honest := by
  intro s
  unfold getHandlen
  cases h : s.handlen with
  | none => exact fun _ => h
  | some n => exact Specifies.refl s

theorem honest_setResult {n : Nat} (v : BitVec n) : (setResult v).Honest :=
  honest_modify fun s => Specifies.intro rfl (fun sp _ _ h => by cases sp <;> exact h) id id

/-! ## The writer -/

theorem honest_emit (acc : BitVec 8) (n : BitVec 13) : (emit acc n).Honest :=
  honest_bind (honest_memWrite _ _ _) fun _ => honest_setWriter _

theorem honest_putBit (b : Bool) (sec : Sec) : (putBit b sec).Honest :=
  honest_bind honest_getWriter fun _ => honest_bind (honest_get _) fun _ =>
  honest_ite (honest_raise _ _ _) (honest_ite (honest_emit _ _) (honest_setWriter _))

theorem honest_putBits (bits : List Bool) (sec : Sec) : (putBits bits sec).Honest :=
  honest_each bits fun b => honest_putBit b sec

theorem honest_flush (sec : Sec) : (flush sec).Honest :=
  honest_bind honest_getWriter fun _ => honest_bind (honest_get _) fun _ =>
  honest_ite (honest_pure _) (honest_ite (honest_raise _ _ _) (honest_emit _ _))

theorem honest_putCode (k : BitVec 3) (sec : Sec) : (putCode k sec).Honest := by
  unfold putCode
  split
  · exact honest_putBits _ _
  · exact fun _ h => h.elim

theorem honest_encSquare (w : Byte) (sec : Sec) : (encSquare w sec).Honest :=
  honest_ite (honest_putBit _ _) <| honest_bind (honest_putBit _ _) fun _ =>
  honest_bind (honest_putCode _ _) fun _ =>
  honest_bind (honest_ite (honest_putBit _ _) (honest_pure _)) fun _ => honest_putBit _ _

theorem honest_encHandRec (h : Byte) (sec : Sec) : (encHandRec h sec).Honest :=
  honest_bind (honest_putCode _ _) fun _ =>
  honest_bind (honest_ite (honest_putBit _ _) (honest_pure _)) fun _ => honest_putBit _ _

theorem honest_initWriter : initWriter.Honest := honest_setWriter _

/-! ## The checks and the encoders of POS -/

theorem honest_readPos (a : Nat) {f : Byte → Cmd β} (hf : ∀ w, (f w).Honest) :
    ((memRead .pos a).bind f).Honest := honest_bind (honest_memRead (by decide) a) hf

theorem honest_checkTurn : checkTurn.Honest :=
  honest_readPos _ fun _ => honest_ite (honest_pure _) (honest_raise _ _ _)

theorem honest_encTurn : encTurn.Honest := honest_readPos _ fun _ => honest_putBit _ _

theorem honest_legalWords (l : List Nat) : (legalWords l).Honest := by
  induction l with
  | nil => exact honest_pure _
  | cons a l ih =>
    exact honest_readPos _ fun _ =>
      honest_ite (honest_bind ih fun _ => honest_pure _) (honest_raise _ _ _)

theorem honest_validateBoard : validateBoard.Honest :=
  honest_bind (honest_legalWords _) fun _ => honest_ite (honest_raise _ _ _) (honest_pure _)

theorem honest_encBoard (kb kw : Nat) : (encBoard kb kw).Honest :=
  honest_bind (honest_putBits _ _) fun _ => honest_bind (honest_putBits _ _) fun _ =>
  honest_each _ fun _ =>
    honest_ite (honest_readPos _ fun _ => honest_encSquare _ _) (honest_pure _)

theorem honest_checkHand : checkHand.Honest :=
  honest_bind honest_getHandlen fun _ => honest_bind (honest_get _) fun _ =>
  honest_ite (honest_raise _ _ _) <| honest_bind
    (honest_each _ fun _ => honest_readPos _ fun _ => honest_ite (honest_pure _) (honest_raise _ _ _))
    fun _ => honest_pure _

theorem honest_encHand (addrs : List Nat) : (encHand addrs).Honest :=
  honest_each _ fun _ => honest_readPos _ fun _ => honest_encHandRec _ _

theorem honest_packPosition : packPosition.Honest :=
  honest_bind honest_checkTurn fun _ => honest_bind honest_validateBoard fun _ =>
  honest_bind honest_checkHand fun _ => honest_bind honest_initWriter fun _ =>
  honest_bind honest_encTurn fun _ => honest_bind (honest_encBoard _ _) fun _ =>
  honest_bind (honest_encHand _) fun _ =>
  honest_bind (honest_bind honest_getWriter fun _ => honest_pure _) fun _ =>
  honest_bind (honest_flush _) fun _ => honest_setResult _

/-! ## The reader -/

theorem honest_setRpos (pos : BitVec 16) : (Cmd.modify fun s => { s with rpos := pos }).Honest :=
  honest_modify fun s => Specifies.intro rfl (fun sp _ _ h => by cases sp <;> exact h) id id

theorem honest_getBit (sec : Sec) (off : BitVec 16) : (getBit sec off).Honest :=
  honest_bind (honest_get _) fun _ => honest_ite (honest_raise _ _ _) <|
  honest_bind (honest_get _) fun _ => honest_bind (honest_memRead (by decide) _) fun _ =>
  honest_bind (honest_setRpos _) fun _ => honest_pure _

theorem honest_getLE7 (sec : Sec) : (getLE7 sec).Honest := by
  have h : ∀ (start : BitVec 16) (l : List Nat) (v : BitVec 7), (getLE7From sec start v l).Honest := by
    intro start l
    induction l with
    | nil => exact fun _ => honest_pure _
    | cons j l ih => exact fun _ => honest_bind (honest_getBit _ _) fun _ => ih _
  exact honest_bind (honest_get _) fun _ => h _ _ _

theorem honest_decodeKindFrom (sec : Sec) (off : BitVec 16) (left n v : Nat) :
    (decodeKindFrom sec off left n v).Honest := by
  induction left generalizing n v with
  | zero => exact fun _ h => h.elim
  | succ left ih =>
    refine honest_bind (honest_getBit _ _) fun b => ?_
    split
    · exact honest_pure _
    · exact ih _ _

theorem honest_decodeKind (sec : Sec) (off : BitVec 16) : (decodeKind sec off).Honest :=
  honest_decodeKindFrom sec off 5 0 0

theorem honest_takeRecord (sec : Sec) (start : BitVec 16) (g : Kind → Bool → Bool → Byte) :
    (takeRecord sec start g).Honest :=
  honest_bind (honest_decodeKind _ _) fun _ =>
  honest_bind (honest_ite (honest_getBit _ _) (honest_pure _)) fun _ =>
  honest_bind (honest_getBit _ _) fun _ => honest_pure _

theorem honest_decSquare (sec : Sec) : (decSquare sec).Honest :=
  honest_bind (honest_get _) fun start => honest_bind (honest_getBit _ _) fun _ =>
  honest_ite (honest_pure _) (honest_takeRecord sec start squareWord)

theorem honest_decHandRec (sec : Sec) : (decHandRec sec).Honest :=
  honest_bind (honest_get _) fun start => honest_takeRecord sec start handWord

theorem honest_decSquares (n : Nat) : (decSquares n).Honest := by
  induction n with
  | zero => exact honest_pure _
  | succ n ih => exact honest_bind (honest_decSquare _) fun _ => honest_bind ih fun _ => honest_pure _

theorem honest_writeWords (a : Nat) (l : List Byte) : (writeWords a l).Honest := by
  induction l generalizing a with
  | nil => exact honest_pure _
  | cons w l ih => exact honest_bind (honest_memWrite _ _ _) fun _ => ih _

theorem honest_decTurn : decTurn.Honest :=
  honest_bind (honest_get _) fun _ => honest_bind (honest_getBit _ _) fun _ => honest_memWrite _ _ _

theorem honest_decBoard : decBoard.Honest :=
  honest_bind (honest_get _) fun _ => honest_bind (honest_getLE7 _) fun _ =>
  honest_bind (honest_getLE7 _) fun _ =>
  honest_bind (honest_ite (honest_raise _ _ _) (honest_pure _)) fun _ =>
  honest_bind (honest_decSquares _) fun _ => honest_writeWords _ _

theorem honest_decHandFrom (room n : Nat) : (decHandFrom room n).Honest := by
  induction room generalizing n with
  | zero =>
    exact honest_bind (honest_get _) fun _ => honest_ite (honest_pure _) <|
      honest_bind (honest_get _) fun _ => honest_raise _ _ _
  | succ room ih =>
    exact honest_bind (honest_get _) fun _ => honest_ite (honest_pure _) <|
      honest_bind (honest_decHandRec _) fun _ => honest_bind (honest_memWrite _ _ _) fun _ => ih _

theorem honest_decHand : decHand.Honest :=
  honest_bind (honest_get _) fun _ => honest_bind (honest_decHandFrom _ _) fun _ =>
  honest_modify fun s => Specifies.intro rfl (fun sp _ _ h => by cases sp <;> exact h) id nofun

theorem honest_loadReader : loadReader.Honest :=
  honest_bind (honest_get _) fun _ => honest_bind (honest_get _) fun _ =>
  honest_ite (honest_raise _ _ _) <| honest_modify fun s =>
    Specifies.intro rfl (fun sp _ _ h => by cases sp <;> exact h) id id

theorem honest_readPosition : readPosition.Honest :=
  honest_bind honest_decTurn fun _ => honest_bind honest_decBoard fun _ =>
  honest_bind honest_decHand fun _ => honest_bind honest_getHandlen fun _ => honest_setResult _

theorem honest_takeItem (n : Nat) (sec : Sec) {deliver : Cmd Unit} (h : deliver.Honest) :
    (takeItem n sec deliver).Honest := by
  have hs : ∀ start : BitVec 16, (skipBits sec start n).Honest := by
    intro start
    induction n with
    | zero => exact honest_pure _
    | succ n ih => exact honest_bind (honest_getBit _ _) fun _ => ih
  exact honest_bind (honest_get _) fun _ => honest_bind (hs _) fun _ => h

/-! ## finish -/

/-- A command that faults for something unspecified names what was so. -/
theorem finish_honest {spoil : ErrKind → State → State} {c : Cmd Unit} (h : c.Honest) {s : State}
    {f : Fault} (hc : finish spoil c s = .fault f) (hf : f.unspecifiedRead) : f.unspecifiedIn s := by
  unfold finish at hc
  cases hs : c s with
  | done a t => rw [hs] at hc; cases hc
  | raised e t => rw [hs] at hc; cases hc
  | stopped g => rw [hs] at hc; cases hc; exact h.stopped hs hf

end Sys2Proof.Machine
end

