-- ==== Sys2Proof/Machine/Assembler.lean ====
section
/-! DEFINITION. The assembly syntax of the command set (30_encoding.md R104): operands, command lines,
comments, the assembler pseudo-instruction W_STR and the register names of HOST.RD. No step calls it. -/

namespace Sys2Proof.Machine

/-- The kind names of 30_encoding.md R104. -/
def kindName : Kind → List Char
  | .pawn => ['P', 'A', 'W', 'N']
  | .lance => ['L', 'A', 'N', 'C', 'E']
  | .knight => ['K', 'N', 'I', 'G', 'H', 'T']
  | .silver => ['S', 'I', 'L', 'V', 'E', 'R']
  | .gold => ['G', 'O', 'L', 'D']
  | .bishop => ['B', 'I', 'S', 'H', 'O', 'P']
  | .rook => ['R', 'O', 'O', 'K']

/-- `B` for BLACK, `W` for WHITE (30_encoding.md R104). -/
def colourName : Colour → Char
  | .black => 'B'
  | .white => 'W'

/-- A KIND operand. -/
def kindOperand (t : List Char) : Option Kind := Kind.all.find? fun k => kindName k = t

/-- A colour letter. -/
def colourOperand (c : Char) : Option Colour := [Colour.black, .white].find? fun x => colourName x = c

/-- A SQW operand: EMPTY, `colour.kind` or `colour.+kind`; GOLD has no promoted form (10_state.md R31). -/
def squareOperand (t : List Char) : Option Byte :=
  match t with
  | ['E', 'M', 'P', 'T', 'Y'] => some 0x00#8
  | c :: '.' :: '+' :: rest =>
    match colourOperand c, kindOperand rest with
    | some c, some k => if k = .gold then none else some (squareWord k true c.bit)
    | _, _ => none
  | c :: '.' :: rest =>
    match colourOperand c, kindOperand rest with
    | some c, some k => some (squareWord k false c.bit)
    | _, _ => none
  | _ => none

/-- A HRW operand: `colour.kind`. -/
def handOperand (t : List Char) : Option Byte :=
  match t with
  | c :: '.' :: rest =>
    match colourOperand c, kindOperand rest with
    | some c, some k => some (handWord k false c.bit)
    | _, _ => none
  | _ => none

/-- The value of a hexadecimal digit. -/
def digitValue (c : Char) : Option Nat :=
  if 48 ≤ c.toNat ∧ c.toNat ≤ 57 then some (c.toNat - 48)
  else if 65 ≤ c.toNat ∧ c.toNat ≤ 70 then some (c.toNat - 55)
  else if 97 ≤ c.toNat ∧ c.toNat ≤ 102 then some (c.toNat - 87)
  else none

/-- Digits of a base, the value so far in front. -/
def digits (base acc : Nat) : List Char → Option Nat
  | [] => some acc
  | c :: rest =>
    match digitValue c with
    | some d => if d < base then digits base (base * acc + d) rest else none
    | none => none

/-- A decimal or `0x` hexadecimal number (30_encoding.md R104). -/
def number : List Char → Option Nat
  | [] => none
  | ['0', 'x'] => none
  | '0' :: 'x' :: rest => digits 16 0 rest
  | t => digits 10 0 t

/-- The commands that are written without an operand. -/
def plainMnemonics : List (String × Instr) :=
  [("RESET", .reset), ("CLRERR", .clrerr), ("W_INIT", .wInit), ("W_FLUSH", .wFlush)] ++
  [("R_LOAD", .rLoad), ("R_EXH", .rExh), ("R_BIT", .rBit), ("R_LE7", .rLe7), ("R_CODE", .rCode)] ++
  [("TURN_ENC", .turnEnc), ("TURN_DEC", .turnDec), ("SQ_DEC", .sqDec), ("HREC_DEC", .hrecDec)] ++
  [("BOARD_ENC", .boardEnc), ("BOARD_DEC", .boardDec), ("HAND_ENC", .handEnc)] ++
  [("HAND_DEC", .handDec), ("PACK", .pack), ("UNPACK", .unpack)]

/-- The bits of the quoted bit string of W_STR, up to the closing quote. -/
def quotedBits : List Char → Option (List Bool)
  | ['"'] => some []
  | '0' :: rest => (quotedBits rest).map (false :: ·)
  | '1' :: rest => (quotedBits rest).map (true :: ·)
  | _ => none

/-- A command with an operand, or W_STR, as the instructions it stands for. -/
def operandLine (mnemonic : String) (t : List Char) : Option (List Instr) :=
  if mnemonic = "W_BIT" then
    match number t with
    | some 0 => some [.wBit false]
    | some 1 => some [.wBit true]
    | _ => none
  else if mnemonic = "W_LE7" then
    match number t with
    | some n => if n ≤ 127 then some [.wLe7 (BitVec.ofNat 7 n)] else none
    | none => none
  else if mnemonic = "W_CODE" then (kindOperand t).map fun k => [.wCode k]
  else if mnemonic = "SQ_ENC" then (squareOperand t).map fun w => [.sqEnc w]
  else if mnemonic = "HREC_ENC" then (handOperand t).map fun h => [.hrecEnc h]
  else if mnemonic = "W_STR" then
    match t with
    | '"' :: rest => (quotedBits rest).map wStr
    | _ => none
  else none

/-- A line without its comment, which runs from `;` to the end. -/
def withoutComment (line : List Char) : List Char := line.takeWhile (· ≠ ';')

/-- The words of a line, split at spaces; `word` is the word begun, last character first. -/
def wordsFrom (word : List Char) : List Char → List (List Char)
  | [] => if word = [] then [] else [word.reverse]
  | c :: rest =>
    if c = ' ' then
      (if word = [] then [] else [word.reverse]) ++ wordsFrom [] rest
    else wordsFrom (c :: word) rest

/-- One line of assembly: the instructions it stands for, none for a blank or comment line; `none` where
the line is not in the syntax (30_encoding.md R104). -/
def assembleLine (line : String) : Option (List Instr) :=
  match wordsFrom [] (withoutComment line.toList) with
  | [] => some []
  | [m] => (plainMnemonics.find? fun e => e.1 = String.ofList m).map fun e => [e.2]
  | [m, t] => operandLine (String.ofList m) t
  | _ => none

/-- A program: its lines' instructions in order. -/
def assemble : List String → Option (List Instr)
  | [] => some []
  | line :: rest =>
    match assembleLine line, assemble rest with
    | some is, some js => some (is ++ js)
    | _, _ => none

/-- The register names a HOST.RD reads, with their addresses (10_state.md R34). -/
def csrAddress (name : String) : Option (BitVec 4) :=
  ([("CMD", 0x0#4), ("STATUS", 0x1#4), ("RESULT", 0x2#4), ("OUTLEN", 0x3#4), ("WSTATE", 0x4#4),
    ("INLEN", 0x5#4), ("RLEN", 0x6#4), ("RPOS", 0x7#4), ("HANDLEN", 0x8#4)].find?
      fun e => e.1 = name).map Prod.snd

end Sys2Proof.Machine
end

