-- ==== Sys2Proof/Tests/Slice0.lean ====
section
/-! SUPPORT. The model's own tests. Expected values come from the spec: 30_encoding.md for the words and bit
strings, 95_test_vectors.md (named in each comment) for the steps. The last part shows, for every statement
of Certificates/Slice0/Obligations.lean that has hypotheses, states and operands that meet them. -/

namespace Sys2Proof.Tests

set_option Elab.async false

open Sys2Proof.Machine

/-! ## Helpers -/

/-- What a next state shows; none for a fault or a refusal. -/
def after {α : Type} (o : Host.Outcome State Fault Refusal) (f : State → α) : Option α :=
  match o with
  | .next t => some (f t)
  | .fault _ => none
  | .refused _ => none

/-- The fault an outcome is. -/
def faultOf (o : Host.Outcome State Fault Refusal) : Option Fault :=
  match o with
  | .fault f => some f
  | .next _ => none
  | .refused _ => none

/-- The refusal an outcome is. -/
def refusalOf (o : Host.Outcome State Fault Refusal) : Option Refusal :=
  match o with
  | .refused r => some r
  | .next _ => none
  | .fault _ => none

/-- Cells at consecutive addresses. -/
def cellsFrom (a : Nat) : List Byte → List Host.Cell
  | [] => []
  | v :: rest => (a, v) :: cellsFrom (a + 1) rest

/-- The reset state with these bytes loaded for the reader and the cursor at a bit (`HOST.IN`, R_LOAD). -/
def reading (bytes : List Byte) (pos : BitVec 16) : State :=
  { State.reset with
    inMem := cellsFrom 0 bytes
    inlen := BitVec.ofNat 13 bytes.length
    rlen := BitVec.ofNat 13 bytes.length
    rpos := pos }

/-- The reset state with these bytes emitted and a partial byte. -/
def writing (bytes : List Byte) (acc : BitVec 8) (cnt : BitVec 3) : State :=
  { State.reset with
    outMem := cellsFrom 0 bytes
    writer := some ⟨acc, cnt, BitVec.ofNat 13 bytes.length⟩ }

/-- A board with its kings and one more piece. -/
def oneBoard (kb kw x : Nat) (w : Byte) (a : Nat) : Byte :=
  if a = kb then 0x03#8 else if a = kw then 0x07#8 else if a = x then w else 0x00#8

/-- The reset state with a turn word, a board and a hand in POS. -/
def placed (turn : Byte) (b : Nat → Byte) (hs : List Byte) : State :=
  { State.reset with
    posMem := cellsFrom 0 (((List.range 81).map b) ++ [turn]) ++ cellsFrom 128 hs
    handlen := some (BitVec.ofNat 10 hs.length) }

/-- Other parameters. -/
def sized (s : State) (i o h : Nat) : State := { s with params := ⟨i, o, h⟩ }

/-- The bits of a string of 0 and 1. -/
def bitsOf (t : String) : List Bool := t.toList.map (· = '1')

/-- Exactly one item of a form. -/
def item (f : Form) (t : String) : Except Reject Instr := decode (.stream f (bitsOf t))

/-- The instruction of an answer. -/
def got (r : Except Reject Instr) : Option Instr :=
  match r with
  | .ok i => some i
  | .error _ => none

/-- The rejection of an answer. -/
def whyNot (r : Except Reject Instr) : Option Reject :=
  match r with
  | .ok _ => none
  | .error e => some e

/-! ## WellFormed refuses -/

/-- A promoted GOLD is no square word (10_state.md R31). -/
theorem test_wellFormed_sqEnc : (Instr.sqEnc 0x49#8).wellFormed = false := by decide
/-- A king word is no operand of SQ_ENC (30_encoding.md R102). -/
theorem test_wellFormed_sqEnc_king : (Instr.sqEnc 0x03#8).wellFormed = false := by decide
/-- Kind 7 and the reserved bits of a hand-record word (10_state.md R32). -/
theorem test_wellFormed_hrecEnc :
    (Instr.hrecEnc 0x07#8).wellFormed = false ∧ (Instr.hrecEnc 0x20#8).wellFormed = false := by decide
/-- A king field names a square of 0 to 80 (30_encoding.md R85). -/
theorem test_wellFormed_recKing :
    (Instr.recKing 81#7).wellFormed = false ∧ (Instr.recKing 80#7).wellFormed = true := by decide

/-! ## Decoding words written out from 30_encoding.md R101 and R102 -/

theorem test_decode_control : got (decodeCommand 0x0001#16) = some .reset ∧
    got (decodeCommand 0x0002#16) = some .clrerr := by decide
theorem test_decode_writer : got (decodeCommand 0x0010#16) = some .wInit ∧
    got (decodeCommand 0x0111#16) = some (.wBit true) ∧
    got (decodeCommand 0x0011#16) = some (.wBit false) ∧
    got (decodeCommand 0x7F12#16) = some (.wLe7 127#7) ∧
    got (decodeCommand 0x0014#16) = some .wFlush := by decide
/-- PC-1's words. -/
theorem test_decode_wCode :
    [0x0013#16, 0x0113#16, 0x0213#16, 0x0313#16, 0x0413#16, 0x0513#16, 0x0613#16].map
        (fun w => got (decodeCommand w)) =
      [some (.wCode .pawn), some (.wCode .lance), some (.wCode .knight), some (.wCode .silver),
        some (.wCode .gold), some (.wCode .bishop), some (.wCode .rook)] := by decide
theorem test_decode_reader : got (decodeCommand 0x0020#16) = some .rLoad ∧
    got (decodeCommand 0x0021#16) = some .rExh ∧ got (decodeCommand 0x0022#16) = some .rBit ∧
    got (decodeCommand 0x0023#16) = some .rLe7 ∧ got (decodeCommand 0x0024#16) = some .rCode := by decide
theorem test_decode_turn : got (decodeCommand 0x0030#16) = some .turnEnc ∧
    got (decodeCommand 0x0031#16) = some .turnDec := by decide
/-- SQ-13 and HR-8. -/
theorem test_decode_records : got (decodeCommand 0x6D32#16) = some (.sqEnc 0x6D#8) ∧
    got (decodeCommand 0x0033#16) = some .sqDec ∧
    got (decodeCommand 0x0D34#16) = some (.hrecEnc 0x0D#8) ∧
    got (decodeCommand 0x0035#16) = some .hrecDec := by decide
theorem test_decode_sections : got (decodeCommand 0x0036#16) = some .boardEnc ∧
    got (decodeCommand 0x0037#16) = some .boardDec ∧ got (decodeCommand 0x0038#16) = some .handEnc ∧
    got (decodeCommand 0x0039#16) = some .handDec := by decide
theorem test_decode_position : got (decodeCommand 0x0040#16) = some .pack ∧
    got (decodeCommand 0x0041#16) = some .unpack := by decide
/-- DP-1 to DP-11. -/
theorem test_decode_rejects :
    [0x00000000#32, 0x00000015#32, 0x00010010#32].map (fun v => whyNot (decodeCmd v)) =
      List.replicate 3 (some .illegalCommand) ∧
    [0x0211#32, 0x8012#32, 0x0713#32, 0x0710#32, 0x0332#32, 0x4932#32, 0x2034#32, 0x0101#32].map
        (fun v => whyNot (decodeCmd v)) =
      List.replicate 8 (some .invalidOperand) := by decide

/-! ## Decoding bit strings written out from 30_encoding.md R80 and R83 to R86 -/

theorem test_decode_codes : got (item .code "0") = some .codePawn ∧
    got (item .code "100") = some .codeLance ∧ got (item .code "101") = some .codeKnight ∧
    got (item .code "110") = some .codeSilver ∧ got (item .code "1110") = some .codeGold ∧
    got (item .code "11110") = some .codeBishop ∧ got (item .code "11111") = some .codeRook := by decide
theorem test_decode_recTurn : got (item .turn "0") = some (.recTurn .black) ∧
    got (item .turn "1") = some (.recTurn .white) := by decide
/-- 76 is 1001100 in binary, least significant bit first. -/
theorem test_decode_recKing : got (item .king "0011001") = some (.recKing 76#7) ∧
    whyNot (item .king "1000101") = some .kingField := by decide
/-- SQ-1 to SQ-13. -/
theorem test_decode_square : got (item .square "0") = some .recSqEmpty ∧
    got (item .square "1010") = some (.recSqPiece .pawn true .black) ∧
    got (item .square "110001") = some (.recSqPiece .lance false .white) ∧
    got (item .square "11111011") = some (.recSqPiece .bishop true .white) ∧
    got (item .square "111101") = some (.recSqGold .white) := by decide
/-- HR-2, HR-4, HR-7, HR-8, and HR-14's promotion bit of 1. -/
theorem test_decode_hand : got (item .hand "001") = some (.recHand .pawn false .white) ∧
    got (item .hand "10101") = some (.recHand .knight false .white) ∧
    got (item .hand "11101") = some (.recHandGold .white) ∧
    got (item .hand "1111001") = some (.recHand .bishop false .white) ∧
    got (item .hand "10010") = some (.recHand .lance true .black) := by decide
/-- A string that ends inside its item, and one with bits after it. -/
theorem test_decode_ends : whyNot (item .code "111") = some .endOfStream ∧
    whyNot (item .square "1100") = some .endOfStream ∧
    whyNot (item .code "00") = some .trailingBits := by decide
/-- Rows of spec/opcode_table.json by their numbers. -/
theorem test_decode_table : decodeTableWord 16 0x0111 = some (.wBit true) ∧
    decodeTableWord 16 0x0032 = some (.sqEnc 0x00#8) ∧ decodeTableWord 8 4 = some .codeLance ∧
    decodeTableWord 8 31 = some .codeRook ∧
    decodeTableWord 8 0b10000000 = some (.recSqPiece .pawn false .black) := by decide

/-! ## Assembly (30_encoding.md R104) -/

theorem test_assemble_operands : assembleLine "W_CODE ROOK" = some [.wCode .rook] ∧
    assembleLine "SQ_ENC W.+ROOK ; SQ-13" = some [.sqEnc 0x6D#8] ∧
    assembleLine "HREC_ENC W.BISHOP" = some [.hrecEnc 0x0D#8] ∧
    assembleLine "W_LE7 0x4C" = some [.wLe7 76#7] := by decide
theorem test_assemble_wStr :
    assembleLine "W_STR \"101\"" = some [.wBit true, .wBit false, .wBit true] := by decide
theorem test_assemble_rejects : assembleLine "SQ_ENC B.+GOLD" = none ∧
    assembleLine "W_LE7 128" = none ∧ assembleLine "PACK 1" = none := by decide

/-! ## One step of each instruction -/

/-- R38: RESET clears a partial byte, STICKY and HANDLEN. -/
theorem test_reset : after (exec .reset { writing [0x65#8] 0x05#8 3#3 with status := 0x45#32 })
    (fun t => (t.writer, t.status, t.handlen, t.cell .out 0)) =
      some (some ⟨0, 0, 0⟩, 0, some 0, some 0x65) := by decide +kernel
theorem test_clrerr : after (exec .clrerr { State.reset with status := 0x000F0047#32 })
    (·.status) = some 0 := by decide +kernel
/-- BS-17. -/
theorem test_wInit : after (exec .wInit (writing [] 0x05#8 3#3)) (·.writer) =
    some (some ⟨0, 0, 0⟩) := by decide +kernel
/-- BS-2's third bit. -/
theorem test_wBit : after (exec (.wBit true) (writing [] 0x01#8 2#3)) (·.writer) =
    some (some ⟨0x05, 3, 0⟩) := by decide +kernel
/-- BS-9. -/
theorem test_wBit_full : after (exec (.wBit true) (sized (writing [0xFF#8] 0x7F#8 7#3) 64 1 64))
    (fun t => (t.status, t.writer)) = some (0x000F0047, none) := by decide +kernel
/-- BS-4. -/
theorem test_wLe7 : after (exec (.wLe7 76#7) State.reset) (·.writer) =
    some (some ⟨0x4C, 7, 0⟩) := by decide +kernel
/-- BS-5's second field crosses the byte. -/
theorem test_wLe7_byte : after (exec (.wLe7 0#7) (writing [] 0x7F#8 7#3))
    (fun t => (t.cell .out 0, t.writer)) = some (some 0x7F, some ⟨0, 6, 1⟩) := by decide +kernel
/-- EX-1: GOLD is 1,1,1,0. -/
theorem test_wCode : after (exec (.wCode .gold) State.reset) (·.writer) =
    some (some ⟨0x07, 4, 0⟩) := by decide +kernel
theorem test_wCode_silver : after (exec (.wCode .silver) State.reset) (·.writer) =
    some (some ⟨0x03, 3, 0⟩) := by decide +kernel
/-- BS-1. -/
theorem test_wFlush : after (exec .wFlush (writing [] 0x01#8 1#3))
    (fun t => (t.cell .out 0, t.writer)) = some (some 0x01, some ⟨0, 0, 1⟩) := by decide +kernel
/-- BS-10. -/
theorem test_wFlush_full : after (exec .wFlush (sized (writing [0xFF#8] 0x01#8 1#3) 64 1 64))
    (·.status) = some 0x00090047 := by decide +kernel
/-- R134. -/
theorem test_rLoad : after (exec .rLoad { reading [0x98#8, 0x04#8] 9#16 with rlen := 0#13 })
    (fun t => (t.rlen, t.rpos)) = some (2, 0) := by decide +kernel
/-- BS-16. -/
theorem test_rLoad_long : after (exec .rLoad { sized State.reset 4 64 64 with inlen := 5#13 })
    (fun t => (t.status, t.rlen)) = some (0x46, 0) := by decide +kernel
/-- BS-11. -/
theorem test_rExh : after (exec .rExh (reading [0x98#8] 0#16)) (·.result) = some 0 ∧
    after (exec .rExh (reading [0x98#8] 8#16)) (·.result) = some 1 := by decide +kernel
/-- BS-11's fourth bit. -/
theorem test_rBit : after (exec .rBit (reading [0x98#8] 3#16)) (fun t => (t.result, t.rpos)) =
    some (1, 4) := by decide +kernel
/-- BS-12. -/
theorem test_rBit_end : after (exec .rBit { reading [0x98#8] 8#16 with result := 1#32 })
    (fun t => (t.status, t.rpos, t.result)) = some (0x00080043, 8, 1) := by decide +kernel
/-- BS-13's second R_LE7. -/
theorem test_rLe7 : after (exec .rLe7 (reading [0x98#8, 0x04#8] 8#16))
    (fun t => (t.result, t.rpos)) = some (4, 15) := by decide +kernel
/-- BS-14. -/
theorem test_rLe7_end : after (exec .rLe7 { reading [0xFF#8] 3#16 with result := 1#32 })
    (fun t => (t.status, t.rpos, t.result)) = some (0x00030043, 8, 1) := by decide +kernel
/-- PC-2, the ROOK. -/
theorem test_rCode : after (exec .rCode (reading [0x1F#8] 0#16)) (fun t => (t.result, t.rpos)) =
    some (6, 5) := by decide +kernel
/-- PC-4's fifth R_CODE. -/
theorem test_rCode_end : after (exec .rCode (reading [0xF0#8] 4#16))
    (fun t => (t.status, t.rpos)) = some (0x00040043, 8) := by decide +kernel
/-- TN-1. -/
theorem test_turnEnc : after (exec .turnEnc (placed 0x01#8 (oneBoard 76 4 0 0) []))
    (·.writer) = some (some ⟨1, 1, 0⟩) := by decide +kernel
/-- TN-2. -/
theorem test_turnEnc_illegal : after (exec .turnEnc (placed 0x02#8 (oneBoard 76 4 0 0) []))
    (fun t => (t.status, t.writer)) = some (0x00510056, some ⟨0, 0, 0⟩) := by decide +kernel
/-- TN-3. -/
theorem test_turnDec : after (exec .turnDec (reading [0x98#8] 0#16))
    (fun t => (t.cell .pos 81, t.rpos)) = some (some 0x00, 1) := by decide +kernel
/-- TN-4. -/
theorem test_turnDec_end : after (exec .turnDec (reading [] 0#16)) (·.status) =
    some 0x00000053 := by decide +kernel
/-- SQ-7, SQ-13 (with the byte it completes). -/
theorem test_sqEnc : after (exec (.sqEnc 0x35#8) State.reset) (·.writer) =
      some (some ⟨0x27, 6, 0⟩) ∧
    after (exec (.sqEnc 0x6D#8) State.reset) (fun t => (t.cell .out 0, t.writer)) =
      some (some 0xFF, some ⟨0, 0, 1⟩) := by decide +kernel
/-- SQ-6. -/
theorem test_sqDec : after (exec .sqDec (reading [0x1B#8] 0#16)) (fun t => (t.result, t.rpos)) =
    some (0x29, 6) := by decide +kernel
/-- SQ-14. -/
theorem test_sqDec_end : after (exec .sqDec (reading [0xFE#8] 3#16))
    (fun t => (t.status, t.rpos)) = some (0x00030063, 8) := by decide +kernel
/-- HR-4, HR-10. -/
theorem test_hrecEnc : after (exec (.hrecEnc 0x0A#8) State.reset) (·.writer) =
      some (some ⟨0x15, 5, 0⟩) ∧
    after (exec (.hrecEnc 0x1D#8) State.reset) (·.writer) = some (some ⟨0x4F, 7, 0⟩) := by decide +kernel
/-- HR-14. -/
theorem test_hrecDec : after (exec .hrecDec (reading [0x09#8] 0#16))
    (fun t => (t.result, t.rpos)) = some (0x011, 5) := by decide +kernel
/-- HR-13. -/
theorem test_hrecDec_end : after (exec .hrecDec (reading [] 0#16))
    (fun t => (t.result, t.status)) = some (0x100, 0) := by decide +kernel
/-- BD-4: the kings are adjacent and WHITE comes first. -/
theorem test_boardEnc : after (exec .boardEnc (placed 0#8 (oneBoard 41 40 0 0) []))
    (fun t => (t.cell .out 0, t.cell .out 1, t.writer)) =
      some (some 0x29, some 0x14, some ⟨0, 5, 11⟩) := by decide +kernel
/-- BD-14. -/
theorem test_boardEnc_noKing : after (exec .boardEnc (placed 0#8 (oneBoard 76 100 0 0) []))
    (fun t => (t.status, t.writer)) = some (0x00000064, some ⟨0, 0, 0⟩) := by decide +kernel
/-- BD-4 read back: the kings are inserted in ascending order. -/
theorem test_boardDec : after (exec .boardDec
      (reading (0x29#8 :: 0x14#8 :: List.replicate 10 0#8) 0#16))
    (fun t => (t.cell .pos 40, t.cell .pos 41, t.cell .pos 80, t.rpos)) =
      some (some 0x07, some 0x03, some 0x00, 93) := by decide +kernel
/-- BD-10. -/
theorem test_boardDec_cut : after (exec .boardDec (reading [0xDA#8] 0#16))
    (fun t => (t.status, t.rpos)) = some (0x00070063, 8) := by decide +kernel
/-- HD-1: B.PAWN, B.PAWN, W.BISHOP are 000 000 1111001. -/
theorem test_handEnc : after (exec .handEnc (placed 0#8 (oneBoard 76 4 0 0) [0x00#8, 0x00#8, 0x0D#8]))
    (fun t => (t.cell .out 0, t.writer)) = some (some 0xC0, some ⟨0x13, 5, 1⟩) := by decide +kernel
/-- R198: an illegal hand word at 129. -/
theorem test_handEnc_illegal : after (exec .handEnc (placed 0#8 (oneBoard 76 4 0 0) [0x00#8, 0x07#8]))
    (·.status) = some 0x00810076 := by decide +kernel
/-- Two bytes of hand records that end exactly: W.GOLD 11101, B.PAWN 000. -/
theorem test_handDec : after (exec .handDec (reading [0x17#8] 0#16))
    (fun t => (t.handlen, t.cell .pos 128, t.cell .pos 129, t.rpos)) =
      some (some 2, some 0x0C, some 0x00, 8) := by decide +kernel
/-- HAND_CAP 0 with bits left (42_records.md R187). -/
theorem test_handDec_full : after (exec .handDec (sized (reading [0x17#8] 0#16) 64 64 0))
    (fun t => (t.status, t.rpos, t.handlen)) = some (0x00000077, 0, none) := by decide +kernel
/-- PK-4. -/
theorem test_pack : after (exec .pack (placed 0x01#8 (oneBoard 76 4 80 0x69#8) []))
    (fun t => (t.result, t.writer, [0, 1, 10, 11, 12].map (t.cell .out))) =
      some (101, some ⟨0, 0, 13⟩, [some 0x99, some 0x04, some 0x00, some 0xE0, some 0x0F]) := by
  decide +kernel
/-- PK-4 read back: its three pad bits are a hand PAWN (43_pack_unpack.md R213). -/
theorem test_unpack : after (exec .unpack
      (reading (0x99#8 :: 0x04#8 :: List.replicate 9 0#8 ++ [0xE0#8, 0x0F#8]) 0#16))
    (fun t => (t.result, t.rpos, [4, 76, 80, 81, 128].map (t.cell .pos))) =
      some (1, 104, [some 0x07, some 0x03, some 0x69, some 0x01, some 0x00]) := by decide +kernel
/-- No input (43_pack_unpack.md R211). -/
theorem test_unpack_empty : after (exec .unpack State.reset) (fun t => (t.status, t.handlen)) =
    some (0x00000053, none) := by decide +kernel

/-- PK-22: the board is cut at the WHITE king field. PK-25: the pad of PK-4 is one hand record too many.
43_pack_unpack.md R212: two pad bits after the kings alone are a hand record cut short. -/
theorem test_unpack_errors : after (exec .unpack (reading [0x98#8] 0#16))
      (fun t => (t.status, t.rpos, t.handlen)) = some (0x00080063, 8, none) ∧
    after (exec .unpack (sized (reading (0x99#8 :: 0x04#8 :: List.replicate 9 0#8 ++ [0xE0#8, 0x0F#8])
      0#16) 64 64 0)) (fun t => (t.status, t.rpos)) = some (0x00650077, 101) ∧
    after (exec .unpack (reading (0x99#8 :: 0x04#8 :: List.replicate 10 0#8) 0#16))
      (fun t => (t.status, t.rpos)) = some (0x005E0073, 96) := by decide +kernel
/-- W_BIT on an unspecified writer, PACK of a position whose HANDLEN is unspecified (R244, U2). -/
theorem test_unspecified : faultOf (exec (.wBit true) { State.reset with writer := none }) =
      some .unspecifiedWriter ∧
    faultOf (exec .pack { placed 0x01#8 (oneBoard 76 4 80 0x69#8) [] with handlen := none }) =
      some .unspecifiedHandlen := by decide +kernel

/-! ## Stream items at the cursor -/

/-- EX-1's strings in one byte each: RESULT and RPOS. -/
theorem test_items_code :
    [(Instr.codePawn, 0x00#8), (.codeLance, 0x01#8), (.codeKnight, 0x05#8), (.codeSilver, 0x03#8),
      (.codeGold, 0x07#8), (.codeBishop, 0x0F#8), (.codeRook, 0x1F#8)].map
        (fun e => after (exec e.1 (reading [e.2] 0#16)) fun t => (t.result, t.rpos)) =
      [some (0, 1), some (1, 3), some (2, 3), some (3, 3), some (4, 4), some (5, 5), some (6, 5)] := by
  decide +kernel
theorem test_items_fields : after (exec (.recTurn .white) (reading [0x99#8] 0#16))
      (fun t => (t.cell .pos 81, t.rpos)) = some (some 0x01, 1) ∧
    after (exec (.recKing 76#7) (reading [0x4C#8] 0#16)) (fun t => (t.result, t.rpos)) =
      some (76, 7) := by decide +kernel
/-- SQ-1, SQ-6, SQ-9. -/
theorem test_items_square : after (exec .recSqEmpty (reading [0x00#8] 0#16))
      (fun t => (t.result, t.rpos)) = some (0x00, 1) ∧
    after (exec (.recSqPiece .knight true .black) (reading [0x1B#8] 0#16))
      (fun t => (t.result, t.rpos)) = some (0x29, 6) ∧
    after (exec (.recSqGold .white) (reading [0x2F#8] 0#16))
      (fun t => (t.result, t.rpos)) = some (0x45, 6) := by decide +kernel
/-- HR-14, HR-7. -/
theorem test_items_hand : after (exec (.recHand .lance true .black) (reading [0x09#8] 0#16))
      (fun t => (t.result, t.rpos)) = some (0x011, 5) ∧
    after (exec (.recHandGold .white) (reading [0x17#8] 0#16))
      (fun t => (t.result, t.rpos)) = some (0x0C, 5) := by decide +kernel

/-! ## The host -/

/-- BS-2's WSTATE, and a write of a read-only register (10_state.md R34). -/
theorem test_csr : after (hostStep (.csrRead 0x4#4) (writing [] 0x05#8 3#3)) (·.hostData) =
      some 0x305 ∧
    after (hostStep (.csrWrite 0x3#4 5#32) (writing [] 0x05#8 3#3)) (·.writer) =
      some (some ⟨0x05, 3, 0⟩) := by decide +kernel
/-- DP-4 through a step. -/
theorem test_step_dispatch :
    after (step { State.reset with script := [issue 0x0211#16] }) (·.status) = some 0x46 := by decide +kernel
/-- 20_memory.md R56, 10_state.md R38. -/
theorem test_host_stops : refusalOf (hostStep (.posWrite 82 0#8) State.reset) =
      some (.reservedAddress .pos 82) ∧
    faultOf (hostStep (.outRead 0) State.reset) = some (.unwritten .out 0) := by decide +kernel
/-- A placed command and a placed stream item run in the next step. -/
theorem test_placed : after (step (State.reset.withFetchWord 16 0x4C12)) (·.writer) =
      some (some ⟨0x4C, 7, 0⟩) ∧
    after (step (State.reset.withFetchWord 8 30)) (fun t => (t.result, t.rpos)) =
      some (5, 5) := by decide +kernel

/-! ## Checks that prove the premises of the statements -/

/-- The invariant, as a check. -/
def invB (s : State) : Bool :=
  decide (s.params.legal ∧ Memory.wf s.inMem ∧ Memory.wf s.outMem ∧ Memory.wf s.posMem ∧
    s.Bounded .inp ∧ s.Bounded .out ∧ s.Bounded .pos ∧ s.rlen.toNat ≤ s.params.inCap ∧
    s.rpos.toNat ≤ 8 * s.rlen.toNat ∧ s.result.toNat < 65536 ∧ statusOk s.status) &&
  match s.writer with
  | none => true
  | some w => decide (s.WriterOk w)

theorem inv_of {s : State} (h : invB s = true) : s.Inv := by
  unfold invB at h
  rw [Bool.and_eq_true, decide_eq_true_eq] at h
  obtain ⟨⟨h1, h2, h3, h4, h5, h6, h7, h8, h9, h10, h11⟩, hw⟩ := h
  exact ⟨h1, h2, h3, h4, h5, h6, h7, fun w he => by rw [he] at hw; exact of_decide_eq_true hw,
    h8, h9, h10, h11⟩

/-- Offers, as a check. -/
def offersB (s : State) (bits : List Bool) : Bool :=
  decide (s.rpos.toNat + bits.length ≤ 8 * s.rlen.toNat) &&
  (List.range bits.length).all fun j => s.streamBit (s.rpos.toNat + j) == bits[j]?

theorem offers_of {s : State} {bits : List Bool} (h : offersB s bits = true) : s.Offers bits := by
  unfold offersB at h
  rw [Bool.and_eq_true, decide_eq_true_eq, List.all_eq_true] at h
  refine ⟨h.1, fun j hj => ?_⟩
  have := h.2 j (List.mem_range.2 hj)
  rwa [beq_iff_eq, List.getElem?_eq_getElem hj] at this

theorem offersLast_of {s : State} {bits : List Bool} (h : offersB s bits = true)
    (he : s.rpos.toNat + bits.length = 8 * s.rlen.toNat) : s.OffersLast bits := ⟨offers_of h, he⟩

theorem holdsBoard_of {s : State} {b : Nat → Byte}
    (h : ((List.range 81).all fun a => s.cell .pos a == some (b a)) = true) : s.HoldsBoard b := by
  intro a ha
  have := List.all_eq_true.1 h a (List.mem_range.2 (by omega))
  simpa using this

theorem legalBoard_of {b : Nat → Byte} {kb kw : Nat} (hb : kb ≤ 80) (hw : kw ≤ 80)
    (h : ((List.range 81).all fun a => legalSquare (b a) && ((b a == 0x03#8) == (a == kb)) &&
      ((b a == 0x07#8) == (a == kw))) = true) : LegalBoard b kb kw := by
  have key : ∀ a ≤ 80, legalSquare (b a) = true ∧ (b a == 0x03#8) = (a == kb) ∧
      (b a == 0x07#8) = (a == kw) := by
    intro a ha
    have := List.all_eq_true.1 h a (List.mem_range.2 (by omega))
    simpa [and_assoc] using this
  refine ⟨fun a ha => (key a ha).1, ⟨hb, fun a ha => ?_⟩, ⟨hw, fun a ha => ?_⟩⟩
  · have := (key a ha).2.1
    constructor
    · intro h1; rw [show b a = 0x03#8 from h1] at this; simpa using this.symm
    · intro h1; subst h1; show b a = 0x03#8; simpa using this
  · have := (key a ha).2.2
    constructor
    · intro h1; rw [show b a = 0x07#8 from h1] at this; simpa using this.symm
    · intro h1; subst h1; show b a = 0x07#8; simpa using this

/-- The state of an outcome that is a next state. -/
def stateOf (o : Host.Outcome State Fault Refusal) : State :=
  match o with
  | .next t => t
  | .fault _ => State.reset
  | .refused _ => State.reset

theorem next_of {o : Host.Outcome State Fault Refusal} (h : (after o fun _ => ()).isSome = true) :
    o = .next (stateOf o) := by
  cases o with
  | next t => rfl
  | fault f => cases h
  | refused r => cases h

theorem fault_of {o : Host.Outcome State Fault Refusal} {f : Fault} (h : faultOf o = some f) :
    o = .fault f := by
  cases o with
  | next t => cases h
  | fault g => cases h; rfl
  | refused r => cases h

theorem refused_of {o : Host.Outcome State Fault Refusal} {r : Refusal} (h : refusalOf o = some r) :
    o = .refused r := by
  cases o with
  | next t => cases h
  | fault f => cases h
  | refused g => cases h; rfl

/-- The bytes of a bit string, padded with zeros (20_memory.md R62). -/
def bytesOf (bits : List Bool) : List Byte :=
  (List.range ((bits.length + 7) / 8)).map fun j =>
    BitVec.ofNat 8 (leNat ((bits.drop (8 * j)).take 8))

/-! ## The states and operands of the witnesses -/

/-- Kings at 76 and 4, a promoted rook at 80. -/
def aBoard : Nat → Byte := oneBoard 76 4 80 0x69#8

/-- Kings only. -/
def kings : Nat → Byte := oneBoard 76 4 76 0x03#8

/-- W.BISHOP with bit 4 set, B.GOLD. -/
def aHand : List Byte := [0x1D#8, 0x04#8]

/-- A position in POS. -/
def aPos : State := placed 0x01#8 aBoard aHand

theorem aPos_inv : aPos.Inv := inv_of (by decide +kernel)
theorem aPos_writer : aPos.writer = some Writer.reset := rfl
theorem aPos_board : aPos.HoldsBoard aBoard := holdsBoard_of (by decide +kernel)
theorem aBoard_legal : LegalBoard aBoard 76 4 := legalBoard_of (by decide) (by decide) (by decide +kernel)
theorem aPos_hand : aPos.HoldsHand aHand := by
  refine ⟨rfl, by decide, ?_⟩; decide +kernel
theorem aHand_legal : ∀ h ∈ aHand, legalHand h = true := by decide
theorem aPos_position : Position aPos true aBoard 76 4 aHand :=
  ⟨by decide +kernel, aPos_board, aBoard_legal, aPos_hand, aHand_legal⟩

/-- OUT full, so that 7 more bits fit and 8 do not. -/
def nearlyFull : State := { aPos with
  outMem := cellsFrom 0 (List.replicate 64 0#8)
  writer := some ⟨0#8, 0#3, 64#13⟩ }

/-- OUT full and WACC one bit short: no bit fits. -/
def full : State := { nearlyFull with writer := some ⟨0x7F#8, 7#3, 64#13⟩ }

theorem nearlyFull_inv : nearlyFull.Inv := inv_of (by decide +kernel)
theorem full_inv : full.Inv := inv_of (by decide +kernel)

/-! ## Witnesses: encodings, step and host -/

theorem witness_SampleWordsDecode : legalNonKing 0x00#8 = true ∧
    legalNonKing 0x6D#8 = true ∧ legalHand 0x00#8 = true ∧ legalHand 0x1E#8 = true := by decide
theorem witness_DispatchChecksTheWord_high : 65536 ≤ (0x00010000#32).toNat := by decide
theorem witness_DispatchChecksTheWord_reserved :
    (0xFFFF#32).toNat < 65536 ∧ ∀ f, ((0xFFFF#32).toNat % 256, f) ∉ opcodeMap :=
  ⟨by decide, fun f => by cases f <;> decide⟩
theorem witness_DispatchChecksTheWord_operand :
    (∀ e ∈ [(0x0101#32, 0x01, ImmForm.none), (0x0211#32, 0x11, .bit), (0x8012#32, 0x12, .u7),
      (0x0713#32, 0x13, .kind)], e.1.toNat < 65536 ∧ (e.1.toNat % 256, e.2.2) ∈ opcodeMap ∧
        e.1.toNat % 256 = e.2.1) ∧
    ¬ ImmForm.none.admits 0x01#8 ∧ ¬ ImmForm.bit.admits 0x02#8 ∧ ¬ ImmForm.u7.admits 0x80#8 ∧
    ¬ ImmForm.kind.admits 0x07#8 ∧ ¬ ImmForm.hrw.admits 0x20#8 ∧ ¬ ImmForm.sqw.admits 0x49#8 ∧
    ((0x4932#32).toNat % 256, ImmForm.sqw) ∈ opcodeMap :=
  ⟨by decide, by simp [ImmForm.admits], by simp [ImmForm.admits], by simp [ImmForm.admits],
    by simp [ImmForm.admits], by simp [ImmForm.admits], by unfold ImmForm.admits; decide, by decide⟩
theorem witness_DispatchChecksTheWord_good :
    (0x1F34#32).toNat < 65536 ∧ ((0x0634#32).toNat % 256, ImmForm.hrw) ∈ opcodeMap ∧
    ImmForm.none.admits 0x00#8 ∧ ImmForm.bit.admits 0x01#8 ∧ ImmForm.u7.admits 0x7F#8 ∧
    ImmForm.kind.admits 0x06#8 ∧ ImmForm.sqw.admits 0x00#8 ∧ ImmForm.sqw.admits 0x6D#8 ∧
    ImmForm.hrw.admits 0x1E#8 :=
  ⟨by decide, by decide, by simp [ImmForm.admits], by simp [ImmForm.admits],
    by simp [ImmForm.admits], by simp [ImmForm.admits], by simp [ImmForm.admits],
    .inr ⟨6, by decide, 1, by decide, 1, by decide, by decide, by decide⟩, by simp [ImmForm.admits]⟩
theorem witness_DecodeOfEncode : (Instr.sqEnc 0x6D#8).wellFormed = true ∧
    (Instr.recKing 80#7).wellFormed = true ∧ (Instr.hrecEnc 0x1E#8).wellFormed = true := by decide
theorem witness_EncodeOfDecode : decodeCommand 0x7F12#16 = .ok (.wLe7 127#7) := rfl
theorem witness_ItemsAreSelfDelimiting :
    (Instr.recKing 80#7).wellFormed = true ∧
    encode (.recKing 80#7) = .stream .king (bitsOf "0000101") ∧
    decodeItem .square (bitsOf "1111010") = .ok (.recSqGold .white, [false]) :=
  ⟨by decide, by decide, rfl⟩
theorem witness_PieceCodeIsComplete :
    Kind.rook.text <+: Kind.rook.text ∧ 5 ≤ (bitsOf "11110").length := by decide
theorem witness_PackedLengthCountsPieces : LegalBoard aBoard 76 4 ∧ ∀ h ∈ aHand, legalHand h = true :=
  ⟨aBoard_legal, aHand_legal⟩
theorem witness_StepRunsTheDecodedCommand :
    { State.reset with script := [issue 0x0041#16] }.script = issue 0x0041#16 :: [] ∧
    decodeCommand 0x0041#16 = .ok .unpack := ⟨rfl, rfl⟩
/-- DP-3 and DP-4, a good word, and one script for each of the other accesses. -/
theorem witness_StepRunsTheDecodedCommand_events :
    decodeCmd 0x00010010#32 = .error .illegalCommand ∧ decodeCmd 0x0211#32 = .error .invalidOperand ∧
    decodeCmd 0x0111#32 = .ok (.wBit true) ∧
    ∀ ev ∈ [HostEvent.csrWrite 0x0#4 0x0211#32, .csrWrite 0x5#4 64#32, .csrRead 0x8#4, .inWrite 0 0xFF#8,
      .inRead 63, .outRead 63, .posWrite 81 0x01#8, .posRead 128, .hardReset],
      { State.reset with script := [ev] }.script = ev :: [] :=
  ⟨rfl, rfl, rfl, fun _ _ => rfl⟩
theorem witness_ReaderExecutesTheItem :
    (reading [0xFF#8] 0#16).Inv ∧ (reading [0xFF#8] 0#16).Offers (bitsOf "11111111") ∧
    decodeItem .square (bitsOf "11111111") = .ok (.recSqPiece .rook true .white, []) ∧
    decodeItem .code (bitsOf "11111111") = .ok (.codeRook, bitsOf "111") ∧
    decodeItem .turn (bitsOf "11111111") = .ok (.recTurn .white, bitsOf "1111111") ∧
    decodeItem .hand (bitsOf "11111111") = .ok (.recHand .rook true .white, bitsOf "1") :=
  ⟨inv_of (by decide +kernel), offers_of (by decide +kernel), rfl, rfl, rfl, rfl⟩
theorem witness_ReaderExecutesTheItem_king :
    (reading [0x50#8] 0#16).Inv ∧ (reading [0x50#8] 0#16).Offers (bitsOf "0000101") ∧
    decodeItem .king (bitsOf "0000101") = .ok (.recKing 80#7, []) :=
  ⟨inv_of (by decide +kernel), offers_of (by decide +kernel), rfl⟩
theorem witness_PlacedInstructionRuns : State.reset.Inv ∧ decodeTableWord 16 0x0040 = some .pack ∧
    encode .pack = .command 0x0040#16 ∧ decodeTableWord 8 31 = some .codeRook :=
  ⟨inv_of (by decide +kernel), by decide, by decide, by decide⟩
theorem witness_CsrMap : State.reset.writer = some Writer.reset ∧ State.reset.handlen = some 0#10 ∧
    0x7#4 ∈ [0x1#4, 0x2#4, 0x3#4, 0x4#4, 0x6#4, 0x7#4] ∧ 9 ≤ (0x9#4).toNat ∧ 9 ≤ (0xF#4).toNat := by
  decide
theorem witness_CsrMap_unspecified : (full.overflowed .prim 519).writer = none ∧
    { aPos with handlen := none }.handlen = none := ⟨rfl, rfl⟩
theorem witness_HostReadsChangeNothing :
    hostStep (.csrRead 0x1#4) State.reset = .next { State.reset with hostData := 0#32 } ∧
    hostStep (.posRead 81) aPos = .next (stateOf (hostStep (.posRead 81) aPos)) :=
  ⟨rfl, next_of (by decide +kernel)⟩
theorem witness_HostMemoryAccess :
    aPos.hasAddr .inp 63 = true ∧ aPos.hasAddr .pos 81 = true ∧ aPos.hasAddr .pos 128 = true ∧
    aPos.hasAddr .pos 191 = true ∧ aPos.hasAddr .out 63 = true ∧
    aPos.cell .pos 81 = some 0x01#8 ∧ aPos.cell .out 63 = none ∧
    aPos.hasAddr .inp 64 = false ∧ aPos.hasAddr .out 64 = false ∧ aPos.hasAddr .pos 82 = false ∧
    aPos.hasAddr .pos 127 = false ∧ aPos.hasAddr .pos 192 = false := by decide +kernel
theorem witness_ResetValues :
    { State.reset with script := [.hardReset] }.script = .hardReset :: [] := rfl
theorem witness_ControlCommands : (0x01#8) ≠ 0 := by decide
theorem witness_IdleAfterReset : State.reset.script = [] := rfl

/-! ## Witnesses: the writer -/

theorem witness_WriteBit :
    (writing [] 0x3F#8 6#3).writer = some ⟨0x3F#8, 6#3, 0#13⟩ ∧ (6#3).toNat ≠ 7 ∧
    (63#13).toNat < State.reset.params.outCap ∧ (7#3).toNat = 7 ∧
    full.writer = some ⟨0x7F#8, 7#3, 64#13⟩ ∧ (64#13).toNat = full.params.outCap := by decide +kernel
theorem witness_ImmediateWritersAppend : nearlyFull.Inv ∧ nearlyFull.writer = some ⟨0#8, 0#3, 64#13⟩ ∧
    nearlyFull.Room ⟨0#8, 0#3, 64#13⟩ 1 ∧ nearlyFull.Room ⟨0#8, 0#3, 64#13⟩ 7 ∧
    nearlyFull.Room ⟨0#8, 0#3, 64#13⟩ (Kind.text .rook).length ∧ legalNonKing 0x29#8 = true ∧
    nearlyFull.Room ⟨0#8, 0#3, 64#13⟩ (squareBits 0x29#8).length ∧ legalHand 0x1E#8 = true ∧
    nearlyFull.Room ⟨0#8, 0#3, 64#13⟩ (handBits 0x1E#8).length :=
  ⟨nearlyFull_inv, rfl, by decide, by decide, by decide, by decide, by decide, by decide, by decide⟩
theorem witness_PositionWritersAppend : aPos.Inv ∧ aPos.writer = some Writer.reset ∧
    aPos.cell .pos 81 = some (bitByte true) ∧ aPos.Room Writer.reset 1 ∧ aPos.HoldsBoard aBoard ∧
    LegalBoard aBoard 76 4 ∧ aPos.Room Writer.reset (boardBits aBoard 76 4).length ∧
    aPos.HoldsHand aHand ∧ (∀ h ∈ aHand, legalHand h = true) ∧
    aPos.Room Writer.reset (handSection aHand).length :=
  ⟨aPos_inv, rfl, by decide +kernel, by decide, aPos_board, aBoard_legal, by decide +kernel,
    aPos_hand, aHand_legal, by decide +kernel⟩
theorem witness_FlushPartialByte : State.reset.Inv ∧ State.reset.writer = some ⟨0#8, 0#3, 0#13⟩ ∧
    (writing (List.replicate 63 0#8) 1#8 1#3).Inv ∧
    (writing (List.replicate 63 0#8) 1#8 1#3).writer = some ⟨1#8, 1#3, 63#13⟩ ∧
    full.Inv ∧ full.writer = some ⟨0x7F#8, 7#3, 64#13⟩ :=
  ⟨inv_of (by decide +kernel), rfl, inv_of (by decide +kernel), rfl, full_inv, rfl⟩
theorem witness_WriterOverflow : full.Inv ∧ full.writer = some ⟨0x7F#8, 7#3, 64#13⟩ ∧
    ¬ full.Room ⟨0x7F#8, 7#3, 64#13⟩ 1 ∧ ¬ full.Room ⟨0x7F#8, 7#3, 64#13⟩ 7 ∧
    ¬ full.Room ⟨0x7F#8, 7#3, 64#13⟩ (Kind.text .pawn).length ∧ legalNonKing 0x00#8 = true ∧
    ¬ full.Room ⟨0x7F#8, 7#3, 64#13⟩ (squareBits 0x00#8).length ∧ legalHand 0x00#8 = true ∧
    ¬ full.Room ⟨0x7F#8, 7#3, 64#13⟩ (handBits 0x00#8).length ∧
    full.cell .pos 81 = some (bitByte true) ∧ full.HoldsBoard aBoard ∧ LegalBoard aBoard 76 4 ∧
    ¬ full.Room ⟨0x7F#8, 7#3, 64#13⟩ (boardBits aBoard 76 4).length ∧ full.HoldsHand aHand ∧
    ¬ full.Room ⟨0x7F#8, 7#3, 64#13⟩ (handSection aHand).length :=
  ⟨full_inv, rfl, by decide, by decide, by decide, by decide, by decide, by decide, by decide,
    by decide +kernel, aPos_board, aBoard_legal, by decide +kernel, aPos_hand, by decide +kernel⟩
theorem witness_WriterLaw :
    State.reset.Inv ∧ ((List.replicate 512 true).length + 7) / 8 ≤ State.reset.params.outCap ∧
    (([] : List Bool).length + 7) / 8 ≤ State.reset.params.outCap :=
  ⟨inv_of (by decide +kernel), by decide +kernel, by decide⟩

/-! ## Witnesses: the reader -/

theorem witness_LoadReader : (64#13).toNat ≤ State.reset.params.inCap ∧
    State.reset.params.inCap < (65#13).toNat := by decide
theorem witness_ReadBit : (reading [0x98#8] 7#16).Inv ∧
    (reading [0x98#8] 7#16).rpos.toNat < 8 * (reading [0x98#8] 7#16).rlen.toNat ∧
    (reading [0x98#8] 7#16).cell .inp 0 = some 0x98#8 ∧ (reading [0x98#8] 8#16).Inv ∧
    (reading [0x98#8] 8#16).rpos.toNat = 8 * (reading [0x98#8] 8#16).rlen.toNat :=
  ⟨inv_of (by decide +kernel), by decide, by decide, inv_of (by decide +kernel), by decide⟩
theorem witness_ReadField : (reading [0x98#8] 1#16).Inv ∧
    (reading [0x98#8] 1#16).Offers (le7Bits 0x4C#7) ∧ (reading [0x98#8] 2#16).Inv ∧
    (bitsOf "011001").length < 7 ∧ (reading [0x98#8] 2#16).OffersLast (bitsOf "011001") :=
  ⟨inv_of (by decide +kernel), offers_of (by decide +kernel), inv_of (by decide +kernel), by decide,
    offersLast_of (by decide +kernel) (by decide)⟩
/-- PC-4. -/
theorem witness_ReadCode : (reading [0xF8#8] 3#16).Inv ∧
    (reading [0xF8#8] 3#16).Offers (Kind.text .rook) ∧ (reading [0xF0#8] 4#16).Inv ∧
    takeCode (bitsOf "1111") = none ∧ (reading [0xF0#8] 4#16).OffersLast (bitsOf "1111") :=
  ⟨inv_of (by decide +kernel), offers_of (by decide +kernel), inv_of (by decide +kernel), by decide,
    offersLast_of (by decide +kernel) (by decide)⟩
theorem witness_CodeLaw : nearlyFull.Inv ∧ nearlyFull.writer = some ⟨0#8, 0#3, 64#13⟩ ∧
    nearlyFull.Room ⟨0#8, 0#3, 64#13⟩ (Kind.text .rook).length ∧ (reading [0xF8#8] 3#16).Inv ∧
    (reading [0xF8#8] 3#16).Offers (bitsOf "11111") ∧ 5 ≤ (bitsOf "11111").length :=
  ⟨nearlyFull_inv, rfl, by decide, inv_of (by decide +kernel), offers_of (by decide +kernel), by decide⟩
/-- SQ-13, SQ-14. -/
theorem witness_ReadSquare : (reading [0xFF#8] 0#16).Inv ∧ legalNonKing 0x6D#8 = true ∧
    (reading [0xFF#8] 0#16).Offers (squareBits 0x6D#8) ∧ (reading [0xFE#8] 3#16).Inv ∧
    decodeItem .square (bitsOf "11111") = .error .endOfStream ∧
    (reading [0xFE#8] 2#16).OffersLast (bitsOf "111111") ∧
    decodeItem .square (bitsOf "111111") = .error .endOfStream :=
  ⟨inv_of (by decide +kernel), by decide, offers_of (by decide +kernel), inv_of (by decide +kernel),
    rfl, offersLast_of (by decide +kernel) (by decide), rfl⟩
/-- HR-11, HR-13, HR-14. -/
theorem witness_ReadHandRecord : (reading [] 0#16).Inv ∧
    (reading [] 0#16).rpos.toNat = 8 * (reading [] 0#16).rlen.toNat ∧ (reading [0x09#8] 0#16).Inv ∧
    readHand 0x11#8 = true ∧ (reading [0x09#8] 0#16).Offers (readBits 0x11#8) ∧
    (reading [0x00#8] 6#16).Inv ∧ cutHandRecord (bitsOf "00") ∧
    (reading [0x00#8] 6#16).OffersLast (bitsOf "00") :=
  ⟨inv_of (by decide +kernel), by decide, inv_of (by decide +kernel), by decide,
    offers_of (by decide +kernel), inv_of (by decide +kernel), ⟨by decide, by decide⟩,
    offersLast_of (by decide +kernel) (by decide)⟩
theorem witness_ReadTurn : (reading [0x80#8] 7#16).Inv ∧ (reading [0x80#8] 7#16).Offers [true] ∧
    (reading [] 0#16).Inv ∧ (reading [] 0#16).rpos.toNat = 8 * (reading [] 0#16).rlen.toNat :=
  ⟨inv_of (by decide +kernel), offers_of (by decide +kernel), inv_of (by decide +kernel), by decide⟩
theorem witness_ReaderLaw : (reading [0x98#8, 0x04#8] 0#16).Inv ∧
    (reading [0x98#8, 0x04#8] 0#16).inlen.toNat ≤ (reading [0x98#8, 0x04#8] 0#16).params.inCap ∧
    16 ≤ 8 * (reading [0x98#8, 0x04#8] 0#16).inlen.toNat ∧
    (∀ j < (reading [0x98#8, 0x04#8] 0#16).inlen.toNat,
      ((reading [0x98#8, 0x04#8] 0#16).cell .inp j).isSome = true) ∧
    16 = 8 * (reading [0x98#8, 0x04#8] 0#16).inlen.toNat :=
  ⟨inv_of (by decide +kernel), by decide, by decide, by decide, by decide⟩
theorem witness_StreamItemsComplete : (reading [0xFF#8] 0#16).Inv ∧
    (Instr.recSqPiece .rook true .white).wellFormed = true ∧
    encode (.recSqPiece .rook true .white) = .stream .square (bitsOf "11111111") ∧
    (reading [0xFF#8] 0#16).Offers (bitsOf "11111111") ∧
    itemValue (.recSqPiece .rook true .white) = some 0x6D ∧
    encode (.recTurn .white) = .stream .turn (bitsOf "1") ∧
    (reading [0xFF#8] 0#16).Offers (bitsOf "1") :=
  ⟨inv_of (by decide +kernel), by decide, by decide, offers_of (by decide +kernel), by decide,
    by decide, offers_of (by decide +kernel)⟩

/-! ## Witnesses: boards and hands -/

/-- BD-3: 93 bits of a board section, the kings at the ends of the board. -/
def boardStream : State := reading (0x50#8 :: List.replicate 11 0#8) 0#16

theorem witness_ReadBoard : boardStream.Inv ∧ (List.replicate 79 0x00#8).length = 79 ∧
    (∀ w ∈ List.replicate 79 0x00#8, legalNonKing w = true) ∧
    boardStream.Offers
      (kingBits 80 0 ++ (List.replicate 79 0x00#8).flatMap squareBits ++ [false, false]) :=
  ⟨inv_of (by decide +kernel), by decide, by decide +kernel, offers_of (by decide +kernel)⟩
/-- BD-7, BD-8, BD-9. -/
theorem witness_BadKingsRejected :
    (reading [0x51#8, 0x02#8] 0#16).Inv ∧
    (reading [0x51#8, 0x02#8] 0#16).Offers (le7Bits 81#7 ++ le7Bits 4#7) ∧ (81#7).toNat > 80 ∧
    (reading [0x84#8, 0x3F#8] 0#16).Offers (le7Bits 4#7 ++ le7Bits 127#7) ∧ (127#7).toNat > 80 ∧
    (reading [0x85#8, 0x02#8] 0#16).Offers (le7Bits 5#7 ++ le7Bits 5#7) :=
  ⟨inv_of (by decide +kernel), offers_of (by decide +kernel), by decide, offers_of (by decide +kernel),
    by decide, offers_of (by decide +kernel)⟩
/-- BD-10 for the second case, BD-11 for the third. -/
theorem witness_ShortBoardRejected :
    (reading [0xDA#8] 2#16).Inv ∧ (reading [0xDA#8] 2#16).OffersLast (bitsOf "011011") ∧
    cutBoard 0 (bitsOf "011011") ∧ (reading [0xDA#8] 0#16).Inv ∧
    (reading [0xDA#8] 0#16).OffersLast (bitsOf "01011011") ∧ cutBoard 7 (bitsOf "01011011") ∧
    (reading (0x4C#8 :: 0x02#8 :: List.replicate 7 0#8) 0#16).Inv ∧
    (reading (0x4C#8 :: 0x02#8 :: List.replicate 7 0#8) 0#16).OffersLast
      (kingBits 76 4 ++ (List.replicate 58 0x00#8).flatMap squareBits ++ []) ∧
    cutBoard 72 (kingBits 76 4 ++ (List.replicate 58 0x00#8).flatMap squareBits ++ []) :=
  ⟨inv_of (by decide +kernel), offersLast_of (by decide +kernel) (by decide), .inl (by decide),
    inv_of (by decide +kernel), offersLast_of (by decide +kernel) (by decide), .inr (.inl (by decide)),
    inv_of (by decide +kernel), offersLast_of (by decide +kernel) (by decide +kernel),
    .inr (.inr ⟨76, 4, List.replicate 58 0x00#8, [], by decide, by decide, by decide, by decide,
      by decide +kernel, rfl, rfl, by decide +kernel⟩)⟩
theorem witness_BoardRoundTrip : aPos.Inv ∧ aPos.writer = some Writer.reset ∧
    aPos.HoldsBoard aBoard ∧ LegalBoard aBoard 76 4 ∧
    aPos.Room Writer.reset (boardBits aBoard 76 4).length ∧
    (reading (bytesOf (boardBits aBoard 76 4)) 0#16).Inv ∧
    (reading (bytesOf (boardBits aBoard 76 4)) 0#16).Offers (boardBits aBoard 76 4 ++ [false]) :=
  ⟨aPos_inv, rfl, aPos_board, aBoard_legal, by decide +kernel, inv_of (by decide +kernel),
    offers_of (by decide +kernel)⟩
/-- W.GOLD, B.PAWN end exactly with the byte. -/
theorem witness_ReadHand : (sized (reading [0x17#8] 0#16) 64 64 2).Inv ∧
    (∀ h ∈ [0x0C#8, 0x00#8], readHand h = true) ∧ [0x0C#8, 0x00#8].length ≤ 2 ∧
    (sized (reading [0x17#8] 0#16) 64 64 2).OffersLast (readSection [0x0C#8, 0x00#8]) :=
  ⟨inv_of (by decide +kernel), by decide, by decide, offersLast_of (by decide +kernel) (by decide)⟩
theorem witness_HandDecodeErrors : (sized (reading [0x00#8] 0#16) 64 64 3).Inv ∧
    (∀ h ∈ [0x00#8, 0x00#8], readHand h = true) ∧ [0x00#8, 0x00#8].length < 3 ∧
    cutHandRecord (bitsOf "00") ∧
    (sized (reading [0x00#8] 0#16) 64 64 3).OffersLast
      (readSection [0x00#8, 0x00#8] ++ bitsOf "00") ∧
    (sized (reading [0x00#8] 0#16) 64 64 2).Inv ∧ [0x00#8, 0x00#8].length = 2 ∧ bitsOf "0" ≠ [] ∧
    (sized (reading [0x00#8] 0#16) 64 64 2).Offers (readSection [0x00#8, 0x00#8] ++ bitsOf "0") :=
  ⟨inv_of (by decide +kernel), by decide, by decide, ⟨by decide, by decide⟩,
    offersLast_of (by decide +kernel) (by decide), inv_of (by decide +kernel), by decide, by decide,
    offers_of (by decide +kernel)⟩
/-- W.GOLD with bit 4 set and B.PAWN: 8 bits; and the empty hand. -/
theorem witness_HandRoundTrip : (placed 0#8 kings [0x1C#8, 0x00#8]).Inv ∧
    (placed 0#8 kings [0x1C#8, 0x00#8]).HoldsHand [0x1C#8, 0x00#8] ∧
    (∀ h ∈ [0x1C#8, 0x00#8], legalHand h = true) ∧
    (placed 0#8 kings [0x1C#8, 0x00#8]).Room Writer.reset (handSection [0x1C#8, 0x00#8]).length ∧
    (reading [0x17#8] 0#16).Inv ∧ (reading [0x17#8] 0#16).OffersLast (handSection [0x1C#8, 0x00#8]) ∧
    State.reset.HoldsHand [] :=
  ⟨inv_of (by decide +kernel), ⟨rfl, by decide, by decide +kernel⟩, by decide, by decide,
    inv_of (by decide +kernel), offersLast_of (by decide +kernel) (by decide),
    ⟨rfl, by decide, by decide⟩⟩
theorem witness_BoardChecks :
    (placed 0#8 (oneBoard 76 4 80 0x49#8) []).HoldsBoard (oneBoard 76 4 80 0x49#8) ∧
    (∀ x < 80, legalSquare (oneBoard 76 4 80 0x49#8 x) = true) ∧
    legalSquare (oneBoard 76 4 80 0x49#8 80) = false ∧
    (∀ a ≤ 80, legalSquare (oneBoard 76 4 10 0x03#8 a) = true) ∧
    (List.range 81).countP (fun a => oneBoard 76 4 10 0x03#8 a = 0x03#8) ≠ 1 ∧
    (List.range 81).countP (fun a => oneBoard 76 81 76 0x03#8 a = 0x07#8) ≠ 1 :=
  ⟨holdsBoard_of (by decide +kernel), by decide +kernel, by decide +kernel, by decide +kernel,
    by decide +kernel, by decide +kernel⟩
theorem witness_OperandChecks :
    (placed 0x02#8 kings []).cell .pos 81 = some 0x02#8 ∧ legalNonKing 0x49#8 = false ∧
    legalHand 0x20#8 = false ∧ { aPos with handlen := some 65#10 }.params.handCap < (65#10).toNat ∧
    (placed 0#8 kings [0x1E#8, 0x07#8]).handlen = some 2#10 ∧
    (∀ j ≤ 1, (placed 0#8 kings [0x1E#8, 0x07#8]).cell .pos (128 + j) =
      some (if j = 0 then 0x1E#8 else 0x07#8)) ∧
    legalHand 0x1E#8 = true ∧ legalHand 0x07#8 = false := by decide +kernel

/-! ## Witnesses: PACK and UNPACK -/

theorem witness_PackChecksInOrder :
    (placed 0x02#8 kings []).cell .pos 81 = some 0x02#8 ∧ aPos.cell .pos 81 = some 0x01#8 ∧
    (placed 0x01#8 (oneBoard 76 4 80 0x49#8) []).HoldsBoard (oneBoard 76 4 80 0x49#8) ∧
    (∀ x < 80, legalSquare (oneBoard 76 4 80 0x49#8 x) = true) ∧
    legalSquare (oneBoard 76 4 80 0x49#8 80) = false ∧
    (∀ a ≤ 80, legalSquare (oneBoard 76 4 10 0x03#8 a) = true) ∧
    (List.range 81).countP (fun a => oneBoard 76 4 10 0x03#8 a = 0x03#8) ≠ 1 ∧
    LegalBoard aBoard 76 4 ∧ { aPos with handlen := some 65#10 }.params.handCap < (65#10).toNat ∧
    (placed 0x01#8 aBoard [0x1E#8, 0x07#8]).handlen = some 2#10 ∧
    (∀ j ≤ 1, (placed 0x01#8 aBoard [0x1E#8, 0x07#8]).cell .pos (128 + j) =
      some (if j = 0 then 0x1E#8 else 0x07#8)) ∧ legalHand 0x1E#8 = true ∧ legalHand 0x07#8 = false :=
  ⟨by decide +kernel, by decide +kernel, holdsBoard_of (by decide +kernel), by decide +kernel,
    by decide +kernel, by decide +kernel, by decide +kernel, aBoard_legal, by decide +kernel,
    by decide +kernel, by decide +kernel, by decide, by decide⟩
/-- 113 bits in an OUT of exactly 15 bytes. -/
theorem witness_PackWritesThePosition : (sized aPos 64 15 64).Inv ∧
    Position (sized aPos 64 15 64) true aBoard 76 4 aHand ∧
    113 = (packedBits true aBoard 76 4 aHand).length ∧ (113 + 7) / 8 ≤ 15 :=
  ⟨inv_of (by decide +kernel), ⟨by decide +kernel, aPos_board, aBoard_legal, aPos_hand, aHand_legal⟩,
    by decide +kernel, by decide⟩
/-- The same in an OUT of 14 bytes (the hand's last bit), of 11 (inside the board). -/
theorem witness_PackOverflow : (sized aPos 64 14 64).Inv ∧
    Position (sized aPos 64 14 64) true aBoard 76 4 aHand ∧
    113 = (packedBits true aBoard 76 4 aHand).length ∧ 8 * 14 < 113 ∧ (sized aPos 64 11 64).Inv ∧
    8 * 11 + 7 < 1 + (boardBits aBoard 76 4).length :=
  ⟨inv_of (by decide +kernel), ⟨by decide +kernel, aPos_board, aBoard_legal, aPos_hand, aHand_legal⟩,
    by decide +kernel, by decide, inv_of (by decide +kernel), by decide +kernel⟩

/-- A loaded stream that UNPACK reads. -/
def packed : State := { reading (bytesOf (true :: (kingBits 76 4 ++
  (List.replicate 79 0x00#8).flatMap squareBits ++ readSection [0x01#8, 0x01#8]))) 0#16 with rlen := 0#13 }

theorem witness_UnpackReadsThePosition : packed.Inv ∧ packed.inlen.toNat ≤ packed.params.inCap ∧
    (List.replicate 79 0x00#8).length = 79 ∧
    (∀ w ∈ List.replicate 79 0x00#8, legalNonKing w = true) ∧
    (∀ h ∈ [0x01#8, 0x01#8], readHand h = true) ∧ [0x01#8, 0x01#8].length ≤ packed.params.handCap ∧
    State.OffersLast { packed with rlen := packed.inlen, rpos := 0#16 }
      (true :: (kingBits 76 4 ++ (List.replicate 79 0x00#8).flatMap squareBits ++
        readSection [0x01#8, 0x01#8])) :=
  ⟨inv_of (by decide +kernel), by decide +kernel, by decide, by decide +kernel, by decide, by decide,
    offersLast_of (by decide +kernel) (by decide +kernel)⟩
theorem witness_UnpackErrors :
    (sized { State.reset with inlen := 5#13 } 4 64 64).Inv ∧ 4 < (5#13).toNat ∧ State.reset.Inv ∧
    State.reset.inlen = 0#13 ∧ (reading [0xA2#8, 0x04#8] 0#16).Inv ∧
    State.Offers { reading [0xA2#8, 0x04#8] 0#16 with rlen := 2#13, rpos := 0#16 }
      (false :: (le7Bits 81#7 ++ le7Bits 4#7)) ∧ (81#7).toNat > 80 :=
  ⟨inv_of (by decide +kernel), by decide, inv_of (by decide +kernel), rfl, inv_of (by decide +kernel),
    offers_of (by decide +kernel), by decide⟩

/-- Bytes in IN with INLEN set, for UNPACK to load. -/
def unpacking (bytes : List Byte) : State := { reading bytes 0#16 with rlen := 0#13 }

/-- The session UNPACK starts. -/
def session (s : State) : State := { s with rlen := s.inlen, rpos := 0#16 }

/-- A turn bit, kings at 76 and 4, empty squares and two bits of a hand PAWN: 96 bits. -/
def cutStream : List Bool := true :: (kingBits 76 4 ++ (List.replicate 79 0x00#8).flatMap squareBits ++
  (readSection [] ++ bitsOf "00"))

/-- A stream of whole bytes that ends at the WHITE king field, and one at the second square record. -/
theorem witness_UnpackErrors_board :
    (unpacking [0xDA#8]).Inv ∧ (unpacking [0xDA#8]).inlen.toNat ≤ (unpacking [0xDA#8]).params.inCap ∧
    (session (unpacking [0xDA#8])).OffersLast (false :: bitsOf "1011011") ∧
    cutBoard 7 (bitsOf "1011011") ∧
    (unpacking (bytesOf (true :: (kingBits 76 4 ++ [false])))).Inv ∧
    (session (unpacking (bytesOf (true :: (kingBits 76 4 ++ [false]))))).OffersLast
      (true :: (kingBits 76 4 ++ [0x00#8].flatMap squareBits ++ [])) ∧
    cutBoard 15 (kingBits 76 4 ++ [0x00#8].flatMap squareBits ++ []) :=
  ⟨inv_of (by decide +kernel), by decide, offersLast_of (by decide +kernel) (by decide),
    .inr (.inl (by decide)), inv_of (by decide +kernel),
    offersLast_of (by decide +kernel) (by decide +kernel),
    .inr (.inr ⟨76, 4, [0x00#8], [], by decide, by decide, by decide, by decide, by decide, rfl, rfl,
      by decide⟩)⟩
/-- The hand cut with HAND_CAP 1, and bits left with HAND_CAP 0. -/
theorem witness_UnpackErrors_hand : (sized (unpacking (bytesOf cutStream)) 12 64 1).Inv ∧
    (sized (unpacking (bytesOf cutStream)) 12 64 0).Inv ∧
    (unpacking (bytesOf cutStream)).inlen.toNat ≤ 12 ∧ (List.replicate 79 0x00#8).length = 79 ∧
    (∀ w ∈ List.replicate 79 0x00#8, legalNonKing w = true) ∧
    (session (sized (unpacking (bytesOf cutStream)) 12 64 1)).OffersLast cutStream ∧
    cutHandRecord (bitsOf "00") ∧
    (session (sized (unpacking (bytesOf cutStream)) 12 64 0)).Offers cutStream ∧ bitsOf "00" ≠ [] ∧
    94 = 1 + 14 + ((List.replicate 79 0x00#8).flatMap squareBits).length + (readSection []).length :=
  ⟨inv_of (by decide +kernel), inv_of (by decide +kernel), by decide +kernel, by decide,
    by decide +kernel, offersLast_of (by decide +kernel) (by decide +kernel), ⟨by decide, by decide⟩,
    offers_of (by decide +kernel), by decide, by decide +kernel⟩

/-- The state after PACK, and its stream in the IN of another machine of the same parameters. -/
def packedBy (s : State) : State := stateOf (exec .pack s)
def unpacker (s : State) : State :=
  { State.reset with
    params := s.params
    inMem := (packedBy s).outMem
    inlen := match (packedBy s).writer with
      | some w => w.outlen
      | none => 0 }

/-- The premises of the round trip that a state and its PACK meet, as a check. -/
def roundTripB (s : State) : Bool :=
  (after (exec .pack s) fun _ => ()).isSome && statusErr (packedBy s).status == 0 &&
  invB (unpacker s) &&
  match (packedBy s).writer with
  | some w => (unpacker s).inlen == w.outlen && decide (w.outlen.toNat ≤ s.params.inCap) &&
      (List.range w.outlen.toNat).all fun j => (unpacker s).cell .inp j == (packedBy s).cell .out j
  | none => false

/-- Kings and a promoted rook with an empty hand: 101 bits, pad 3 (PK-4), HAND_CAP exactly the one record
read back. -/
theorem witness_PackUnpackRoundTrip :
    (sized (placed 1#8 aBoard []) 64 64 1).Inv ∧
    Position (sized (placed 1#8 aBoard []) 64 64 1) true aBoard 76 4 [] ∧
    roundTripB (sized (placed 1#8 aBoard []) 64 64 1) = true ∧
    (packedBy (sized (placed 1#8 aBoard []) 64 64 1)).result.toNat = 101 ∧ (8 - 101 % 8) % 8 = 3 ∧
    0 + 3 / 3 ≤ 1 ∧ 3 % 3 = 0 :=
  ⟨inv_of (by decide +kernel), ⟨by decide +kernel, holdsBoard_of (by decide +kernel), aBoard_legal,
    ⟨rfl, by decide, by decide⟩, by decide⟩, by decide +kernel, by decide +kernel, by decide, by decide,
    by decide⟩
/-- The same with HAND_CAP 0: the pad's record does not fit. -/
theorem witness_PackUnpackRoundTrip_full :
    (sized (placed 1#8 aBoard []) 64 64 0).Inv ∧
    Position (sized (placed 1#8 aBoard []) 64 64 0) true aBoard 76 4 [] ∧
    roundTripB (sized (placed 1#8 aBoard []) 64 64 0) = true ∧ 0 < 0 + 3 / 3 :=
  ⟨inv_of (by decide +kernel), ⟨by decide +kernel, holdsBoard_of (by decide +kernel), aBoard_legal,
    ⟨rfl, by decide, by decide⟩, by decide⟩, by decide +kernel, by decide⟩
/-- Kings alone: 94 bits, pad 2 (PK-2's length): with HAND_CAP 1 the pad is cut, with 0 it does not fit. -/
theorem witness_PackUnpackRoundTrip_cut :
    (sized (placed 0#8 kings []) 64 64 1).Inv ∧
    Position (sized (placed 0#8 kings []) 64 64 1) false kings 76 4 [] ∧
    roundTripB (sized (placed 0#8 kings []) 64 64 1) = true ∧
    (packedBy (sized (placed 0#8 kings []) 64 64 1)).result.toNat = 94 ∧ (8 - 94 % 8) % 8 = 2 ∧
    0 + 2 / 3 < 1 ∧ 2 % 3 ≠ 0 ∧ roundTripB (sized (placed 0#8 kings []) 64 64 0) = true ∧ 0 = 0 + 2 / 3 :=
  ⟨inv_of (by decide +kernel), ⟨by decide +kernel, holdsBoard_of (by decide +kernel),
    legalBoard_of (by decide) (by decide) (by decide +kernel), ⟨rfl, by decide, by decide⟩, by decide⟩,
    by decide +kernel, by decide +kernel, by decide, by decide, by decide, by decide +kernel, by decide⟩

/-! ## Witnesses: STATUS, frames, invariants -/

theorem witness_StatusAtCompletion :
    exec .clrerr State.reset = .next (stateOf (exec .clrerr State.reset)) ∧
    exec .wFlush State.reset = .next (stateOf (exec .wFlush State.reset)) ∧
    exec .rBit State.reset = .next (stateOf (exec .rBit State.reset)) :=
  ⟨rfl, next_of (by decide), next_of (by decide)⟩
theorem witness_CheckErrorsChangeNothing :
    exec (.sqEnc 0x49#8) State.reset = .next (stateOf (exec (.sqEnc 0x49#8) State.reset)) ∧
    statusErr (stateOf (exec (.sqEnc 0x49#8) State.reset)).status = 6 ∧
    exec .pack (placed 0#8 (oneBoard 76 4 10 0x03#8) []) =
      .next (stateOf (exec .pack (placed 0#8 (oneBoard 76 4 10 0x03#8) []))) ∧
    statusErr (stateOf (exec .pack (placed 0#8 (oneBoard 76 4 10 0x03#8) []))).status = 4 :=
  ⟨next_of (by decide), by decide, next_of (by decide +kernel), by decide +kernel⟩
theorem witness_DecodeErrorsLeaveTheCursor :
    State.reset.Inv ∧ exec .unpack State.reset = .next (stateOf (exec .unpack State.reset)) ∧
    statusErr (stateOf (exec .unpack State.reset)).status = 3 ∧
    (reading [0x51#8, 0x02#8] 0#16).Inv ∧
    exec .boardDec (reading [0x51#8, 0x02#8] 0#16) =
      .next (stateOf (exec .boardDec (reading [0x51#8, 0x02#8] 0#16))) ∧
    statusErr (stateOf (exec .boardDec (reading [0x51#8, 0x02#8] 0#16))).status = 4 ∧
    (sized (reading [0x17#8] 0#16) 64 64 1).Inv ∧
    exec .handDec (sized (reading [0x17#8] 0#16) 64 64 1) =
      .next (stateOf (exec .handDec (sized (reading [0x17#8] 0#16) 64 64 1))) ∧
    statusErr (stateOf (exec .handDec (sized (reading [0x17#8] 0#16) 64 64 1))).status = 7 :=
  ⟨inv_of (by decide +kernel), next_of (by decide), by decide, inv_of (by decide +kernel),
    next_of (by decide +kernel), by decide +kernel, inv_of (by decide +kernel),
    next_of (by decide +kernel), by decide +kernel⟩
theorem witness_WriterFrame : aPos.Inv ∧ exec .pack aPos = .next (stateOf (exec .pack aPos)) ∧
    aPos.writer = some Writer.reset ∧
    (stateOf (exec .pack aPos)).writer = some ⟨0#8, 0#3, 15#13⟩ ∧
    statusErr (stateOf (exec .pack aPos)).status = 0 ∧ (15#13).toNat ≤ 15 ∧
    nearlyFull.Inv ∧ exec (.wBit true) nearlyFull = .next (stateOf (exec (.wBit true) nearlyFull)) ∧
    63 < (64#13).toNat :=
  ⟨aPos_inv, next_of (by decide +kernel), rfl, by decide +kernel, by decide +kernel, by decide,
    nearlyFull_inv, next_of (by decide +kernel), by decide⟩
theorem witness_ReaderFrame :
    exec .rBit (reading [0x98#8] 7#16) = .next (stateOf (exec .rBit (reading [0x98#8] 7#16))) ∧
    exec .recSqEmpty (reading [0x98#8] 0#16) =
      .next (stateOf (exec .recSqEmpty (reading [0x98#8] 0#16))) ∧
    itemValue .recSqEmpty = some 0 :=
  ⟨next_of (by decide), next_of (by decide), rfl⟩
theorem witness_DecoderFrame :
    exec .turnDec (reading [0x98#8] 0#16) = .next (stateOf (exec .turnDec (reading [0x98#8] 0#16))) ∧
    exec .boardDec boardStream = .next (stateOf (exec .boardDec boardStream)) ∧
    exec .handDec (reading [0x17#8] 0#16) = .next (stateOf (exec .handDec (reading [0x17#8] 0#16))) ∧
    exec .unpack packed = .next (stateOf (exec .unpack packed)) :=
  ⟨next_of (by decide), next_of (by decide +kernel), next_of (by decide +kernel),
    next_of (by decide +kernel)⟩
theorem witness_ResetHasInvariant : (⟨1, 1, 0⟩ : Params).legal ∧ (⟨8191, 8191, 896⟩ : Params).legal := by
  decide
theorem witness_StepKeepsInvariant : { aPos with script := [issue 0x0040#16] }.Inv ∧
    step { aPos with script := [issue 0x0040#16] } =
      .next (stateOf (step { aPos with script := [issue 0x0040#16] })) :=
  ⟨inv_of (by decide +kernel), next_of (by decide +kernel)⟩
theorem witness_FaultsAreUnspecifiedReads : { State.reset with script := [.posRead 81] }.Inv ∧
    step { State.reset with script := [.posRead 81] } = .fault (.unwritten .pos 81) :=
  ⟨inv_of (by decide +kernel), fault_of (by decide)⟩
theorem witness_FaultsAreUnspecifiedReads_writer : { aPos with writer := none }.Inv ∧
    { aPos with writer := none }.cell .pos 81 = some (bitByte true) ∧
    { aPos with writer := none }.HoldsBoard aBoard ∧ LegalBoard aBoard 76 4 ∧
    { aPos with writer := none }.HoldsHand aHand ∧ (∀ h ∈ aHand, legalHand h = true) ∧ aHand ≠ [] ∧
    legalNonKing 0x00#8 = true ∧ legalHand 0x1E#8 = true :=
  ⟨inv_of (by decide +kernel), by decide +kernel, aPos_board, aBoard_legal, aPos_hand, aHand_legal,
    by decide, by decide, by decide⟩
theorem witness_FaultsAreUnspecifiedReads_handlen : { aPos with handlen := none }.Inv ∧
    { aPos with handlen := none }.cell .pos 81 = some (bitByte true) ∧
    { aPos with handlen := none }.HoldsBoard aBoard ∧ LegalBoard aBoard 76 4 :=
  ⟨inv_of (by decide +kernel), by decide +kernel, aPos_board, aBoard_legal⟩

/-- A position whose last square nobody wrote. -/
def missingSquare : State := { aPos with posMem := Memory.erase aPos.posMem 80 81 }

theorem witness_FaultsAreUnspecifiedReads_pos : State.reset.Inv ∧ State.reset.cell .pos 81 = none ∧
    missingSquare.Inv ∧ missingSquare.cell .pos 80 = none ∧
    (∀ x < 80, ∃ w, missingSquare.cell .pos x = some w ∧ legalSquare w = true) ∧
    missingSquare.cell .pos 81 = some (bitByte true) :=
  ⟨inv_of (by decide +kernel), rfl, inv_of (by decide +kernel), by decide +kernel,
    fun x hx => ⟨aBoard x,
      (show ∀ x < 80, missingSquare.cell .pos x = some (aBoard x) ∧ legalSquare (aBoard x) = true by
        decide +kernel) x hx⟩, by decide +kernel⟩
/-- HANDLEN counts one word more than were written. -/
theorem witness_FaultsAreUnspecifiedReads_hand : { aPos with handlen := some 3#10 }.Inv ∧
    (3#10).toNat ≤ { aPos with handlen := some 3#10 }.params.handCap ∧ 2 < (3#10).toNat ∧
    (∀ j < 2, ∃ h, { aPos with handlen := some 3#10 }.cell .pos (128 + j) = some h ∧
      legalHand h = true) ∧
    { aPos with handlen := some 3#10 }.cell .pos (128 + 2) = none :=
  ⟨inv_of (by decide +kernel), by decide, by decide,
    fun j hj => ⟨aHand.getD j 0,
      (show ∀ j < 2, { aPos with handlen := some 3#10 }.cell .pos (128 + j) = some (aHand.getD j 0) ∧
        legalHand (aHand.getD j 0) = true by decide +kernel) j hj⟩, by decide +kernel⟩

/-- These bytes of IN written and one more loaded. -/
def missingByte (bytes : List Byte) (pos : BitVec 16) : State :=
  { reading bytes pos with
    inlen := BitVec.ofNat 13 (bytes.length + 1), rlen := BitVec.ofNat 13 (bytes.length + 1) }

theorem offersUnwritten_of {s : State} {bits : List Bool} {a : Nat} (h : offersB s bits = true)
    (hr : (decide (s.rpos.toNat + bits.length < 8 * s.rlen.toNat ∧
      a = (s.rpos.toNat + bits.length) / 8 ∧ s.cell .inp a = none)) = true) :
    s.OffersUnwritten bits a := ⟨offers_of h, of_decide_eq_true hr⟩

theorem witness_FaultsAreUnspecifiedReads_in :
    (missingByte [] 0#16).Inv ∧ (missingByte [] 0#16).OffersUnwritten [] 0 ∧
    (missingByte [0xFF#8] 2#16).Inv ∧
    (missingByte [0xFF#8] 2#16).OffersUnwritten (bitsOf "111111") 1 ∧ (bitsOf "111111").length < 7 ∧
    decodeItem .square (bitsOf "111111") = .error .endOfStream ∧
    decodeHandRec (bitsOf "111111") = none ∧ (missingByte [0xFF#8] 4#16).Inv ∧
    (missingByte [0xFF#8] 4#16).OffersUnwritten (bitsOf "1111") 1 ∧ takeCode (bitsOf "1111") = none ∧
    (missingByte [0x17#8] 0#16).Inv ∧ (missingByte [0x17#8] 0#16).OffersUnwritten (bitsOf "11101000") 1 ∧
    cutBoard 7 (bitsOf "11101000") ∧ (∀ h ∈ [0x0C#8, 0x00#8], readHand h = true) ∧
    [0x0C#8, 0x00#8].length < (missingByte [0x17#8] 0#16).params.handCap ∧ decodeHandRec [] = none ∧
    bitsOf "11101000" = readSection [0x0C#8, 0x00#8] ++ [] ∧
    encode (.recKing 80#7) = .stream .king (bitsOf "0000101") ∧
    (bitsOf "111111").length < (bitsOf "0000101").length :=
  ⟨inv_of (by decide +kernel), offersUnwritten_of (by decide +kernel) (by decide +kernel),
    inv_of (by decide +kernel), offersUnwritten_of (by decide +kernel) (by decide +kernel), by decide,
    rfl, by decide, inv_of (by decide +kernel),
    offersUnwritten_of (by decide +kernel) (by decide +kernel), by decide, inv_of (by decide +kernel),
    offersUnwritten_of (by decide +kernel) (by decide +kernel), .inr (.inl (by decide)), by decide,
    by decide, by decide, by decide, by decide, by decide⟩
/-- UNPACK of INLEN bytes of which the last was never written: none of 1, one of 2, 12 of 13. -/
theorem witness_FaultsAreUnspecifiedReads_unpack :
    (missingByte [] 0#16).inlen.toNat ≤ (missingByte [] 0#16).params.inCap ∧
    (session (missingByte [] 0#16)).OffersUnwritten [] 0 ∧ (missingByte [0xDA#8] 0#16).Inv ∧
    (session (missingByte [0xDA#8] 0#16)).OffersUnwritten (false :: bitsOf "1011011") 1 ∧
    cutBoard 7 (bitsOf "1011011") ∧ (missingByte (bytesOf cutStream) 0#16).Inv ∧
    (missingByte (bytesOf cutStream) 0#16).inlen.toNat ≤ 64 ∧
    (session (missingByte (bytesOf cutStream) 0#16)).OffersUnwritten cutStream 12 ∧
    (∀ w ∈ List.replicate 79 0x00#8, legalNonKing w = true) ∧
    ([] : List Byte).length < (missingByte (bytesOf cutStream) 0#16).params.handCap ∧
    decodeHandRec (bitsOf "00") = none :=
  ⟨by decide, offersUnwritten_of (by decide +kernel) (by decide +kernel), inv_of (by decide +kernel),
    offersUnwritten_of (by decide +kernel) (by decide +kernel), .inr (.inl (by decide)),
    inv_of (by decide +kernel), by decide +kernel,
    offersUnwritten_of (by decide +kernel) (by decide +kernel), by decide +kernel, by decide, by decide⟩
theorem witness_OnlyReservedAccessesRefused :
    step { State.reset with script := [.posWrite 127 0#8] } = .refused (.reservedAddress .pos 127) :=
  refused_of (by decide)

end Sys2Proof.Tests
end

section
/-! PROOFS. The invariant along a step (O58): every command keeps it (`exec_safe`, from the laws of
Laws/Invariant.lean), so does every host event (`hostStep_keepsInv`), and a step is one host event. -/

namespace Sys2Proof.Machine

/-! ## The invariant under updates of registers and cells -/

/-- The invariant says nothing of INLEN, HANDLEN and the model's own fields for the host. -/
theorem State.Inv.setUnconstrained {s : State} (h : s.Inv) (n : BitVec 13) (m : Option (BitVec 10))
    (l : List HostEvent) (v : CsrWord) :
    ({ s with inlen := n, handlen := m, script := l, hostData := v } : State).Inv where
  params := h.params
  inWf := h.inWf
  outWf := h.outWf
  posWf := h.posWf
  inBounded := h.inBounded
  outBounded := h.outBounded
  posBounded := h.posBounded
  writer := h.writer
  rlen := h.rlen
  rpos := h.rpos
  result := h.result
  status := h.status

theorem State.Inv.answer {s : State} (h : s.Inv) (v : CsrWord) : (s.answer v).Inv :=
  h.setUnconstrained s.inlen s.handlen s.script v

/-- The empty writer agrees with any OUT. -/
theorem writerOk_reset (s : State) : s.WriterOk Writer.reset :=
  ⟨Nat.zero_le _, fun a ha => absurd ha (Nat.not_lt_zero a), by decide⟩

theorem statusOk_zero : statusOk 0#32 := by decide

/-- RESET: the registers at their 10_state.md R38 values over memories that meet the invariant. -/
theorem execReset_safe {s : State} (h : s.Inv) : SafeOutcome s (execReset s) :=
  ⟨{ params := h.params
     inWf := h.inWf
     outWf := h.outWf
     posWf := h.posWf
     inBounded := h.inBounded
     outBounded := h.outBounded
     posBounded := h.posBounded
     writer := fun _ hw => by cases hw; exact writerOk_reset _
     rlen := Nat.zero_le _
     rpos := Nat.zero_le _
     result := Nat.zero_lt_succ _
     status := statusOk_zero }, rfl⟩

theorem resetWith_inv {p : Params} (hp : p.legal) : (State.resetWith p).Inv where
  params := hp
  inWf := Memory.wf_nil
  outWf := Memory.wf_nil
  posWf := Memory.wf_nil
  inBounded := fun _ hc => by cases hc
  outBounded := fun _ hc => by cases hc
  posBounded := fun _ hc => by cases hc
  writer := fun _ hw => by cases hw; exact writerOk_reset _
  rlen := Nat.zero_le _
  rpos := Nat.zero_le _
  result := Nat.zero_lt_succ _
  status := statusOk_zero

theorem State.Inv.hardReset {s : State} (h : s.Inv) : s.hardReset.Inv :=
  (resetWith_inv h.params).setUnconstrained 0#13 (some 0#10) s.script s.hostData

/-- One more cell of IN or POS is written; OUT, whose bytes the writer counts, has no host write
(20_memory.md R50). -/
theorem State.Inv.writeCell {s : State} (h : s.Inv) {sp : Space} (hsp : sp ≠ .out) {a : Nat}
    (v : Byte) (ha : s.hasAddr sp a = true) :
    (s.setCells sp (Memory.write (s.cells sp) a v)).Inv := by
  cases sp with
  | inp =>
    exact {
      params := h.params
      inWf := Memory.wf_write _ _ _ h.inWf
      outWf := h.outWf
      posWf := h.posWf
      inBounded := fun c hc => by
        rcases Memory.mem_write hc with hc | hc
        · rw [hc]; exact ha
        · exact h.inBounded c hc
      outBounded := h.outBounded
      posBounded := h.posBounded
      writer := h.writer
      rlen := h.rlen
      rpos := h.rpos
      result := h.result
      status := h.status }
  | out => exact absurd rfl hsp
  | pos =>
    have hw := memWrite_pos_safe s a v ha s ⟨h, rfl⟩
    rw [memWrite_ok v ha] at hw
    exact hw.1
  | lut => exact h

/-! ## The commands -/

theorem kindNum_ne_seven (k : Kind) : k.num ≠ 7#3 := by cases k <;> decide

theorem squareKind_legalNonKing {w : Byte} (h : legalNonKing w = true) : squareKind w ≠ 7#3 :=
  squareKind_legal w (by simp [legalSquare, h])

/-- A stream item that delivers its value to RESULT. -/
theorem item_safe {s : State} (hs : s.Inv) (len : Nat) (sec : Sec) {n : Nat} (hn : n ≤ 16)
    (v : BitVec n) : SafeOutcome s (finish spoilNothing (takeItem len sec (setResult v)) s) :=
  finish_safe spoilOk_nothing hs (takeItem_safe s len sec (setResult_safe s hn v))

/-- Every instruction keeps the invariant and the parameters, and stops only for a read of something
unspecified. -/
theorem exec_safe {s : State} (hs : s.Inv) (i : Instr) : SafeOutcome s (exec i s) := by
  have hst := SameParams.stable s
  cases i with
  | reset => exact execReset_safe hs
  | clrerr => exact ⟨hs.setStatus statusOk_zero, rfl⟩
  | wInit => exact finish_safe spoilOk_nothing hs (initWriter_safe hst)
  | wBit b => exact finish_safe spoilOk_writer hs (putBit_safe hst b .prim)
  | wLe7 v => exact finish_safe spoilOk_writer hs (putBits_safe hst (le7Bits v) .prim)
  | wCode k => exact finish_safe spoilOk_writer hs (putCode_safe hst k.num (kindNum_ne_seven k) .prim)
  | wFlush => exact finish_safe spoilOk_writer hs (flush_safe hst .prim)
  | rLoad => exact finish_safe spoilOk_nothing hs (loadReader_safe s)
  | rExh =>
    exact finish_safe spoilOk_nothing hs <|
      Cmd.safe_bind (Cmd.safe_get State.exhausted) fun _ => setResult_safe s (by decide) _
  | rBit =>
    exact finish_safe spoilOk_nothing hs <| Cmd.safe_bind (Cmd.safe_get _) fun off =>
      Cmd.safe_bind (getBit_safe s .prim off) fun _ => setResult_safe s (by decide) _
  | rLe7 =>
    exact finish_safe spoilOk_nothing hs <|
      Cmd.safe_bind (getLE7_safe s .prim) fun _ => setResult_safe s (by decide) _
  | rCode =>
    exact finish_safe spoilOk_nothing hs <| Cmd.safe_bind (Cmd.safe_get _) fun off =>
      Cmd.safe_bind (decodeKind_safe s .prim off) fun _ => setResult_safe s (by decide) _
  | turnEnc => exact turnEnc_safe hs
  | turnDec => exact finish_safe spoilOk_turn hs (decTurn_safe s)
  | sqEnc w =>
    exact finish_safe spoilOk_writer hs <| Cmd.safe_ite
      (fun hw => encSquare_safe hst w (squareKind_legalNonKing hw) .board)
      fun _ => Cmd.safe_raise (by decide) _ _
  | sqDec =>
    exact finish_safe spoilOk_nothing hs <|
      Cmd.safe_bind (decSquare_safe s .board) fun _ => setResult_safe s (by decide) _
  | hrecEnc h =>
    exact finish_safe spoilOk_writer hs <| Cmd.safe_ite
      (fun hh => encHandRec_safe hst h (handKind_legal h hh) .hand)
      fun _ => Cmd.safe_raise (by decide) _ _
  | hrecDec =>
    exact finish_safe spoilOk_nothing hs <| Cmd.safe_bind (Cmd.safe_get _) fun _ =>
      Cmd.safe_ite (fun _ => setResult_safe s (by decide) _) fun _ =>
        Cmd.safe_bind (decHandRec_safe s .hand) fun _ => setResult_safe s (by decide) _
  | boardEnc => exact boardEnc_safe hs
  | boardDec => exact finish_safe spoilOk_board hs (decBoard_safe s)
  | handEnc => exact handEnc_safe hs
  | handDec => exact finish_safe spoilOk_hand hs (decHand_safe s)
  | pack => exact pack_safe hs
  | unpack =>
    exact finish_safe spoilOk_position hs <| Cmd.safe_bind (loadReader_safe s) fun _ =>
      Cmd.safe_bind (decTurn_safe s) fun _ => Cmd.safe_bind (decBoard_safe s) fun _ =>
      Cmd.safe_bind (decHand_safe s) fun _ => Cmd.safe_bind getHandlen_safe fun _ =>
      setResult_safe s (by decide) _
  | recTurn t =>
    exact finish_safe spoilOk_turn hs <|
      takeItem_safe s 1 .turn (memWrite_pos_safe s _ _ (hasAddr_board (by decide)))
  | codePawn | codeLance | codeKnight | codeSilver | codeGold | codeBishop | codeRook | recKing _
  | recSqEmpty | recSqPiece _ _ _ | recSqGold _ | recHand _ _ _ | recHandGold _ =>
    exact item_safe hs _ _ (by decide) _

/-- Dispatch raises only errors that some command raises (60_exceptions.md R240). -/
theorem rejectErr_code (r : Reject) : 3 ≤ (rejectErr r).kind.code.toNat := by cases r <;> decide

theorem dispatch_safe {s : State} (hs : s.Inv) (word : CsrWord) : SafeOutcome s (dispatch word s) := by
  unfold dispatch
  split
  · exact exec_safe hs _
  · exact ⟨hs.setStatus (statusOk_raised (rejectErr_code _)), rfl⟩

/-! ## The host's accesses -/

/-- What a host write to the CSR space can do. -/
theorem csrWrite_next_cases {a : BitVec 4} {v : CsrWord} {s t : State} (h : csrWrite a v s = .next t) :
    dispatch v s = .next t ∨ t = s ∨ t = { s with inlen := v.setWidth 13 } ∨
      t = { s with handlen := some (v.setWidth 10) } := by
  unfold csrWrite at h
  split at h
  case h_1 => exact .inl h
  case h_8 => cases h; exact .inr (.inr (.inl rfl))
  case h_9 => cases h; exact .inr (.inr (.inr rfl))
  case h_10 => cases h
  all_goals cases h; exact .inr (.inl rfl)

/-- A host read of the CSR space that answers changes nothing else (20_memory.md R59). -/
theorem csrRead_next {a : BitVec 4} {s t : State} (h : csrRead a s = .next t) :
    ∃ v, t = s.answer v := by
  unfold csrRead at h
  split at h
  case h_4 | h_5 | h_9 =>
    split at h
    · cases h; exact ⟨_, rfl⟩
    · cases h
  case h_10 => cases h
  all_goals cases h; exact ⟨_, rfl⟩

theorem hostWrite_next {sp : Space} {a : Nat} {v : Byte} {s t : State}
    (h : hostWrite sp a v s = .next t) :
    s.hasAddr sp a = true ∧ t = s.setCells sp (Memory.write (s.cells sp) a v) := by
  unfold hostWrite at h
  split at h
  · next ha => cases h; exact ⟨ha, rfl⟩
  · cases h

theorem hostRead_next {sp : Space} {a : Nat} {s t : State} (h : hostRead sp a s = .next t) :
    ∃ v, t = s.answer v := by
  unfold hostRead at h
  split at h
  · split at h
    · cases h; exact ⟨_, rfl⟩
    · cases h
  · cases h

/-! ## The step -/

theorem SafeOutcome.next {s t : State} {o : Host.Outcome State Fault Refusal} (h : SafeOutcome s o)
    (ho : o = .next t) : t.Inv ∧ t.params = s.params := by rw [ho] at h; exact h

theorem csrWrite_keeps_inv {a : BitVec 4} {v : CsrWord} {s t : State} (hs : s.Inv)
    (h : csrWrite a v s = .next t) : t.Inv ∧ t.params = s.params := by
  rcases csrWrite_next_cases h with hd | rfl | rfl | rfl
  · exact (dispatch_safe hs v).next hd
  · exact ⟨hs, rfl⟩
  · exact ⟨hs.setUnconstrained _ s.handlen s.script s.hostData, rfl⟩
  · exact ⟨hs.setUnconstrained s.inlen _ s.script s.hostData, rfl⟩

theorem answer_keeps_inv {s t : State} (hs : s.Inv) (h : ∃ v, t = s.answer v) :
    t.Inv ∧ t.params = s.params := by
  obtain ⟨v, rfl⟩ := h
  exact ⟨hs.answer v, rfl⟩

theorem hostWrite_keeps_inv {sp : Space} (hsp : sp ≠ .out) {a : Nat} {v : Byte} {s t : State}
    (hs : s.Inv) (h : hostWrite sp a v s = .next t) : t.Inv ∧ t.params = s.params := by
  obtain ⟨ha, rfl⟩ := hostWrite_next h
  exact ⟨hs.writeCell hsp v ha, State.setCells_params ..⟩

theorem hostStep_keeps_inv {ev : HostEvent} {s t : State} (hs : s.Inv) (h : hostStep ev s = .next t) :
    t.Inv ∧ t.params = s.params := by
  cases ev with
  | csrWrite a v => exact csrWrite_keeps_inv hs h
  | csrRead a => exact answer_keeps_inv hs (csrRead_next h)
  | inWrite a v | posWrite a v => exact hostWrite_keeps_inv (by decide) hs h
  | inRead a | outRead a | posRead a => exact answer_keeps_inv hs (hostRead_next h)
  | hardReset => cases h; exact ⟨hs.hardReset, rfl⟩

/-- A step is idle, or it is the host's next event with that event off the script. -/
theorem step_next_cases {s t : State} (h : step s = .next t) :
    t = s ∨ ∃ ev rest, hostStep ev { s with script := rest } = .next t := by
  unfold step runScript at h
  split at h
  · cases h; exact .inl rfl
  · exact .inr ⟨_, _, h⟩

/-- Settles O58: a step is idle or one host event, and the script it takes the event from is none of the
invariant's concern. -/
theorem stepKeepsInvariant : Obligations.StepKeepsInvariant := by
  intro s t hs h
  rcases step_next_cases h with rfl | ⟨ev, rest, he⟩
  · exact ⟨hs, rfl⟩
  · exact hostStep_keeps_inv (s := { s with script := rest })
      (hs.setUnconstrained s.inlen s.handlen rest s.hostData) he

end Sys2Proof.Machine
end

section
/-! PROOFS. The CSR map (O12), the host's accesses of IN, OUT and POS (O14), the legal square words (O7)
and the invariant at reset (O57): what each host access does, one lemma per case. -/

namespace Sys2Proof.Machine

/-! ## The CSR space -/

/-- A reserved CSR address is refused (20_memory.md R56). -/
theorem csrRead_reserved {a : BitVec 4} (ha : 9 ≤ a.toNat) (s : State) :
    csrRead a s = .refused (.reservedCsr a) := by
  unfold csrRead
  split
  case h_10 => rfl
  all_goals omega

theorem csrWrite_reserved {a : BitVec 4} (ha : 9 ≤ a.toNat) (v : CsrWord) (s : State) :
    csrWrite a v s = .refused (.reservedCsr a) := by
  unfold csrWrite
  split
  case h_10 => rfl
  all_goals omega

/-- A write of a read-only register has no effect (10_state.md R34). -/
theorem csrWrite_readOnly {a : BitVec 4} (ha : a ∈ [0x1#4, 0x2#4, 0x3#4, 0x4#4, 0x6#4, 0x7#4])
    (v : CsrWord) (s : State) : csrWrite a v s = .next s := by
  simp only [List.mem_cons, List.not_mem_nil, or_false] at ha
  rcases ha with rfl | rfl | rfl | rfl | rfl | rfl <;> rfl

theorem csrRead_outlen {s : State} {w : Writer} (hw : s.writer = some w) :
    csrRead 0x3#4 s = .next (s.answer (w.outlen.setWidth 32)) := by simp [csrRead, hw]

theorem csrRead_wstate {s : State} {w : Writer} (hw : s.writer = some w) :
    csrRead 0x4#4 s = .next (s.answer ((w.wcnt ++ w.wacc).setWidth 32)) := by simp [csrRead, hw]

theorem csrRead_outlen_unspecified {s : State} (hw : s.writer = none) :
    csrRead 0x3#4 s = .fault .unspecifiedWriter := by simp [csrRead, hw]

theorem csrRead_wstate_unspecified {s : State} (hw : s.writer = none) :
    csrRead 0x4#4 s = .fault .unspecifiedWriter := by simp [csrRead, hw]

theorem csrRead_handlen {s : State} {n : BitVec 10} (hn : s.handlen = some n) :
    csrRead 0x8#4 s = .next (s.answer (n.setWidth 32)) := by simp [csrRead, hn]

theorem csrRead_handlen_unspecified {s : State} (hn : s.handlen = none) :
    csrRead 0x8#4 s = .fault .unspecifiedHandlen := by simp [csrRead, hn]

/-- WSTATE is WACC in bits 7:0 and WCNT above it (10_state.md R34). -/
theorem wstate_eq (w : Writer) :
    (w.wcnt ++ w.wacc).setWidth 32 = BitVec.ofNat 32 (w.wacc.toNat + 256 * w.wcnt.toNat) := by
  have hacc := w.wacc.isLt
  apply BitVec.eq_of_toNat_eq
  rw [BitVec.toNat_setWidth, BitVec.toNat_append, BitVec.toNat_ofNat,
    ← Nat.shiftLeft_add_eq_or_of_lt hacc, Nat.shiftLeft_eq, Nat.mul_comm, Nat.add_comm]

/-- A register of n bits takes what is written modulo 2^n (10_state.md R34). -/
theorem setWidth_eq_ofNat_mod (v : CsrWord) {n m : Nat} (hm : m = 2 ^ n) :
    v.setWidth n = BitVec.ofNat n (v.toNat % m) := by
  apply BitVec.eq_of_toNat_eq
  simp [hm]

/-- Settles O12: each address by the lemma of its case; the rest of the map is the definition's. -/
theorem csrMap : Obligations.CsrMap := by
  intro s v
  refine ⟨rfl, rfl, rfl, fun w hw => ⟨csrRead_outlen hw, ?_⟩,
    fun hw => ⟨csrRead_outlen_unspecified hw, csrRead_wstate_unspecified hw⟩, rfl, rfl, rfl,
    fun n hn => csrRead_handlen hn, csrRead_handlen_unspecified, rfl,
    fun a ha => csrWrite_readOnly ha v s, ?_, ?_,
    fun a ha => ⟨csrRead_reserved ha s, csrWrite_reserved ha v s⟩⟩
  · rw [csrRead_wstate hw, wstate_eq]; rfl
  · rw [← setWidth_eq_ofNat_mod v (m := 8192) rfl]; rfl
  · rw [← setWidth_eq_ofNat_mod v (m := 1024) rfl]; rfl

/-! ## The addressed spaces -/

theorem hasAddr_inp_iff (s : State) (a : Nat) : s.hasAddr .inp a = true ↔ a < s.params.inCap := by
  simp [State.hasAddr]

theorem hasAddr_out_iff (s : State) (a : Nat) : s.hasAddr .out a = true ↔ a < s.params.outCap := by
  simp [State.hasAddr]

theorem hasAddr_pos_iff (s : State) (a : Nat) :
    s.hasAddr .pos a = true ↔ a ≤ 81 ∨ 128 ≤ a ∧ a < 128 + s.params.handCap := by
  simp [State.hasAddr]

theorem State.cells_setCells {sp : Space} (hsp : sp ≠ .lut) (s : State) (m : List Host.Cell) :
    (s.setCells sp m).cells sp = m := by
  cases sp with
  | inp | out | pos => rfl
  | lut => exact absurd rfl hsp

/-- A cell after one cell of its space was written. -/
theorem State.cell_setCells_write {sp : Space} (hsp : sp ≠ .lut) (s : State) (a b : Nat) (v : Byte) :
    (s.setCells sp (Memory.write (s.cells sp) a v)).cell sp b =
      if a = b then some v else s.cell sp b := by
  rw [State.cell, State.cells_setCells hsp, Memory.read_write, State.cell]

theorem hostWrite_ok {s : State} {sp : Space} {a : Nat} (ha : s.hasAddr sp a = true) (v : Byte) :
    hostWrite sp a v s = .next (s.setCells sp (Memory.write (s.cells sp) a v)) := if_pos ha

theorem hostWrite_reserved {s : State} {sp : Space} {a : Nat} (ha : s.hasAddr sp a = false) (v : Byte) :
    hostWrite sp a v s = .refused (.reservedAddress sp a) := by simp [hostWrite, ha]

theorem hostRead_ok {s : State} {sp : Space} {a : Nat} {v : Byte} (ha : s.hasAddr sp a = true)
    (hc : s.cell sp a = some v) : hostRead sp a s = .next (s.answer (v.setWidth 32)) := by
  simp [hostRead, ha, hc]

theorem hostRead_unwritten {s : State} {sp : Space} {a : Nat} (ha : s.hasAddr sp a = true)
    (hc : s.cell sp a = none) : hostRead sp a s = .fault (.unwritten sp a) := by
  simp [hostRead, ha, hc]

theorem hostRead_reserved {s : State} {sp : Space} {a : Nat} (ha : s.hasAddr sp a = false) :
    hostRead sp a s = .refused (.reservedAddress sp a) := by simp [hostRead, ha]

/-- A host write of one cell sets that cell and no other (20_memory.md R50). -/
theorem hostWrite_sets_cell {s : State} {sp : Space} (hsp : sp ≠ .lut) {a : Nat} (v : Byte)
    (ha : s.hasAddr sp a = true) :
    ∃ t, hostWrite sp a v s = .next t ∧ t = s.setCells sp (t.cells sp) ∧ t.cell sp a = some v ∧
      ∀ b, b ≠ a → t.cell sp b = s.cell sp b := by
  refine ⟨_, hostWrite_ok ha v, by rw [State.cells_setCells hsp], ?_, fun b hb => ?_⟩
  · rw [State.cell_setCells_write hsp, if_pos rfl]
  · rw [State.cell_setCells_write hsp, if_neg hb.symm]

/-- Settles O14: the addresses by the definition of each space, the accesses by the lemma of each case. -/
theorem hostMemoryAccess : Obligations.HostMemoryAccess := by
  refine fun s => ⟨fun a => ⟨hasAddr_inp_iff s a, hasAddr_out_iff s a, hasAddr_pos_iff s a⟩,
    fun sp a v hsp ha => hostWrite_sets_cell ?_ v ha, fun sp a v => hostRead_ok,
    fun sp a _ => hostRead_unwritten,
    fun sp a v _ ha => ⟨hostRead_reserved ha, fun _ => hostWrite_reserved ha v⟩⟩
  rcases hsp with rfl | rfl <;> decide

/-! ## The legal square words -/

/-- squareWord is the layout of 10_state.md R31 as a number. -/
theorem toNat_squareWord (k : Kind) (p c : Bool) :
    (squareWord k p c).toNat = pieceNumber k.num.toNat p.toNat c.toNat := by
  cases k <;> cases p <;> cases c <;> rfl

theorem num_toNat_le (k : Kind) : k.num.toNat ≤ 6 := by cases k <;> decide

theorem eq_gold_of_num {k : Kind} (h : k.num.toNat = 4) : k = .gold := by
  revert h; cases k <;> decide

theorem exists_kind_num {n : Nat} (h : n ≤ 6) : ∃ k : Kind, k.num.toNat = n := by
  have key : ∀ n ≤ 6, ∃ k ∈ Kind.all, k.num.toNat = n := by decide
  obtain ⟨k, -, hk⟩ := key n h
  exact ⟨k, hk⟩

theorem exists_bool_toNat {n : Nat} (h : n ≤ 1) : ∃ b : Bool, b.toNat = n := by
  rcases Nat.le_one_iff_eq_zero_or_eq_one.1 h with rfl | rfl
  · exact ⟨false, rfl⟩
  · exact ⟨true, rfl⟩

/-- The pieces are the words squareWord builds, promoted GOLD left out (10_state.md R31). -/
theorem isPiece_iff {w : Byte} :
    IsPiece w ↔ ∃ k p c, (k = Kind.gold → p = false) ∧ w = squareWord k p c := by
  constructor
  · rintro ⟨n, hn, pn, hp, cn, hc, hg, hw⟩
    obtain ⟨k, rfl⟩ := exists_kind_num hn
    obtain ⟨p, rfl⟩ := exists_bool_toNat hp
    obtain ⟨c, rfl⟩ := exists_bool_toNat hc
    refine ⟨k, p, c, ?_, BitVec.eq_of_toNat_eq (hw.trans (toNat_squareWord k p c).symm)⟩
    rintro rfl
    simpa using hg rfl
  · rintro ⟨k, p, c, hg, rfl⟩
    refine ⟨k.num.toNat, num_toNat_le k, p.toNat, p.toNat_le, c.toNat, c.toNat_le, fun h4 => ?_,
      toNat_squareWord k p c⟩
    rw [hg (eq_gold_of_num h4)]; rfl

/-- LegalNonKing is the empty square or a piece (42_records.md R176). -/
theorem legalNonKing_iff {w : Byte} : legalNonKing w = true ↔ w = 0x00#8 ∨ IsPiece w := by
  constructor
  · intro hw
    refine (legalNonKing_cases w hw).imp_right fun ⟨k, _, _, he, hg⟩ => ?_
    exact isPiece_iff.2 ⟨k, _, _, hg, he⟩
  · rintro (rfl | hp)
    · rfl
    · obtain ⟨k, p, c, hg, rfl⟩ := isPiece_iff.1 hp
      exact legalNonKing_squareWord k p c hg

theorem legalSquare_iff {w : Byte} :
    legalSquare w = true ↔ w = blackKing ∨ w = whiteKing ∨ legalNonKing w = true := by
  simp [legalSquare, or_assoc]

/-- Settles O7: a legal word is a king or a LegalNonKing word; the 29 are counted over the 256 bytes. -/
theorem legalSquareWords : Obligations.LegalSquareWords := by
  refine ⟨fun w => ?_, by decide +kernel⟩
  rw [legalSquare_iff, legalNonKing_iff]
  exact (or_congr_right or_left_comm).trans or_left_comm

/-! ## Reset -/

/-- Settles O57: the invariant of every reset state, at the test vectors' parameters too. -/
theorem resetHasInvariant : Obligations.ResetHasInvariant :=
  ⟨fun _ => resetWith_inv, resetWith_inv (by decide)⟩

end Sys2Proof.Machine
end

section
/-! PROOFS. Faults are reads of something unspecified (O59). One direction: `exec_safe` says which faults
there are and `exec_honest` that they name what was unspecified. The other: each part that reads the
writer, HANDLEN, POS or IN stops on it, and a command stops where its part does. -/

namespace Sys2Proof.Machine

/-! ## Where a step faults -/

/-- A fault for something unspecified names what was so in s. -/
def HonestOutcome (s : State) (o : Host.Outcome State Fault Refusal) : Prop :=
  ∀ f : Fault, o = .fault f → f.unspecifiedRead → f.unspecifiedIn s

theorem honestOutcome_next {s t : State} : HonestOutcome s (.next t) := nofun

theorem honestOutcome_finish {spoil : ErrKind → State → State} {c : Cmd Unit} {s : State}
    (h : c.Honest) : HonestOutcome s (finish spoil c s) := fun _ => finish_honest h

/-- Every part of every instruction is honest, so every instruction is. -/
theorem exec_honest (i : Instr) (s : State) : HonestOutcome s (exec i s) := by
  cases i with
  | reset | clrerr => exact honestOutcome_next
  | wInit => exact honestOutcome_finish (spoil := spoilNothing) honest_initWriter
  | wBit b => exact honestOutcome_finish (honest_putBit _ _)
  | wLe7 v => exact honestOutcome_finish (honest_putBits _ _)
  | wCode k => exact honestOutcome_finish (honest_putCode _ _)
  | wFlush => exact honestOutcome_finish (honest_flush _)
  | rLoad => exact honestOutcome_finish honest_loadReader
  | rExh =>
    exact honestOutcome_finish (spoil := spoilNothing)
      (honest_bind (honest_get State.exhausted) fun _ => honest_setResult _)
  | rBit =>
    exact honestOutcome_finish (honest_bind (honest_get _) fun _ =>
      honest_bind (honest_getBit _ _) fun _ => honest_setResult _)
  | rLe7 => exact honestOutcome_finish (honest_bind (honest_getLE7 _) fun _ => honest_setResult _)
  | rCode =>
    exact honestOutcome_finish (honest_bind (honest_get _) fun _ =>
      honest_bind (honest_decodeKind _ _) fun _ => honest_setResult _)
  | turnEnc => exact honestOutcome_finish (honest_bind honest_checkTurn fun _ => honest_encTurn)
  | turnDec => exact honestOutcome_finish honest_decTurn
  | sqEnc w => exact honestOutcome_finish (honest_ite (honest_encSquare _ _) (honest_raise _ _ _))
  | sqDec => exact honestOutcome_finish (honest_bind (honest_decSquare _) fun _ => honest_setResult _)
  | hrecEnc w => exact honestOutcome_finish (honest_ite (honest_encHandRec _ _) (honest_raise _ _ _))
  | hrecDec =>
    exact honestOutcome_finish (honest_bind (honest_get _) fun _ => honest_ite (honest_setResult _) <|
      honest_bind (honest_decHandRec _) fun _ => honest_setResult _)
  | boardEnc =>
    exact honestOutcome_finish (honest_bind honest_validateBoard fun _ => honest_encBoard _ _)
  | boardDec => exact honestOutcome_finish honest_decBoard
  | handEnc => exact honestOutcome_finish (honest_bind honest_checkHand fun _ => honest_encHand _)
  | handDec => exact honestOutcome_finish honest_decHand
  | pack => exact honestOutcome_finish honest_packPosition
  | unpack =>
    exact honestOutcome_finish (honest_bind honest_loadReader fun _ => honest_readPosition)
  | recTurn t => exact honestOutcome_finish (honest_takeItem _ _ (honest_memWrite _ _ _))
  | codePawn | codeLance | codeKnight | codeSilver | codeGold | codeBishop | codeRook | recKing _
  | recSqEmpty | recSqPiece _ _ _ | recSqGold _ | recHand _ _ _ | recHandGold _ =>
    exact honestOutcome_finish (honest_takeItem _ _ (honest_setResult _))

theorem exec_fault {s : State} (hs : s.Inv) {i : Instr} {f : Fault} (h : exec i s = .fault f) :
    f.unspecifiedIn s := by
  have hsafe := exec_safe hs i
  rw [h] at hsafe
  exact exec_honest i s f h hsafe

theorem dispatch_fault {s : State} (hs : s.Inv) {word : CsrWord} {f : Fault}
    (h : dispatch word s = .fault f) : f.unspecifiedIn s := by
  unfold dispatch at h
  split at h
  · exact exec_fault hs h
  · cases h

/-- A host write to the CSR space faults only where the command it dispatches does. -/
theorem csrWrite_fault {s : State} (hs : s.Inv) {a : BitVec 4} {v : CsrWord} {f : Fault}
    (h : csrWrite a v s = .fault f) : f.unspecifiedIn s := by
  unfold csrWrite at h
  split at h
  case h_1 => exact dispatch_fault hs h
  all_goals cases h

/-- A host read of the CSR space faults only for an unspecified OUTLEN, WSTATE or HANDLEN (60_exceptions.md
R244). -/
theorem csrRead_fault {s : State} {a : BitVec 4} {f : Fault} (h : csrRead a s = .fault f) :
    f.unspecifiedIn s := by
  unfold csrRead at h
  split at h
  case h_4 | h_5 | h_9 =>
    split at h
    · cases h
    · cases h; assumption
  all_goals cases h

theorem hostWrite_ne_fault {sp : Space} {a : Nat} {v : Byte} {s : State} (f : Fault) :
    hostWrite sp a v s ≠ .fault f := by
  unfold hostWrite
  split <;> nofun

/-- A host read of a cell faults only where the cell is unwritten (10_state.md R38). -/
theorem hostRead_fault {sp : Space} (hsp : sp ≠ .lut) {a : Nat} {s : State} {f : Fault}
    (h : hostRead sp a s = .fault f) : f.unspecifiedIn s := by
  cases ha : s.hasAddr sp a with
  | false => rw [hostRead_reserved ha] at h; cases h
  | true =>
    cases hc : s.cell sp a with
    | some v => rw [hostRead_ok ha hc] at h; cases h
    | none => rw [hostRead_unwritten ha hc] at h; cases h; exact ⟨hsp, ha, hc⟩

theorem hostStep_fault {s : State} (hs : s.Inv) {ev : HostEvent} {f : Fault}
    (h : hostStep ev s = .fault f) : f.unspecifiedIn s := by
  cases ev with
  | csrWrite a v => exact csrWrite_fault hs h
  | csrRead a => exact csrRead_fault h
  | inWrite a v | posWrite a v => exact absurd h (hostWrite_ne_fault f)
  | inRead a | outRead a | posRead a => exact hostRead_fault (by decide) h
  | hardReset => cases h

/-- The script is nothing a fault speaks of. -/
theorem unspecifiedIn_setScript {s : State} {rest : List HostEvent} {f : Fault}
    (h : f.unspecifiedIn { s with script := rest }) : f.unspecifiedIn s := by
  cases f with
  | unwritten sp a => cases sp <;> exact h
  | unspecifiedWriter | unspecifiedHandlen | noSuchAddress _ _ | unmatchedCode => exact h

theorem step_fault {s : State} (hs : s.Inv) {f : Fault} (h : step s = .fault f) :
    f.unspecifiedIn s := by
  unfold step runScript at h
  split at h
  · cases h
  · next ev rest _ =>
      exact unspecifiedIn_setScript <| hostStep_fault (s := { s with script := rest })
        (hs.setUnconstrained s.inlen s.handlen rest s.hostData) h

/-! ## An unspecified writer -/

section unspecifiedWriter
variable {s : State} (hw : s.writer = none)
include hw

theorem putBits_unspecified {bits : List Bool} (hb : bits ≠ []) (sec : Sec) :
    putBits bits sec s = .stopped .unspecifiedWriter := by
  cases bits with
  | nil => exact absurd rfl hb
  | cons b bits => rw [putBits_cons, Cmd.bind_stopped (putBit_unspecified b sec hw)]

theorem flush_unspecified (sec : Sec) : flush sec s = .stopped .unspecifiedWriter := by
  have hg : getWriter s = .stopped .unspecifiedWriter := by simp [getWriter, hw]
  rw [flush, Cmd.bind_stopped hg]

end unspecifiedWriter

theorem recordBits_ne_nil (k : Kind) (p c : Bool) : recordBits k p c ≠ [] := by simp [recordBits]

theorem text_ne_nil (k : Kind) : k.text ≠ [] := by cases k <;> simp [Kind.text]

theorem squareBits_ne_nil {w : Byte} (hw : legalNonKing w = true) : squareBits w ≠ [] := by
  rcases legalNonKing_cases w hw with rfl | ⟨k, -, -, he, -⟩
  · simp [squareBits_empty]
  · rw [he, squareBits_squareWord]; simp

theorem handBits_ne_nil {h : Byte} (hh : legalHand h = true) : handBits h ≠ [] := by
  obtain ⟨k, hk, -⟩ := legalHand_cases h hh
  rw [handBits, hk]
  exact recordBits_ne_nil _ _ _

theorem handSection_ne_nil {hs : List Byte} (hne : hs ≠ []) (hl : ∀ h ∈ hs, legalHand h = true) :
    handSection hs ≠ [] := by
  obtain ⟨h, rest, rfl⟩ := List.exists_cons_of_ne_nil hne
  have := handBits_ne_nil (hl h List.mem_cons_self)
  simp [handSection, this]

section writerCommands
variable {s : State} (hw : s.writer = none)
include hw

theorem wCode_unspecified (k : Kind) : exec (.wCode k) s = .fault .unspecifiedWriter :=
  finish_stopped (by rw [putCode_num]; exact putBits_unspecified hw (text_ne_nil k) .prim)

theorem sqEnc_unspecified {w : Byte} (hl : legalNonKing w = true) :
    exec (.sqEnc w) s = .fault .unspecifiedWriter :=
  finish_stopped (by
    rw [if_pos hl, encSquare_eq w hl]; exact putBits_unspecified hw (squareBits_ne_nil hl) .board)

theorem hrecEnc_unspecified {h : Byte} (hl : legalHand h = true) :
    exec (.hrecEnc h) s = .fault .unspecifiedWriter :=
  finish_stopped (by
    rw [if_pos hl, encHandRec_eq h hl]; exact putBits_unspecified hw (handBits_ne_nil hl) .hand)

theorem turnEnc_unspecified {turn : Bool} (ht : s.cell .pos turnAddr = some (bitByte turn)) :
    exec .turnEnc s = .fault .unspecifiedWriter :=
  finish_stopped (by
    rw [Cmd.bind_done (checkTurn_ok ht), encTurn_eq ht]
    exact putBits_unspecified hw (List.cons_ne_nil _ _) .turn)

theorem boardEnc_unspecified {b : Nat → Byte} {kb kw : Nat} (hb : s.HoldsBoard b)
    (hk : LegalBoard b kb kw) : exec .boardEnc s = .fault .unspecifiedWriter :=
  finish_stopped (by
    rw [Cmd.bind_done (validateBoard_ok hb hk), encBoard_eq hb hk]
    exact putBits_unspecified hw (List.cons_ne_nil _ _) .board)

theorem handEnc_unspecified (hc : s.params.handCap ≤ 896) {hs : List Byte} (hh : s.HoldsHand hs)
    (hl : ∀ h ∈ hs, legalHand h = true) (hne : hs ≠ []) :
    exec .handEnc s = .fault .unspecifiedWriter :=
  finish_stopped (by
    rw [Cmd.bind_done (checkHand_ok hc hh hl), encHand_eq hh hl]
    exact putBits_unspecified hw (handSection_ne_nil hne hl) .hand)

end writerCommands

/-! ## The checks of POS and HANDLEN -/

section checks
variable {s : State} {f : Fault}

theorem checkTurn_unwritten (h : s.cell .pos turnAddr = none) :
    checkTurn s = .stopped (.unwritten .pos turnAddr) := by
  rw [checkTurn, Cmd.bind_stopped (memRead_unwritten (hasAddr_board (by decide)) h)]

theorem turnEnc_fault (h : checkTurn s = .stopped f) : exec .turnEnc s = .fault f :=
  finish_stopped (Cmd.bind_stopped h)

theorem boardEnc_fault (h : validateBoard s = .stopped f) : exec .boardEnc s = .fault f :=
  finish_stopped (Cmd.bind_stopped h)

theorem handEnc_fault (h : checkHand s = .stopped f) : exec .handEnc s = .fault f :=
  finish_stopped (Cmd.bind_stopped h)

/-! PACK's checks in their order (43_pack_unpack.md R210). -/

theorem pack_fault_turn (h : checkTurn s = .stopped f) : exec .pack s = .fault f :=
  finish_stopped (Cmd.bind_stopped h)

theorem pack_fault_board {turn : Bool} (ht : s.cell .pos turnAddr = some (bitByte turn))
    (h : validateBoard s = .stopped f) : exec .pack s = .fault f :=
  finish_stopped (by rw [packPosition, Cmd.bind_done (checkTurn_ok ht), Cmd.bind_stopped h])

theorem pack_fault_hand {turn : Bool} (ht : s.cell .pos turnAddr = some (bitByte turn))
    {b : Nat → Byte} {kb kw : Nat} (hb : s.HoldsBoard b) (hk : LegalBoard b kb kw)
    (h : checkHand s = .stopped f) : exec .pack s = .fault f :=
  finish_stopped (by
    rw [packPosition, Cmd.bind_done (checkTurn_ok ht), Cmd.bind_done (validateBoard_ok hb hk),
      Cmd.bind_stopped h])

/-- As `validateBoard_unwritten`, for words that are not given as a function. -/
theorem validateBoard_first_unwritten {a : Nat} (ha : a ≤ 80)
    (h : ∀ x < a, ∃ w, s.cell .pos x = some w ∧ legalSquare w = true) (hc : s.cell .pos a = none) :
    validateBoard s = .stopped (.unwritten .pos a) := by
  choose! b hb using h
  exact validateBoard_unwritten b ha (fun x hx => (hb x hx).1) (fun x hx => (hb x hx).2) hc

/-- As `checkHand_unwritten`, for words that are not given as a function. -/
theorem checkHand_first_unwritten {n : BitVec 10} (hn : s.handlen = some n)
    (hcap : n.toNat ≤ s.params.handCap) {i : Nat} (hi : i < n.toNat)
    (h : ∀ j < i, ∃ w, s.cell .pos (128 + j) = some w ∧ legalHand w = true)
    (hc : s.cell .pos (128 + i) = none) : checkHand s = .stopped (.unwritten .pos (128 + i)) := by
  choose! b hb using h
  exact checkHand_unwritten hn hcap b hi (fun j hj => (hb j hj).1) (fun j hj => (hb j hj).2) hc

end checks

/-! ## An unwritten byte of IN -/

/-- A stream item is executed by taking its bits and delivering its value (log entry 5). -/
theorem exec_stream {i : Instr} {f : Form} {item : List Bool} (h : encode i = .stream f item) :
    ∃ spoil sec deliver, ∀ s, exec i s = finish spoil (takeItem item.length sec deliver) s := by
  cases i with
  | codePawn | codeLance | codeKnight | codeSilver | codeGold | codeBishop | codeRook | recTurn _
  | recKing _ | recSqEmpty | recSqGold _ | recHandGold _ => cases h; exact ⟨_, _, _, fun _ => rfl⟩
  | recSqPiece k p c | recHand k p c => cases h; cases k <;> exact ⟨_, _, _, fun _ => rfl⟩
  | _ => cases h

section reader
variable {s : State} (hi : s.RInv) {bits : List Bool} {a : Nat} (h : s.OffersUnwritten bits a)
include hi h

/-- A command that takes the bits there and then GetBit faults on the unwritten byte. -/
theorem finish_unwritten {spoil : ErrKind → State → State} {c : Cmd Unit} {sec : Sec} {off : BitVec 16}
    (hc : c.TakesNext s sec off bits.length) : finish spoil c s = .fault (.unwritten .inp a) := by
  obtain ⟨hi', h'⟩ := h.advance hi
  exact finish_stopped (hc.unwritten hi' h')

theorem rBit_unwritten (hb : bits = []) : exec .rBit s = .fault (.unwritten .inp a) := by
  subst hb
  exact finish_unwritten hi h (getBit_takesNext s .prim s.rpos _)

theorem turnDec_unwritten (hb : bits = []) : exec .turnDec s = .fault (.unwritten .inp a) := by
  subst hb
  exact finish_unwritten hi h (getBit_takesNext s .turn s.rpos _)

theorem rLe7_unwritten (hb : bits.length < 7) : exec .rLe7 s = .fault (.unwritten .inp a) :=
  finish_unwritten hi h ((getLE7_takesNext hi .prim bits h.1 hb).bind _)

theorem rCode_unwritten (hb : takeCode bits = none) : exec .rCode s = .fault (.unwritten .inp a) := by
  rcases takeCode_cases bits with ⟨k, rest, -, hk⟩ | ⟨hp, -⟩
  · rw [hb] at hk; cases hk
  · exact finish_unwritten hi h ((decodeKind_takesNext hi .prim s.rpos bits hp h.1).bind _)

theorem sqDec_unwritten (hb : decodeItem .square bits = .error .endOfStream) :
    exec .sqDec s = .fault (.unwritten .inp a) :=
  finish_unwritten hi h ((decSquare_takesNext hi .board bits (squareEnds_of_cut hb) h.1).bind _)

omit hi in
/-- A reader with an unwritten byte before it has a bit left. -/
theorem State.OffersUnwritten.not_exhausted : s.exhausted = false := by
  rw [Bool.eq_false_iff]
  intro he
  have hend := (s.exhausted_iff).1 he
  have hlt := h.2.1
  omega

theorem hrecDec_unwritten (hb : decodeHandRec bits = none) :
    exec .hrecDec s = .fault (.unwritten .inp a) := by
  obtain ⟨k, hk⟩ :=
    (decHandRec_takesNext hi .hand bits (RecordEnds_of_cut hb) h.1).bind fun w => setResult w
  refine finish_unwritten (sec := .hand) (off := s.rpos) hi h ⟨k, ?_⟩
  rw [Cmd.get_bind_apply, h.not_exhausted, if_neg (by decide), hk]

theorem boardDec_unwritten {off : Nat} (hb : cutBoard off bits) :
    exec .boardDec s = .fault (.unwritten .inp a) :=
  finish_unwritten hi h (decBoard_takesNext hi hb h.1)

theorem item_unwritten {i : Instr} {f : Form} {item : List Bool} (he : encode i = .stream f item)
    (hl : bits.length < item.length) : exec i s = .fault (.unwritten .inp a) := by
  obtain ⟨spoil, sec, deliver, hx⟩ := exec_stream he
  rw [hx]
  exact finish_unwritten hi h ((skipBits_takesNext hi sec s.rpos bits h.1 item.length hl).bind _)

end reader

/-- Settles O59: a step's fault by `step_fault`; each command by the lemma of the part that stops. -/
theorem faultsAreUnspecifiedReads : Obligations.FaultsAreUnspecifiedReads := by
  intro s hs
  have hi := hs.rInv
  obtain ⟨⟨-, hin⟩, -, hcap⟩ := hs.params
  refine ⟨fun f => step_fault hs, fun hw => ?_, fun hn => ?_, fun hc => ?_, fun a ha hx hc => ?_,
    fun n i hn hle hlt hx hc => ?_, fun bits a h => ?_, fun bits a hle h hb => ?_⟩
  · exact ⟨fun b => finish_stopped (putBit_unspecified b .prim hw),
      fun v => finish_stopped (putBits_unspecified hw (List.cons_ne_nil _ _) .prim),
      wCode_unspecified hw, finish_stopped (flush_unspecified hw .prim),
      fun x => sqEnc_unspecified hw, fun x => hrecEnc_unspecified hw,
      fun turn => turnEnc_unspecified hw, fun b kb kw => boardEnc_unspecified hw,
      fun hs => handEnc_unspecified hw hcap⟩
  · have hstop := checkHand_unspecified hn
    exact ⟨handEnc_fault hstop, fun turn b kb kw ht hb hk => pack_fault_hand ht hb hk hstop⟩
  · have hstop := checkTurn_unwritten hc
    exact ⟨turnEnc_fault hstop, pack_fault_turn hstop⟩
  · have hstop := validateBoard_first_unwritten ha hx hc
    exact ⟨boardEnc_fault hstop, fun turn ht => pack_fault_board ht hstop⟩
  · have hstop := checkHand_first_unwritten hn hle hlt hx hc
    exact ⟨handEnc_fault hstop, fun turn b kb kw ht hb hk => pack_fault_hand ht hb hk hstop⟩
  · refine ⟨fun hb => ⟨rBit_unwritten hi h hb, turnDec_unwritten hi h hb⟩, rLe7_unwritten hi h,
      rCode_unwritten hi h, sqDec_unwritten hi h, hrecDec_unwritten hi h,
      fun off => boardDec_unwritten hi h, fun ws cut hw hlen hcut hb => ?_,
      fun i f item => item_unwritten hi h⟩
    subst hb
    exact finish_stopped (decHand_unwritten hi hs.posWf ws hw hlen hcut h)
  · refine finish_stopped ?_
    rw [Cmd.bind_done (loadReader_ok hle)]
    exact readPosition_unwritten (loaded_rInv hin hle) hs.posWf h hb

end Sys2Proof.Machine
end

section
/-! PROOFS. A step is the host's next access (O9), host reads change nothing (O13), and only accesses of
reserved addresses are refused (O60). -/

namespace Sys2Proof.Machine

/-! ## What the command decoder rejects with -/

/-- The IMM forms but KIND are a test of IMM (30_encoding.md R102). -/
theorem form_error {p : Prop} [Decidable p] {i : Instr} {r : Reject}
    (h : (if p then .ok i else .error .invalidOperand : Except Reject Instr) = .error r) :
    r = .invalidOperand := by
  split at h <;> cases h
  rfl

theorem formKind_error {imm : Byte} {r : Reject} (h : formKind imm = .error r) :
    r = .invalidOperand := by
  unfold formKind at h
  split at h <;> cases h
  rfl

/-- A known OPC is rejected by its IMM form only (30_encoding.md R101 to R103). -/
theorem decodeFields_error {opc imm : Byte} {r : Reject} (h : decodeFields opc imm = .error r) :
    r = .illegalCommand ∨ r = .invalidOperand := by
  unfold decodeFields at h
  split at h
  case h_6 => exact .inr (formKind_error h)
  case h_25 => cases h; exact .inl rfl
  all_goals exact .inr (form_error h)

/-- Dispatch raises one of two errors (44_control.md R232). -/
theorem decodeCmd_error {v : CsrWord} {r : Reject} (h : decodeCmd v = .error r) :
    r = .illegalCommand ∨ r = .invalidOperand := by
  unfold decodeCmd at h
  split at h
  · cases h; exact .inl rfl
  · exact decodeFields_error h

/-- A command word written to CMD leaves bits 31:16 zero (30_encoding.md R100). -/
theorem decodeCmd_setWidth (w : CmdWord) : decodeCmd (w.setWidth 32) = decodeCommand w := by
  have hhigh : (w.setWidth 32).extractLsb' 16 16 = 0#16 := by
    apply BitVec.eq_of_toNat_eq
    have := w.isLt
    simp [BitVec.extractLsb'_toNat, Nat.shiftRight_eq_div_pow]
    omega
  rw [decodeCmd, if_neg (not_not_intro hhigh), BitVec.setWidth_setWidth_of_le _ (by decide),
    BitVec.setWidth_eq]

/-! ## The step -/

theorem step_event {s : State} {ev : HostEvent} {rest : List HostEvent} (h : s.script = ev :: rest) :
    step s = hostStep ev { s with script := rest } := by
  unfold step runScript; rw [h]

theorem dispatch_ok {v : CsrWord} {i : Instr} (h : decodeCmd v = .ok i) (s : State) :
    dispatch v s = exec i s := by unfold dispatch; rw [h]

theorem dispatch_error {v : CsrWord} {r : Reject} (h : decodeCmd v = .error r) (s : State) :
    dispatch v s = .next (s.takeError (rejectErr r)) := by unfold dispatch; rw [h]

/-- The host issues a command (30_encoding.md R104). -/
theorem hostStep_issue {w : CmdWord} {i : Instr} (h : decodeCommand w = .ok i) (s : State) :
    hostStep (issue w) s = exec i s :=
  dispatch_ok ((decodeCmd_setWidth w).trans h) s

/-- Settles O9: `step_event` says which access the step is, `dispatch_ok` and `dispatch_error` what a
write of CMD does. -/
theorem stepRunsTheDecodedCommand : Obligations.StepRunsTheDecodedCommand := by
  refine fun s rest => ⟨fun w i h hd => (step_event h).trans (hostStep_issue hd _),
    fun v i h hd => (step_event h).trans (dispatch_ok hd _), fun v r h hd => ?_,
    fun _ _ => step_event, fun _ => step_event, fun _ _ => step_event, fun _ => step_event,
    fun _ => step_event, fun _ _ => step_event, fun _ => step_event, step_event⟩
  have hs : step s = .next (State.takeError (rejectErr r) { s with script := rest }) :=
    (step_event h).trans (dispatch_error hd _)
  rcases decodeCmd_error hd with rfl | rfl
  · exact .inl ⟨rfl, hs⟩
  · exact .inr ⟨rfl, hs⟩

/-! ## Host reads -/

/-- Settles O13: each read answers, and an answer changes only what the host gets back. -/
theorem hostReadsChangeNothing : Obligations.HostReadsChangeNothing := by
  intro s t ev hev h
  have ha : ∃ v, t = s.answer v := by
    rcases hev with ⟨a, rfl⟩ | ⟨n, rfl | rfl | rfl⟩
    · exact csrRead_next h
    all_goals exact hostRead_next h
  obtain ⟨v, rfl⟩ := ha
  rfl

/-! ## Refusals -/

/-- Every arm of exec is a next state or the end of a command in progress. -/
theorem exec_ne_refused (i : Instr) (s : State) (r : Refusal) : exec i s ≠ .refused r := by
  cases i with
  | reset | clrerr | wInit | rExh => nofun
  | _ => exact finish_ne_refused r

theorem dispatch_ne_refused (v : CsrWord) (s : State) (r : Refusal) : dispatch v s ≠ .refused r := by
  unfold dispatch
  split
  · exact exec_ne_refused _ s r
  · nofun

theorem csrWrite_refused {a : BitVec 4} {v : CsrWord} {s : State} {r : Refusal}
    (h : csrWrite a v s = .refused r) : 9 ≤ a.toNat := by
  unfold csrWrite at h
  split at h
  case h_1 => exact absurd h (dispatch_ne_refused v s r)
  case h_10 => simp only [imp_false] at *; omega
  all_goals cases h

theorem csrRead_refused {a : BitVec 4} {s : State} {r : Refusal} (h : csrRead a s = .refused r) :
    9 ≤ a.toNat := by
  unfold csrRead at h
  split at h
  case h_4 | h_5 | h_9 => split at h <;> cases h
  case h_10 => simp only [imp_false] at *; omega
  all_goals cases h

theorem hostWrite_refused {sp : Space} {a : Nat} {v : Byte} {s : State} {r : Refusal}
    (h : hostWrite sp a v s = .refused r) : ¬ s.hasAddr sp a = true := by
  intro ha
  rw [hostWrite_ok ha] at h
  cases h

theorem hostRead_refused {sp : Space} {a : Nat} {s : State} {r : Refusal}
    (h : hostRead sp a s = .refused r) : ¬ s.hasAddr sp a = true := by
  intro ha
  cases hc : s.cell sp a with
  | some v => rw [hostRead_ok ha hc] at h; cases h
  | none => rw [hostRead_unwritten ha hc] at h; cases h

/-- An address outside its space (20_memory.md R50, R53). -/
theorem le_of_not_hasAddr_inp {s : State} {a : Nat} (h : ¬ s.hasAddr .inp a = true) :
    s.params.inCap ≤ a := by rw [hasAddr_inp_iff] at h; omega

theorem le_of_not_hasAddr_out {s : State} {a : Nat} (h : ¬ s.hasAddr .out a = true) :
    s.params.outCap ≤ a := by rw [hasAddr_out_iff] at h; omega

theorem reserved_of_not_hasAddr_pos {s : State} {a : Nat} (h : ¬ s.hasAddr .pos a = true) :
    81 < a ∧ a < 128 ∨ 128 + s.params.handCap ≤ a := by rw [hasAddr_pos_iff] at h; omega

/-- The host accesses of reserved addresses (20_memory.md R56). -/
def HostEvent.Reserved (p : Params) (ev : HostEvent) : Prop :=
  (∃ a v, (ev = .csrRead a ∨ ev = .csrWrite a v) ∧ 9 ≤ a.toNat) ∨
    (∃ a v, (ev = .inRead a ∨ ev = .inWrite a v) ∧ p.inCap ≤ a) ∨
    (∃ a, ev = .outRead a ∧ p.outCap ≤ a) ∨
    ∃ a v, (ev = .posRead a ∨ ev = .posWrite a v) ∧ (81 < a ∧ a < 128 ∨ 128 + p.handCap ≤ a)

theorem hostStep_refused {ev : HostEvent} {s : State} {r : Refusal} (h : hostStep ev s = .refused r) :
    ev.Reserved s.params := by
  cases ev with
  | csrWrite a v => exact .inl ⟨a, v, .inr rfl, csrWrite_refused h⟩
  | csrRead a => exact .inl ⟨a, 0, .inl rfl, csrRead_refused h⟩
  | inWrite a v => exact .inr (.inl ⟨a, v, .inr rfl, le_of_not_hasAddr_inp (hostWrite_refused h)⟩)
  | inRead a => exact .inr (.inl ⟨a, 0, .inl rfl, le_of_not_hasAddr_inp (hostRead_refused h)⟩)
  | outRead a => exact .inr (.inr (.inl ⟨a, rfl, le_of_not_hasAddr_out (hostRead_refused h)⟩))
  | posWrite a v =>
    exact .inr (.inr (.inr ⟨a, v, .inr rfl, reserved_of_not_hasAddr_pos (hostWrite_refused h)⟩))
  | posRead a =>
    exact .inr (.inr (.inr ⟨a, 0, .inl rfl, reserved_of_not_hasAddr_pos (hostRead_refused h)⟩))
  | hardReset => cases h

/-- Settles O60: exec by `exec_ne_refused`; a step is idle or one host access, and `hostStep_refused` says
which accesses are refused. -/
theorem onlyReservedAccessesRefused : Obligations.OnlyReservedAccessesRefused := by
  refine ⟨fun s i => exec_ne_refused i s, fun s r h => ?_⟩
  cases hs : s.script with
  | nil => unfold step runScript at h; rw [hs] at h; cases h
  | cons ev rest =>
    rw [step_event hs] at h
    exact ⟨ev, rest, rfl, hostStep_refused (s := { s with script := rest }) h⟩

end Sys2Proof.Machine
end

section
/-! PROOFS. The step after withFetchWord runs the instruction placed (O11). A command word is written to
CMD, and the decoder reads an instruction off its own encoding only. A stream item is put where the reader
of its form meets it, and that reader does what the item does (log entry 5). -/

namespace Sys2Proof.Machine

/-! ## A decoded command word is the encoding of its instruction -/

theorem formNone_ok {imm : Byte} {i j : Instr} (h : formNone imm i = .ok j) : imm = 0x00#8 ∧ j = i := by
  unfold formNone at h
  split at h
  · next h0 => cases h; exact ⟨h0, rfl⟩
  · cases h

theorem encode_formBit {imm : Byte} {i : Instr} (h : formBit imm = .ok i) :
    encode i = commandWord 0x11 imm := by
  unfold formBit at h
  split at h
  · next hb => rcases hb with rfl | rfl <;> cases h <;> rfl
  · cases h

/-- A byte below 0x80 is its low 7 bits. -/
theorem setWidth_setWidth_seven {imm : Byte} (h : imm.getLsbD 7 = false) :
    (imm.setWidth 7).setWidth 8 = imm := by
  have hlt : imm.toNat < 128 := BitVec.toNat_lt_of_msb_false ((BitVec.msb_eq_getLsbD_last imm).trans h)
  exact BitVec.setWidth_setWidth_eq_self (by simpa [BitVec.lt_def] using hlt)

theorem encode_formU7 {imm : Byte} {i : Instr} (h : formU7 imm = .ok i) :
    encode i = commandWord 0x12 imm := by
  unfold formU7 at h
  split at h
  · next hb => cases h; rw [encode, setWidth_setWidth_seven hb]
  · cases h

theorem num_ofNum {n : BitVec 3} {k : Kind} (h : Kind.ofNum n = some k) : k.num = n := by
  simpa using List.find?_some h

/-- A byte of at most 6 is its low 3 bits. -/
theorem setWidth_setWidth_three {imm : Byte} (h : imm.toNat ≤ 6) :
    (imm.setWidth 3).setWidth 8 = imm :=
  BitVec.setWidth_setWidth_eq_self
    (by simpa [BitVec.lt_def] using Nat.lt_of_le_of_lt h (by decide : 6 < 8))

theorem encode_formKind {imm : Byte} {i : Instr} (h : formKind imm = .ok i) :
    encode i = commandWord 0x13 imm := by
  unfold formKind at h
  split at h
  · next k hk =>
      cases h
      split at hk
      · next h6 => rw [encode, num_ofNum hk, setWidth_setWidth_three h6]
      · cases hk
  · cases h

theorem encode_formSqw {imm : Byte} {i : Instr} (h : formSqw imm = .ok i) :
    encode i = commandWord 0x32 imm := by
  unfold formSqw at h
  split at h <;> cases h
  rfl

theorem encode_formHrw {imm : Byte} {i : Instr} (h : formHrw imm = .ok i) :
    encode i = commandWord 0x34 imm := by
  unfold formHrw at h
  split at h <;> cases h
  rfl

/-- The opcode map names each instruction once (30_encoding.md R101). -/
theorem encode_decodeFields {opc imm : Byte} {i : Instr} (h : decodeFields opc imm = .ok i) :
    encode i = commandWord opc imm := by
  have hopc : opc = BitVec.ofNat 8 opc.toNat := by simp
  unfold decodeFields at h
  split at h
  case h_25 => cases h
  all_goals
    rename_i hn
    rw [hn] at hopc
    subst hopc
  case h_4 => exact encode_formBit h
  case h_5 => exact encode_formU7 h
  case h_6 => exact encode_formKind h
  case h_15 => exact encode_formSqw h
  case h_17 => exact encode_formHrw h
  all_goals
    obtain ⟨rfl, rfl⟩ := formNone_ok h
    rfl

/-- A command word is IMM over OPC (30_encoding.md R100). -/
theorem encode_decodeCommand {w : CmdWord} {i : Instr} (h : decodeCommand w = .ok i) :
    encode i = .command w := by
  rw [encode_decodeFields h, commandWord,
    BitVec.extractLsb'_append_extractLsb'_eq_extractLsb' (start₁ := 0) (len₁ := 8) rfl,
    BitVec.extractLsb'_eq_self]

/-! ## A table row of the stream is a stream item -/

/-- What the decoder of a square record gives is a stream item. -/
theorem encode_decodePiece {bits rest : List Bool} {i : Instr}
    (h : decodePiece bits = some (i, rest)) : ∃ f item, encode i = .stream f item := by
  unfold decodePiece at h
  split at h
  · cases h
  · split at h <;> cases h <;> exact ⟨_, _, rfl⟩

/-- What the decoder of a square gives is a stream item. -/
theorem encode_decodeItem_square {bits rest : List Bool} {i : Instr}
    (h : decodeItem .square bits = .ok (i, rest)) : ∃ f item, encode i = .stream f item := by
  unfold decodeItem at h
  simp only at h
  split at h
  · cases h
  · cases h; exact ⟨_, _, rfl⟩
  · split at h
    · next hd => cases h; exact encode_decodePiece hd
    · cases h

theorem encode_decodeTableItem {w : Nat} {i : Instr} (h : decodeTableItem w = some i) :
    ∃ f item, encode i = .stream f item := by
  unfold decodeTableItem at h
  split at h
  · split at h
    · next hd => cases h; exact encode_decodeItem_square hd
    · cases h
  · obtain ⟨k, -, rfl⟩ := Option.map_eq_some_iff.1 h
    cases k <;> exact ⟨_, _, rfl⟩

/-- A row of the opcode table is a command with its word, or a stream item (log entry 8). -/
theorem decodeTableWord_cases {nbits w : Nat} {i : Instr} (h : decodeTableWord nbits w = some i) :
    (∃ cw, encode i = .command cw ∧ decodeCommand cw = .ok i) ∨
      ∃ f item, encode i = .stream f item := by
  unfold decodeTableWord at h
  split at h
  · next hd =>
      cases h
      split at hd
      · exact .inl ⟨_, encode_decodeCommand hd, hd⟩
      · cases hd
  · exact .inr (encode_decodeTableItem h)

/-- Every stream item fits one byte (30_encoding.md R80, R83 to R86). -/
theorem length_stream_le {i : Instr} {f : Form} {item : List Bool} (h : encode i = .stream f item) :
    item.length ≤ 8 := by
  cases i with
  | codePawn | codeLance | codeKnight | codeSilver | codeGold | codeBishop | codeRook | recTurn _
  | recKing _ | recSqEmpty | recSqGold _ | recHandGold _ => cases h; exact Nat.le_of_ble_eq_true rfl
  | recSqPiece k p c | recHand k p c => cases h; cases k <;> exact Nat.le_of_ble_eq_true rfl
  | _ => cases h

/-! ## The reader of a form does what the item does -/

theorem finish_congr {spoil : ErrKind → State → State} {c d : Cmd Unit} {s : State} (h : c s = d s) :
    finish spoil c s = finish spoil d s := by unfold finish; rw [h]

/-- A record with a promotion bit (30_encoding.md R83, R84). -/
theorem pieceBits_kind (k : PromKind) (p : Bool) (c : Colour) :
    pieceBits k.kind (some p) c = recordBits k.kind p c.bit := by cases k <;> rfl

section reader
variable {s : State} (hi : s.RInv)
include hi

theorem rCode_takesItem {k : Kind} (h : s.Offers (codeBits k)) :
    exec .rCode s = finish spoilNothing (takeItem (codeBits k).length .prim (setResult k.num)) s := by
  refine finish_congr ?_
  rw [takeItem_ok hi .prim _ _ h, Cmd.cursor_bind_apply]
  rw [codeBits_eq_text] at h ⊢
  rw [Cmd.bind_done (decodeKind_ok hi .prim s.rpos k h)]

theorem turnDec_takesItem {t : Bool} (h : s.Offers [t]) :
    exec .turnDec s =
      finish spoilTurn (takeItem [t].length .turn (memWrite .pos turnAddr (bitByte t))) s := by
  refine finish_congr ?_
  rw [takeItem_ok hi .turn _ [t] h, decTurn, Cmd.cursor_bind_apply,
    Cmd.bind_done (getBit_ok hi .turn s.rpos h)]
  rfl

theorem rLe7_takesItem {v : BitVec 7} (h : s.Offers (le7Bits v)) :
    exec .rLe7 s = finish spoilNothing (takeItem (le7Bits v).length .prim (setResult v)) s := by
  refine finish_congr ?_
  rw [takeItem_ok hi .prim _ (le7Bits v) h, Cmd.bind_done (getLE7_ok hi .prim v h)]
  rfl

theorem sqDec_takesItem {w : Byte} (hw : legalNonKing w = true) (h : s.Offers (squareBits w)) :
    exec .sqDec s = finish spoilNothing (takeItem (squareBits w).length .board (setResult w)) s := by
  refine finish_congr ?_
  rw [takeItem_ok hi .board _ _ h, Cmd.bind_done (decSquare_ok hi .board w hw h)]

theorem sqDec_takesPiece {k : Kind} {p c : Bool} (hg : k = .gold → p = false)
    (h : s.Offers (true :: recordBits k p c)) : exec .sqDec s = finish spoilNothing
      (takeItem (true :: recordBits k p c).length .board (setResult (squareWord k p c))) s := by
  rw [← squareBits_squareWord] at h ⊢
  exact sqDec_takesItem hi (legalNonKing_squareWord k p c hg) h

theorem hrecDec_takesItem {k : Kind} {p c : Bool} (hg : k = .gold → p = false)
    (h : s.Offers (recordBits k p c)) : exec .hrecDec s =
      finish spoilNothing (takeItem (recordBits k p c).length .hand (setResult (handWord k p c))) s := by
  have hprom : (if k = .gold then false else p) = p := by
    split
    · next hk => rw [hg hk]
    · rfl
  have hleft : s.exhausted = false := not_exhausted (recordBits_ne_nil k p c) h
  refine finish_congr ?_
  rw [takeItem_ok hi .hand _ _ h, Cmd.get_bind_apply, hleft, if_neg (by decide),
    Cmd.bind_done (decHandRec_ok hi .hand k p c h), hprom]

/-- Where the stream offers an item, the reader of its form does what the item does (log entry 5). -/
theorem exec_readerOf {i : Instr} {f : Form} {item : List Bool} (he : encode i = .stream f item)
    (h : s.Offers item) : exec (readerOf f) s = exec i s := by
  cases i with
  | codePawn | codeLance | codeKnight | codeSilver | codeGold | codeBishop | codeRook =>
    cases he; exact (rCode_takesItem hi h :)
  | recTurn t => cases he; exact turnDec_takesItem hi h
  | recKing v => cases he; exact rLe7_takesItem hi h
  | recSqEmpty => cases he; exact sqDec_takesItem hi (w := 0x00#8) rfl h
  | recSqPiece k p c =>
    cases he
    rw [pieceBits_kind] at h
    exact (sqDec_takesPiece hi (fun hg => absurd hg (PromKind.kind_ne_gold k)) h).trans
      (by cases k <;> rfl)
  | recSqGold c => cases he; exact sqDec_takesPiece hi (k := .gold) (p := false) (fun _ => rfl) h
  | recHand k p c =>
    cases he
    rw [pieceBits_kind] at h
    exact (hrecDec_takesItem hi (fun hg => absurd hg (PromKind.kind_ne_gold k)) h).trans
      (by cases k <;> rfl)
  | recHandGold c => cases he; exact hrecDec_takesItem hi (k := .gold) (p := false) (fun _ => rfl) h
  | _ => cases he

end reader

/-! ## The placed item is on offer -/

theorem testBit_leNat {bits : List Bool} {j : Nat} (h : j < bits.length) :
    (leNat bits).testBit j = bits[j] := by
  induction bits generalizing j with
  | nil => cases h
  | cons b bits ih =>
    have hb : leNat (b :: bits) = 2 * leNat bits + b.toNat := Nat.add_comm _ _
    rw [hb]
    cases j with
    | zero => cases b <;> simp [Nat.testBit_zero]
    | succ j =>
      rw [Nat.testBit_succ]
      have : (2 * leNat bits + b.toNat) / 2 = leNat bits := by have := b.toNat_le; omega
      rw [this]
      exact ih (by simpa using h)

/-- The state in which the placed item is read: withItem's, its command taken off the script. -/
def State.itemAtCursor (s : State) (f : Form) (item : List Bool) : State :=
  { s.withItem f item with script := s.script }

theorem itemAtCursor_rInv {s : State} (hs : s.Inv) (f : Form) (item : List Bool) :
    (s.itemAtCursor f item).RInv :=
  ⟨hs.params.1.2, hs.params.1.1, Nat.zero_le _⟩

theorem itemAtCursor_offers (s : State) (f : Form) {item : List Bool} (hl : item.length ≤ 8) :
    (s.itemAtCursor f item).Offers item := by
  refine ⟨(Nat.zero_add _).trans_le hl, fun j hj => ?_⟩
  have hc : (s.itemAtCursor f item).cell .inp 0 = some (BitVec.ofNat 8 (leNat item)) :=
    Memory.read_write_same ..
  have hpos : (s.itemAtCursor f item).rpos.toNat + j = j := Nat.zero_add j
  have hj8 : j < 8 := by omega
  rw [hpos, State.streamBit, Nat.div_eq_of_lt hj8, hc, Nat.mod_eq_of_lt hj8]
  rw [Option.map_some, BitVec.getLsbD_ofNat, testBit_leNat hj, decide_eq_true hj8, Bool.true_and]

theorem decodeCommand_readerOf (f : Form) :
    decodeCommand (wordOf (readerOf f)) = .ok (readerOf f) := by cases f <;> rfl

/-! ## The two placings -/

theorem withFetchWord_command {nbits w : Nat} {i : Instr} {cw : CmdWord} (s : State)
    (hd : decodeTableWord nbits w = some i) (he : encode i = .command cw) :
    s.withFetchWord nbits w = s.withCommand cw := by
  simp only [State.withFetchWord, State.placeWord, hd, he]

theorem withFetchWord_stream {nbits w : Nat} {i : Instr} {f : Form} {item : List Bool} (s : State)
    (hd : decodeTableWord nbits w = some i) (he : encode i = .stream f item) :
    s.withFetchWord nbits w = s.withItem f item := by
  simp only [State.withFetchWord, State.placeWord, hd, he]

theorem step_withCommand {cw : CmdWord} {i : Instr} (h : decodeCommand cw = .ok i) (s : State) :
    step (s.withCommand cw) = exec i s :=
  (step_event rfl).trans (hostStep_issue h s)

theorem step_withItem {s : State} (hs : s.Inv) {i : Instr} {f : Form} {item : List Bool}
    (he : encode i = .stream f item) : step (s.withItem f item) = exec i (s.itemAtCursor f item) :=
  ((step_event rfl).trans (hostStep_issue (decodeCommand_readerOf f) (s.itemAtCursor f item))).trans
    (exec_readerOf (itemAtCursor_rInv hs f item) he (itemAtCursor_offers s f (length_stream_le he)))

/-- Settles O11: a table word is a command, placed as the write of its word, or a stream item, placed for
the reader of its form. -/
theorem placedInstructionRuns : Obligations.PlacedInstructionRuns := by
  intro s nbits w i hs hd
  rcases decodeTableWord_cases hd with ⟨cw, he, hc⟩ | ⟨f, item, he⟩
  · rw [withFetchWord_command s hd he]
    exact ⟨step_withCommand hc s, fun _ _ => rfl⟩
  · rw [withFetchWord_stream s hd he]
    exact ⟨step_withItem hs he, fun cw hcw => by rw [he] at hcw; cases hcw⟩

end Sys2Proof.Machine
end

section
/-! PROOFS. The frames of the commands (O54, O55, O56; 70_reset_and_hazards.md R282). What every part of a
command keeps, the command keeps up to STATUS and what its error spoils (`finish_frame`). -/

namespace Sys2Proof.Machine

/-! ## From the parts of a command to the command -/

/-- A command whose parts and whose spoil keep a relation ends in a related state with STATUS written. -/
theorem finish_frame {R : State → State → Prop} {spoil : ErrKind → State → State} {c : Cmd Unit}
    {s t : State} (hc : c.Keeps R) (hspoil : ∀ k u, R s u → R s (spoil k u))
    (h : finish spoil c s = .next t) : ∃ u v, R s u ∧ t = { u with status := v } := by
  rcases finish_next_cases h with ⟨u, hu, rfl⟩ | ⟨e, u, hu, rfl⟩
  · exact ⟨u, _, hc.done hu, rfl⟩
  · exact ⟨spoil e.kind u, _, hspoil _ _ (hc.raised hu), rfl⟩

theorem Looks.keeps {α : Type} {c : Cmd α} {R : State → State → Prop} (h : Looks c)
    (hr : ∀ s, R s s) : c.Keeps R :=
  h.mono fun s t (hts : t = s) => hts ▸ hr s

/-! ## Commands that return a value (O55) -/

/-- Only RPOS and RESULT changed. -/
def resultOnly (s t : State) : Prop := t = { s with rpos := t.rpos, result := t.result }

theorem resultOnly.refl (s : State) : resultOnly s s := by cases s; rfl

theorem resultOnly.trans (a b c : State) (h : resultOnly a b) (h' : resultOnly b c) :
    resultOnly a c := by unfold resultOnly at *; rw [h] at h'; rw [h']

theorem readerOnly.resultOnly {s t : State} (h : readerOnly s t) : resultOnly s t := by
  unfold Machine.resultOnly; rw [h]

theorem keeps_setResult {n : Nat} (v : BitVec n) : (setResult v).Keeps resultOnly := fun _ => rfl

/-- A part of the reader, then its value in RESULT. -/
theorem keeps_returning {α : Type} {n : Nat} {c : Cmd α} (hc : c.Keeps readerOnly)
    (f : α → BitVec n) : (c.bind fun a => setResult (f a)).Keeps resultOnly :=
  Cmd.keeps_bind resultOnly.trans (hc.mono fun _ _ => readerOnly.resultOnly) fun _ =>
    keeps_setResult _

theorem returning_frame {c : Cmd Unit} {s t : State} (hc : c.Keeps resultOnly)
    (h : finish spoilNothing c s = .next t) : sameButReader s t := by
  obtain ⟨u, v, hu, rfl⟩ := finish_frame hc (fun _ _ hu => hu) h
  rw [hu]

theorem keeps_takeItem {n : Nat} {sec : Sec} {deliver : Cmd Unit} {R : State → State → Prop}
    (ht : ∀ a b c, R a b → R b c → R a c) (hr : ∀ s t, readerOnly s t → R s t)
    (hd : deliver.Keeps R) : (takeItem n sec deliver).Keeps R :=
  Cmd.keeps_bind ht (Cmd.keeps_get (fun s => hr s s (readerOnly.refl s)) _) fun _ =>
  Cmd.keeps_bind ht ((keeps_skipBits _ _ _).mono hr) fun _ => hd

theorem item_frame {len : Nat} {sec : Sec} {n : Nat} {v : BitVec n} {s t : State}
    (h : finish spoilNothing (takeItem len sec (setResult v)) s = .next t) : sameButReader s t :=
  returning_frame (keeps_takeItem resultOnly.trans (fun _ _ => readerOnly.resultOnly)
    (keeps_setResult v)) h

/-- Settles O55: each command reads with parts that change RPOS only, then sets RESULT. -/
theorem readerFrame : Obligations.ReaderFrame := by
  intro s t i hi h
  have hcur := Cmd.keeps_get resultOnly.refl State.rpos
  have hexh := Cmd.keeps_get resultOnly.refl State.exhausted
  rcases hi with rfl | rfl | rfl | rfl | rfl | rfl | ⟨n, hn⟩
  · exact returning_frame (Cmd.keeps_bind resultOnly.trans hexh fun e => keeps_setResult _) h
  · exact returning_frame (Cmd.keeps_bind resultOnly.trans hcur fun off =>
      keeps_returning (keeps_getBit .prim off) _) h
  · exact returning_frame (keeps_returning (keeps_getLE7 .prim) _) h
  · exact returning_frame (Cmd.keeps_bind resultOnly.trans hcur fun off =>
      keeps_returning (keeps_decodeKindFrom .prim off 5 0 0) _) h
  · exact returning_frame (keeps_returning (keeps_decSquare .board) _) h
  · exact returning_frame (Cmd.keeps_bind resultOnly.trans hexh fun e =>
      Cmd.keeps_ite (fun _ => keeps_setResult _) fun _ =>
      keeps_returning (keeps_decHandRec .hand) _) h
  · cases i with
    | codePawn | codeLance | codeKnight | codeSilver | codeGold | codeBishop | codeRook | recKing _
    | recSqEmpty | recSqPiece _ _ _ | recSqGold _ | recHand _ _ _ | recHandGold _ =>
      exact item_frame h
    | _ => cases hn

/-! ## Decoders of POS (O56) -/

/-- Words forgotten within A are words changed within A. -/
theorem placedIn.erase {A : Nat → Prop} {s : State} (lo hi : Nat) (h : ∀ a, lo ≤ a → a < hi → A a) :
    placedIn A s { s with posMem := Memory.erase s.posMem lo hi } := by
  refine ⟨rfl, fun a ha => ?_⟩
  simp only [State.cell, State.cells_pos]
  rw [Memory.read_erase, if_neg fun hr => ha (h a hr.1 hr.2)]

theorem placedIn_spoilTurn (k : ErrKind) (s : State) : placedIn (fun a => a = 81) s (spoilTurn k s) := by
  cases k with
  | unexpectedEndOfStream => exact .erase 81 82 fun a _ _ => by omega
  | _ => exact .refl s

theorem placedIn_spoilBoard (k : ErrKind) (s : State) :
    placedIn (fun a => a ≤ 80) s (spoilBoard k s) := by
  cases k with
  | unexpectedEndOfStream | invalidKingConfiguration => exact .erase 0 81 fun a _ _ => by omega
  | _ => exact .refl s

/-- Writing STATUS after words of POS were placed. -/
theorem placedIn.sameButPos {A : Nat → Prop} {s u : State} (h : placedIn A s u) (v : CsrWord) :
    sameButPos A s { u with status := v } := by
  obtain ⟨r, m, rfl⟩ : ∃ r m, u = { s with rpos := r, posMem := m } := ⟨_, _, h.1⟩
  exact ⟨rfl, h.2⟩

theorem placing_frame {A : Nat → Prop} {spoil : ErrKind → State → State} {c : Cmd Unit} {s t : State}
    (hc : c.Keeps (placedIn A)) (hspoil : ∀ k u, placedIn A u (spoil k u))
    (h : finish spoil c s = .next t) : sameButPos A s t := by
  obtain ⟨u, v, hu, rfl⟩ := finish_frame hc (fun k u hu => placedIn.trans _ _ _ hu (hspoil k u)) h
  exact hu.sameButPos v

/-- The addresses of the hand words (20_memory.md R53). -/
def handWords (cap a : Nat) : Prop := 128 ≤ a ∧ a < 128 + cap

/-- Only RPOS, HANDLEN and the hand words changed. -/
def handPlaced (s t : State) : Prop :=
  placedIn (handWords s.params.handCap) { s with handlen := t.handlen } t

theorem handPlaced.of_placedIn {s u : State} (h : placedIn (handWords s.params.handCap) s u)
    (n : Option (BitVec 10)) : handPlaced s { u with handlen := n } := by
  obtain ⟨r, m, rfl⟩ : ∃ r m, u = { s with rpos := r, posMem := m } := ⟨_, _, h.1⟩
  exact ⟨rfl, h.2⟩

theorem keeps_decHand : decHand.Keeps handPlaced := by
  intro s
  have hloop : (decHandFrom s.params.handCap 0).Keeps (placedIn (handWords s.params.handCap)) :=
    keeps_decHandFrom s.params.handCap 0
  rw [decHand, Cmd.get_bind_apply]
  cases hc : decHandFrom s.params.handCap 0 s with
  | done n u => rw [Cmd.bind_done hc]; exact .of_placedIn (hloop.done hc) _
  | raised e u => rw [Cmd.bind_raised hc]; exact .of_placedIn (hloop.raised hc) u.handlen
  | stopped f => rw [Cmd.bind_stopped hc]; trivial

theorem handPlaced.spoil {s u : State} (h : handPlaced s u) (k : ErrKind) :
    handPlaced s (spoilHand k u) := by
  obtain ⟨r, n, m, rfl⟩ : ∃ r n m, u = { s with rpos := r, handlen := n, posMem := m } :=
    ⟨_, _, _, h.1⟩
  cases k with
  | unexpectedEndOfStream | capacityExceeded =>
    exact ⟨rfl, fun a ha => ((placedIn.erase 128 (128 + s.params.handCap)
      fun b h1 h2 => ⟨h1, h2⟩).2 a ha).trans (h.2 a ha)⟩
  | _ => exact h

/-- The addresses of POS (20_memory.md R53). -/
def posWords (cap a : Nat) : Prop := a ≤ 81 ∨ 128 ≤ a ∧ a < 128 + cap

/-- Only RLEN, RPOS, RESULT, HANDLEN and the words of POS changed. -/
def positionPlaced (s t : State) : Prop :=
  placedIn (posWords s.params.handCap)
    { s with rlen := t.rlen, handlen := t.handlen, result := t.result } t

theorem positionPlaced.trans (a b c : State) (h : positionPlaced a b) (h' : positionPlaced b c) :
    positionPlaced a c := by
  obtain ⟨l, n, v, r, m, rfl⟩ : ∃ l n v r m, b = { a with
      rlen := l, handlen := n, result := v, rpos := r, posMem := m } := ⟨_, _, _, _, _, h.1⟩
  obtain ⟨l', n', v', r', m', rfl⟩ : ∃ l n v r m, c = { a with
      rlen := l, handlen := n, result := v, rpos := r, posMem := m } := ⟨_, _, _, _, _, h'.1⟩
  exact ⟨rfl, fun x hx => (h'.2 x hx).trans (h.2 x hx)⟩

theorem handPlaced.positionPlaced {s t : State} (h : handPlaced s t) : positionPlaced s t := by
  obtain ⟨r, n, m, rfl⟩ : ∃ r n m, t = { s with rpos := r, handlen := n, posMem := m } :=
    ⟨_, _, _, h.1⟩
  exact ⟨rfl, fun x hx => h.2 x fun hw => hx (.inr hw)⟩

theorem placedIn.positionPlaced {A : Nat → Prop} (hA : ∀ a, A a → a ≤ 81) {s t : State}
    (h : placedIn A s t) : positionPlaced s t := by
  obtain ⟨r, m, rfl⟩ : ∃ r m, t = { s with rpos := r, posMem := m } := ⟨_, _, h.1⟩
  exact ⟨rfl, fun x hx => h.2 x fun ha => hx (.inl (hA x ha))⟩

theorem positionPlaced.refl (s : State) : positionPlaced s s :=
  (placedIn.refl (A := fun _ => False) s).positionPlaced nofun

theorem keeps_loadReader : loadReader.Keeps positionPlaced :=
  Cmd.keeps_bind positionPlaced.trans (Cmd.keeps_get positionPlaced.refl _) fun _ =>
  Cmd.keeps_bind positionPlaced.trans (Cmd.keeps_get positionPlaced.refl _) fun _ =>
  Cmd.keeps_ite (fun _ => Cmd.keeps_raise positionPlaced.refl _ _ _) fun _ =>
  Cmd.keeps_modify fun _ => ⟨rfl, fun _ _ => rfl⟩

theorem keeps_readPosition : readPosition.Keeps positionPlaced :=
  Cmd.keeps_bind positionPlaced.trans
    (keeps_decTurn.mono fun _ _ h => h.positionPlaced fun a ha => by omega) fun _ =>
  Cmd.keeps_bind positionPlaced.trans
    (keeps_decBoard.mono fun _ _ h => h.positionPlaced fun a ha => by omega) fun _ =>
  Cmd.keeps_bind positionPlaced.trans (keeps_decHand.mono fun _ _ h => h.positionPlaced) fun _ =>
  Cmd.keeps_bind positionPlaced.trans (looks_getHandlen.keeps positionPlaced.refl) fun _ =>
  Cmd.keeps_modify fun _ => ⟨rfl, fun _ _ => rfl⟩

theorem positionPlaced_spoilPosition (k : ErrKind) (s : State) :
    positionPlaced s (spoilPosition k s) := by
  cases k with
  | unexpectedEndOfStream | invalidKingConfiguration | capacityExceeded =>
    refine ⟨rfl, fun a ha => ?_⟩
    unfold posWords at ha
    simp only [spoilPosition, State.cell, State.cells_pos]
    rw [Memory.read_erase, if_neg (by omega), Memory.read_erase, if_neg (by omega)]
  | _ => exact .refl s

/-- Settles O56: each decoder keeps its relation, and so does what its error spoils. -/
theorem decoderFrame : Obligations.DecoderFrame := by
  refine fun s t i h => ⟨fun hi => ?_, fun hi => ?_, fun hi => ?_, fun hi => ?_⟩
  · rcases hi with rfl | ⟨c, rfl⟩
    · exact placing_frame keeps_decTurn placedIn_spoilTurn h
    · exact placing_frame (keeps_takeItem placedIn.trans (fun _ _ h => h.placedIn)
        (keeps_memWrite_pos _ _ rfl)) placedIn_spoilTurn h
  · subst hi
    exact placing_frame keeps_decBoard placedIn_spoilBoard h
  · subst hi
    obtain ⟨u, v, hu, rfl⟩ := finish_frame keeps_decHand (fun k _ hu => hu.spoil k) h
    exact placedIn.sameButPos hu v
  · subst hi
    have hc := Cmd.keeps_bind positionPlaced.trans keeps_loadReader fun _ => keeps_readPosition
    obtain ⟨u, v, hu, rfl⟩ := finish_frame hc
      (fun k u hu => positionPlaced.trans _ _ _ hu (positionPlaced_spoilPosition k u)) h
    exact placedIn.sameButPos hu v

end Sys2Proof.Machine
end

section
/-! PROOFS. The frame of the writer and encode commands and of PACK (O54; 20_memory.md R66,
70_reset_and_hazards.md R282). Whatever PutBit keeps, every encoder keeps; and PutBit appends (`Put`), so an
encoder leaves OUT alone outside [OUTLEN before, OUTLEN after). -/

namespace Sys2Proof.Machine

/-! ## What PutBit keeps, every encoder keeps -/

section encoders
variable {R : State → State → Prop} (hr : ∀ s, R s s) (ht : ∀ a b c, R a b → R b c → R a c)
  (hput : ∀ b sec, (putBit b sec).Keeps R)
include hr ht hput

theorem putBits_keeps (bits : List Bool) (sec : Sec) : (putBits bits sec).Keeps R :=
  Cmd.keeps_each hr ht bits fun b => hput b sec

theorem putCode_keeps (k : BitVec 3) (sec : Sec) : (putCode k sec).Keeps R := by
  unfold putCode
  split
  · exact putBits_keeps hr ht hput _ _
  · exact Cmd.keeps_stop _

theorem encSquare_keeps (w : Byte) (sec : Sec) : (encSquare w sec).Keeps R :=
  Cmd.keeps_ite (fun _ => hput _ _) fun _ =>
  Cmd.keeps_bind ht (hput _ _) fun _ =>
  Cmd.keeps_bind ht (putCode_keeps hr ht hput _ _) fun _ =>
  Cmd.keeps_bind ht (Cmd.keeps_ite (fun _ => hput _ _) fun _ => Cmd.keeps_pure hr _) fun _ =>
  hput _ _

theorem encHandRec_keeps (h : Byte) (sec : Sec) : (encHandRec h sec).Keeps R :=
  Cmd.keeps_bind ht (putCode_keeps hr ht hput _ _) fun _ =>
  Cmd.keeps_bind ht (Cmd.keeps_ite (fun _ => hput _ _) fun _ => Cmd.keeps_pure hr _) fun _ =>
  hput _ _

theorem encTurn_keeps : encTurn.Keeps R :=
  Cmd.keeps_bind ht ((looks_memRead _ _).keeps hr) fun _ => hput _ _

theorem encBoard_keeps (kb kw : Nat) : (encBoard kb kw).Keeps R :=
  Cmd.keeps_bind ht (putBits_keeps hr ht hput _ _) fun _ =>
  Cmd.keeps_bind ht (putBits_keeps hr ht hput _ _) fun _ =>
  Cmd.keeps_each hr ht _ fun _ => Cmd.keeps_ite
    (fun _ => Cmd.keeps_bind ht ((looks_memRead _ _).keeps hr) fun _ =>
      encSquare_keeps hr ht hput _ _)
    fun _ => Cmd.keeps_pure hr _

theorem encHand_keeps (addrs : List Nat) : (encHand addrs).Keeps R :=
  Cmd.keeps_each hr ht _ fun _ =>
  Cmd.keeps_bind ht ((looks_memRead _ _).keeps hr) fun _ => encHandRec_keeps hr ht hput _ _

end encoders

/-! ## Appending -/

/-- Only the writer and OUT changed, and from a state with the invariant some bits were appended to the
output stream. -/
def appends (s t : State) : Prop :=
  writerOnly s t ∧ (s.Inv → ∀ w, s.writer = some w → ∃ w' bits, Put s t w w' bits)

theorem appends.refl (s : State) : appends s s :=
  ⟨writerOnly.refl s, fun hs w hw => ⟨w, [], Put.refl hw (hs.wInv hw)⟩⟩

theorem appends.trans (a b c : State) (h : appends a b) (h' : appends b c) : appends a c := by
  refine ⟨writerOnly.trans a b c h.1 h'.1, fun hs w hw => ?_⟩
  obtain ⟨w', bits, p⟩ := h.2 hs w hw
  obtain ⟨w'', bits', p'⟩ := h'.2 (hs.put p) w' p.writer
  exact ⟨w'', bits ++ bits', p.trans p'⟩

/-- A part of the writer that appends, or raises an error with nothing changed. -/
theorem keeps_appends {c : Cmd Unit} (hc : c.Keeps writerOnly)
    (h : ∀ s w, s.Inv → s.writer = some w →
      (∃ t w' bits, c s = .done () t ∧ Put s t w w' bits) ∨ ∃ e, c s = .raised e s) :
    c.Keeps appends := by
  intro s
  cases hcs : c s with
  | stopped f => trivial
  | done a t =>
    refine ⟨hc.done hcs, fun hs w hw => ?_⟩
    rcases h s w hs hw with ⟨u, w', bits, hu, p⟩ | ⟨e, he⟩
    · rw [hcs] at hu; cases hu; exact ⟨w', bits, p⟩
    · rw [hcs] at he; cases he
  | raised e t =>
    refine ⟨hc.raised hcs, fun hs w hw => ?_⟩
    rcases h s w hs hw with ⟨u, w', bits, hu, -⟩ | ⟨e', he⟩
    · rw [hcs] at hu; cases hu
    · rw [hcs] at he; cases he; exact (appends.refl s).2 hs w hw

theorem putBit_appends (b : Bool) (sec : Sec) : (putBit b sec).Keeps appends := by
  refine keeps_appends (keeps_putBit b sec) fun s w hs hw => ?_
  have hi := hs.wInv hw
  by_cases hroom : s.Room w 1
  · obtain ⟨t, w', ht, p⟩ := putBit_ok b sec hw hi hroom
    exact .inl ⟨t, w', [b], ht, p⟩
  · have hle := hi.ok.1
    have hcnt := w.wcnt_lt
    have hfull : w.wcnt.toNat = 7 ∧ w.outlen.toNat = s.params.outCap := by
      unfold State.Room Writer.wbits at hroom; omega
    exact .inr ⟨_, putBit_full b sec hw (BitVec.eq_of_toNat_eq hfull.1) hfull.2⟩

theorem flush_appends (sec : Sec) : (flush sec).Keeps appends := by
  refine keeps_appends (keeps_flush sec) fun s w hs hw => ?_
  have hi := hs.wInv hw
  by_cases hroom : (w.wbits + 7) / 8 ≤ s.params.outCap
  · obtain ⟨t, w', ht, p, -⟩ := flush_ok sec hw hi hroom
    exact .inl ⟨t, w', _, ht, p⟩
  · have hle := hi.ok.1
    have hcnt := w.wcnt_lt
    unfold Writer.wbits at hroom
    have h0 : w.wcnt ≠ 0#3 := by
      intro h0
      rw [h0] at hroom
      simp only [BitVec.toNat_ofNat] at hroom
      omega
    exact .inr ⟨_, flush_full sec hw h0 (by omega)⟩

/-- A check that only looks, then an encoder. -/
theorem check_appends {α : Type} {m : Cmd α} {f : α → Cmd Unit} (hm : Looks m)
    (hf : ∀ a, (f a).Keeps appends) : (m.bind f).Keeps appends :=
  Cmd.keeps_bind appends.trans (hm.keeps appends.refl) hf

/-- The commands that append to the stream the writer is in. -/
theorem exec_appends {i : Instr}
    (hi : (∃ b, i = .wBit b) ∨ (∃ v, i = .wLe7 v) ∨ (∃ k, i = .wCode k) ∨ i = .wFlush ∨
      i = .turnEnc ∨ (∃ w, i = .sqEnc w) ∨ (∃ h, i = .hrecEnc h) ∨ i = .boardEnc ∨ i = .handEnc) :
    ∃ c : Cmd Unit, c.Keeps appends ∧ ∀ s, exec i s = finish spoilWriter c s := by
  have hr := appends.refl
  have ht := appends.trans
  have hput := putBit_appends
  rcases hi with ⟨b, rfl⟩ | ⟨v, rfl⟩ | ⟨k, rfl⟩ | rfl | rfl | ⟨w, rfl⟩ | ⟨h, rfl⟩ | rfl | rfl
  · exact ⟨_, hput b .prim, fun _ => rfl⟩
  · exact ⟨_, putBits_keeps hr ht hput (le7Bits v) .prim, fun _ => rfl⟩
  · exact ⟨_, putCode_keeps hr ht hput k.num .prim, fun _ => rfl⟩
  · exact ⟨_, flush_appends .prim, fun _ => rfl⟩
  · exact ⟨_, check_appends looks_checkTurn fun _ => encTurn_keeps hr ht hput, fun _ => rfl⟩
  · exact ⟨_, Cmd.keeps_ite (fun _ => encSquare_keeps hr ht hput w .board)
      fun _ => Cmd.keeps_raise hr .invalidOperand .prim 0, fun _ => rfl⟩
  · exact ⟨_, Cmd.keeps_ite (fun _ => encHandRec_keeps hr ht hput h .hand)
      fun _ => Cmd.keeps_raise hr .invalidOperand .prim 0, fun _ => rfl⟩
  · exact ⟨_, check_appends looks_validateBoard fun k => encBoard_keeps hr ht hput k.1 k.2,
      fun _ => rfl⟩
  · exact ⟨_, check_appends looks_checkHand fun addrs => encHand_keeps hr ht hput addrs,
      fun _ => rfl⟩

/-! ## PACK -/

/-- The three sections PACK writes and the flush; it returns the number of bits before the pad
(43_pack_unpack.md R210). -/
def writeSections (kb kw : Nat) (addrs : List Nat) : Cmd (BitVec 16) :=
  encTurn.bind fun _ =>
  (encBoard kb kw).bind fun _ =>
  (encHand addrs).bind fun _ =>
  writtenBits.bind fun total =>
  (flush .hand).bind fun _ => .pure total

theorem writePosition_eq (kb kw : Nat) (addrs : List Nat) : writePosition kb kw addrs =
    initWriter.bind fun _ => (writeSections kb kw addrs).bind fun total => setResult total := by
  simp only [writePosition, writeSections, Cmd.bind_assoc, Cmd.pure_bind]

theorem looks_writtenBits : Looks writtenBits :=
  looks_bind (fun s => by unfold getWriter; cases s.writer <;> trivial) fun _ => looks_pure _

theorem writeSections_keeps (kb kw : Nat) (addrs : List Nat) :
    (writeSections kb kw addrs).Keeps appends :=
  Cmd.keeps_bind appends.trans (encTurn_keeps appends.refl appends.trans putBit_appends) fun _ =>
  Cmd.keeps_bind appends.trans (encBoard_keeps appends.refl appends.trans putBit_appends _ _) fun _ =>
  Cmd.keeps_bind appends.trans (encHand_keeps appends.refl appends.trans putBit_appends _) fun _ =>
  Cmd.keeps_bind appends.trans (looks_writtenBits.keeps appends.refl) fun _ =>
  Cmd.keeps_bind appends.trans (flush_appends _) fun _ => Cmd.keeps_pure appends.refl _

/-- Only the writer, OUT and RESULT changed. -/
def packOnly (s t : State) : Prop :=
  t = { s with writer := t.writer, outMem := t.outMem, result := t.result }

theorem packOnly.refl (s : State) : packOnly s s := by cases s; rfl

theorem packOnly.trans (a b c : State) (h : packOnly a b) (h' : packOnly b c) : packOnly a c := by
  unfold packOnly at *; rw [h] at h'; rw [h']

theorem writerOnly.packOnly {s t : State} (h : writerOnly s t) : packOnly s t := by
  unfold Machine.packOnly; rw [h]

theorem keeps_packPosition : packPosition.Keeps packOnly := by
  refine Cmd.keeps_bind packOnly.trans (looks_checkTurn.keeps packOnly.refl) fun _ => ?_
  refine Cmd.keeps_bind packOnly.trans (looks_validateBoard.keeps packOnly.refl) fun k => ?_
  refine Cmd.keeps_bind packOnly.trans (looks_checkHand.keeps packOnly.refl) fun addrs => ?_
  rw [writePosition_eq]
  refine Cmd.keeps_bind packOnly.trans (keeps_initWriter.mono fun _ _ h => h.packOnly) fun _ => ?_
  refine Cmd.keeps_bind packOnly.trans
    ((writeSections_keeps k.1 k.2 addrs).mono fun _ _ h => h.1.packOnly) fun _ => ?_
  exact Cmd.keeps_modify fun _ => rfl

/-- A PACK that completes passed its checks, and its sections were appended to an empty stream. -/
theorem packPosition_done {s u : State} (h : packPosition s = .done () u) :
    ∃ t, appends s.freshWriter t ∧ u.writer = t.writer ∧ u.outMem = t.outMem := by
  obtain ⟨_, s1, h1, hboard⟩ := Cmd.bind_done_inv h
  obtain rfl : s1 = s := looks_checkTurn.done h1
  obtain ⟨k, s2, h2, hhand⟩ := Cmd.bind_done_inv hboard
  obtain rfl : s2 = s1 := looks_validateBoard.done h2
  obtain ⟨addrs, s3, h3, hwrite⟩ := Cmd.bind_done_inv hhand
  obtain rfl : s3 = s2 := looks_checkHand.done h3
  rw [writePosition_eq] at hwrite
  obtain ⟨total, t, hsections, hresult⟩ := Cmd.bind_done_inv (m := writeSections k.1 k.2 addrs) hwrite
  cases hresult
  exact ⟨t, (writeSections_keeps k.1 k.2 addrs).done hsections, rfl, rfl⟩

theorem freshWriter_inv {s : State} (hs : s.Inv) : s.freshWriter.Inv :=
  (initWriter_safe (Q := fun _ => True) (fun _ _ _ _ => trivial) s ⟨hs, trivial⟩).1

/-! ## The commands -/

theorem writerOnly_spoilWriter (k : ErrKind) (s : State) : writerOnly s (spoilWriter k s) := by
  cases k with
  | capacityExceeded => rfl
  | _ => exact .refl s

theorem statusErr_raised_ne_zero (e : Err) : statusErr (statusRaised e) ≠ 0 := by
  obtain ⟨k, c, o⟩ := e
  cases k <;> simp [statusRaised, ErrKind.code]

/-- A command that did not end with an error completed. -/
theorem finish_completed {spoil : ErrKind → State → State} {c : Cmd Unit} {s t : State}
    (h : finish spoil c s = .next t) (h0 : statusErr t.status = 0) :
    ∃ u, c s = .done () u ∧ t = u.complete := by
  rcases finish_next_cases h with hd | ⟨e, u, -, rfl⟩
  · exact hd
  · exact absurd h0 (statusErr_raised_ne_zero e)

/-- The frame of a writer command other than PACK: WACC, WCNT, OUTLEN and STATUS may change, and on
completion the bytes of OUT in [OUTLEN before, OUTLEN after) (20_memory.md R66). -/
def WriterFramed (s t : State) : Prop :=
  sameButWriter s t ∧ t.result = s.result ∧
  ∀ w w', s.writer = some w → t.writer = some w' → statusErr t.status = 0 →
    ∀ a, (w'.outlen.toNat ≤ a ∨ a < w.outlen.toNat) → t.cell .out a = s.cell .out a

theorem appending_frame {c : Cmd Unit} (hc : c.Keeps appends) {s t : State} (hs : s.Inv)
    (h : finish spoilWriter c s = .next t) : WriterFramed s t := by
  obtain ⟨u, v, hu, ht⟩ := finish_frame (hc.mono fun _ _ ha => ha.1)
    (fun k u hu => writerOnly.trans _ _ _ hu (writerOnly_spoilWriter k u)) h
  have hsame : sameButWriter s t ∧ t.result = s.result := by
    rw [ht, hu]; exact ⟨rfl, rfl⟩
  refine ⟨hsame.1, hsame.2, fun w w' hw hw' h0 a ha => ?_⟩
  obtain ⟨u, hd, rfl⟩ := finish_completed h h0
  obtain ⟨w'', bits, p⟩ := (hc.done hd).2 hs w hw
  obtain rfl : w'' = w' := Option.some.inj (p.writer.symm.trans hw')
  exact p.frame a ha.symm

theorem pack_frame {s t : State} (hs : s.Inv) (h : exec .pack s = .next t) :
    sameButWriter s t ∧ ∀ w', t.writer = some w' → statusErr t.status = 0 →
      ∀ a, w'.outlen.toNat ≤ a → t.cell .out a = s.cell .out a := by
  obtain ⟨u, v, hu, ht⟩ := finish_frame keeps_packPosition
    (fun k u hu => packOnly.trans _ _ _ hu (writerOnly_spoilWriter k u).packOnly) h
  refine ⟨by rw [ht, hu], fun w' hw' h0 a ha => ?_⟩
  obtain ⟨u, hd, rfl⟩ := finish_completed h h0
  obtain ⟨x, hx, hxw, hxm⟩ := packPosition_done hd
  obtain ⟨w'', bits, p⟩ := hx.2 (freshWriter_inv hs) Writer.reset rfl
  obtain rfl : w'' = w' := Option.some.inj (p.writer.symm.trans (hxw.symm.trans hw'))
  calc u.complete.cell .out a = x.cell .out a := by simp [State.cell, hxm]
    _ = s.cell .out a := p.frame a (.inr ha)

theorem wInit_frame {s t : State} (h : exec .wInit s = .next t) : WriterFramed s t := by
  cases h
  exact ⟨rfl, rfl, fun _ _ _ _ _ _ _ => rfl⟩

/-- Settles O54: W_INIT writes no byte, PACK by `pack_frame`, the other commands append. -/
theorem writerFrame : Obligations.WriterFrame := by
  intro s t i hs hi h
  by_cases hp : i = .pack
  · subst hp
    obtain ⟨hsame, hout⟩ := pack_frame hs h
    exact ⟨hsame, fun hne => absurd rfl hne, fun w w' _ hw' h0 a ha =>
      hout w' hw' h0 a (ha.resolve_right fun hne => hne.1 rfl)⟩
  · have hframed : WriterFramed s t := by
      rcases hi with rfl | hi
      · exact wInit_frame h
      · simp only [hp, or_false] at hi
        obtain ⟨c, hc, he⟩ := exec_appends hi
        exact appending_frame hc hs ((he s).symm.trans h)
    obtain ⟨hsame, hres, hout⟩ := hframed
    exact ⟨hsame, fun _ => hres, fun w w' hw hw' h0 a ha =>
      hout w w' hw hw' h0 a (ha.imp_right And.right)⟩

end Sys2Proof.Machine
end

section
/-! PROOFS. Decoding and encoding are inverse: command words (O3, O4, O1) by the opcode map of
30_encoding.md R101, stream items (O3, O5) by the forms of R80 to R86, and the piece-type code (O6) by
`takeCode`, which finds the code a bit list begins with. -/

namespace Sys2Proof.Machine

/-! ## Command words -/

/-- OPC is the low byte of a command word, IMM the high one (30_encoding.md R100). -/
theorem decodeCommand_append (imm opc : Byte) :
    decodeCommand (imm ++ opc) = decodeFields opc imm := by
  rw [decodeCommand, BitVec.extractLsb'_append_eq_right, BitVec.extractLsb'_append_eq_left]

theorem formU7_setWidth (v : BitVec 7) : formU7 (v.setWidth 8) = .ok (.wLe7 v) := by
  have hhigh : (v.setWidth 8).getLsbD 7 = false := by simp
  rw [formU7, if_pos hhigh, BitVec.setWidth_setWidth_of_le _ (by decide), BitVec.setWidth_eq]

/-- An IMM form that is a test of IMM accepts where the test passes (30_encoding.md R102). -/
theorem form_ok {p : Prop} [Decidable p] {i j : Instr} :
    (if p then .ok j else .error .invalidOperand : Except Reject Instr) = .ok i ↔ p ∧ i = j := by
  split
  · next hp => simp only [Except.ok.injEq, hp, true_and, eq_comm]
  · next hp => simp only [hp, false_and, reduceCtorEq]

/-- The opcode map reads the OPC and IMM of every well-formed command as that command (30_encoding.md
R101, R102). -/
theorem decodeCommand_encode {i : Instr} {w : CmdWord} (hi : i.wellFormed = true)
    (he : encode i = .command w) : decodeCommand w = .ok i := by
  cases i with
  | wBit b => cases he; cases b <;> rfl
  | wLe7 v => cases he; exact (decodeCommand_append _ 0x12#8).trans (formU7_setWidth v)
  | wCode k => cases he; cases k <;> rfl
  | sqEnc w => cases he; exact (decodeCommand_append w 0x32#8).trans (form_ok.2 ⟨hi, rfl⟩)
  | hrecEnc h => cases he; exact (decodeCommand_append h 0x34#8).trans (form_ok.2 ⟨hi, rfl⟩)
  | reset | clrerr | wInit | wFlush | rLoad | rExh | rBit | rLe7 | rCode | turnEnc | turnDec | sqDec
  | hrecDec | boardEnc | boardDec | handEnc | handDec | pack | unpack => cases he; rfl
  | _ => cases he

/-- A decoded command is well-formed: SQ_ENC and HREC_ENC, the only commands with an operand that may be
illegal, are decoded by the check of that operand (30_encoding.md R102). -/
theorem wellFormed_of_decodeCommand {w : CmdWord} {i : Instr} (h : decodeCommand w = .ok i) :
    i.wellFormed = true := by
  have he := encode_decodeCommand h
  cases i with
  | sqEnc x =>
    cases he
    exact (form_ok.1 ((decodeCommand_append x 0x32#8).symm.trans h)).1
  | hrecEnc x =>
    cases he
    exact (form_ok.1 ((decodeCommand_append x 0x34#8).symm.trans h)).1
  | recKing v => cases he
  | _ => rfl

/-- Settles O4: `wellFormed_of_decodeCommand` and the inverse law `encode_decodeCommand`. -/
theorem encodeOfDecode : Obligations.EncodeOfDecode := fun _ _ h =>
  ⟨wellFormed_of_decodeCommand h, encode_decodeCommand h⟩

/-! ## The piece-type code -/

/-- A bit list begins with at most one code, the one takeCode finds (30_encoding.md R81). -/
theorem kind_eq_of_begins {k k' : Kind} {bits rest : List Bool} (h : takeCode bits = some (k, rest))
    (h' : k'.text <+: bits) : k' = k := by
  obtain ⟨rest', rfl⟩ := h'
  rw [takeCode_text] at h
  cases h
  rfl

theorem takeCode_text_self (k : Kind) : takeCode k.text = some (k, []) := by
  simpa using takeCode_text k []

theorem length_text_le (k : Kind) : k.text.length ≤ 5 := by cases k <;> decide

theorem length_partialCodes_lt : ∀ bits ∈ partialCodes, bits.length < 5 := by decide

/-- Settles O6: the code a bit list begins with is the one `takeCode` finds, and only the partial codes, all
shorter than 5 bits, begin with none. -/
theorem pieceCodeIsComplete : Obligations.PieceCodeIsComplete := by
  refine ⟨fun k k' h => kind_eq_of_begins (takeCode_text_self k') h, by decide, fun bits hlen => ?_⟩
  rcases takeCode_cases bits with ⟨k, rest, hbits, htake⟩ | ⟨hpart, -⟩
  · exact ⟨k, rest, htake, hbits, length_text_le k, fun k' => kind_eq_of_begins htake⟩
  · have := length_partialCodes_lt bits hpart
    omega

/-! ## Stream items -/

/-- The value of a king field's bits is its index (30_encoding.md R85). -/
theorem leNat_le7Bits (v : BitVec 7) : leNat (le7Bits v) = v.toNat := by
  revert v; decide +kernel

theorem encode_codeItem (k : Kind) : encode (codeItem k) = .stream .code (codeBits k) := by
  cases k <;> rfl

theorem wellFormed_codeItem (k : Kind) : (codeItem k).wellFormed = true := by cases k <;> rfl

theorem decodeItem_text (k : Kind) (rest : List Bool) :
    decodeItem .code (k.text ++ rest) = .ok (codeItem k, rest) := by
  simp only [decodeItem, takeCode_text]

theorem decodeItem_le7Bits {v : BitVec 7} (hv : v.toNat ≤ 80) (rest : List Bool) :
    decodeItem .king (le7Bits v ++ rest) = .ok (.recKing v, rest) := by
  have htake : (le7Bits v ++ rest).take 7 = le7Bits v := rfl
  have hlong : ¬ (le7Bits v ++ rest).length < 7 := by simp [length_le7Bits]
  simp only [decodeItem, if_neg hlong, htake, leNat_le7Bits, if_pos hv, BitVec.ofNat_toNat,
    BitVec.setWidth_eq]
  rfl

/-- The square record of a kind, with the promotion bit where the kind has one. -/
def squareItem (k : Kind) (p c : Bool) : Instr :=
  match k.prom with
  | some pk => .recSqPiece pk p (.ofBit c)
  | none => .recSqGold (.ofBit c)

/-- The hand record of a kind, with the promotion bit where the kind has one. -/
def handItem (k : Kind) (p c : Bool) : Instr :=
  match k.prom with
  | some pk => .recHand pk p (.ofBit c)
  | none => .recHandGold (.ofBit c)

theorem decodeItem_square_record (k : Kind) (p c : Bool) (rest : List Bool) :
    decodeItem .square (true :: recordBits k p c ++ rest) = .ok (squareItem k p c, rest) := by
  simp only [decodeItem, List.cons_append, decodePiece_record]
  rfl

theorem decodeItem_hand_record (k : Kind) (p c : Bool) (rest : List Bool) :
    decodeItem .hand (recordBits k p c ++ rest) = .ok (handItem k p c, rest) := by
  simp only [decodeItem, decodeHandRec_record]
  rfl

theorem encode_squareItem (k : Kind) (p c : Bool) :
    encode (squareItem k p c) = .stream .square (true :: recordBits k p c) := by
  cases k <;> cases c <;> rfl

theorem encode_handItem (k : Kind) (p c : Bool) :
    encode (handItem k p c) = .stream .hand (recordBits k p c) := by
  cases k <;> cases c <;> rfl

theorem squareItem_kind (k : PromKind) (p : Bool) (c : Colour) :
    squareItem k.kind p c.bit = .recSqPiece k p c := by
  rw [squareItem, PromKind.prom_kind, Colour.ofBit_bit]

theorem squareItem_gold (p : Bool) (c : Colour) : squareItem .gold p c.bit = .recSqGold c := by
  rw [squareItem, Colour.ofBit_bit]; rfl

theorem handItem_kind (k : PromKind) (p : Bool) (c : Colour) :
    handItem k.kind p c.bit = .recHand k p c := by
  rw [handItem, PromKind.prom_kind, Colour.ofBit_bit]

theorem handItem_gold (p : Bool) (c : Colour) : handItem .gold p c.bit = .recHandGold c := by
  rw [handItem, Colour.ofBit_bit]; rfl

theorem wellFormed_squareItem (k : Kind) (p c : Bool) : (squareItem k p c).wellFormed = true := by
  cases k <;> rfl

theorem wellFormed_handItem (k : Kind) (p c : Bool) : (handItem k p c).wellFormed = true := by
  cases k <;> rfl

/-- What follows an item does not change how it is read (30_encoding.md R90). -/
theorem decodeItem_encode {i : Instr} {f : Form} {bits : List Bool} (rest : List Bool)
    (hi : i.wellFormed = true) (he : encode i = .stream f bits) :
    decodeItem f (bits ++ rest) = .ok (i, rest) := by
  cases i with
  | codePawn | codeLance | codeKnight | codeSilver | codeGold | codeBishop | codeRook => cases he; rfl
  | recTurn c => cases he; cases c <;> rfl
  | recKing v => cases he; exact decodeItem_le7Bits (of_decide_eq_true hi) rest
  | recSqEmpty => cases he; rfl
  | recSqPiece k p c => cases he; rw [pieceBits_kind, decodeItem_square_record, squareItem_kind]
  | recSqGold c =>
    cases he
    exact (decodeItem_square_record .gold false c.bit rest).trans (by rw [squareItem_gold])
  | recHand k p c => cases he; rw [pieceBits_kind, decodeItem_hand_record, handItem_kind]
  | recHandGold c =>
    cases he
    exact (decodeItem_hand_record .gold false c.bit rest).trans (by rw [handItem_gold])
  | _ => cases he

/-- The stream begins with a well-formed item of the form. -/
def BeginsWithItem (f : Form) (stream : List Bool) : Prop :=
  ∃ (i : Instr) (bits rest : List Bool),
    i.wellFormed = true ∧ encode i = .stream f bits ∧ stream = bits ++ rest

/-- The decoder reads nothing but items: one arm per form (30_encoding.md R80, R83 to R86). -/
theorem beginsWithItem_of_decodeItem {f : Form} {stream : List Bool} {r : Instr × List Bool}
    (h : decodeItem f stream = .ok r) : BeginsWithItem f stream := by
  cases f with
  | code =>
    rcases takeCode_cases stream with ⟨k, rest, hs, -⟩ | ⟨-, hnone⟩
    · refine ⟨codeItem k, codeBits k, rest, wellFormed_codeItem k, encode_codeItem k, ?_⟩
      rw [codeBits_eq_text, hs]
    · simp only [decodeItem, hnone, reduceCtorEq] at h
  | turn =>
    match stream with
    | [] => cases h
    | t :: rest => exact ⟨.recTurn (.ofBit t), [t], rest, rfl, by rw [encode, Colour.bit_ofBit], rfl⟩
  | king =>
    simp only [decodeItem] at h
    split at h
    · cases h
    · next hlong =>
      obtain ⟨v, hv⟩ := exists_le7Bits (stream.take 7) (by simp; omega)
      rw [← hv, leNat_le7Bits] at h
      split at h
      · next h80 =>
        exact ⟨.recKing v, le7Bits v, stream.drop 7, decide_eq_true h80, rfl, by
          rw [hv, List.take_append_drop]⟩
      · cases h
  | square =>
    match stream with
    | [] => cases h
    | false :: rest => exact ⟨.recSqEmpty, [false], rest, rfl, rfl, rfl⟩
    | true :: tail =>
      rcases record_cases tail with ⟨k, p, c, rest, rfl⟩ | hend
      · exact ⟨squareItem k p c, _, rest, wellFormed_squareItem k p c, encode_squareItem k p c, rfl⟩
      · simp only [decodeItem, decodePiece_ends hend, reduceCtorEq] at h
  | hand =>
    rcases record_cases stream with ⟨k, p, c, rest, rfl⟩ | hend
    · exact ⟨handItem k p c, _, rest, wellFormed_handItem k p c, encode_handItem k p c, rfl⟩
    · simp only [decodeItem, decodeHandRec_ends hend, reduceCtorEq] at h

/-- An item that is read is the one its bits encode (30_encoding.md R90). -/
theorem encode_of_decodeItem {f : Form} {stream rest : List Bool} {i : Instr}
    (h : decodeItem f stream = .ok (i, rest)) :
    i.wellFormed = true ∧ ∃ bits, encode i = .stream f bits ∧ stream = bits ++ rest := by
  obtain ⟨j, bits, rest', hj, he, rfl⟩ := beginsWithItem_of_decodeItem h
  cases (decodeItem_encode rest' hj he).symm.trans h
  exact ⟨hj, bits, he, rfl⟩

/-- Settles O5: `decodeItem_encode` and its converse `encode_of_decodeItem`. -/
theorem itemsAreSelfDelimiting : Obligations.ItemsAreSelfDelimiting :=
  ⟨fun _ _ _ rest hi he => decodeItem_encode rest hi he, fun _ _ _ _ h => encode_of_decodeItem h⟩

/-! ## Both encodings -/

/-- Settles O3: an encoding is a command word, read by the opcode map, or one stream item, after which no
bit is left. -/
theorem decodeOfEncode : Obligations.DecodeOfEncode := by
  intro i hi
  cases he : encode i with
  | command w => exact decodeCommand_encode hi he
  | stream f bits =>
    have hitem := decodeItem_encode [] hi he
    rw [List.append_nil] at hitem
    simp only [decode, hitem]

/-- Settles O1: a word that is the encoding of a well-formed command decodes to it; what is written out is
evaluated. -/
theorem sampleWordsDecode : Obligations.SampleWordsDecode := by
  have hword : ∀ {i : Instr} {w : CmdWord}, i.wellFormed = true ∧ encode i = .command w →
      decodeCommand w = .ok i := fun h => decodeCommand_encode h.1 h.2
  refine ⟨fun e he => hword ?_, rfl, rfl, fun v => hword ⟨rfl, rfl⟩, fun e he => hword ?_,
    fun w hw => hword ⟨hw, rfl⟩, fun h hh => hword ⟨hh, rfl⟩, rfl, rfl, rfl, rfl, rfl,
    rfl, rfl, rfl, rfl⟩
  · revert e; decide
  · revert e; decide

end Sys2Proof.Machine
end

section
/-! PROOFS. Stream items offered at RPOS: the command that reads one item of a form does what the item does
(O10), and every item is consumed whole and delivers its value (O35); log entry 5. -/

namespace Sys2Proof.Machine

/-- Settles O10: what is offered begins with the item's own bits, and `exec_readerOf` is about them. -/
theorem readerExecutesTheItem : Obligations.ReaderExecutesTheItem := by
  intro s f bits rest i hs ho hd
  obtain ⟨-, item, he, rfl⟩ := encode_of_decodeItem hd
  exact exec_readerOf hs.rInv he ho.left

/-! ## The value of an item -/

/-- handWord is the layout of 10_state.md R32 as a number. -/
theorem toNat_handWord (k : Kind) (p c : Bool) :
    (handWord k p c).toNat = k.num.toNat + 8 * c.toNat + 16 * p.toNat := by
  cases k <;> cases p <;> cases c <;> rfl

/-- i takes its bits and sets RESULT to n. -/
def DeliversValue (i : Instr) (bits : List Bool) (n : Nat) : Prop :=
  ∃ (sec : Sec) (m : Nat) (v : BitVec m), v.toNat = n ∧
    exec i = finish spoilNothing (takeItem bits.length sec (setResult v))

/-- The items that deliver to RESULT (41_piece_code.md R154, 40_bitstream.md R137, 42_records.md R193,
R195). -/
theorem deliversValue_of_itemValue {i : Instr} {f : Form} {bits : List Bool} {n : Nat}
    (he : encode i = .stream f bits) (hn : itemValue i = some n) : DeliversValue i bits n := by
  cases i with
  | codePawn | codeLance | codeKnight | codeSilver | codeGold | codeBishop | codeRook =>
    cases he; cases hn; exact ⟨.prim, 3, _, rfl, rfl⟩
  | recKing v => cases he; cases hn; exact ⟨.prim, 7, v, rfl, rfl⟩
  | recSqEmpty => cases he; cases hn; exact ⟨.board, 8, 0x00#8, rfl, rfl⟩
  | recSqPiece k p c =>
    cases he; cases hn
    exact ⟨.board, 8, squareWord k.kind p c.bit, toNat_squareWord _ _ _, by cases k <;> rfl⟩
  | recSqGold c =>
    cases he; cases hn
    exact ⟨.board, 8, squareWord .gold false c.bit, toNat_squareWord _ _ _, rfl⟩
  | recHand k p c =>
    cases he; cases hn
    exact ⟨.hand, 8, handWord k.kind p c.bit, toNat_handWord _ _ _, by cases k <;> rfl⟩
  | recHandGold c =>
    cases he; cases hn
    exact ⟨.hand, 8, handWord .gold false c.bit, toNat_handWord _ _ _, rfl⟩
  | _ => cases hn

/-! ## Taking an item -/

section items
variable {s : State} (hi : s.RInv) {bits : List Bool} (h : s.Offers bits)
include hi h

/-- The cursor after the item, as a number. -/
theorem rpos_advance_eq :
    (s.advance bits.length).rpos = BitVec.ofNat 16 (s.rpos.toNat + bits.length) := by
  rw [← State.advance_rpos hi h.1, BitVec.ofNat_toNat, BitVec.setWidth_eq]

/-- An item that delivers to RESULT changes RPOS, RESULT and STATUS. -/
theorem takeItem_setResult_next (sec : Sec) {m : Nat} (v : BitVec m) :
    finish spoilNothing (takeItem bits.length sec (setResult v)) s = .next { s with
      rpos := BitVec.ofNat 16 (s.rpos.toNat + bits.length)
      result := BitVec.ofNat 32 v.toNat
      status := statusDone s.status } := by
  rw [finish_done ((takeItem_ok hi sec _ bits h).trans (setResult_apply _ _)), ← rpos_advance_eq hi h,
    BitVec.ofNat_toNat]
  rfl

/-- The turn field changes RPOS, POS[81] and STATUS. -/
theorem takeItem_turn_next (w : Byte) :
    finish spoilTurn (takeItem bits.length .turn (memWrite .pos turnAddr w)) s = .next { s with
      rpos := BitVec.ofNat 16 (s.rpos.toNat + bits.length)
      posMem := Memory.write s.posMem turnAddr w
      status := statusDone s.status } := by
  rw [finish_done ((takeItem_ok hi .turn _ bits h).trans (memWrite_ok w (hasAddr_board (by decide)))),
    ← rpos_advance_eq hi h]
  rfl

end items

/-- Settles O35: the item's bits are taken, then its value is delivered. -/
theorem streamItemsComplete : Obligations.StreamItemsComplete := by
  refine fun s i f bits hs _ he ho => ⟨fun n hn => ?_, fun c hc => ?_⟩
  · obtain ⟨sec, m, v, rfl, hexec⟩ := deliversValue_of_itemValue he hn
    rw [hexec, takeItem_setResult_next hs.rInv ho]
  · subst hc
    cases he
    refine ⟨_, takeItem_turn_next hs.rInv ho (bitByte c.bit), ⟨rfl, fun a ha => ?_⟩,
      Memory.read_write_same .., rfl, rfl⟩
    exact Memory.read_write_other _ _ (Ne.symm ha)

end Sys2Proof.Machine
end

section
/-! PROOFS. The packed position: its length counts its non-king pieces (O8), and PACK writes it with its pad
(O46). -/

namespace Sys2Proof.Machine

/-! ## Lengths -/

/-- hc(k) is the length of a hand record whose promotion bit GOLD leaves out (30_encoding.md R84, R89). -/
theorem length_recordBits_eq_handCost (k : Kind) (p c : Bool) :
    (recordBits k p c).length = handCost k := by cases k <;> rfl

/-- A square record is one bit, and a hand record more where a piece stands (30_encoding.md R83). -/
theorem length_squareBits {w : Byte} (hw : legalNonKing w = true) :
    (squareBits w).length = 1 + if w = 0x00#8 then 0
      else ((Kind.ofNum (squareKind w)).map handCost).getD 0 := by
  by_cases h0 : w = 0x00#8
  · subst h0; rfl
  · obtain ⟨k, hk, -⟩ := (legalNonKing_cases w hw).resolve_left h0
    rw [squareBits, if_neg h0, if_neg h0, hk]
    simp only [List.length_cons, length_recordBits_eq_handCost, Option.map_some, Option.getD_some]
    omega

theorem length_handBits {h : Byte} (hh : legalHand h = true) :
    (handBits h).length = ((Kind.ofNum (handKind h)).map handCost).getD 0 := by
  obtain ⟨k, hk, -⟩ := legalHand_cases h hh
  rw [handBits, hk]
  exact length_recordBits_eq_handCost k _ _

/-- The packed position is the turn bit, 14 bits for the kings, and the records (30_encoding.md R87). -/
theorem length_packedBits (turn : Bool) (b : Nat → Byte) (kb kw : Nat) (hs : List Byte) :
    (packedBits turn b kb kw hs).length =
      1 + 14 + ((otherSquares kb kw).map fun a => (squareBits (b a)).length).sum +
        (hs.map fun h => (handBits h).length).sum := by
  have hkings : (kingBits kb kw).length = 14 := rfl
  simp only [packedBits, boardBits, handSection, List.length_cons, List.length_append, List.length_flatMap,
    hkings]
  omega

/-- Settles O8: 1 + 14 bits before the records, one bit for each of the 79 squares, and the hand-record
length of every piece. -/
theorem packedLengthCountsPieces : Obligations.PackedLengthCountsPieces := by
  intro turn b kb kw hs hb hh
  have hsquares := List.map_congr_left fun a (ha : a ∈ otherSquares kb kw) =>
    length_squareBits (hb.nonKing ha)
  have hhand := List.map_congr_left fun h hm => length_handBits (hh h hm)
  have h79 := length_otherSquares hb.black.1 hb.white.1 hb.ne
  rw [length_packedBits, hsquares, hhand, List.sum_map_add, List.map_const', List.sum_replicate, h79,
    smul_eq_mul]
  omega

/-! ## A stream that starts at bit 0 and ends at a byte -/

/-- With no partial byte the writer is its OUTLEN: WACC is 0 from bit WCNT up (10_state.md R21). -/
theorem writer_of_wcnt_zero {s : State} {w : Writer} (hi : s.WInv w) (h0 : w.wcnt = 0#3) :
    w = ⟨0#8, 0#3, BitVec.ofNat 13 (w.wbits / 8)⟩ := by
  obtain ⟨-, -, hacc⟩ := hi.ok
  have hzero : w.wacc = 0#8 := BitVec.eq_of_toNat_eq (by rw [h0] at hacc; simpa using hacc)
  rw [Writer.wbits_div, BitVec.ofNat_toNat, BitVec.setWidth_eq]
  cases w
  cases h0
  cases hzero
  rfl

/-- Byte j of a stream written from its start (20_memory.md R62). -/
theorem Put.byte {s t : State} {w w' : Writer} {bits : List Bool} (h : Put s t w w' bits)
    (hw : w.wbits = 0) {j : Nat} (hj : j < w'.outlen.toNat) :
    ∃ byte, t.cell .out j = some byte ∧
      ∀ i < 8, byte.getLsbD i = bits.getD (8 * j + i) false := by
  obtain ⟨-, hwritten, -⟩ := h.inv.ok
  obtain ⟨byte, hbyte⟩ := Option.isSome_iff_exists.1 (hwritten j hj)
  refine ⟨byte, hbyte, fun i hi => ?_⟩
  have hlen := h.wbits
  have hdiv := w'.wbits_div
  have hin : 8 * j + i < bits.length := by omega
  have hbit := h.new (8 * j + i) hin
  rw [hw, Nat.zero_add, State.outBit_byte (by omega), show (8 * j + i) / 8 = j by omega,
    show (8 * j + i) % 8 = i by omega, hbyte] at hbit
  rw [List.getD_eq_getElem _ _ hin]
  exact Option.some.inj hbit

theorem add_length_padBits (n : Nat) : n + (padBits n).length = 8 * ((n + 7) / 8) := by
  rw [padBits, List.length_replicate]; omega

/-- The pad bits read as the zeros past the end of the stream (30_encoding.md R88). -/
theorem getD_append_padBits (bits : List Bool) (n j : Nat) :
    (bits ++ padBits n).getD j false = bits.getD j false := by
  by_cases hj : j < bits.length
  · rw [List.getD_append _ _ _ _ hj]
  · rw [List.getD_append_right _ _ _ _ (by omega), List.getD_eq_default bits _ (by omega), padBits,
      List.getD_eq_getElem?_getD, List.getElem?_getD_replicate_default_eq]

/-- PACK passes its checks and writes the packed position and its pad (43_pack_unpack.md R210). -/
theorem execPack_position {s : State} (hs : s.Inv) {turn : Bool} {b : Nat → Byte} {kb kw : Nat}
    {hand : List Byte} (hp : Position s turn b kb kw hand) {n : Nat}
    (hn : n = (packedBits turn b kb kw hand).length) (hroom : (n + 7) / 8 ≤ s.params.outCap) :
    ∃ t w', exec .pack s =
        .next (State.complete { t with result := (BitVec.ofNat 16 n).setWidth 32 }) ∧
      Put s.freshWriter t Writer.reset w' (packedBits turn b kb kw hand ++ padBits n) ∧
      w'.wcnt = 0#3 := by
  obtain ⟨-, ⟨-, hout⟩, hhand⟩ := hs.params
  obtain ⟨t, w', hdone, hput, hcnt⟩ := writePosition_ok hout hs.outWf hs.outBounded hp hn hroom
  exact ⟨t, w', finish_done ((packPosition_checks hhand hp).trans hdone), hput, hcnt⟩

/-- Settles O46: PACK appends the packed position and its pad to an empty stream, so that OUT holds whole
bytes of it. -/
theorem packWritesThePosition : Obligations.PackWritesThePosition := by
  intro s turn b kb kw hand n hs hp hn hroom
  obtain ⟨t, w', hexec, hput, hcnt⟩ := execPack_position hs hp hn hroom
  have hbits : w'.wbits = 8 * ((n + 7) / 8) := by
    have hpad := add_length_padBits n
    have := hput.wbits
    rw [List.length_append, ← hn] at this
    exact this.trans ((Nat.zero_add _).trans hpad)
  have hlen : w'.outlen.toNat = (n + 7) / 8 := by
    rw [← Writer.wbits_div, hbits, Nat.mul_div_cancel_left _ (by decide)]
  have hresult : (BitVec.ofNat 16 n).setWidth 32 = BitVec.ofNat 32 n := by
    obtain ⟨-, ⟨-, hcap⟩, -⟩ := hs.params
    exact BitVec.setWidth_ofNat_of_le_of_lt (by decide) (by omega)
  refine ⟨_, hexec, ?_, ?_, hresult, hn.trans (length_packedBits turn b kb kw hand), ?_, fun j hj => ?_,
    fun a ha => hput.frame a (.inr (by rwa [hlen]))⟩
  · rw [hput.same]; rfl
  · rw [hput.same]; rfl
  · refine hput.writer.trans (congrArg some ((writer_of_wcnt_zero hput.inv hcnt).trans ?_))
    rw [hbits, Nat.mul_div_cancel_left _ (by decide)]
  · obtain ⟨byte, hbyte, hget⟩ := hput.byte rfl (by rwa [hlen])
    exact ⟨byte, hbyte, fun i hi => (hget i hi).trans (getD_append_padBits _ _ _)⟩

end Sys2Proof.Machine
end

section
/-! PROOFS. The bit-stream writer (O18, O19, O20, O22, O23, O24). Every command that encodes is PutBit of its
bit string (`encodes_…`), so what PutBit of a string does where the bits fit and where they do not is said
once for all of them. -/

namespace Sys2Proof.Machine

/-! ## Every encode command is PutBit of its bits -/

/-- From s the instruction is PutBit of the bits, with the section of its errors. -/
def Encodes (i : Instr) (s : State) (bits : List Bool) (sec : Sec) : Prop :=
  exec i s = finish spoilWriter (putBits bits sec) s

section encodes
variable {s : State}

theorem encodes_wBit (b : Bool) : Encodes (.wBit b) s [b] .prim :=
  finish_congr (by rw [putBits_singleton])

theorem encodes_wLe7 (v : BitVec 7) : Encodes (.wLe7 v) s (le7Bits v) .prim := rfl

theorem encodes_wCode (k : Kind) : Encodes (.wCode k) s k.text .prim :=
  finish_congr (by rw [putCode_num])

theorem encodes_sqEnc {w : Byte} (hw : legalNonKing w = true) :
    Encodes (.sqEnc w) s (squareBits w) .board :=
  finish_congr (by rw [if_pos hw, encSquare_eq w hw])

theorem encodes_hrecEnc {h : Byte} (hh : legalHand h = true) :
    Encodes (.hrecEnc h) s (handBits h) .hand :=
  finish_congr (by rw [if_pos hh, encHandRec_eq h hh])

theorem encodes_turnEnc {turn : Bool} (ht : s.cell .pos turnAddr = some (bitByte turn)) :
    Encodes .turnEnc s [turn] .turn :=
  finish_congr (by rw [Cmd.bind_done (checkTurn_ok ht), encTurn_eq ht])

theorem encodes_boardEnc {b : Nat → Byte} {kb kw : Nat} (hb : s.HoldsBoard b)
    (hk : LegalBoard b kb kw) : Encodes .boardEnc s (boardBits b kb kw) .board :=
  finish_congr (by rw [Cmd.bind_done (validateBoard_ok hb hk), encBoard_eq hb hk])

theorem encodes_handEnc (hcap : s.params.handCap ≤ 896) {hs : List Byte} (hh : s.HoldsHand hs)
    (hl : ∀ h ∈ hs, legalHand h = true) : Encodes .handEnc s (handSection hs) .hand :=
  finish_congr (by rw [Cmd.bind_done (checkHand_ok hcap hh hl), encHand_eq hh hl])

end encodes

section outcomes
variable {i : Instr} {s : State} {bits : List Bool} {sec : Sec} {w : Writer}

/-- Where the bits fit, they are appended. -/
theorem Encodes.wrote (h : Encodes i s bits sec) (hw : s.writer = some w) (hi : s.WInv w)
    (hroom : s.Room w bits.length) : ∃ t, exec i s = .next t ∧ s.Wrote t bits := by
  obtain ⟨t, w', hdone, hput⟩ := putBits_ok bits sec hw hi hroom
  exact ⟨t.complete, h.trans (finish_done hdone), hput.wrote hw⟩

/-- Where they do not fit, the bit that would complete byte OUT_CAP is CapacityExceeded
(40_bitstream.md R120). -/
theorem Encodes.overflows (h : Encodes i s bits sec) (hw : s.writer = some w) (hi : s.WInv w)
    (hfull : ¬ s.Room w bits.length) :
    exec i s = .next (s.overflowed sec (8 * s.params.outCap + 7)) := by
  obtain ⟨t, hraised, hsame⟩ := putBits_full bits sec hw hi hfull
  rw [h, finish_raised hraised, hsame]
  rfl

end outcomes

/-- Settles O20: each command is PutBit of its bits. -/
theorem immediateWritersAppend : Obligations.ImmediateWritersAppend := by
  intro s w hs hw
  have hi := hs.wInv hw
  exact ⟨fun b => (encodes_wBit b).wrote hw hi, fun v => (encodes_wLe7 v).wrote hw hi,
    fun k => (encodes_wCode k).wrote hw hi, fun _ hx => (encodes_sqEnc hx).wrote hw hi,
    fun _ hh => (encodes_hrecEnc hh).wrote hw hi⟩

/-- Settles O23: each command is PutBit of its bits, after checks that pass. -/
theorem writerOverflow : Obligations.WriterOverflow := by
  intro s w hs hw
  have hi := hs.wInv hw
  obtain ⟨-, -, hcap⟩ := hs.params
  exact ⟨fun b => (encodes_wBit b).overflows hw hi, fun v => (encodes_wLe7 v).overflows hw hi,
    fun k => (encodes_wCode k).overflows hw hi, fun _ hx => (encodes_sqEnc hx).overflows hw hi,
    fun _ hh => (encodes_hrecEnc hh).overflows hw hi,
    fun _ ht => (encodes_turnEnc ht).overflows hw hi,
    fun _ _ _ hb hk => (encodes_boardEnc hb hk).overflows hw hi,
    fun _ hh hl => (encodes_handEnc hcap hh hl).overflows hw hi⟩

/-! ## W_INIT, W_BIT and W_FLUSH on the registers -/

theorem exec_wInit (s : State) : exec .wInit s = .next s.freshWriter.complete := rfl

/-- Settles O18: the decoder's row and the meaning, evaluated. -/
theorem startStream : Obligations.StartStream := ⟨rfl, exec_wInit⟩

/-- The bit placed at WACC[n], as a number. -/
theorem bitByte_shiftLeft (b : Bool) (n : Nat) :
    bitByte b <<< n = BitVec.ofNat 8 (b.toNat * 2 ^ n) := by
  apply BitVec.eq_of_toNat_eq
  cases b <;> simp [bitByte, Nat.shiftLeft_eq]

/-- Settles O19: the three cases of PutBit. -/
theorem writeBit : Obligations.WriteBit := by
  intro s b acc cnt len hw
  refine ⟨fun hne => ?_, fun h7 hroom => ?_, fun h7 hfull => ?_⟩
  · rw [← bitByte_shiftLeft]
    exact finish_done (putBit_low b .prim hw fun h => hne (congrArg BitVec.toNat h))
  · obtain rfl : cnt = 7#3 := BitVec.eq_of_toNat_eq h7
    rw [show 128 = 2 ^ 7 from rfl, ← bitByte_shiftLeft]
    exact finish_done (putBit_byte b .prim hw rfl hroom)
  · obtain rfl : cnt = 7#3 := BitVec.eq_of_toNat_eq h7
    exact finish_raised (putBit_full b .prim hw rfl hfull)

/-- Flush without a partial byte (40_bitstream.md R121). -/
theorem flush_no_partial {s : State} {w : Writer} (sec : Sec) (hw : s.writer = some w)
    (h0 : w.wcnt = 0#3) : flush sec s = .done () s := by
  have hget : getWriter s = .done w s := by simp [getWriter, hw]
  rw [flush, Cmd.bind_done hget, Cmd.get_bind_apply, if_pos h0, Cmd.pure_apply]

/-- Settles O22: the three cases of Flush. -/
theorem flushPartialByte : Obligations.FlushPartialByte := by
  intro s w _ hw
  refine ⟨fun h0 => ?_, fun hne hroom => ?_, fun hne hfull => ?_⟩
  · exact finish_done (flush_no_partial .prim hw (BitVec.eq_of_toNat_eq h0))
  · exact finish_done (flush_byte .prim hw (fun h => hne (congrArg BitVec.toNat h)) hroom)
  · exact finish_raised (flush_full .prim hw (fun h => hne (congrArg BitVec.toNat h)) hfull)

/-! ## Sequences of commands -/

theorem runInstrs_cons {i : Instr} {s t : State} (rest : List Instr) (h : exec i s = .next t) :
    runInstrs (i :: rest) s = runInstrs rest t := by simp only [runInstrs, h]

/-- A sequence with one more command at its end. -/
theorem runInstrs_concat {l : List Instr} {i : Instr} {s t u : State} (h : runInstrs l s = some t)
    (hi : exec i t = .next u) : runInstrs (l ++ [i]) s = some u := by
  induction l generalizing s with
  | nil => cases h; exact runInstrs_cons [] hi
  | cons j l ih =>
    cases hj : exec j s with
    | next v => rw [runInstrs_cons l hj] at h; rw [List.cons_append, runInstrs_cons _ hj, ih h]
    | fault f => simp only [runInstrs, hj, reduceCtorEq] at h
    | refused r => simp only [runInstrs, hj, reduceCtorEq] at h

/-- The output stream does not depend on STATUS. -/
theorem Put.setStatus {s t : State} {w w' : Writer} {bits : List Bool} (h : Put s t w w' bits)
    (v : CsrWord) : Put { s with status := v } { t with status := v } w w' bits where
  same := by rw [h.same]
  wbits := h.wbits
  old := h.old
  new := h.new
  frame := h.frame
  inv := ⟨h.inv.cap, h.inv.wf, h.inv.bounded, h.inv.ok⟩

/-- W_BITs that fit append their bits; each of them writes STATUS. -/
theorem runInstrs_wBits {s : State} {w : Writer} (bits : List Bool) (hw : s.writer = some w)
    (hi : s.WInv w) (hroom : s.Room w bits.length) :
    ∃ t w', runInstrs (bits.map .wBit) s = some t ∧
      Put { s with status := t.status } t w w' bits := by
  induction bits generalizing s w with
  | nil => exact ⟨s, w, rfl, Put.refl hw hi⟩
  | cons b bits ih =>
    rw [List.length_cons, Nat.add_comm] at hroom
    obtain ⟨t, w1, hdone, hput⟩ := putBit_ok b .prim hw hi (Room.mono hroom (Nat.le_add_right ..))
    have hexec : exec (.wBit b) s = .next t.complete := finish_done hdone
    obtain ⟨u, w2, hrun, hput'⟩ := ih (s := t.complete) hput.writer
      (hput.setStatus (statusDone t.status)).inv (hput.room hroom)
    exact ⟨u, w2, (runInstrs_cons _ hexec).trans hrun, (hput.setStatus u.status).trans hput'⟩

/-! ## The writer law -/

/-- From W_INIT, bits that fit are the whole output stream. -/
theorem runInstrs_wInit_wBits {s : State} (hs : s.Inv) (bits : List Bool)
    (hroom : bits.length / 8 ≤ s.params.outCap) :
    ∃ t w, runInstrs (.wInit :: bits.map .wBit) s = some t ∧
      Put { s.freshWriter with status := t.status } t Writer.reset w bits := by
  obtain ⟨-, ⟨-, hcap⟩, -⟩ := hs.params
  have hfresh := freshWriter_wInv hcap hs.outWf hs.outBounded
  have hempty : Writer.reset.wbits = 0 := rfl
  obtain ⟨t, w, hrun, hput⟩ := runInstrs_wBits (s := s.freshWriter.complete) bits rfl
    ⟨hfresh.cap, hfresh.wf, hfresh.bounded, hfresh.ok⟩
    (by rw [State.Room, hempty, Nat.zero_add]; exact hroom)
  exact ⟨t, w, (runInstrs_cons _ (exec_wInit s)).trans hrun, hput⟩

/-- A stream written from its start is in WACC from its last whole byte on, zeros above it
(10_state.md R21). -/
theorem Put.wacc {s t : State} {w w' : Writer} {bits : List Bool} (h : Put s t w w' bits)
    (hw : w.wbits = 0) (i : Nat) : w'.wacc.getLsbD i =
      (decide (i < bits.length % 8) && bits.getD (8 * (bits.length / 8) + i) false) := by
  obtain ⟨-, -, hacc⟩ := h.inv.ok
  have hlen : w'.wbits = bits.length := by rw [h.wbits, hw, Nat.zero_add]
  have hdiv := w'.wbits_div
  have hmod := w'.wbits_mod
  rw [hlen] at hdiv hmod
  by_cases hi : i < bits.length % 8
  · have hin : 8 * (bits.length / 8) + i < bits.length := by omega
    have hbit := h.new _ hin
    rw [hw, Nat.zero_add, State.outBit_acc (by omega) (by omega),
      show (8 * (bits.length / 8) + i) % 8 = i by omega] at hbit
    rw [List.getD_eq_getElem _ _ hin, decide_eq_true hi, Bool.true_and]
    exact Option.some.inj hbit
  · rw [acc_high _ _ i hacc (by omega), decide_eq_false hi, Bool.false_and]

/-- Settles O24: the W_BITs append to an empty stream, and W_FLUSH appends the pad, after which the stream is
whole bytes. -/
theorem writerLaw : Obligations.WriterLaw := by
  intro s bits hs hroom
  obtain ⟨t, w, hrun, hput⟩ := runInstrs_wInit_wBits hs bits (by omega)
  have hlen : w.wbits = bits.length := by rw [hput.wbits]; exact Nat.zero_add _
  refine ⟨⟨t, w, hrun, hput.writer, hlen, by rw [← hlen, Writer.wbits_div],
    by rw [← hlen, Writer.wbits_mod], fun i _ => hput.wacc rfl i⟩, ?_⟩
  obtain ⟨u, w', hflush, hpad, hcnt⟩ := flush_ok .prim hput.writer hput.inv
    (by rw [hlen, hput.params]; exact hroom)
  rw [hlen] at hpad
  have hall := hput.trans hpad
  have hbytes : w'.outlen.toNat = (bits.length + 7) / 8 := by
    have hwbits := hpad.wbits
    rw [hlen, add_length_padBits] at hwbits
    rw [← Writer.wbits_div, hwbits, Nat.mul_div_cancel_left _ (by decide)]
  refine ⟨u.complete, w', runInstrs_concat hrun (finish_done hflush), hall.writer, hbytes, hcnt,
    fun j hj => ?_⟩
  obtain ⟨byte, hbyte, hget⟩ := hall.byte rfl (by rwa [hbytes])
  exact ⟨byte, hbyte, fun i hi => (hget i hi).trans (getD_append_padBits _ _ _)⟩

end Sys2Proof.Machine
end

section
/-! PROOFS. The bit-stream reader (O25, O26, O27, O28, O34). A command that reads one item is `takeItem` of its
bits where they are there, and where the stream ends inside the item it takes every bit and fails
(`finish_short`). -/

namespace Sys2Proof.Machine

/-! ## R_LOAD and R_EXH -/

theorem exec_rLoad {s : State} (h : s.inlen.toNat ≤ s.params.inCap) :
    exec .rLoad s = .next s.loaded.complete := finish_done (loadReader_ok h)

/-- Settles O25: INLEN fits, or the load raises before it changes anything. (`loadReader` itself is the
model's operation.) -/
theorem loadReaderCommand : Obligations.LoadReader :=
  ⟨rfl, fun _ => ⟨exec_rLoad, fun h => finish_raised (loadReader_len h)⟩⟩

/-- Settles O26: by the two values of the flag EXH. -/
theorem reportExhaustion : Obligations.ReportExhaustion := by
  refine ⟨rfl, fun s => ?_⟩
  have hexec : exec .rExh s = .next (State.complete
      { s with result := (if s.exhausted then 1#1 else 0#1).setWidth 32 }) := rfl
  rw [hexec]
  by_cases h : s.rpos.toNat = 8 * s.rlen.toNat
  · rw [(s.exhausted_iff).2 h, if_pos h]; rfl
  · rw [Bool.eq_false_iff.2 fun he => h ((s.exhausted_iff).1 he), if_neg h]; rfl

/-! ## Items that are there, and items cut short -/

section reader
variable {s : State} (hi : s.RInv)
include hi

theorem rBit_takesItem {b : Bool} (h : s.Offers [b]) : exec .rBit s =
    finish spoilNothing (takeItem [b].length .prim (setResult (BitVec.ofBool b))) s := by
  refine finish_congr ?_
  rw [takeItem_ok hi .prim _ [b] h, Cmd.cursor_bind_apply, Cmd.bind_done (getBit_ok hi .prim s.rpos h)]
  rfl

/-- A stream that ends inside the item: every bit is consumed, and nothing else changes but STATUS
(60_exceptions.md R244). -/
theorem finish_short {c : Cmd Unit} {sec : Sec} {off : BitVec 16} {bits : List Bool}
    (h : s.OffersLast bits) (hc : c.TakesNext s sec off bits.length) :
    finish spoilNothing c s = .next { s with
      rpos := BitVec.ofNat 16 (8 * s.rlen.toNat)
      status := statusRaised ⟨.unexpectedEndOfStream, sec, off⟩ } := by
  obtain ⟨hoffers, hlast⟩ := h
  rw [finish_raised (hc.short (State.OffersLast.exhausted_advance hi ⟨hoffers, hlast⟩)), ← hlast,
    ← rpos_advance_eq hi hoffers]
  rfl

end reader

/-- Settles O28: the field as an item, or GetLE7 on a stream that ends inside it. -/
theorem readField : Obligations.ReadField := by
  refine ⟨rfl, fun s hs => ⟨fun v ho => ?_, fun bits hlt ho => ?_⟩⟩
  · rw [rLe7_takesItem hs.rInv ho, takeItem_setResult_next hs.rInv ho, BitVec.ofNat_toNat,
      length_le7Bits]
  · exact finish_short hs.rInv ho ((getLE7_takesNext hs.rInv .prim bits ho.1 hlt).bind _)

/-! ## R_BIT -/

/-- The bit at the cursor (20_memory.md R62). -/
theorem offers_bit {s : State} {byte : Byte} (hleft : s.rpos.toNat < 8 * s.rlen.toNat)
    (hc : s.cell .inp (s.rpos.toNat / 8) = some byte) :
    s.Offers [byte.getLsbD (s.rpos.toNat % 8)] := by
  refine ⟨hleft, fun j hj => ?_⟩
  obtain rfl : j = 0 := by simpa using hj
  simp [State.streamBit, hc]

theorem exec_rBit {s : State} (hi : s.RInv) {byte : Byte} (hleft : s.rpos.toNat < 8 * s.rlen.toNat)
    (hc : s.cell .inp (s.rpos.toNat / 8) = some byte) :
    exec .rBit s = .next { s with
      rpos := BitVec.ofNat 16 (s.rpos.toNat + 1)
      result := BitVec.ofNat 32 (byte.getLsbD (s.rpos.toNat % 8)).toNat
      status := statusDone s.status } := by
  have ho := offers_bit hleft hc
  rw [rBit_takesItem hi ho, takeItem_setResult_next hi ho, BitVec.toNat_ofBool]
  rfl

theorem exec_rBit_end {s : State} (h : s.rpos.toNat = 8 * s.rlen.toNat) :
    exec .rBit s = .next { s with
      status := statusRaised ⟨.unexpectedEndOfStream, .prim, s.rpos⟩ } :=
  finish_raised ((Cmd.cursor_bind_apply _ s).trans <|
    Cmd.bind_raised <| getBit_end .prim s.rpos ((s.exhausted_iff).2 h))

/-- Settles O27: R_BIT with a bit left and at the end. -/
theorem readBit : Obligations.ReadBit := by
  refine ⟨rfl, fun s hs => ⟨fun byte hleft hc => ?_, exec_rBit_end⟩⟩
  rw [exec_rBit hs.rInv hleft hc, BitVec.getLsbD, Nat.toNat_testBit]

/-! ## The reader law -/

/-- t is where R_LOAD and m R_BITs lead from s: RPOS is m and the last R_BIT gave bit m-1 of IN
(40_bitstream.md R127). -/
structure ReadFirst (s : State) (m : Nat) (t : State) : Prop where
  run : runInstrs (.rLoad :: List.replicate m .rBit) s = some t
  rpos : t.rpos = BitVec.ofNat 16 m
  frame : sameButReader { s with rlen := s.inlen } t
  done : 0 < m → statusErr t.status = 0
  bit : 0 < m → ∃ byte, s.cell .inp ((m - 1) / 8) = some byte ∧
    t.result = if byte.getLsbD ((m - 1) % 8) then 1#32 else 0#32

theorem readFirst_zero {s : State} (h : s.inlen.toNat ≤ s.params.inCap) :
    ReadFirst s 0 s.loaded.complete where
  run := runInstrs_cons [] (exec_rLoad h)
  rpos := rfl
  frame := rfl
  done := nofun
  bit := nofun

section readFirst
variable {s t : State} {m : Nat} (h : ReadFirst s m t) (hcap : s.params.inCap ≤ 8191)
  (hlen : s.inlen.toNat ≤ s.params.inCap) (hm : m ≤ 8 * s.inlen.toNat)
include h

theorem ReadFirst.rlen : t.rlen = s.inlen := by rw [h.frame]

theorem ReadFirst.params : t.params = s.params := by rw [h.frame]

theorem ReadFirst.cell_inp (a : Nat) : t.cell .inp a = s.cell .inp a := by rw [h.frame]; rfl

include hm

theorem ReadFirst.toNat_rpos : t.rpos.toNat = m := by
  have hwidth := s.inlen.isLt
  rw [h.rpos, BitVec.toNat_ofNat]
  omega

/-- One R_BIT more, at the end. -/
theorem ReadFirst.rBit_at_end (hend : m = 8 * s.inlen.toNat) : exec .rBit t = .next { t with
    status := statusRaised ⟨.unexpectedEndOfStream, .prim, BitVec.ofNat 16 m⟩ } := by
  rw [exec_rBit_end (by rw [h.toNat_rpos hm, h.rlen]; exact hend), h.rpos]

include hcap hlen

theorem ReadFirst.rInv : t.RInv where
  cap := by rw [h.params]; exact hcap
  rlen := by rw [h.rlen, h.params]; exact hlen
  rpos := by rw [h.toNat_rpos hm, h.rlen]; exact hm

/-- One R_BIT more, with bits left. -/
theorem ReadFirst.next (hlt : m < 8 * s.inlen.toNat) {byte : Byte}
    (hc : s.cell .inp (m / 8) = some byte) : ∃ u, ReadFirst s (m + 1) u := by
  have hpos := h.toNat_rpos hm
  have hexec := exec_rBit (h.rInv hcap hlen hm) (byte := byte) (by rw [hpos, h.rlen]; exact hlt)
    (by rw [hpos, h.cell_inp]; exact hc)
  rw [hpos] at hexec
  have hrun := runInstrs_concat h.run hexec
  rw [List.cons_append, ← List.replicate_succ'] at hrun
  refine ⟨_, hrun, rfl, by rw [h.frame], fun _ => statusErr_word .., fun _ => ⟨byte, hc, ?_⟩⟩
  rw [Nat.add_sub_cancel]
  cases byte.getLsbD (m % 8) <;> rfl

end readFirst

theorem exists_readFirst {s : State} (hcap : s.params.inCap ≤ 8191)
    (hlen : s.inlen.toNat ≤ s.params.inCap)
    (hbytes : ∀ j < s.inlen.toNat, (s.cell .inp j).isSome = true) (m : Nat)
    (hm : m ≤ 8 * s.inlen.toNat) : ∃ t, ReadFirst s m t := by
  induction m with
  | zero => exact ⟨_, readFirst_zero hlen⟩
  | succ m ih =>
    obtain ⟨t, ht⟩ := ih (by omega)
    obtain ⟨byte, hc⟩ := Option.isSome_iff_exists.1 (hbytes (m / 8) (by omega))
    exact ht.next hcap hlen (by omega) hm hc

/-- Settles O34: by induction on the number of R_BITs (`exists_readFirst`), and one more at the end. -/
theorem readerLaw : Obligations.ReaderLaw := by
  intro s m hs hlen hm hbytes
  obtain ⟨⟨-, hcap⟩, -⟩ := hs.params
  obtain ⟨t, ht⟩ := exists_readFirst hcap hlen hbytes m hm
  exact ⟨⟨t, ht.run, ht.rpos, ht.frame, ht.done, ht.bit⟩, fun hend =>
    ⟨_, runInstrs_concat ht.run (ht.rBit_at_end hm hend), ht.rpos, rfl⟩⟩

end Sys2Proof.Machine
end

section
/-! PROOFS. The piece-type code (O29, O30). A stream begins with a code, which R_CODE takes whole
(`exec_rCode`), or ends inside one (`exec_rCode_short`); W_CODE appends the string of its LUT entry. -/

namespace Sys2Proof.Machine

/-! ## R_CODE -/

section rCode
variable {s : State} (hi : s.RInv)
include hi

/-- R_CODE where the stream begins with a code (41_piece_code.md R154). -/
theorem exec_rCode {k : Kind} (h : s.Offers k.text) : exec .rCode s = .next { s with
    rpos := BitVec.ofNat 16 (s.rpos.toNat + k.text.length)
    result := k.num.setWidth 32
    status := statusDone s.status } := by
  rw [← codeBits_eq_text] at h ⊢
  rw [rCode_takesItem hi h, takeItem_setResult_next hi h, BitVec.ofNat_toNat]

/-- R_CODE where the stream ends inside a code (41_piece_code.md R154). -/
theorem exec_rCode_short {bits : List Bool} (hpart : bits ∈ partialCodes) (h : s.OffersLast bits) :
    exec .rCode s = .next { s with
      rpos := BitVec.ofNat 16 (8 * s.rlen.toNat)
      status := statusRaised ⟨.unexpectedEndOfStream, .prim, s.rpos⟩ } :=
  finish_short hi h ((decodeKind_takesNext hi .prim s.rpos bits hpart h.1).bind _)

end rCode

/-- Bits in which takeCode finds no code end inside one (30_encoding.md R82). -/
theorem mem_partialCodes_of_takeCode {bits : List Bool} (h : takeCode bits = none) :
    bits ∈ partialCodes := by
  rcases takeCode_cases bits with ⟨k, rest, -, hk⟩ | ⟨hpart, -⟩
  · rw [h] at hk; cases hk
  · exact hpart

/-- Settles O29: R_CODE on a code, and on bits that end inside one. -/
theorem readCode : Obligations.ReadCode :=
  ⟨rfl, fun _ hs => ⟨fun _ ho => exec_rCode hs.rInv ho, fun _ hnone ho =>
    exec_rCode_short hs.rInv (mem_partialCodes_of_takeCode hnone) ho⟩⟩

/-! ## The code laws -/

/-- LUT holds the length of a code and its value, most significant bit first (10_state.md R29,
41_piece_code.md R151). -/
theorem lutEntry_num (k : Kind) : lutEntry k.num =
    some (k.text.length, k.text.foldl (fun v b => 2 * v + b.toNat) 0) := by cases k <;> rfl

/-- Five bits begin with a code, and with no other (30_encoding.md R81). -/
theorem exists_unique_code {bits : List Bool} (h : 5 ≤ bits.length) :
    ∃ k : Kind, k.text <+: bits ∧ ∀ k' : Kind, k'.text <+: bits → k' = k := by
  obtain ⟨-, -, hcomplete⟩ := pieceCodeIsComplete
  obtain ⟨k, rest, -, hbits, -, hunique⟩ := hcomplete bits h
  exact ⟨k, ⟨rest, hbits.symm⟩, hunique⟩

/-- Settles O30: W_CODE appends the code, R_CODE takes it back, and five bits hold one code only. -/
theorem codeLaw : Obligations.CodeLaw := by
  refine ⟨fun s w k hs hw hroom => ?_, fun s bits hs ho hlen => ?_⟩
  · obtain ⟨t, hexec, hwrote⟩ := (encodes_wCode k).wrote hw (hs.wInv hw) hroom
    exact ⟨t, k.text, hexec, hwrote, lutEntry_num k, fun u hu ho => exec_rCode hu.rInv ho⟩
  · obtain ⟨k, ⟨rest, rfl⟩, hunique⟩ := exists_unique_code hlen
    exact ⟨k, List.prefix_append _ _, hunique, exec_rCode hs.rInv ho.left⟩

end Sys2Proof.Machine
end

section
/-! PROOFS. The commands on single records (O31, O32, O33): each takes the record the stream offers as a
stream item (StreamItems.lean), or takes every bit left and fails. -/

namespace Sys2Proof.Machine

section reader
variable {s : State} (hi : s.RInv)
include hi

/-- SQ_DEC on a stream that ends inside the record (42_records.md R193). -/
theorem exec_sqDec_short {bits : List Bool} (hcut : decodeItem .square bits = .error .endOfStream)
    (h : s.OffersLast bits) : exec .sqDec s = .next { s with
      rpos := BitVec.ofNat 16 (8 * s.rlen.toNat)
      status := statusRaised ⟨.unexpectedEndOfStream, .board, s.rpos⟩ } :=
  finish_short hi h ((decSquare_takesNext hi .board bits (squareEnds_of_cut hcut) h.1).bind _)

omit hi in
/-- HREC_DEC with a bit left reads a record (42_records.md R195). -/
theorem hrecDec_of_left (hleft : s.exhausted = false) :
    exec .hrecDec s = finish spoilNothing ((decHandRec .hand).bind fun h => setResult h) s :=
  finish_congr (by rw [Cmd.get_bind_apply, hleft, if_neg (by decide)])

/-- HREC_DEC takes the record of a word, its promotion bit as read (42_records.md R175). -/
theorem hrecDec_takesWord {h : Byte} (hh : readHand h = true) (ho : s.Offers (readBits h)) :
    exec .hrecDec s =
      finish spoilNothing (takeItem (readBits h).length .hand (setResult h)) s := by
  rw [hrecDec_of_left (not_exhausted (readBits_ne_nil hh) ho)]
  refine finish_congr ?_
  rw [takeItem_ok hi .hand _ _ ho, Cmd.bind_done (decHandRec_word hi h hh ho)]

/-- HREC_DEC on a stream that ends inside the record (42_records.md R195). -/
theorem exec_hrecDec_short {bits : List Bool} (hcut : cutHandRecord bits) (h : s.OffersLast bits) :
    exec .hrecDec s = .next { s with
      rpos := BitVec.ofNat 16 (8 * s.rlen.toNat)
      status := statusRaised ⟨.unexpectedEndOfStream, .hand, s.rpos⟩ } := by
  obtain ⟨hne, hnone⟩ := hcut
  rw [hrecDec_of_left (not_exhausted hne h.1)]
  exact finish_short hi h ((decHandRec_takesNext hi .hand bits (RecordEnds_of_cut hnone) h.1).bind _)

end reader

/-- HREC_DEC on an exhausted reader gives END (42_records.md R195). -/
theorem exec_hrecDec_end {s : State} (h : s.rpos.toNat = 8 * s.rlen.toNat) :
    exec .hrecDec s = .next { s with result := 0x100#32, status := statusDone s.status } := by
  refine finish_done (t := { s with result := 0x100#32 }) ?_
  rw [Cmd.get_bind_apply, (s.exhausted_iff).2 h, if_pos rfl]
  rfl

/-- Settles O31: the record as an item, or a stream that ends inside it. -/
theorem readSquare : Obligations.ReadSquare := by
  refine ⟨rfl, fun s hs => ⟨fun w hw ho => ?_, fun bits hcut ho => exec_sqDec_short hs.rInv hcut ho⟩⟩
  rw [sqDec_takesItem hs.rInv hw ho, takeItem_setResult_next hs.rInv ho, BitVec.ofNat_toNat]

/-- Settles O32: END, the record as an item, or a stream that ends inside it. -/
theorem readHandRecord : Obligations.ReadHandRecord := by
  refine ⟨rfl, fun s hs => ⟨exec_hrecDec_end, fun h hh ho => ?_, fun bits hcut ho =>
    exec_hrecDec_short hs.rInv hcut ho⟩⟩
  rw [hrecDec_takesWord hs.rInv hh ho, takeItem_setResult_next hs.rInv ho, BitVec.ofNat_toNat]

/-- DecTurn on an exhausted reader (42_records.md R171). -/
theorem decTurn_end {s : State} (h : s.exhausted = true) :
    decTurn s = .raised ⟨.unexpectedEndOfStream, .turn, s.rpos⟩ s := by
  rw [decTurn, Cmd.cursor_bind_apply, Cmd.bind_raised (getBit_end .turn _ h)]

/-- Settles O33: the turn field as an item, or an exhausted reader, after which POS[81] is erased. -/
theorem readTurn : Obligations.ReadTurn := by
  refine ⟨rfl, fun s hs => ⟨fun turn ho => ?_, fun hend => ?_⟩⟩
  · have hexec := (turnDec_takesItem hs.rInv ho).trans
      (takeItem_turn_next hs.rInv ho (bitByte turn))
    obtain ⟨hframe, -⟩ := decoderFrame _ _ _ hexec
    exact ⟨_, hexec, hframe (.inl rfl), Memory.read_write_same .., rfl, rfl⟩
  · have hexec : exec .turnDec s = .next _ := finish_raised (decTurn_end ((s.exhausted_iff).2 hend))
    obtain ⟨hframe, -⟩ := decoderFrame _ _ _ hexec
    exact ⟨_, hexec, hframe (.inl rfl), Memory.read_erase .., rfl, rfl⟩

end Sys2Proof.Machine
end

section
/-! PROOFS. The encode commands (O21, O43, O44): where their checks pass they append the section's bits
(`encodes_…`), where a check raises nothing but STATUS changes (`finish_check`). -/

namespace Sys2Proof.Machine

/-- Settles O21: each command is PutBit of its bits, after checks that pass. -/
theorem positionWritersAppend : Obligations.PositionWritersAppend := by
  intro s w hs hw
  have hi := hs.wInv hw
  obtain ⟨-, -, hcap⟩ := hs.params
  exact ⟨fun _ ht => (encodes_turnEnc ht).wrote hw hi,
    fun _ _ _ hb hk => (encodes_boardEnc hb hk).wrote hw hi,
    fun _ hh hl => (encodes_handEnc hcap hh hl).wrote hw hi⟩

/-- A check that raises ends a writer command with only STATUS changed (60_exceptions.md R244). -/
theorem finish_check {α : Type} {m : Cmd α} {f : α → Cmd Unit} {s : State} {e : Err}
    (h : m s = .raised e s) (he : e.kind ≠ .capacityExceeded) :
    finish spoilWriter (m.bind f) s = .next (s.takeError e) := by
  have hspoil : spoilWriter e.kind s = s := by
    unfold spoilWriter
    split
    · next hk => exact absurd hk he
    · rfl
  rw [finish_raised (Cmd.bind_raised h), hspoil]

/-! ## ValidateBoard -/

/-- The lowest illegal word is reported (42_records.md R178). -/
theorem validateBoard_illegal {s : State} {b : Nat → Byte} (h : s.HoldsBoard b) {a : Nat} (ha : a ≤ 80)
    (hlegal : ∀ x < a, legalSquare (b x) = true) (hbad : legalSquare (b a) = false) :
    validateBoard s = .raised ⟨.invalidOperand, .board, BitVec.ofNat 16 a⟩ s := by
  rw [validateBoard, squares, List.range_eq_range', Cmd.bind_raised
    (legalWords_illegal b 0 81 a ha (Nat.zero_le a) (by omega) (fun x _ hx => h x (by omega))
      (fun x _ hx => hlegal x hx) hbad)]

theorem count_map_squares (b : Nat → Byte) (v : Byte) :
    (squares.map b).count v = (List.range 81).countP fun a => b a = v := by
  rw [List.count, List.countP_map]
  rfl

/-- Legal words without exactly one king of each colour (42_records.md R178). -/
theorem validateBoard_kings {s : State} {b : Nat → Byte} (h : s.HoldsBoard b)
    (hlegal : ∀ a ≤ 80, legalSquare (b a) = true)
    (hcount : (List.range 81).countP (fun a => b a = blackKing) ≠ 1 ∨
      (List.range 81).countP (fun a => b a = whiteKing) ≠ 1) :
    validateBoard s = .raised ⟨.invalidKingConfiguration, .board, 0⟩ s := by
  rw [validateBoard, Cmd.bind_done (legalWords_ok b squares (fun a => squares_le)
    (fun a ha => h a (squares_le ha)) fun a ha => hlegal a (squares_le ha)), count_map_squares,
    count_map_squares, if_pos hcount, Cmd.raise_apply]

/-- Settles O43: ValidateBoard raises, before anything is written. -/
theorem boardChecks : Obligations.BoardChecks := fun _ _ hb =>
  ⟨fun _ ha hlegal hbad => finish_check (validateBoard_illegal hb ha hlegal hbad) nofun,
    fun hlegal hcount => finish_check (validateBoard_kings hb hlegal hcount) nofun⟩

/-! ## Operands -/

theorem legalTurn_eq_false {w : Byte} (h0 : w ≠ 0x00#8) (h1 : w ≠ 0x01#8) : legalTurn w = false := by
  simp [legalTurn, h0, h1]

/-- An operand that is not legal (42_records.md R192, R194). -/
theorem finish_illegal {ok : Bool} (h : ok = false) {c : Cmd Unit} {s : State} :
    finish spoilWriter (if ok then c else .raise .invalidOperand .prim 0) s =
      .next { s with status := statusRaised ⟨.invalidOperand, .prim, 0⟩ } := by
  subst h; rfl

/-- Settles O44: each check raises, before anything is written. -/
theorem operandChecks : Obligations.OperandChecks := by
  refine fun s => ⟨fun w hc h0 h1 => ?_, fun w hw => ?_, fun h hh => ?_, fun n hn hcap => ?_,
    fun n b i hn hcap hi hc hlegal hbad => ?_⟩
  · exact finish_check (checkTurn_illegal hc (legalTurn_eq_false h0 h1)) nofun
  · exact finish_illegal hw
  · exact finish_illegal hh
  · exact finish_check (checkHand_len hn hcap) nofun
  · exact finish_check (checkHand_illegal hn hcap b i hi hc hlegal hbad) nofun

end Sys2Proof.Machine
end

section
/-! PROOFS. The board section (O36, O37, O38, O39). `exec_boardDec` says once where the words of a whole
board section go, `boardDec_fails` what every failure leaves; the board law puts EncBoard's bits into the
first. -/

namespace Sys2Proof.Machine

/-- The cursor n bits further, as a number; it wraps as RPOS does. -/
theorem State.rpos_advance (s : State) (n : Nat) :
    (s.advance n).rpos = BitVec.ofNat 16 (s.rpos.toNat + n) := by
  rw [BitVec.ofNat_add, BitVec.ofNat_toNat, BitVec.setWidth_eq]
  rfl

/-- A stream that is taken whole leaves the cursor at its end (10_state.md R36). -/
theorem State.OffersLast.rpos_advance {s : State} {bits : List Bool} (h : s.OffersLast bits) :
    (s.advance bits.length).rpos = BitVec.ofNat 16 (8 * s.rlen.toNat) := by
  rw [State.rpos_advance, h.2]

/-- Only RPOS, STATUS and words of POS in A differ after words were placed there. -/
theorem Placed.placedIn {s t : State} {n a : Nat} {l : List Byte} (h : Placed (s.advance n) t a l)
    {A : Nat → Prop} (hA : ∀ x, a ≤ x → x < a + l.length → A x) : placedIn A s t := by
  refine ⟨by rw [h.same]; rfl, fun x hx => ?_⟩
  rw [h.frame x (by by_contra hc; exact hx (hA x (by omega) (by omega))), State.advance_cell]

theorem Placed.rpos {s t : State} {a : Nat} {l : List Byte} (h : Placed s t a l) :
    t.rpos = s.rpos := by rw [h.same]

/-! ## A whole board section -/

/-- POS[0..80] hold the board with its kings (42_records.md R183). -/
def State.HoldsWords (s : State) (l : List Byte) (pb pw : Nat) : Prop :=
  ∀ i ≤ 80, s.cell .pos i = (boardWithKings l pb pw)[i]?

section board
variable {pb pw : Nat} (hpb : pb ≤ 80) (hpw : pw ≤ 80) (hne : pb ≠ pw) {l : List Byte}
  (hlen : l.length = 79)
include hpb hpw hne hlen

/-- The closed form of InsertKings (42_records.md R184). -/
theorem State.HoldsWords.closedForm {s : State} (h : s.HoldsWords l pb pw) :
    s.cell .pos pb = some blackKing ∧ s.cell .pos pw = some whiteKing ∧
      ∀ i ≤ 80, i ≠ pb → i ≠ pw →
        s.cell .pos i = l[i - (if pb < i then 1 else 0) - (if pw < i then 1 else 0)]? := by
  have hget := boardWithKings_get l pb pw hlen hpb hpw hne
  refine ⟨?_, ?_, fun i hi hib hiw => ?_⟩
  · rw [h pb hpb, hget pb hpb, if_pos rfl]
  · rw [h pw hpw, hget pw hpw, if_neg hne.symm, if_pos rfl]
  · rw [h i hi, hget i hi, if_neg hib, if_neg hiw, Nat.sub_sub]

theorem holdsWords_of_cells {s : State}
    (h : ∀ i (hi : i < (boardWithKings l pb pw).length),
      s.cell .pos i = some (boardWithKings l pb pw)[i]) : s.HoldsWords l pb pw := by
  intro i hi
  have hlt : i < (boardWithKings l pb pw).length := by
    rw [length_boardWithKings l pb pw hlen hpb hpw hne]; omega
  rw [h i hlt, List.getElem?_eq_getElem hlt]

/-- BOARD_DEC of two good king fields and 79 square records (42_records.md R197). -/
theorem exec_boardDec {s : State} (hs : s.Inv) (hl : ∀ w ∈ l, legalNonKing w = true)
    (h : s.Offers (kingBits pb pw ++ l.flatMap squareBits)) :
    ∃ t, exec .boardDec s = .next t ∧ t.HoldsWords l pb pw ∧
      t.rpos = BitVec.ofNat 16 (s.rpos.toNat + (kingBits pb pw ++ l.flatMap squareBits).length) ∧
      t.status = statusDone s.status := by
  obtain ⟨t, hdone, hp⟩ := decBoard_ok hs.rInv hs.posWf pb pw hpb hpw hne l hlen hl h
  refine ⟨t.complete, finish_done hdone, holdsWords_of_cells hpb hpw hne hlen fun i hi => ?_, ?_, ?_⟩
  · have hcell := hp.new i hi
    rw [Nat.zero_add] at hcell
    exact hcell
  · rw [← State.rpos_advance, hp.same]; rfl
  · rw [hp.same]; rfl

end board

theorem boardDec_frame {s t : State} (h : exec .boardDec s = .next t) :
    sameButPos (fun a => a ≤ 80) s t := by
  obtain ⟨-, hframe, -⟩ := decoderFrame _ _ _ h
  exact hframe rfl

theorem length_kingBits (kb kw : Nat) : (kingBits kb kw).length = 14 := rfl

/-- Settles O36: `exec_boardDec`, and the closed form of the board it places. -/
theorem readBoard : Obligations.ReadBoard := by
  intro s pb pw l rest hs hpb hpw hne hlen hl ho
  obtain ⟨t, hexec, hwords, hrpos, hstatus⟩ := exec_boardDec hpb hpw hne hlen hs hl ho.left
  rw [List.length_append, length_kingBits, ← Nat.add_assoc] at hrpos
  exact ⟨t, hexec, boardDec_frame hexec, hrpos, hstatus, hwords.closedForm hpb hpw hne hlen⟩

/-! ## Failures -/

/-- What a failed board decode leaves: POS[0..80] unspecified, the cursor where it failed
(60_exceptions.md R244). -/
theorem boardDec_fails {s : State} {e : Err} {n : Nat} (h : decBoard s = .raised e (s.advance n))
    (he : e.kind = .unexpectedEndOfStream ∨ e.kind = .invalidKingConfiguration) :
    ∃ t, exec .boardDec s = .next t ∧ sameButPos (fun a => a ≤ 80) s t ∧
      (∀ a ≤ 80, t.cell .pos a = none) ∧ t.rpos = BitVec.ofNat 16 (s.rpos.toNat + n) ∧
      t.status = statusRaised e := by
  have hspoil : spoilBoard e.kind (s.advance n) =
      { s.advance n with posMem := Memory.erase s.posMem 0 81 } := by
    rcases he with he | he <;> rw [he] <;> rfl
  have hexec : exec .boardDec s = .next _ := finish_raised h
  refine ⟨_, hexec, boardDec_frame hexec, fun a ha => ?_, ?_, rfl⟩
  · rw [hspoil]
    exact (Memory.read_erase ..).trans (if_pos ⟨Nat.zero_le a, by omega⟩)
  · rw [hspoil, ← State.rpos_advance]; rfl

/-- Settles O37: DecBoard raises at CheckKings. -/
theorem badKingsRejected : Obligations.BadKingsRejected := fun _ pb pw hs ho hbad =>
  boardDec_fails (decBoard_kings hs.rInv pb pw hbad ho) (.inr rfl)

/-- Settles O38: DecBoard raises inside the item that is cut. -/
theorem shortBoardRejected : Obligations.ShortBoardRejected := by
  intro s off bits hs ho hcut
  obtain ⟨t, hexec, hframe, hcells, hrpos, hstatus⟩ :=
    boardDec_fails (decBoard_cut hs.rInv hcut ho) (.inl rfl)
  rw [State.rpos_advance] at hstatus
  exact ⟨t, hexec, hframe, hcells, by rw [hrpos, ho.2], hstatus⟩

/-! ## The board law -/

/-- The board section is that of the words off the king squares, in their order (30_encoding.md R87). -/
theorem boardBits_eq (b : Nat → Byte) (kb kw : Nat) :
    boardBits b kb kw = kingBits kb kw ++ ((otherSquares kb kw).map b).flatMap squareBits := by
  rw [boardBits, List.flatMap_map]

theorem LegalBoard.nonKing_words {b : Nat → Byte} {kb kw : Nat} (h : LegalBoard b kb kw) :
    ∀ w ∈ (otherSquares kb kw).map b, legalNonKing w = true := by
  intro w hw
  obtain ⟨a, ha, rfl⟩ := List.mem_map.1 hw
  exact h.nonKing ha

theorem LegalBoard.length_words {b : Nat → Byte} {kb kw : Nat} (h : LegalBoard b kb kw) :
    ((otherSquares kb kw).map b).length = 79 := by
  rw [List.length_map, length_otherSquares h.black.1 h.white.1 h.ne]

/-- The words off the king squares, put back with the kings, are the board (42_records.md R185). -/
theorem State.HoldsWords.holdsBoard {s : State} {b : Nat → Byte} {kb kw : Nat}
    (h : s.HoldsWords ((otherSquares kb kw).map b) kb kw) (hb : LegalBoard b kb kw) :
    s.HoldsBoard b := by
  intro a ha
  have hlt : a < 81 := by omega
  rw [h a ha, boardWithKings_board hb]
  simp [squares, hlt]

/-- Settles O39: BOARD_ENC appends the board section, and BOARD_DEC of it puts every word back
(`boardWithKings_board`). -/
theorem boardRoundTrip : Obligations.BoardRoundTrip := by
  intro s w b kb kw hs hw hholds hb hroom
  obtain ⟨t, hexec, hwrote⟩ := (encodes_boardEnc hholds hb).wrote hw (hs.wInv hw) hroom
  refine ⟨t, boardBits b kb kw, hexec, hwrote, ?_, fun u rest hu ho => ?_⟩
  · rw [boardBits, List.length_append, length_kingBits, List.length_flatMap]
  · have hoffers := ho.left
    rw [boardBits_eq] at hoffers ⊢
    obtain ⟨v, hexec, hwords, hrpos, hstatus⟩ :=
      exec_boardDec hb.black.1 hb.white.1 hb.ne hb.length_words hu hb.nonKing_words hoffers
    refine ⟨v, hexec, fun a ha => ?_, hrpos, by rw [hstatus]; exact statusErr_word ..⟩
    rw [hwords.holdsBoard hb a ha, hholds a ha]

end Sys2Proof.Machine
end

section
/-! PROOFS. The hand section (O40, O41, O42): the words DecHand places, what its two failures leave, and
the hand law, where each record comes back with bit 4 cleared (`handSection_eq`). -/

namespace Sys2Proof.Machine

/-- Settles O40: DecHand takes the records up to the end of the stream and places their words.
(`readHand` itself is the model's test of a word.) -/
theorem readHandCommand : Obligations.ReadHand := by
  intro s ws hs hw hn ho
  obtain ⟨u, hdone, hp⟩ := decHand_ok hs.rInv hs.posWf ws hw hn ho
  have hexec : exec .handDec s = .next _ := finish_done hdone
  have hplaced := hp.placedIn (A := fun a => 128 ≤ a ∧ a < 128 + ws.length) fun _ h1 h2 => ⟨h1, h2⟩
  obtain ⟨r, m, rfl⟩ : ∃ r m, u = { s with rpos := r, posMem := m } := ⟨_, _, hplaced.1⟩
  exact ⟨_, hexec, ⟨rfl, hplaced.2⟩, rfl, hp.new, hp.rpos.trans ho.rpos_advance, rfl⟩

/-- What a failed hand decode leaves: HANDLEN and the hand words unspecified, the cursor where it failed
(60_exceptions.md R244). -/
theorem handDec_fails {s u : State} {e : Err} {a n : Nat} {ws : List Byte}
    (h : decHand s = .raised e u) (hp : Placed (s.advance n) u a ws)
    (he : e.kind = .unexpectedEndOfStream ∨ e.kind = .capacityExceeded) :
    ∃ t, exec .handDec s = .next t ∧
      sameButPos (fun a => 128 ≤ a ∧ a < 128 + s.params.handCap) { s with handlen := none } t ∧
      (∀ i < s.params.handCap, t.cell .pos (128 + i) = none) ∧
      t.rpos = BitVec.ofNat 16 (s.rpos.toNat + n) ∧ t.status = statusRaised e := by
  have hspoil : spoilHand e.kind u = { u with
      handlen := none, posMem := Memory.erase u.posMem 128 (128 + s.params.handCap) } := by
    rw [show s.params = u.params by rw [hp.same]; rfl]
    rcases he with he | he <;> rw [he] <;> rfl
  have hexec : exec .handDec s = .next ((spoilHand e.kind u).takeError e) := finish_raised h
  obtain ⟨-, -, hframe, -⟩ := decoderFrame _ _ _ hexec
  rw [hspoil] at hexec hframe
  exact ⟨_, hexec, hframe rfl, fun i hi =>
    (Memory.read_erase ..).trans (if_pos ⟨Nat.le_add_right .., Nat.add_lt_add_left hi _⟩),
    hp.rpos.trans (s.rpos_advance n), rfl⟩

/-- Settles O41: DecHand raises inside the record that is cut, or with HAND_CAP records read. -/
theorem handDecodeErrors : Obligations.HandDecodeErrors := by
  refine fun s ws bits hs hw => ⟨fun hn hcut ho => ?_, fun hn hne ho => ?_⟩
  · obtain ⟨u, hraised, hp⟩ := decHand_cut hs.rInv hs.posWf ws hw hn bits hcut ho
    rw [State.rpos_advance] at hraised
    have h := handDec_fails hraised hp (.inl rfl)
    rwa [ho.2] at h
  · obtain ⟨u, hraised, hp⟩ := decHand_full hs.rInv hs.posWf ws hw hn bits hne ho
    rw [State.rpos_advance] at hraised
    exact handDec_fails hraised hp (.inr rfl)

/-! ## The hand law -/

theorem readHand_map_clearProm {ws : List Byte} (h : ∀ w ∈ ws, legalHand w = true) :
    ∀ w ∈ ws.map clearProm, readHand w = true := by
  intro w hw
  obtain ⟨x, hx, rfl⟩ := List.mem_map.1 hw
  exact readHand_clearProm x (h x hx)

/-- Settles O42: HAND_ENC appends the hand section, which is the records of the words with bit 4 cleared
(`handSection_eq`), and HAND_DEC reads these back. -/
theorem handRoundTrip : Obligations.HandRoundTrip := by
  intro s w ws hs hw hholds hlegal hroom
  obtain ⟨-, -, hcap⟩ := hs.params
  obtain ⟨t, hexec, hwrote⟩ := (encodes_handEnc hcap hholds hlegal).wrote hw (hs.wInv hw) hroom
  refine ⟨t, handSection ws, hexec, hwrote, fun hnil => hnil ▸ rfl, fun u hu ho hn => ?_⟩
  rw [handSection_eq] at ho
  obtain ⟨v, hexec, -, hlen, hcells, -, hstatus⟩ := readHandCommand u (ws.map clearProm) hu
    (readHand_map_clearProm hlegal) (by rwa [List.length_map]) ho
  rw [List.length_map] at hlen
  refine ⟨v, hexec, hlen, fun i hi => ?_, by rw [hstatus]; exact statusErr_word ..⟩
  rw [hcells i (by rwa [List.length_map]), List.getElem_map, clearProm]

end Sys2Proof.Machine
end

section
/-! PROOFS. UNPACK (O48, O49). `exec_unpack` says where a whole position goes; `unpack_fails` says once
what every failure after the load leaves, and the rest says where the sections fail. -/

namespace Sys2Proof.Machine

/-- The cursor n bits into the session UNPACK starts. -/
theorem State.rpos_loaded_advance (s : State) (n : Nat) :
    (s.loaded.advance n).rpos = BitVec.ofNat 16 n := BitVec.zero_add _

/-- A stream UNPACK takes whole has 8*INLEN bits. -/
theorem State.OffersLast.loaded_length {s : State} {bits : List Bool} (h : s.loaded.OffersLast bits) :
    bits.length = 8 * s.inlen.toNat := (Nat.zero_add _).symm.trans h.2

/-- Sections that name a position: two good king fields, 79 square words and words of hand records
(42_records.md R180, R187). -/
structure Readable (pb pw : Nat) (l ws : List Byte) : Prop where
  black : pb ≤ 80
  white : pw ≤ 80
  ne : pb ≠ pw
  length : l.length = 79
  squares : ∀ w ∈ l, legalNonKing w = true
  hand : ∀ w ∈ ws, readHand w = true

/-- The turn bit, the board section, the hand records and what follows them (30_encoding.md R87). -/
def sectionBits (turn : Bool) (pb pw : Nat) (l ws : List Byte) (rest : List Bool) : List Bool :=
  turn :: (kingBits pb pw ++ l.flatMap squareBits ++ (readSection ws ++ rest))

/-- The first bit after the hand records (30_encoding.md R87). -/
def handEnd (l ws : List Byte) : Nat :=
  1 + 14 + (l.flatMap squareBits).length + (readSection ws).length

theorem handEnd_eq (pb pw : Nat) (l ws : List Byte) :
    1 + (kingBits pb pw ++ l.flatMap squareBits).length + (readSection ws).length = handEnd l ws := by
  rw [List.length_append, length_kingBits, ← Nat.add_assoc, handEnd]

/-- What a failed UNPACK leaves n bits into its stream: every word of POS and HANDLEN unspecified
(43_pack_unpack.md R211, log entry 6). -/
def UnpackFailed (s : State) (n : Nat) (e : Err) (t : State) : Prop :=
  (∀ a, t.cell .pos a = none) ∧ t = { s with
    rlen := s.inlen, rpos := BitVec.ofNat 16 n, handlen := none, posMem := t.posMem
    status := statusRaised e }

/-- Every address POS has is erased (20_memory.md R53). -/
theorem State.Inv.cell_pos_erased {t : State} (ht : t.Inv) {m : List Host.Cell}
    (hm : t.posMem = Memory.erase (Memory.erase m 0 82) 128 (128 + t.params.handCap)) (a : Nat) :
    t.cell .pos a = none := by
  by_contra hne
  obtain ⟨v, hv⟩ := Option.ne_none_iff_exists'.1 hne
  have haddr := (hasAddr_pos_iff t a).1 (ht.posBounded _ (Memory.mem_of_read hv))
  simp only [State.cell, State.cells_pos, hm, Memory.read_erase] at hv
  split at hv
  · cases hv
  · rw [if_pos (by omega)] at hv; cases hv

/-- UNPACK's sections where the king fields name no board (42_records.md R182). -/
theorem readPosition_kings {s : State} (hi : s.RInv) (hm : Memory.wf s.posMem) {turn : Bool}
    {pb pw : BitVec 7} (hbad : pb.toNat > 80 ∨ pw.toNat > 80 ∨ pb = pw)
    (h : s.Offers (turn :: (le7Bits pb ++ le7Bits pw))) :
    ∃ t, readPosition s = .raised ⟨.invalidKingConfiguration, .board, (s.advance 1).rpos⟩ t ∧
      t = { s.advance 15 with posMem := t.posMem } := by
  obtain ⟨t, hturn, hp⟩ := decTurn_ok hi hm turn _ h
  obtain ⟨i1, o1⟩ := Offers.uncons hi h
  refine ⟨t.advance 14, ?_, ?_⟩
  · rw [readPosition, Cmd.bind_done hturn,
      Cmd.bind_raised (decBoard_kings (hp.rInv i1) pb pw hbad (hp.offers o1)), hp.rpos]
  · rw [← State.advance_advance s 1 14, hp.same]; rfl

section unpack
variable {s : State} (hs : s.Inv) (hin : s.inlen.toNat ≤ s.params.inCap)
include hs hin

/-- The session UNPACK starts is one the reader can read. -/
theorem State.Inv.loaded_rInv : s.loaded.RInv := Machine.loaded_rInv hs.params.1.2 hin

/-- After the load, UNPACK fails as its sections do. -/
theorem unpack_fails {e : Err} {n : Nat}
    (h : ∃ u, readPosition s.loaded = .raised e u ∧ u = { s.loaded.advance n with posMem := u.posMem })
    (he : e.kind ∈ [ErrKind.unexpectedEndOfStream, .invalidKingConfiguration, .capacityExceeded]) :
    ∃ t, exec .unpack s = .next t ∧ UnpackFailed s n e t := by
  obtain ⟨u, hraised, hu⟩ := h
  obtain ⟨m, rfl⟩ : ∃ m, u = { s.loaded.advance n with posMem := m } := ⟨_, hu⟩
  have hexec : exec .unpack s = .next _ :=
    finish_raised ((Cmd.bind_done (loadReader_ok hin)).trans hraised)
  obtain ⟨hinv, -⟩ := (exec_safe hs .unpack).next hexec
  have hspoil : spoilPosition e.kind { s.loaded.advance n with posMem := m } =
      { s.loaded.advance n with
        handlen := none
        posMem := Memory.erase (Memory.erase m 0 82) 128 (128 + s.params.handCap) } := by
    simp only [List.mem_cons, List.not_mem_nil, or_false] at he
    rcases he with he | he | he <;> rw [he] <;> rfl
  rw [hspoil] at hexec hinv
  refine ⟨_, hexec, hinv.cell_pos_erased rfl, ?_⟩
  rw [← State.rpos_loaded_advance]
  rfl

/-- UNPACK of king fields that name no board (43_pack_unpack.md R211). -/
theorem exec_unpack_kings {turn : Bool} {pb pw : BitVec 7}
    (hbad : pb.toNat > 80 ∨ pw.toNat > 80 ∨ pb = pw)
    (h : s.loaded.Offers (turn :: (le7Bits pb ++ le7Bits pw))) :
    ∃ t, exec .unpack s = .next t ∧
      UnpackFailed s 15 ⟨.invalidKingConfiguration, .board, BitVec.ofNat 16 1⟩ t := by
  have hraised := readPosition_kings (hs.loaded_rInv hin) hs.posWf hbad h
  rw [State.rpos_loaded_advance] at hraised
  exact unpack_fails hs hin hraised (by simp)

/-- UNPACK of a board that ends inside an item (43_pack_unpack.md R211). -/
theorem exec_unpack_boardCut {turn : Bool} {off : Nat} {bits : List Bool} (hcut : cutBoard off bits)
    (h : s.loaded.OffersLast (turn :: bits)) :
    ∃ t, exec .unpack s = .next t ∧ UnpackFailed s (8 * s.inlen.toNat)
      ⟨.unexpectedEndOfStream, .board, BitVec.ofNat 16 (1 + off)⟩ t := by
  have hraised := readPosition_boardCut (hs.loaded_rInv hin) hs.posWf turn hcut h
  rw [State.rpos_loaded_advance, Nat.add_comm 1 bits.length, ← List.length_cons (a := turn),
    h.loaded_length] at hraised
  exact unpack_fails hs hin hraised (by simp)

section readable
variable {turn : Bool} {pb pw : Nat} {l ws : List Byte} (hp : Readable pb pw l ws)
include hp

/-- UNPACK of a whole position and nothing after it (43_pack_unpack.md R211). -/
theorem exec_unpack (hn : ws.length ≤ s.params.handCap)
    (h : s.loaded.OffersLast (sectionBits turn pb pw l ws [])) :
    ∃ u, exec .unpack s = .next (State.complete { u with
        handlen := some (BitVec.ofNat 10 ws.length), result := BitVec.ofNat 32 ws.length }) ∧
      Unpacked (s.loaded.advance (8 * s.inlen.toNat)) u turn (boardWithKings l pb pw) ws := by
  obtain ⟨-, -, hcap⟩ := hs.params
  rw [sectionBits, List.append_nil] at h
  obtain ⟨u, hdone, hu⟩ := readPosition_ok (hs.loaded_rInv hin) hs.posWf hcap turn pb pw hp.black
    hp.white hp.ne l hp.length hp.squares ws hp.hand hn h
  exact ⟨u, finish_done ((Cmd.bind_done (loadReader_ok hin)).trans hdone), hu⟩

/-- UNPACK of a hand that ends inside a record (42_records.md R187). -/
theorem exec_unpack_cut (hn : ws.length < s.params.handCap) {bits : List Bool}
    (hcut : cutHandRecord bits) (h : s.loaded.OffersLast (sectionBits turn pb pw l ws bits)) :
    ∃ t, exec .unpack s = .next t ∧ UnpackFailed s (8 * s.inlen.toNat)
      ⟨.unexpectedEndOfStream, .hand, BitVec.ofNat 16 (handEnd l ws)⟩ t := by
  have hraised := readPosition_cut (hs.loaded_rInv hin) hs.posWf turn pb pw hp.black hp.white hp.ne l
    hp.length hp.squares ws hp.hand hn bits hcut h
  rw [State.rpos_loaded_advance, handEnd_eq] at hraised
  exact unpack_fails hs hin hraised (by simp)

/-- UNPACK of HAND_CAP hand records and more bits (42_records.md R187). -/
theorem exec_unpack_full (hn : ws.length = s.params.handCap) {bits : List Bool} (hne : bits ≠ [])
    (h : s.loaded.Offers (sectionBits turn pb pw l ws bits)) :
    ∃ t, exec .unpack s = .next t ∧ UnpackFailed s (handEnd l ws)
      ⟨.capacityExceeded, .hand, BitVec.ofNat 16 (handEnd l ws)⟩ t := by
  have hraised := readPosition_full (hs.loaded_rInv hin) hs.posWf turn pb pw hp.black hp.white hp.ne l
    hp.length hp.squares ws hp.hand hn bits hne h
  rw [State.rpos_loaded_advance, handEnd_eq] at hraised
  exact unpack_fails hs hin hraised (by simp)

end readable
end unpack

/-- Settles O48: `exec_unpack`, and the closed form of the board it places. -/
theorem unpackReadsThePosition : Obligations.UnpackReadsThePosition := by
  intro s turn pb pw l ws hs hin hpb hpw hne hlen hl hw hn ho
  rw [← List.append_nil (readSection ws)] at ho
  obtain ⟨u, hexec, hu⟩ := exec_unpack hs hin ⟨hpb, hpw, hne, hlen, hl, hw⟩ hn ho
  obtain ⟨m, rfl⟩ : ∃ m, u = { s.loaded.advance (8 * s.inlen.toNat) with posMem := m } := ⟨_, hu.same⟩
  obtain ⟨hblack, hwhite, hsquares⟩ :=
    (holdsWords_of_cells hpb hpw hne hlen hu.board).closedForm hpb hpw hne hlen
  exact ⟨_, hexec, ⟨rfl, fun a ha => hu.frame a (by omega) (by omega)⟩, s.rpos_loaded_advance _, rfl,
    rfl, rfl, hu.turnWord, hblack, hwhite, hsquares, hu.hand⟩

/-- UNPACK with INLEN above IN_CAP fails before the load (43_pack_unpack.md R211). -/
theorem exec_unpack_len {s : State} (h : s.params.inCap < s.inlen.toNat) :
    exec .unpack s = .next { s with status := statusRaised ⟨.invalidOperand, .prim, 0⟩ } :=
  finish_raised (Cmd.bind_raised (loadReader_len h))

/-- UNPACK of no bytes has no turn bit (43_pack_unpack.md R211). -/
theorem exec_unpack_empty {s : State} (hs : s.Inv) (h : s.inlen = 0#13) :
    ∃ t, exec .unpack s = .next t ∧
      UnpackFailed s 0 ⟨.unexpectedEndOfStream, .turn, BitVec.ofNat 16 0⟩ t := by
  have hexh : s.loaded.exhausted = true :=
    (s.loaded.exhausted_iff).2 (by rw [show s.loaded.rlen = 0#13 from h]; rfl)
  refine unpack_fails hs (by rw [h]; exact Nat.zero_le _) ⟨_, readPosition_empty hexh, ?_⟩ (by simp)
  rw [State.advance_zero]

/-- Settles O49: the load, then each section, raises. -/
theorem unpackErrors : Obligations.UnpackErrors := by
  refine fun s hs => ⟨exec_unpack_len, fun h => ?_, fun turn pb pw hin ho hbad =>
    exec_unpack_kings hs hin hbad ho, fun turn off bits hin ho hcut =>
    exec_unpack_boardCut hs hin hcut ho,
    fun turn pb pw l ws bits off hin hpb hpw hne hlen hl hw hoff => ?_⟩
  · rw [← h]
    exact exec_unpack_empty hs h
  · have hp : Readable pb pw l ws := ⟨hpb, hpw, hne, hlen, hl, hw⟩
    subst hoff
    exact ⟨fun hn hcut => exec_unpack_cut hs hin hp hn hcut,
      fun hn hne => exec_unpack_full hs hin hp hn hne⟩

end Sys2Proof.Machine
end

section
/-! PROOFS. UNPACK after PACK (O50): what PACK wrote is what UNPACK reads (`Put.offersLast`), and the pad
bits are read as records of BLACK PAWNs, three bits each, before the bits left over
(`packedBits_append_padBits`). -/

namespace Sys2Proof.Machine

/-! ## PACK's stream in IN -/

/-- A stream of whole bytes written from its start, copied to IN, is offered by the reader
(20_memory.md R62). -/
theorem Put.offersLast {s t u : State} {w w' : Writer} {bits : List Bool} (h : Put s t w w' bits)
    (hw : w.wbits = 0) (hcnt : w'.wcnt = 0#3) (hpos : u.rpos = 0#16) (hlen : u.rlen = w'.outlen)
    (hbytes : ∀ j < w'.outlen.toNat, u.cell .inp j = t.cell .out j) : u.OffersLast bits := by
  have hlength : bits.length = 8 * w'.outlen.toNat := by
    have hwbits := h.wbits
    rw [hw, Nat.zero_add, Writer.wbits, hcnt] at hwbits
    exact hwbits.symm
  have hstart : u.rpos.toNat = 0 := by rw [hpos]; rfl
  have hend : u.rpos.toNat + bits.length = 8 * u.rlen.toNat := by
    rw [hstart, hlen, hlength, Nat.zero_add]
  refine ⟨⟨hend.le, fun j hj => ?_⟩, hend⟩
  have hbit := h.new j hj
  rw [hw, Nat.zero_add, State.outBit_byte (by omega)] at hbit
  rw [hstart, Nat.zero_add, State.streamBit, hbytes _ (by omega), hbit]

/-- A PACK that completes had room for the position and its pad (43_pack_unpack.md R210). -/
theorem room_of_execPack {s t : State} (hs : s.Inv) {turn : Bool} {b : Nat → Byte} {kb kw : Nat}
    {ws : List Byte} (hp : Position s turn b kb kw ws) (hexec : exec .pack s = .next t)
    (h0 : statusErr t.status = 0) :
    ((packedBits turn b kb kw ws).length + 7) / 8 ≤ s.params.outCap := by
  obtain ⟨-, hout, hhand⟩ := hs.params
  obtain ⟨v, hdone, -⟩ := finish_completed hexec h0
  by_contra hfull
  obtain ⟨v', hraised, -⟩ := writePosition_full hout hs.outWf hs.outBounded hp rfl (by omega)
  rw [packPosition_checks hhand hp, hraised] at hdone
  cases hdone

/-- What a PACK that completes wrote, and its RESULT (43_pack_unpack.md R210). -/
theorem execPack_inv {s t : State} (hs : s.Inv) {turn : Bool} {b : Nat → Byte} {kb kw : Nat}
    {ws : List Byte} (hp : Position s turn b kb kw ws) (hexec : exec .pack s = .next t)
    (h0 : statusErr t.status = 0) {w : Writer} (hw : t.writer = some w) :
    t.result.toNat = (packedBits turn b kb kw ws).length ∧ w.wcnt = 0#3 ∧
      ∃ t', Put s.freshWriter t' Writer.reset w
          (packedBits turn b kb kw ws ++ padBits (packedBits turn b kb kw ws).length) ∧
        t'.outMem = t.outMem := by
  obtain ⟨-, ⟨-, hout⟩, -⟩ := hs.params
  have hroom := room_of_execPack hs hp hexec h0
  obtain ⟨t', w', hexec', hput, hcnt⟩ := execPack_position hs hp rfl hroom
  obtain rfl := Host.Outcome.next.inj (hexec.symm.trans hexec')
  obtain rfl : w' = w := Option.some.inj (hput.writer.symm.trans hw)
  refine ⟨?_, hcnt, t', hput, rfl⟩
  rw [State.complete_result, BitVec.toNat_setWidth, BitVec.toNat_ofNat]
  omega

/-! ## The pad as hand records -/

/-- A BLACK PAWN in the hand is read from three zeros (30_encoding.md R84). -/
theorem readSection_blackPawns (m : Nat) :
    readSection (List.replicate m 0x00#8) = List.replicate (3 * m) false := by
  induction m with
  | zero => rfl
  | succ m ih =>
    rw [List.replicate_succ, readSection, List.flatMap_cons]
    show [false, false, false] ++ readSection _ = _
    rw [ih, Nat.mul_succ, Nat.add_comm, List.replicate_add]
    rfl

theorem readSection_append (ws ws' : List Byte) :
    readSection (ws ++ ws') = readSection ws ++ readSection ws' := List.flatMap_append

/-- The hand words UNPACK reads: those PACK wrote with bit 4 cleared, and m BLACK PAWNs of the pad. -/
def handWithPad (ws : List Byte) (m : Nat) : List Byte :=
  ws.map clearProm ++ List.replicate m 0x00#8

theorem length_handWithPad (ws : List Byte) (m : Nat) : (handWithPad ws m).length = ws.length + m := by
  simp [handWithPad]

theorem readSection_handWithPad (ws : List Byte) (m : Nat) :
    readSection (handWithPad ws m) = handSection ws ++ List.replicate (3 * m) false := by
  rw [handWithPad, readSection_append, readSection_blackPawns, handSection_eq]

/-- The packed position and its pad, with the first 3*m bits of the pad as hand records
(43_pack_unpack.md R212). -/
theorem packedBits_append_padBits (turn : Bool) (b : Nat → Byte) (kb kw : Nat) (ws : List Byte)
    {n m : Nat} (hm : 3 * m ≤ (8 - n % 8) % 8) :
    packedBits turn b kb kw ws ++ padBits n =
      sectionBits turn kb kw ((otherSquares kb kw).map b) (handWithPad ws m)
        (List.replicate ((8 - n % 8) % 8 - 3 * m) false) := by
  have hpad : padBits n = List.replicate (3 * m) false ++
      List.replicate ((8 - n % 8) % 8 - 3 * m) false := by
    rw [← List.replicate_add, Nat.add_sub_cancel' hm, padBits]
  rw [sectionBits, packedBits, hpad, readSection_handWithPad, boardBits_eq]
  simp only [List.cons_append, List.append_assoc]

theorem handEnd_handWithPad (turn : Bool) (b : Nat → Byte) (kb kw : Nat) (ws : List Byte) (m : Nat) :
    handEnd ((otherSquares kb kw).map b) (handWithPad ws m) =
      (packedBits turn b kb kw ws).length + 3 * m := by
  rw [handEnd, readSection_handWithPad, packedBits, boardBits_eq]
  simp only [List.length_cons, List.length_append, length_kingBits, List.length_replicate]
  omega

theorem readable_handWithPad {b : Nat → Byte} {kb kw : Nat} (hb : LegalBoard b kb kw) {ws : List Byte}
    (hw : ∀ w ∈ ws, legalHand w = true) (m : Nat) :
    Readable kb kw ((otherSquares kb kw).map b) (handWithPad ws m) where
  black := hb.black.1
  white := hb.white.1
  ne := hb.ne
  length := hb.length_words
  squares := hb.nonKing_words
  hand := fun w hmem => by
    rcases List.mem_append.1 hmem with h | h
    · exact readHand_map_clearProm hw w h
    · rw [List.eq_of_mem_replicate h]; decide

/-- One or two zeros end inside a hand record. -/
theorem cutHandRecord_zeros {r : Nat} (h0 : r ≠ 0) (h : r < 3) :
    cutHandRecord (List.replicate r false) := by
  obtain rfl | rfl : r = 1 ∨ r = 2 := by omega
  · exact ⟨by decide, by decide⟩
  · exact ⟨by decide, by decide⟩

/-! ## The round trip -/

section roundTrip
variable {s u : State} {turn : Bool} {b : Nat → Byte} {kb kw : Nat} {ws : List Byte} {n : Nat}
  (hp : Position s turn b kb kw ws) (hu : u.Inv) (hin : u.inlen.toNat ≤ u.params.inCap)
  (ho : u.loaded.OffersLast (packedBits turn b kb kw ws ++ padBits n))
include hp hu hin ho

/-- A pad of whole records (43_pack_unpack.md R212). -/
theorem unpack_packed {m : Nat} (hm : (8 - n % 8) % 8 = 3 * m)
    (hcap : ws.length + m ≤ u.params.handCap) :
    ∃ v, exec .unpack u = .next v ∧ statusErr v.status = 0 ∧
      (∀ a ≤ 81, v.cell .pos a = s.cell .pos a) ∧
      v.handlen = some (BitVec.ofNat 10 (ws.length + m)) ∧
      ∀ i (h : i < (handWithPad ws m).length), v.cell .pos (128 + i) = some (handWithPad ws m)[i] := by
  rw [packedBits_append_padBits turn b kb kw ws hm.ge, hm, Nat.sub_self] at ho
  have hr := readable_handWithPad hp.kings hp.legal m
  obtain ⟨v, hexec, hv⟩ := exec_unpack hu hin hr (by rwa [length_handWithPad]) ho
  have hboard : v.HoldsBoard b :=
    (holdsWords_of_cells hr.black hr.white hr.ne hr.length hv.board).holdsBoard hp.kings
  refine ⟨_, hexec, statusErr_word .., fun a ha => ?_, by rw [← length_handWithPad]; rfl, hv.hand⟩
  by_cases h81 : a = turnAddr
  · subst h81
    exact hv.turnWord.trans hp.turnWord.symm
  · have h80 : a ≤ 80 := by unfold turnAddr at h81; omega
    exact (hboard a h80).trans (hp.board a h80).symm

/-- A pad that does not fit (43_pack_unpack.md R212, log entry 9). -/
theorem unpack_packed_full {m : Nat} (hm : 3 * m < (8 - n % 8) % 8)
    (hcap : ws.length + m = u.params.handCap) :
    ∃ v, exec .unpack u = .next v ∧ statusErr v.status = 7 ∧ statusSec v.status = 3 := by
  rw [packedBits_append_padBits turn b kb kw ws hm.le] at ho
  obtain ⟨v, hexec, -, hv⟩ := exec_unpack_full hu hin (readable_handWithPad hp.kings hp.legal m)
    (by rwa [length_handWithPad]) (by simp; omega) ho.1
  exact ⟨v, hexec, by rw [hv]; exact statusErr_word .., by rw [hv]; exact statusSec_word ..⟩

/-- A pad that ends inside a record (43_pack_unpack.md R212). -/
theorem unpack_packed_cut {m r : Nat} (hm : (8 - n % 8) % 8 = 3 * m + r) (h0 : r ≠ 0) (h3 : r < 3)
    (hcap : ws.length + m < u.params.handCap) :
    ∃ v, exec .unpack u = .next v ∧ v.status = statusRaised ⟨.unexpectedEndOfStream, .hand,
      BitVec.ofNat 16 ((packedBits turn b kb kw ws).length + 3 * m)⟩ := by
  rw [packedBits_append_padBits turn b kb kw ws (m := m) (by omega), hm, Nat.add_sub_cancel_left] at ho
  obtain ⟨v, hexec, -, hv⟩ := exec_unpack_cut hu hin (readable_handWithPad hp.kings hp.legal m)
    (by rwa [length_handWithPad]) (cutHandRecord_zeros h0 h3) ho
  rw [handEnd_handWithPad turn] at hv
  exact ⟨v, hexec, by rw [hv]⟩

end roundTrip

/-- Settles O50: the reader is offered the packed position and its pad; the three cases are the pads of
whole records, the ones that do not fit and the ones that end inside a record. -/
theorem packUnpackRoundTrip : Obligations.PackUnpackRoundTrip := by
  intro s t u turn b kb kw ws n p w hs hp hexec h0 hn hpad hw hu hparams hinlen hin hbytes
  obtain ⟨hresult, hcnt, t', hput, hmem⟩ := execPack_inv hs hp hexec h0 hw
  obtain rfl : n = (packedBits turn b kb kw ws).length := hn.trans hresult
  have hinlen' : u.inlen.toNat ≤ u.params.inCap := by rw [hinlen]; exact hin
  have ho : u.loaded.OffersLast (packedBits turn b kb kw ws ++ padBits _) :=
    hput.offersLast rfl hcnt rfl hinlen fun j hj =>
      (hbytes j hj).trans (congrArg (Memory.read · j) hmem.symm)
  obtain ⟨-, hlen, -⟩ := hp.hand
  rw [← hparams] at hlen ⊢
  refine ⟨fun hcap hdvd => ?_, fun hfull => ?_, fun hcap hcut => ?_⟩
  · obtain ⟨v, hunpack, hok, hpos, hhand, hwords⟩ :=
      unpack_packed hp hu hinlen' ho (m := p / 3) (by omega) hcap
    have hlength := length_handWithPad ws (p / 3)
    refine ⟨v, hunpack, hok, hpos, hhand, fun i hi => ?_, fun i hi => ?_⟩
    · rw [hwords i (by omega)]
      simp [handWithPad, hi, clearProm]
    · rw [Nat.add_assoc, hwords (ws.length + i) (by omega)]
      simp [handWithPad]
  · exact unpack_packed_full hp hu hinlen' ho (m := u.params.handCap - ws.length) (by omega) (by omega)
  · exact unpack_packed_cut hp hu hinlen' ho (m := p / 3) (r := p % 3) (by omega) hcut (by omega) hcap

end Sys2Proof.Machine
end

section
/-! PROOFS. PACK that fails (O45, O47). Where the turn word and the board pass, PACK runs as its later checks
do, so each check raises before the writer is touched; a position that passes them all raises in the write
phase, which changes nothing but the writer and OUT. -/

namespace Sys2Proof.Machine

/-! ## The check phase -/

theorem eq_bitByte {w : Byte} (hw : w = 0x00#8 ∨ w = 0x01#8) : ∃ turn, w = bitByte turn := by
  rcases hw with rfl | rfl
  · exact ⟨false, rfl⟩
  · exact ⟨true, rfl⟩

section packChecks
variable {s : State} {turn : Bool} (ht : s.cell .pos turnAddr = some (bitByte turn))
include ht

/-- With a legal turn word, PACK goes on with the board (43_pack_unpack.md R210). -/
theorem execPack_of_turn : exec .pack s = finish spoilWriter
    (validateBoard.bind fun k => checkHand.bind fun addrs => writePosition k.1 k.2 addrs) s :=
  finish_congr (by rw [packPosition, Cmd.bind_done (checkTurn_ok ht)])

/-- With a legal turn word and board, PACK goes on with the hand (43_pack_unpack.md R210). -/
theorem execPack_of_board {b : Nat → Byte} {kb kw : Nat} (hb : s.HoldsBoard b)
    (hk : LegalBoard b kb kw) :
    exec .pack s = finish spoilWriter (checkHand.bind fun addrs => writePosition kb kw addrs) s :=
  (execPack_of_turn ht).trans (finish_congr (by rw [Cmd.bind_done (validateBoard_ok hb hk)]))

end packChecks

/-- Settles O45: the checks before the failing one pass, and that one raises before anything is written. -/
theorem packChecksInOrder : Obligations.PackChecksInOrder := by
  refine fun s w b hc => ⟨fun h0 h1 => ?_, fun a ha hw hb hlegal hbad => ?_,
    fun hw hb hlegal hcount => ?_, fun kb kw n h hw hb hk hn => ?_⟩
  · exact finish_check (checkTurn_illegal hc (legalTurn_eq_false h0 h1)) nofun
  all_goals obtain ⟨turn, rfl⟩ := eq_bitByte hw
  · rw [execPack_of_turn hc]
    exact finish_check (validateBoard_illegal hb ha hlegal hbad) nofun
  · rw [execPack_of_turn hc]
    exact finish_check (validateBoard_kings hb hlegal hcount) nofun
  · rw [execPack_of_board hc hb hk]
    exact ⟨fun hcap => finish_check (checkHand_len hn hcap) nofun, fun i hcap hi hcell hlegal hbad =>
      finish_check (checkHand_illegal hn hcap h i hi hcell hlegal hbad) nofun⟩

/-! ## The write phase -/

/-- Settles O47: the checks pass, the write phase raises, and CapacityExceeded leaves the writer and OUT,
all that it changed, unspecified. -/
theorem packOverflow : Obligations.PackOverflow := by
  intro s turn b kb kw hs n hinv hp hn hfull
  obtain ⟨-, hout, hhand⟩ := hinv.params
  obtain ⟨t, hraised, hsame⟩ := writePosition_full hout hinv.outWf hinv.outBounded hp hn hfull
  have hexec : exec .pack s = .next _ := finish_raised ((packPosition_checks hhand hp).trans hraised)
  rw [hexec, hsame]
  rfl

end Sys2Proof.Machine
end

section
/-! PROOFS. Dispatch (O2) and the control commands (O16). A row of the opcode map decodes by the test of its
IMM form and by nothing else (`decodeFields_of_mem`); an OPC outside the map is reserved. So the word written
to CMD raises the error of the first check of 44_control.md R232 that fails, or runs its instruction. -/

namespace Sys2Proof.Machine

/-! ## The IMM forms -/

/-- A decoder's answer `d` is a check of the operand alone: `p` is what it takes (30_encoding.md R102). -/
structure ChecksOperand (d : Except Reject Instr) (p : Prop) : Prop where
  accepts : p → ∃ i, d = .ok i
  rejects : ¬ p → d = .error .invalidOperand

theorem checksOperand_ite {p q : Prop} [Decidable p] (i : Instr) (h : p ↔ q) :
    ChecksOperand (if p then .ok i else .error .invalidOperand) q :=
  ⟨fun hq => ⟨i, if_pos (h.2 hq)⟩, fun hq => if_neg (mt h.1 hq)⟩

theorem formNone_checks (imm : Byte) (i : Instr) :
    ChecksOperand (formNone imm i) (ImmForm.none.admits imm) :=
  checksOperand_ite i BitVec.toNat_eq

theorem formBit_checks (imm : Byte) : ChecksOperand (formBit imm) (ImmForm.bit.admits imm) :=
  checksOperand_ite _ <|
    (or_congr BitVec.toNat_eq BitVec.toNat_eq).trans Nat.le_one_iff_eq_zero_or_eq_one.symm

theorem formU7_checks (imm : Byte) : ChecksOperand (formU7 imm) (ImmForm.u7.admits imm) := by
  refine checksOperand_ite _ ?_
  rw [← BitVec.msb_eq_getLsbD_last imm, BitVec.msb_eq_false_iff_two_mul_lt, ImmForm.admits]
  omega

/-- The kind numbers are 0 to 6 (00_scope.md R11). -/
theorem exists_ofNum {imm : Byte} (h : imm.toNat ≤ 6) :
    ∃ k, Kind.ofNum (imm.setWidth 3) = some k := by
  obtain ⟨k, hk⟩ := exists_kind_num h
  have hnum : imm.setWidth 3 = k.num := by
    rw [BitVec.toNat_eq, BitVec.toNat_setWidth, ← hk, Nat.mod_eq_of_lt k.num.isLt]
  exact ⟨k, hnum ▸ Kind.ofNum_num k⟩

theorem formKind_checks (imm : Byte) : ChecksOperand (formKind imm) (ImmForm.kind.admits imm) where
  accepts h := by
    obtain ⟨k, hk⟩ := exists_ofNum h
    exact ⟨.wCode k, by rw [formKind, if_pos (c := imm.toNat ≤ 6) h, hk]⟩
  rejects h := by rw [formKind, if_neg (c := imm.toNat ≤ 6) h]

theorem formSqw_checks (imm : Byte) : ChecksOperand (formSqw imm) (ImmForm.sqw.admits imm) :=
  checksOperand_ite _ (legalNonKing_iff.trans (or_congr_left BitVec.toNat_eq))

/-- KIND in bits 2:0 is not 7, and bits 7:5 are 0 (10_state.md R32). -/
theorem legalHand_iff {h : Byte} : legalHand h = true ↔ h.toNat % 8 ≤ 6 ∧ h.toNat / 32 = 0 := by
  have hlt := h.isLt
  simp only [legalHand, handKind, Bool.and_eq_true, bne_iff_ne, beq_iff_eq, ne_eq, BitVec.toNat_eq,
    BitVec.extractLsb'_toNat, BitVec.toNat_ofNat, Nat.shiftRight_eq_div_pow]
  omega

theorem formHrw_checks (imm : Byte) : ChecksOperand (formHrw imm) (ImmForm.hrw.admits imm) :=
  checksOperand_ite _ legalHand_iff

/-! ## The opcode map -/

/-- An OPC stands in the map once (30_encoding.md R101). -/
theorem opcodeMap_form_unique {n : Nat} {f g : ImmForm} (hf : (n, f) ∈ opcodeMap)
    (hg : (n, g) ∈ opcodeMap) : f = g := by
  have key : ∀ e ∈ opcodeMap, ∀ e' ∈ opcodeMap, e.1 = e'.1 → e.2 = e'.2 := by decide
  exact key _ hf _ hg rfl

/-- The decoder follows the opcode map: a row checks IMM by its form, and an OPC of no row is reserved
(30_encoding.md R101 to R103). -/
theorem decodeFields_follows_map (opc imm : Byte) :
    (∃ f, (opc.toNat, f) ∈ opcodeMap ∧ ChecksOperand (decodeFields opc imm) (f.admits imm)) ∨
    ((∀ f, (opc.toNat, f) ∉ opcodeMap) ∧ decodeFields opc imm = .error .illegalCommand) := by
  unfold decodeFields
  split
  case h_25 =>
    refine .inr ⟨fun f => ?_, rfl⟩
    simp only [imp_false] at *
    simp [opcodeMap, *]
  all_goals
    rename_i hopc
    rw [hopc]
    left
  case h_4 => exact ⟨.bit, by decide, formBit_checks imm⟩
  case h_5 => exact ⟨.u7, by decide, formU7_checks imm⟩
  case h_6 => exact ⟨.kind, by decide, formKind_checks imm⟩
  case h_15 => exact ⟨.sqw, by decide, formSqw_checks imm⟩
  case h_17 => exact ⟨.hrw, by decide, formHrw_checks imm⟩
  all_goals exact ⟨.none, by decide, formNone_checks imm _⟩

theorem decodeFields_of_mem {opc : Byte} {f : ImmForm} (hf : (opc.toNat, f) ∈ opcodeMap) (imm : Byte) :
    ChecksOperand (decodeFields opc imm) (f.admits imm) := by
  rcases decodeFields_follows_map opc imm with ⟨g, hg, hchecks⟩ | ⟨hnone, -⟩
  · rwa [opcodeMap_form_unique hf hg]
  · exact absurd hf (hnone f)

theorem decodeFields_reserved {opc : Byte} (h : ∀ f, (opc.toNat, f) ∉ opcodeMap) (imm : Byte) :
    decodeFields opc imm = .error .illegalCommand := by
  rcases decodeFields_follows_map opc imm with ⟨f, hf, -⟩ | ⟨-, hreserved⟩
  · exact absurd hf (h f)
  · exact hreserved

/-! ## The word written to CMD -/

/-- Bits 31:16 that are not all 0 are the first thing dispatch looks at (44_control.md R232). -/
theorem decodeCmd_high {v : CsrWord} (hv : 65536 ≤ v.toNat) : decodeCmd v = .error .illegalCommand := by
  refine if_pos fun hzero => ?_
  have hlt := v.isLt
  have hdiv := congrArg BitVec.toNat hzero
  simp only [BitVec.extractLsb'_toNat, Nat.shiftRight_eq_div_pow, BitVec.toNat_ofNat] at hdiv
  omega

/-- With bits 31:16 zero, the command word is bits 15:0 (30_encoding.md R100). -/
theorem decodeCmd_low {v : CsrWord} (hv : v.toNat < 65536) :
    decodeCmd v = decodeCommand (v.setWidth 16) := by
  have hself : (v.setWidth 16).setWidth 32 = v :=
    BitVec.setWidth_setWidth_eq_self (by simpa [BitVec.lt_def] using hv)
  rw [← decodeCmd_setWidth, hself]

/-- OPC and IMM of a command word as numbers (30_encoding.md R100). -/
theorem decodeCommand_setWidth (v : CsrWord) : decodeCommand (v.setWidth 16) =
    decodeFields (BitVec.ofNat 8 (v.toNat % 256)) (BitVec.ofNat 8 (v.toNat / 256)) := by
  have hopc : (v.setWidth 16).extractLsb' 0 8 = BitVec.ofNat 8 (v.toNat % 256) := by
    apply BitVec.eq_of_toNat_eq
    simp [BitVec.extractLsb'_toNat]
  have himm : (v.setWidth 16).extractLsb' 8 8 = BitVec.ofNat 8 (v.toNat / 256) := by
    apply BitVec.eq_of_toNat_eq
    simp only [BitVec.extractLsb'_toNat, BitVec.toNat_setWidth, BitVec.toNat_ofNat,
      Nat.shiftRight_eq_div_pow]
    omega
  rw [decodeCommand, hopc, himm]

/-- Settles O2: the word fails at bits 31:16 (`decodeCmd_high`), at OPC (`decodeFields_reserved`) or at IMM
(`decodeFields_of_mem`), or runs; `dispatch_error` and `dispatch_ok` say what CMD then does. -/
theorem dispatchChecksTheWord : Obligations.DispatchChecksTheWord := by
  intro v s
  have hopc : (BitVec.ofNat 8 (v.toNat % 256)).toNat = v.toNat % 256 := by simp
  have hlow (hv : v.toNat < 65536) := (decodeCmd_low hv).trans (decodeCommand_setWidth v)
  rw [← hopc]
  refine ⟨fun hv => dispatch_error (decodeCmd_high hv) s, fun hv hreserved =>
    dispatch_error ((hlow hv).trans (decodeFields_reserved hreserved _)) s, fun f hv hf himm =>
    dispatch_error ((hlow hv).trans ((decodeFields_of_mem hf _).rejects himm)) s,
    fun f hv hf himm => ?_⟩
  obtain ⟨i, hi⟩ := (decodeFields_of_mem hf _).accepts himm
  exact ⟨i, (decodeCommand_setWidth v).trans hi, dispatch_ok ((hlow hv).trans hi) s⟩

/-! ## The control commands -/

/-- Settles O16: RESET and CLRERR are rows of form NONE, which rejects every other IMM. -/
theorem controlCommands : Obligations.ControlCommands := by
  refine ⟨rfl, rfl, fun s => ⟨rfl, fun imm himm => ?_⟩⟩
  have hreject : ∀ i, formNone imm i = .error .invalidOperand := fun _ => if_neg himm
  have hdecode (opc : Byte) : decodeCmd ((imm ++ opc).setWidth 32) = decodeFields opc imm :=
    (decodeCmd_setWidth _).trans (decodeCommand_append imm opc)
  exact ⟨dispatch_error ((hdecode 0x01#8).trans (hreject .reset)) s,
    dispatch_error ((hdecode 0x02#8).trans (hreject .clrerr)) s⟩

end Sys2Proof.Machine
end

section
/-! PROOFS. How a command ends (O51, O52, O53; 60_exceptions.md R240, R243, R244). `exec_ends` says it once:
every instruction but RESET and CLRERR completes, or raises an error that leaves what `Instr.Leaves` names. Of
its parts, one only looks (a check), one raises CapacityExceeded alone (the writer), one raises
UnexpectedEndOfStream with every bit consumed (the reader); `Cmd.Fails` carries each to the command. -/

namespace Sys2Proof.Machine

variable {α β : Type}

/-! ## The errors of a command and the state they are raised in -/

/-- Every error the part raises, with the state it is raised in, is in Q. -/
def Cmd.Fails (Q : Err → State → Prop) (c : Cmd α) : Prop := ∀ s e u, c s = .raised e u → Q e u

/-- Two parts raise an error where the first one does, or the second one after it. -/
theorem Cmd.bind_raised_inv {m : Cmd α} {f : α → Cmd β} {s u : State} {e : Err}
    (h : m.bind f s = .raised e u) :
    m s = .raised e u ∨ ∃ a t, m s = .done a t ∧ f a t = .raised e u := by
  cases hm : m s with
  | done a t => rw [Cmd.bind_done hm] at h; exact .inr ⟨a, t, rfl, h⟩
  | raised e' t => rw [Cmd.bind_raised hm] at h; cases h; exact .inl rfl
  | stopped f => rw [Cmd.bind_stopped hm] at h; cases h

section fails
variable {Q : Err → State → Prop}

theorem Cmd.Fails.mono {Q' : Err → State → Prop} {c : Cmd α} (h : c.Fails Q)
    (hq : ∀ e u, Q e u → Q' e u) : c.Fails Q' := fun s e u hc => hq e u (h s e u hc)

theorem fails_pure (a : α) : (Cmd.pure a).Fails Q := nofun
theorem fails_get (f : State → α) : (Cmd.get f).Fails Q := nofun
theorem fails_modify (f : State → State) : (Cmd.modify f).Fails Q := nofun
theorem fails_stop (f : Fault) : (Cmd.stop f : Cmd α).Fails Q := nofun

theorem fails_raise {k : ErrKind} {c : Sec} {o : BitVec 16} (h : ∀ s, Q ⟨k, c, o⟩ s) :
    (Cmd.raise k c o : Cmd α).Fails Q := fun s _ _ hc => by cases hc; exact h s

theorem fails_bind {m : Cmd α} {f : α → Cmd β} (hm : m.Fails Q) (hf : ∀ a, (f a).Fails Q) :
    (m.bind f).Fails Q := fun s e u h => by
  rcases Cmd.bind_raised_inv h with h | ⟨a, t, -, h⟩
  · exact hm s e u h
  · exact hf a t e u h

theorem fails_each (l : List α) {body : α → Cmd Unit} (h : ∀ a, (body a).Fails Q) :
    (Cmd.each l body).Fails Q := by
  induction l with
  | nil => exact fails_pure ()
  | cons x l ih => exact fails_bind (h x) fun _ => ih

theorem fails_ite {p : Prop} [Decidable p] {c d : Cmd α} (hc : c.Fails Q) (hd : d.Fails Q) :
    (if p then c else d).Fails Q := by
  split
  · exact hc
  · exact hd

/-! Reads and writes of cells and registers raise nothing: they are done or they fault. -/

theorem fails_memRead (sp : Space) (a : Nat) : (memRead sp a).Fails Q := by
  intro s e u h
  unfold memRead at h
  split at h
  · split at h <;> cases h
  · cases h

theorem fails_memWrite (sp : Space) (a : Nat) (v : Byte) : (memWrite sp a v).Fails Q := by
  intro s e u h
  unfold memWrite at h
  split at h <;> cases h

theorem fails_getWriter : getWriter.Fails Q := by
  intro s e u h
  unfold getWriter at h
  split at h <;> cases h

theorem fails_getHandlen : getHandlen.Fails Q := by
  intro s e u h
  unfold getHandlen at h
  split at h <;> cases h

theorem fails_emit (acc : BitVec 8) (n : BitVec 13) : (emit acc n).Fails Q :=
  fails_bind (fails_memWrite _ _ _) fun _ => fails_modify _

theorem fails_writtenBits : writtenBits.Fails Q := fails_bind fails_getWriter fun _ => fails_pure _

theorem fails_writeWords (a : Nat) (l : List Byte) : (writeWords a l).Fails Q := by
  induction l generalizing a with
  | nil => exact fails_pure ()
  | cons w l ih => exact fails_bind (fails_memWrite _ _ _) fun _ => ih (a + 1)

end fails

/-! ## The writer raises CapacityExceeded alone (40_bitstream.md R120, R121) -/

/-- The error is a full OUT. -/
def OutFull (e : Err) (_ : State) : Prop := e.kind = .capacityExceeded

theorem putBit_fails (b : Bool) (sec : Sec) : (putBit b sec).Fails OutFull :=
  fails_bind fails_getWriter fun _ => fails_bind (fails_get _) fun _ =>
  fails_ite (fails_raise fun _ => rfl) <| fails_ite (fails_emit _ _) (fails_modify _)

theorem putBits_fails (bits : List Bool) (sec : Sec) : (putBits bits sec).Fails OutFull :=
  fails_each bits fun b => putBit_fails b sec

theorem flush_fails (sec : Sec) : (flush sec).Fails OutFull :=
  fails_bind fails_getWriter fun _ => fails_bind (fails_get _) fun _ =>
  fails_ite (fails_pure _) <| fails_ite (fails_raise fun _ => rfl) (fails_emit _ _)

theorem putCode_fails (k : BitVec 3) (sec : Sec) : (putCode k sec).Fails OutFull := by
  unfold putCode
  split
  · exact putBits_fails _ _
  · exact fails_stop _

theorem encSquare_fails (w : Byte) (sec : Sec) : (encSquare w sec).Fails OutFull :=
  fails_ite (putBit_fails _ _) <| fails_bind (putBit_fails _ _) fun _ =>
  fails_bind (putCode_fails _ _) fun _ =>
  fails_bind (fails_ite (putBit_fails _ _) (fails_pure _)) fun _ => putBit_fails _ _

theorem encHandRec_fails (h : Byte) (sec : Sec) : (encHandRec h sec).Fails OutFull :=
  fails_bind (putCode_fails _ _) fun _ =>
  fails_bind (fails_ite (putBit_fails _ _) (fails_pure _)) fun _ => putBit_fails _ _

theorem encTurn_fails : encTurn.Fails OutFull :=
  fails_bind (fails_memRead _ _) fun _ => putBit_fails _ _

theorem encBoard_fails (kb kw : Nat) : (encBoard kb kw).Fails OutFull :=
  fails_bind (putBits_fails _ _) fun _ => fails_bind (putBits_fails _ _) fun _ =>
  fails_each _ fun _ =>
    fails_ite (fails_bind (fails_memRead _ _) fun _ => encSquare_fails _ _) (fails_pure _)

theorem encHand_fails (addrs : List Nat) : (encHand addrs).Fails OutFull :=
  fails_each _ fun _ => fails_bind (fails_memRead _ _) fun _ => encHandRec_fails _ _

theorem writePosition_fails (kb kw : Nat) (addrs : List Nat) :
    (writePosition kb kw addrs).Fails OutFull :=
  fails_bind (fails_modify _) fun _ => fails_bind encTurn_fails fun _ =>
  fails_bind (encBoard_fails _ _) fun _ => fails_bind (encHand_fails _) fun _ =>
  fails_bind fails_writtenBits fun _ => fails_bind (flush_fails _) fun _ => fails_modify _

/-! ## The checks (42_records.md R177, R178, R190) -/

/-- The error is one a check of POS or HANDLEN raises. -/
def CheckFailed (e : Err) (_ : State) : Prop :=
  e.kind = .invalidOperand ∨ e.kind = .invalidKingConfiguration

theorem fails_invalidOperand (c : Sec) (o : BitVec 16) :
    (Cmd.raise .invalidOperand c o : Cmd α).Fails CheckFailed := fails_raise fun _ => .inl rfl

theorem checkTurn_fails : checkTurn.Fails CheckFailed :=
  fails_bind (fails_memRead _ _) fun _ => fails_ite (fails_pure _) (fails_invalidOperand _ _)

theorem legalWords_fails (l : List Nat) : (legalWords l).Fails CheckFailed := by
  induction l with
  | nil => exact fails_pure _
  | cons a l ih =>
    exact fails_bind (fails_memRead _ _) fun _ =>
      fails_ite (fails_bind ih fun _ => fails_pure _) (fails_invalidOperand _ _)

theorem validateBoard_fails : validateBoard.Fails CheckFailed :=
  fails_bind (legalWords_fails _) fun _ => fails_ite (fails_raise fun _ => .inr rfl) (fails_pure _)

theorem checkHand_fails : checkHand.Fails CheckFailed :=
  fails_bind fails_getHandlen fun _ => fails_bind (fails_get _) fun _ =>
  fails_ite (fails_invalidOperand _ _) <| fails_bind
    (fails_each _ fun _ => fails_bind (fails_memRead _ _) fun _ =>
      fails_ite (fails_pure _) (fails_invalidOperand _ _))
    fun _ => fails_pure _

/-! ## The reader raises UnexpectedEndOfStream alone, with every bit consumed (40_bitstream.md R123) -/

/-- The stream ended inside an item, and no bit is left. -/
def CutShort (e : Err) (u : State) : Prop :=
  e.kind = .unexpectedEndOfStream ∧ u.exhausted = true

theorem getBit_fails (sec : Sec) (off : BitVec 16) : (getBit sec off).Fails CutShort := by
  intro s e u h
  cases he : s.exhausted with
  | true => rw [getBit_end sec off he] at h; cases h; exact ⟨rfl, he⟩
  | false =>
    simp only [getBit, Cmd.get_bind_apply, he, Bool.false_eq_true, if_false] at h
    exact (fails_bind (fails_get _) fun _ => fails_bind (fails_memRead _ _) fun _ =>
      fails_bind (fails_modify _) fun _ => fails_pure _) s e u h

theorem getLE7From_fails (sec : Sec) (start : BitVec 16) (v : BitVec 7) (l : List Nat) :
    (getLE7From sec start v l).Fails CutShort := by
  induction l generalizing v with
  | nil => exact fails_pure _
  | cons j l ih => exact fails_bind (getBit_fails _ _) fun _ => ih _

theorem getLE7_fails (sec : Sec) : (getLE7 sec).Fails CutShort :=
  fails_bind (fails_get _) fun _ => getLE7From_fails _ _ _ _

theorem decodeKindFrom_fails (sec : Sec) (off : BitVec 16) (left n v : Nat) :
    (decodeKindFrom sec off left n v).Fails CutShort := by
  induction left generalizing n v with
  | zero => exact fails_stop _
  | succ left ih =>
    refine fails_bind (getBit_fails _ _) fun b => ?_
    cases lutFind (n + 1) (2 * v + b.toNat) with
    | none => exact ih _ _
    | some k => exact fails_pure _

theorem takeRecord_fails (sec : Sec) (start : BitVec 16) (g : Kind → Bool → Bool → Byte) :
    (takeRecord sec start g).Fails CutShort :=
  fails_bind (decodeKindFrom_fails _ _ _ _ _) fun _ =>
  fails_bind (fails_ite (getBit_fails _ _) (fails_pure _)) fun _ =>
  fails_bind (getBit_fails _ _) fun _ => fails_pure _

theorem decSquare_fails (sec : Sec) : (decSquare sec).Fails CutShort :=
  fails_bind (fails_get _) fun start => fails_bind (getBit_fails _ _) fun _ =>
  fails_ite (fails_pure _) (takeRecord_fails sec start squareWord)

theorem decHandRec_fails (sec : Sec) : (decHandRec sec).Fails CutShort :=
  fails_bind (fails_get _) fun start => takeRecord_fails sec start handWord

theorem decSquares_fails (n : Nat) : (decSquares n).Fails CutShort := by
  induction n with
  | zero => exact fails_pure _
  | succ n ih =>
    exact fails_bind (decSquare_fails _) fun _ => fails_bind ih fun _ => fails_pure _

theorem decTurn_fails : decTurn.Fails CutShort :=
  fails_bind (fails_get _) fun _ => fails_bind (getBit_fails _ _) fun _ => fails_memWrite _ _ _

theorem takeItem_fails (n : Nat) (sec : Sec) {deliver : Cmd Unit} (h : deliver.Fails CutShort) :
    (takeItem n sec deliver).Fails CutShort := by
  refine fails_bind (fails_get _) fun start => fails_bind ?_ fun _ => h
  induction n with
  | zero => exact fails_pure _
  | succ n ih => exact fails_bind (getBit_fails _ _) fun _ => ih

/-! ## The two sections that raise an error of their own -/

/-- A hand section cut short, or full with the cursor on the first bit that has no room (42_records.md
R187). -/
def HandFailed (e : Err) (u : State) : Prop :=
  CutShort e u ∨ e.kind = .capacityExceeded ∧ u.rpos = e.off

theorem decHandFrom_fails (room n : Nat) : (decHandFrom room n).Fails HandFailed := by
  induction room generalizing n with
  | zero =>
    exact fails_bind (fails_get _) fun _ => fails_ite (fails_pure _) fun s e u h => by
      cases h; exact .inr ⟨rfl, rfl⟩
  | succ room ih =>
    exact fails_bind (fails_get _) fun _ => fails_ite (fails_pure _) <|
      fails_bind ((decHandRec_fails _).mono fun _ _ => .inl) fun _ =>
      fails_bind (fails_memWrite _ _ _) fun _ => ih (n + 1)

theorem decHand_fails : decHand.Fails HandFailed :=
  fails_bind (fails_get _) fun _ => fails_bind (decHandFrom_fails _ _) fun _ => fails_modify _

/-- A bit that was read was left to read, so the cursor moves without wrapping (40_bitstream.md R123). -/
theorem getBit_moves {s t : State} {sec : Sec} {off : BitVec 16} {b : Bool} (hi : s.RInv)
    (h : getBit sec off s = .done b t) : t.RInv ∧ t.rpos.toNat = s.rpos.toNat + 1 := by
  cases he : s.exhausted with
  | true => rw [getBit_end sec off he] at h; cases h
  | false =>
    have hne : s.rpos.toNat ≠ 8 * s.rlen.toNat := fun hend => by
      rw [(s.exhausted_iff).2 hend] at he; cases he
    have hle : s.rpos.toNat + 1 ≤ 8 * s.rlen.toNat := Nat.lt_of_le_of_ne hi.rpos hne
    simp only [getBit, Cmd.get_bind_apply, he, Bool.false_eq_true, if_false, Cmd.cursor_bind_apply] at h
    obtain ⟨byte, v, hread, hmove⟩ := Cmd.bind_done_inv h
    obtain rfl : v = s := (looks_memRead _ _).done hread
    obtain rfl : t = v.advance 1 := by cases hmove; rfl
    exact ⟨hi.advance hle, State.advance_rpos hi hle⟩

theorem getLE7From_moves {s t : State} {sec : Sec} {start : BitVec 16} {v w : BitVec 7} {l : List Nat}
    (hi : s.RInv) (h : getLE7From sec start v l s = .done w t) :
    t.RInv ∧ t.rpos.toNat = s.rpos.toNat + l.length := by
  induction l generalizing s v with
  | nil => cases h; exact ⟨hi, rfl⟩
  | cons j l ih =>
    obtain ⟨b, u, hbit, hrest⟩ := Cmd.bind_done_inv h
    obtain ⟨hu, hone⟩ := getBit_moves hi hbit
    obtain ⟨ht, hmore⟩ := ih hu hrest
    exact ⟨ht, by rw [hmore, hone, List.length_cons]; omega⟩

theorem getLE7_moves {s t : State} {sec : Sec} {v : BitVec 7} (hi : s.RInv)
    (h : getLE7 sec s = .done v t) : t.RInv ∧ t.rpos.toNat = s.rpos.toNat + 7 :=
  getLE7From_moves hi h

/-- A board section cut short, or whose king fields, 14 bits from its start, fail CheckKings (42_records.md
R180, R182). -/
theorem decBoard_raised {s u : State} {e : Err} (h : decBoard s = .raised e u) :
    CutShort e u ∨
    e.kind = .invalidKingConfiguration ∧ (s.RInv → u.rpos.toNat = e.off.toNat + 14) := by
  rw [decBoard, Cmd.cursor_bind_apply] at h
  rcases Cmd.bind_raised_inv h with h | ⟨pb, s1, hblack, h⟩
  · exact .inl (getLE7_fails _ _ _ _ h)
  rcases Cmd.bind_raised_inv h with h | ⟨pw, s2, hwhite, h⟩
  · exact .inl (getLE7_fails _ _ _ _ h)
  rcases Cmd.bind_raised_inv h with h | ⟨_, s3, -, h⟩
  · unfold checkKings at h
    split at h
    · cases h
      refine .inr ⟨rfl, fun hi => ?_⟩
      obtain ⟨hi1, h7⟩ := getLE7_moves hi hblack
      obtain ⟨-, h14⟩ := getLE7_moves hi1 hwhite
      rw [h14, h7]
    · cases h
  · exact .inl ((fails_bind (decSquares_fails 79) fun _ => fails_writeWords _ _) s3 e u h)

/-! ## RESULT is written last -/

/-- STATUS and RESULT are as before. -/
def sameReport (s t : State) : Prop := t.status = s.status ∧ t.result = s.result

theorem sameReport.refl (s : State) : sameReport s s := ⟨rfl, rfl⟩

theorem sameReport.trans (a b c : State) (h : sameReport a b) (h' : sameReport b c) : sameReport a c :=
  ⟨h'.1.trans h.1, h'.2.trans h.2⟩

theorem writerOnly.sameReport {s t : State} (h : writerOnly s t) : sameReport s t := by
  rw [h]; exact ⟨rfl, rfl⟩

theorem readerOnly.sameReport {s t : State} (h : readerOnly s t) : sameReport s t := by
  rw [h]; exact ⟨rfl, rfl⟩

theorem placedIn.sameReport {A : Nat → Prop} {s t : State} (h : placedIn A s t) : sameReport s t := by
  rw [h.1]; exact ⟨rfl, rfl⟩

theorem handPlaced.sameReport {s t : State} (h : handPlaced s t) : sameReport s t := by
  rw [h.1]; exact ⟨rfl, rfl⟩

theorem keepsReport_loadReader : loadReader.Keeps sameReport :=
  Cmd.keeps_bind sameReport.trans (Cmd.keeps_get sameReport.refl _) fun _ =>
  Cmd.keeps_bind sameReport.trans (Cmd.keeps_get sameReport.refl _) fun _ =>
  Cmd.keeps_ite (fun _ => Cmd.keeps_raise sameReport.refl _ _ _) fun _ =>
  Cmd.keeps_modify fun _ => ⟨rfl, rfl⟩

/-- STATUS is left to the end of the command, and RESULT is as before where an error is raised. -/
def Cmd.Reports (c : Cmd Unit) : Prop := ∀ s,
  match c s with
  | .done _ t => t.status = s.status
  | .raised _ t => t.result = s.result
  | .stopped _ => True

theorem Cmd.Keeps.reports {c : Cmd Unit} (h : c.Keeps sameReport) : c.Reports := by
  intro s
  cases hc : c s with
  | done a t => exact (h.done hc).1
  | raised e t => exact (h.raised hc).2
  | stopped f => trivial

theorem reports_setResult {n : Nat} (v : BitVec n) : (setResult v).Reports := fun _ => rfl

theorem reports_bind {m : Cmd α} {f : α → Cmd Unit} (hm : m.Keeps sameReport)
    (hf : ∀ a, (f a).Reports) : (m.bind f).Reports := by
  intro s
  cases hc : m s with
  | raised e t => rw [Cmd.bind_raised hc]; exact (hm.raised hc).2
  | stopped f => rw [Cmd.bind_stopped hc]; trivial
  | done a t =>
    obtain ⟨hstatus, hresult⟩ := hm.done hc
    have h := hf a t
    rw [Cmd.bind_done hc]
    cases hfa : f a t <;> rw [hfa] at h
    · exact h.trans hstatus
    · exact h.trans hresult
    · trivial

theorem reports_ite {p : Prop} [Decidable p] {c d : Cmd Unit} (hc : c.Reports) (hd : d.Reports) :
    (if p then c else d).Reports := by
  split
  · exact hc
  · exact hd

theorem reports_look {m : Cmd α} {f : α → Cmd Unit} (hm : Looks m) (hf : ∀ a, (f a).Reports) :
    (m.bind f).Reports := reports_bind (hm.keeps sameReport.refl) hf

theorem reports_get (g : State → α) {f : α → Cmd Unit} (hf : ∀ a, (f a).Reports) :
    ((Cmd.get g).bind f).Reports := reports_bind (Cmd.keeps_get sameReport.refl g) hf

/-- A part of the reader, then its value in RESULT. -/
theorem reports_returning {n : Nat} {c : Cmd α} (hc : c.Keeps readerOnly) (f : α → BitVec n) :
    (c.bind fun a => setResult (f a)).Reports :=
  reports_bind (hc.mono fun _ _ h => h.sameReport) fun a => reports_setResult (f a)

theorem reports_takeItem (n : Nat) (sec : Sec) {deliver : Cmd Unit} (h : deliver.Reports) :
    (takeItem n sec deliver).Reports :=
  reports_get _ fun _ => reports_bind ((keeps_skipBits _ _ _).mono fun _ _ h => h.sameReport) fun _ => h

theorem reports_packPosition : packPosition.Reports := by
  refine reports_look looks_checkTurn fun _ => reports_look looks_validateBoard fun k =>
    reports_look looks_checkHand fun addrs => ?_
  rw [writePosition_eq]
  exact reports_bind (keeps_initWriter.mono fun _ _ h => h.sameReport) fun _ =>
    reports_bind ((writeSections_keeps _ _ _).mono fun _ _ h => h.1.sameReport) fun _ =>
    reports_setResult _

theorem reports_readPosition : readPosition.Reports :=
  reports_bind (keeps_decTurn.mono fun _ _ h => h.sameReport) fun _ =>
  reports_bind (keeps_decBoard.mono fun _ _ h => h.sameReport) fun _ =>
  reports_bind (keeps_decHand.mono fun _ _ h => h.sameReport) fun _ =>
  reports_look looks_getHandlen fun _ => reports_setResult _

/-! ## What an error leaves (60_exceptions.md R244) -/

/-- A writer or encode command that raised e in s leaves t; it raises no other kind. -/
def WriterLeaves (s : State) (e : Err) (t : State) : Prop :=
  match e.kind with
  | .invalidOperand | .invalidKingConfiguration => t = { s with status := t.status }
  | .capacityExceeded => True
  | .malformedText | .unrecognizedPieceCode | .unexpectedEndOfStream | .illegalCommand => False

/-- A command of the reader, or a stream item, that raised e in s leaves t; it raises no other kind. -/
def ReaderLeaves (s : State) (e : Err) (t : State) : Prop :=
  match e.kind with
  | .invalidOperand => t = { s with status := t.status }
  | .unexpectedEndOfStream => t.rpos.toNat = 8 * t.rlen.toNat
  | .invalidKingConfiguration => s.Inv → t.rpos.toNat = e.off.toNat + 14
  | .capacityExceeded => t.rpos = e.off
  | .malformedText | .unrecognizedPieceCode | .illegalCommand => False

theorem OutFull.writerLeaves {s u : State} {e : Err} (h : OutFull e u) : WriterLeaves s e u := by
  rw [WriterLeaves, show e.kind = .capacityExceeded from h]; trivial

theorem CheckFailed.writerLeaves {s : State} {e : Err} (h : CheckFailed e s) : WriterLeaves s e s := by
  rcases h with h | h <;> rw [WriterLeaves, h]

theorem CutShort.readerLeaves {s u : State} {e : Err} (h : CutShort e u) : ReaderLeaves s e u := by
  rw [ReaderLeaves, h.1]; exact (u.exhausted_iff).1 h.2

theorem HandFailed.readerLeaves {s u : State} {e : Err} (h : HandFailed e u) : ReaderLeaves s e u := by
  rcases h with h | ⟨hk, h⟩
  · exact h.readerLeaves
  · rw [ReaderLeaves, hk]; exact h

theorem decBoard_leaves {s s' u : State} {e : Err} (hi : s.Inv → s'.RInv)
    (h : decBoard s' = .raised e u) : ReaderLeaves s e u := by
  rcases decBoard_raised h with h | ⟨hk, h⟩
  · exact h.readerLeaves
  · rw [ReaderLeaves, hk]; exact fun hs => h (hi hs)

/-- A check that only looks, then a part of the writer. -/
theorem check_leaves {m : Cmd α} {f : α → Cmd Unit} {s u : State} {e : Err} (hl : Looks m)
    (hm : m.Fails CheckFailed) (hf : ∀ a, f a s = .raised e u → WriterLeaves s e u)
    (h : m.bind f s = .raised e u) : WriterLeaves s e u := by
  rcases Cmd.bind_raised_inv h with hcheck | ⟨a, t, hdone, hrest⟩
  · obtain rfl : u = s := hl.raised hcheck
    exact (hm _ _ _ hcheck).writerLeaves
  · obtain rfl : t = s := hl.done hdone
    exact hf a hrest

/-- An operand that dispatch would have refused is refused here too (42_records.md R192, R194). -/
theorem operand_leaves {p : Prop} [Decidable p] {c : Cmd Unit} {s u : State} {e : Err}
    (hc : c.Fails OutFull) (h : (if p then c else .raise .invalidOperand .prim 0) s = .raised e u) :
    WriterLeaves s e u := by
  split at h
  · exact (hc _ _ _ h).writerLeaves
  · cases h; rfl

theorem packPosition_leaves {s u : State} {e : Err} (h : packPosition s = .raised e u) :
    WriterLeaves s e u :=
  check_leaves looks_checkTurn checkTurn_fails (fun _ =>
    check_leaves looks_validateBoard validateBoard_fails fun _ =>
    check_leaves looks_checkHand checkHand_fails fun _ h =>
      (writePosition_fails _ _ _ _ _ _ h).writerLeaves) h

theorem loadReader_leaves {s u : State} {e : Err} (h : loadReader s = .raised e u) :
    ReaderLeaves s e u := by
  by_cases hlen : s.params.inCap < s.inlen.toNat
  · rw [loadReader_len hlen] at h; cases h; rfl
  · rw [loadReader_ok (Nat.le_of_not_lt hlen)] at h; cases h

theorem Cmd.Safe.done {P : State → Prop} {F : Fault → Prop} {c : Cmd α} {s t : State} {a : α}
    (h : c.Safe P F) (hs : P s) (hc : c s = .done a t) : P t := by
  have ht := h s hs
  rwa [hc] at ht

/-- UNPACK loads the reader and reads the turn field before the board, and keeps the invariant so far. -/
theorem unpack_leaves {s u : State} {e : Err}
    (h : (loadReader.bind fun _ => readPosition) s = .raised e u) : ReaderLeaves s e u := by
  rcases Cmd.bind_raised_inv h with h | ⟨_, s1, hload, h⟩
  · exact loadReader_leaves h
  rcases Cmd.bind_raised_inv h with h | ⟨_, s2, hturn, h⟩
  · exact (decTurn_fails _ _ _ h).readerLeaves
  rcases Cmd.bind_raised_inv h with h | ⟨_, s3, -, h⟩
  · refine decBoard_leaves (fun hs => ?_) h
    have h1 := (loadReader_safe s).done ⟨hs, rfl⟩ hload
    exact ((decTurn_safe s).done h1 hturn).1.rInv
  · exact ((fails_bind decHand_fails fun _ => fails_bind fails_getHandlen fun _ => fails_modify _)
      s3 e u h).readerLeaves

/-! ## From the parts of a command to the command -/

/-- What a command makes unspecified are the writer's and HANDLEN's registers, OUT and POS, and nothing after
InvalidOperand (60_exceptions.md R244). -/
structure SparesReader (spoil : ErrKind → State → State) : Prop where
  frame : ∀ k s, spoil k s = { s with
    writer := (spoil k s).writer, outMem := (spoil k s).outMem
    handlen := (spoil k s).handlen, posMem := (spoil k s).posMem }
  operand : ∀ s, spoil .invalidOperand s = s

theorem sparesReader_nothing : SparesReader spoilNothing := ⟨fun _ _ => rfl, fun _ => rfl⟩
theorem sparesReader_writer : SparesReader spoilWriter := ⟨fun k _ => by cases k <;> rfl, fun _ => rfl⟩
theorem sparesReader_turn : SparesReader spoilTurn := ⟨fun k _ => by cases k <;> rfl, fun _ => rfl⟩
theorem sparesReader_board : SparesReader spoilBoard := ⟨fun k _ => by cases k <;> rfl, fun _ => rfl⟩
theorem sparesReader_hand : SparesReader spoilHand := ⟨fun k _ => by cases k <;> rfl, fun _ => rfl⟩
theorem sparesReader_position : SparesReader spoilPosition :=
  ⟨fun k _ => by cases k <;> rfl, fun _ => rfl⟩

theorem onlyStatus_takeError {s u : State} (h : u = { s with status := u.status }) (e : Err) :
    u.takeError e = { s with status := (u.takeError e).status } := by
  rw [h]; rfl

theorem WriterLeaves.spoiled {s u : State} {e : Err} (h : WriterLeaves s e u) :
    WriterLeaves s e ((spoilWriter e.kind u).takeError e) := by
  obtain ⟨k, c, o⟩ := e
  cases k with
  | invalidOperand | invalidKingConfiguration => exact onlyStatus_takeError h _
  | capacityExceeded => trivial
  | malformedText | unrecognizedPieceCode | unexpectedEndOfStream | illegalCommand => exact h

theorem ReaderLeaves.spoiled {spoil : ErrKind → State → State} (hsp : SparesReader spoil) {s u : State}
    {e : Err} (h : ReaderLeaves s e u) : ReaderLeaves s e ((spoil e.kind u).takeError e) := by
  have hrpos : (spoil e.kind u).rpos = u.rpos := by rw [hsp.frame]
  have hrlen : (spoil e.kind u).rlen = u.rlen := by rw [hsp.frame]
  obtain ⟨k, c, o⟩ := e
  cases k with
  | invalidOperand => rw [hsp.operand]; exact onlyStatus_takeError h _
  | unexpectedEndOfStream =>
    show (spoil _ u).rpos.toNat = 8 * (spoil _ u).rlen.toNat
    rw [hrpos, hrlen]; exact h
  | invalidKingConfiguration =>
    show s.Inv → (spoil _ u).rpos.toNat = _
    rw [hrpos]; exact h
  | capacityExceeded => exact hrpos.trans h
  | malformedText | unrecognizedPieceCode | illegalCommand => exact h

/-- The command completed (60_exceptions.md R243), or it raised an error, kept RESULT and left what L names. -/
def Ends (L : State → Err → State → Prop) (s t : State) : Prop :=
  t.status = statusDone s.status ∨
    ∃ e, t.status = statusRaised e ∧ t.result = s.result ∧ L s e t

theorem finish_ends {L : State → Err → State → Prop} {spoil : ErrKind → State → State} {c : Cmd Unit}
    {s t : State} (hsp : SparesReader spoil) (hc : c.Reports)
    (hL : ∀ e u, c s = .raised e u → L s e ((spoil e.kind u).takeError e))
    (h : finish spoil c s = .next t) : Ends L s t := by
  have hreport := hc s
  rcases finish_next_cases h with ⟨u, hu, rfl⟩ | ⟨e, u, hu, rfl⟩ <;> rw [hu] at hreport
  · exact .inl (congrArg statusDone hreport)
  · refine .inr ⟨e, rfl, ?_, hL e u hu⟩
    rw [State.takeError_result, hsp.frame]
    exact hreport

theorem writer_ends {c : Cmd Unit} {s t : State} (hc : c.Reports)
    (hL : ∀ e u, c s = .raised e u → WriterLeaves s e u) (h : finish spoilWriter c s = .next t) :
    Ends WriterLeaves s t :=
  finish_ends sparesReader_writer hc (fun e u hu => (hL e u hu).spoiled) h

theorem reader_ends {spoil : ErrKind → State → State} (hsp : SparesReader spoil) {c : Cmd Unit}
    {s t : State} (hc : c.Reports) (hL : ∀ e u, c s = .raised e u → ReaderLeaves s e u)
    (h : finish spoil c s = .next t) : Ends ReaderLeaves s t :=
  finish_ends hsp hc (fun e u hu => (hL e u hu).spoiled hsp) h

/-- A command that only writes bits. -/
theorem puts_ends {c : Cmd Unit} {s t : State} (hc : c.Keeps writerOnly) (hf : c.Fails OutFull)
    (h : finish spoilWriter c s = .next t) : Ends WriterLeaves s t :=
  writer_ends (hc.mono fun _ _ h => h.sameReport).reports
    (fun _ _ hu => (hf _ _ _ hu).writerLeaves) h

/-- A check, then bits. -/
theorem check_ends {m : Cmd α} {f : α → Cmd Unit} {s t : State} (hl : Looks m)
    (hm : m.Fails CheckFailed) (hk : ∀ a, (f a).Keeps writerOnly) (hf : ∀ a, (f a).Fails OutFull)
    (h : finish spoilWriter (m.bind f) s = .next t) : Ends WriterLeaves s t :=
  writer_ends (reports_look hl fun a => ((hk a).mono fun _ _ h => h.sameReport).reports)
    (fun _ _ => check_leaves hl hm fun a hu => (hf a _ _ _ hu).writerLeaves) h

/-- An operand checked again, then bits. -/
theorem operand_ends {p : Prop} [Decidable p] {c : Cmd Unit} {s t : State} (hk : c.Keeps writerOnly)
    (hf : c.Fails OutFull)
    (h : finish spoilWriter (if p then c else .raise .invalidOperand .prim 0) s = .next t) :
    Ends WriterLeaves s t :=
  writer_ends
    (reports_ite (hk.mono fun _ _ h => h.sameReport).reports
      (Cmd.keeps_raise sameReport.refl .invalidOperand .prim 0).reports)
    (fun _ _ => operand_leaves hf) h

/-- A command whose only error is a stream cut short. -/
theorem takes_ends {spoil : ErrKind → State → State} (hsp : SparesReader spoil) {c : Cmd Unit}
    {s t : State} (hc : c.Reports) (hf : c.Fails CutShort) (h : finish spoil c s = .next t) :
    Ends ReaderLeaves s t :=
  reader_ends hsp hc (fun _ _ hu => (hf _ _ _ hu).readerLeaves) h

theorem item_ends {n : Nat} {sec : Sec} {m : Nat} {v : BitVec m} {s t : State}
    (h : finish spoilNothing (takeItem n sec (setResult v)) s = .next t) : Ends ReaderLeaves s t :=
  takes_ends sparesReader_nothing (reports_takeItem n sec (reports_setResult v))
    (takeItem_fails n sec (fails_modify _)) h

/-! ## Every instruction -/

/-- What an error of the instruction leaves: the writer and encode commands, and everything else. -/
def Instr.Leaves : Instr → State → Err → State → Prop
  | .wInit | .wBit _ | .wLe7 _ | .wCode _ | .wFlush | .turnEnc | .sqEnc _ | .hrecEnc _ | .boardEnc
  | .handEnc | .pack => WriterLeaves
  | _ => ReaderLeaves

theorem exec_ends {i : Instr} {s t : State} (hreset : i ≠ .reset) (hclrerr : i ≠ .clrerr)
    (h : exec i s = .next t) : Ends (Instr.Leaves i) s t := by
  cases i with
  | reset => exact absurd rfl hreset
  | clrerr => exact absurd rfl hclrerr
  | wInit => cases h; exact .inl rfl
  | wBit b => exact puts_ends (keeps_putBit b .prim) (putBit_fails b .prim) h
  | wLe7 v => exact puts_ends (keeps_putBits _ .prim) (putBits_fails _ .prim) h
  | wCode k => exact puts_ends (keeps_putCode _ .prim) (putCode_fails _ .prim) h
  | wFlush => exact puts_ends (keeps_flush .prim) (flush_fails .prim) h
  | turnEnc =>
    exact check_ends looks_checkTurn checkTurn_fails (fun _ => keeps_encTurn) (fun _ => encTurn_fails) h
  | sqEnc w => exact operand_ends (keeps_encSquare w .board) (encSquare_fails w .board) h
  | hrecEnc w => exact operand_ends (keeps_encHandRec w .hand) (encHandRec_fails w .hand) h
  | boardEnc =>
    exact check_ends looks_validateBoard validateBoard_fails (fun _ => keeps_encBoard _ _)
      (fun _ => encBoard_fails _ _) h
  | handEnc =>
    exact check_ends looks_checkHand checkHand_fails (fun _ => keeps_encHand _)
      (fun _ => encHand_fails _) h
  | pack => exact writer_ends reports_packPosition (fun _ _ => packPosition_leaves) h
  | rLoad =>
    exact reader_ends sparesReader_nothing keepsReport_loadReader.reports
      (fun _ _ => loadReader_leaves) h
  | rExh =>
    exact takes_ends sparesReader_nothing (reports_get State.exhausted fun _ => reports_setResult _)
      (fails_bind (fails_get _) fun _ => fails_modify _) h
  | rBit =>
    exact takes_ends sparesReader_nothing
      (reports_get _ fun off => reports_returning (keeps_getBit .prim off) _)
      (fails_bind (fails_get _) fun _ => fails_bind (getBit_fails _ _) fun _ => fails_modify _) h
  | rLe7 =>
    exact takes_ends sparesReader_nothing (reports_returning (keeps_getLE7 .prim) _)
      (fails_bind (getLE7_fails _) fun _ => fails_modify _) h
  | rCode =>
    exact takes_ends sparesReader_nothing
      (reports_get _ fun off => reports_returning (keeps_decodeKindFrom .prim off 5 0 0) _)
      (fails_bind (fails_get _) fun off => fails_bind (decodeKindFrom_fails .prim off 5 0 0) fun _ =>
        fails_modify _) h
  | turnDec =>
    exact takes_ends sparesReader_turn (keeps_decTurn.mono fun _ _ h => h.sameReport).reports
      decTurn_fails h
  | sqDec =>
    exact takes_ends sparesReader_nothing (reports_returning (keeps_decSquare .board) _)
      (fails_bind (decSquare_fails _) fun _ => fails_modify _) h
  | hrecDec =>
    exact takes_ends sparesReader_nothing
      (reports_get State.exhausted fun _ => reports_ite (reports_setResult _)
        (reports_returning (keeps_decHandRec .hand) _))
      (fails_bind (fails_get _) fun _ => fails_ite (fails_modify _) <|
        fails_bind (decHandRec_fails _) fun _ => fails_modify _) h
  | boardDec =>
    exact reader_ends sparesReader_board (keeps_decBoard.mono fun _ _ h => h.sameReport).reports
      (fun _ _ => decBoard_leaves State.Inv.rInv) h
  | handDec =>
    exact reader_ends sparesReader_hand (keeps_decHand.mono fun _ _ h => h.sameReport).reports
      (fun _ _ hu => (decHand_fails _ _ _ hu).readerLeaves) h
  | unpack =>
    exact reader_ends sparesReader_position
      (reports_bind keepsReport_loadReader fun _ => reports_readPosition) (fun _ _ => unpack_leaves) h
  | recTurn c =>
    exact takes_ends sparesReader_turn
      (reports_takeItem 1 .turn
        ((keeps_memWrite_pos (A := fun a => a = 81) turnAddr _ rfl).mono
          fun _ _ h => h.sameReport).reports)
      (takeItem_fails 1 .turn (fails_memWrite _ _ _)) h
  | codePawn | codeLance | codeKnight | codeSilver | codeGold | codeBishop | codeRook | recKing _
  | recSqEmpty | recSqPiece _ _ _ | recSqGold _ | recHand _ _ _ | recHandGold _ => exact item_ends h

/-- The two families are all there is. -/
theorem Instr.Leaves.either {i : Instr} {s t : State} {e : Err} (h : Instr.Leaves i s e t) :
    WriterLeaves s e t ∨ ReaderLeaves s e t := by
  cases i with
  | wInit | wBit _ | wLe7 _ | wCode _ | wFlush | turnEnc | sqEnc _ | hrecEnc _ | boardEnc | handEnc
  | pack => exact .inl h
  | _ => exact .inr h

/-- The codes number the kinds from 1 in the order they are listed (60_exceptions.md R240). -/
theorem ErrKind.code_injective : Function.Injective ErrKind.code :=
  Function.LeftInverse.injective (g := fun c => ErrKind.ofNat (c.toNat - 1)) fun k => by
    cases k <;> rfl

/-- A STATUS that names an error was written by it. -/
theorem Ends.raised {L : State → Err → State → Prop} {s t : State} (h : Ends L s t) {k : ErrKind}
    (hk : statusErr t.status = k.code) : ∃ c, L s ⟨k, c, statusOff t.status⟩ t := by
  rcases h with hdone | ⟨⟨k', c, o⟩, hraised, -, hL⟩
  · rw [hdone, statusDone, statusErr_word] at hk
    cases k <;> cases hk
  · rw [hraised, statusRaised, statusErr_word] at hk
    obtain rfl : k' = k := ErrKind.code_injective hk
    exact ⟨c, by rwa [hraised, statusRaised, statusOff_word]⟩

theorem Instr.Leaves.kind {i : Instr} {s t : State} {e : Err} (h : Instr.Leaves i s e t) :
    3 ≤ e.kind.code.toNat ∧ e.kind ≠ .illegalCommand := by
  obtain ⟨k, c, o⟩ := e
  cases k with
  | malformedText | unrecognizedPieceCode | illegalCommand => exact (h.either.elim id id).elim
  | unexpectedEndOfStream | invalidKingConfiguration | invalidOperand | capacityExceeded =>
    exact ⟨Nat.le_of_ble_eq_true rfl, nofun⟩

/-- Settles O51: RESET and CLRERR write STATUS themselves; `exec_ends` says how every other instruction
ends. -/
theorem statusAtCompletion : Obligations.StatusAtCompletion := by
  intro s t i h
  refine ⟨fun hi => ?_, fun hreset hclrerr => ?_⟩
  · rcases hi with rfl | rfl <;> cases h <;> rfl
  · rcases exec_ends hreset hclrerr h with hdone | ⟨e, hraised, hresult, hleaves⟩
    · exact .inl hdone
    · exact .inr ⟨hresult, e, hraised, hleaves.kind⟩

/-- Settles O52: both families leave only STATUS changed after InvalidOperand, the writer's also after
InvalidKingConfiguration. -/
theorem checkErrorsChangeNothing : Obligations.CheckErrorsChangeNothing := by
  intro s t i hreset hclrerr h
  have hends := exec_ends hreset hclrerr h
  refine ⟨fun herr => ?_, fun herr hi => ?_⟩
  · obtain ⟨c, hleaves⟩ := hends.raised (k := .invalidOperand) herr
    exact hleaves.either.elim id id
  · obtain ⟨c, hleaves⟩ := hends.raised (k := .invalidKingConfiguration) herr
    rcases hi with rfl | rfl <;> exact hleaves

/-- Settles O53: the cursor after each error of the reader, as `ReaderLeaves` names it. -/
theorem decodeErrorsLeaveTheCursor : Obligations.DecodeErrorsLeaveTheCursor := by
  intro s t i hs hreset hclrerr h
  have hends := exec_ends hreset hclrerr h
  refine ⟨fun herr => ?_, fun herr hi => ?_, fun herr hi => ?_⟩
  · obtain ⟨c, hleaves⟩ := hends.raised (k := .unexpectedEndOfStream) herr
    exact hleaves.either.elim False.elim id
  · obtain ⟨c, hleaves⟩ := hends.raised (k := .invalidKingConfiguration) herr
    rcases hi with rfl | rfl <;> exact hleaves hs
  · obtain ⟨c, hleaves⟩ := hends.raised (k := .capacityExceeded) herr
    rcases hi with rfl | rfl <;> exact hleaves

end Sys2Proof.Machine
end

section
/-! PROOFS. Reset and idleness (O15, O17; 70_reset_and_hazards.md R270, R271). -/

namespace Sys2Proof.Machine

/-- After a hardware reset no cell of any space is written (10_state.md R38); LUT is a constant of the model
and has no cells of its own. -/
theorem State.cell_hardReset (s : State) (sp : Space) (a : Nat) : s.hardReset.cell sp a = none := by
  have hcells : s.hardReset.cells sp = [] := by cases sp <;> rfl
  rw [State.cell, hcells, Memory.read_nil]

/-- With no host access to come the block is idle (70_reset_and_hazards.md R271). -/
theorem step_idle {s : State} (h : s.script = []) : step s = .next s := by
  unfold step runScript; rw [h]

/-- The host's hardware reset as the next event (70_reset_and_hazards.md R270). -/
theorem step_hardReset {s : State} {rest : List HostEvent} (h : s.script = .hardReset :: rest) :
    step s = .next (State.hardReset { s with script := rest }) := step_event h

/-- A reset reader has no bits left: RPOS and RLEN are both 0 (10_state.md R36). -/
theorem State.exhausted_resetWith (p : Params) : (State.resetWith p).exhausted = true :=
  (State.exhausted_iff _).2 rfl

/-- The reset writer has emitted no bit (10_state.md R23). -/
theorem Writer.wbits_reset : Writer.reset.wbits = 0 := rfl

/-- Settles O15: the step is the host's reset, whose memories `State.cell_hardReset` reads; RESET is its
arm of exec. -/
theorem resetValues : Obligations.ResetValues :=
  ⟨fun s rest h => ⟨State.hardReset { s with script := rest }, step_hardReset h, rfl, rfl, rfl, rfl, rfl,
    rfl, rfl, State.cell_hardReset _, rfl⟩, fun _ => rfl⟩

/-- Settles O17: the reader and the writer of the reset state, and the step without a host event. -/
theorem idleAfterReset : Obligations.IdleAfterReset :=
  ⟨fun p => ⟨State.exhausted_resetWith p, ⟨Writer.reset, rfl, Writer.wbits_reset⟩, rfl⟩,
    fun _ => step_idle⟩

end Sys2Proof.Machine
end
